-- ==== Sys2Proof/Word.lean ====
section
/-!
DEFINITION. The widths of the part: words, addresses, pages, times and the names of axes, lines,
join points and report slots (00_scope "The part at a glance", R1).
-/
namespace Sys2Proof

/-- A word of the exchange RAM or of a register: 16 bits (R1, R166). -/
abbrev Word := BitVec 16

/-- A word index of the exchange RAM, 0 to 32,767 (R1). -/
abbrev Addr := BitVec 15

/-- A page number, 0 to 127 (R1). -/
abbrev Page := BitVec 7

/-- A tick count of the timebase (R22). -/
abbrev Time := BitVec 48

/-- An axis position, read as a signed number (R68). -/
abbrev Pos := BitVec 32

/-- A set of axes, bit a for axis a (12.1). -/
abbrev AxisMask := BitVec 8

/-- The bits of ACAUSE and AMASK (R170, R172). -/
abbrev CauseBits := BitVec 10

/-- An axis, A0 to A7. -/
abbrev Axis := Fin 8

/-- An input line, IN0 to IN15. -/
abbrev Line := Fin 16

/-- A join point, J0 to J15. -/
abbrev Point := Fin 16

/-- A slot of the report pool. -/
abbrev Slot := Fin 8

/-- The interjection level of a context, 0 to 3 (R101). -/
abbrev Level := Fin 4

end Sys2Proof
end

