-- ==== Sys2Proof/Syntax.lean ====
section
/-!
DEFINITION. The commands of the part: one constructor for each row of spec/opcode_table.json. The
table gives no operands; those below are what the row's rule reads.
-/
namespace Sys2Proof

/-- The two causes of a hard reset (R33): RESET_N held low, or power-on, after which both outputs
start at 0 (R34). -/
inductive ResetKind where
  | pin
  | powerOn
deriving DecidableEq, Repr

/-- The registers of the register window (R166). -/
inductive Reg where
  | id
  | cmd
  | stat
  | acause
  | amask
  | time0
  | time1
  | time2
deriving DecidableEq, Repr

/-- A command: a host access, an event on a pin, or a timed event of a block. In the axis commands
`arg` is bits 15:4 of the command word written: tag in its bits 11:4, two ignored bits, level in its
bits 1:0 (R79). -/
inductive Instr where
  /-- HARD_RESET (R33). -/
  | hardReset (kind : ResetKind)
  /-- ZERO_FILL_END (R19). -/
  | zeroFillEnd
  /-- SOFT_RESET: code 3 written to CMD (R32). -/
  | softReset
  /-- SOFT_RESET_SCAN_END (R20). -/
  | softResetScanEnd
  /-- RUN_START: code 1 written to CMD, whatever bits 15:4 of the value, as for all five codes (R25);
  `raw` is the raw level of each line at that moment (R29 item 6). -/
  | runStart (raw : BitVec 16)
  /-- RUN_STOP: code 2 written to CMD (R30). -/
  | runStop
  /-- FLUSH: code 4 written to CMD (R163). -/
  | flush
  /-- SNAP: code 5 written to CMD (R35). -/
  | snap
  /-- CMD_NONE_CODE: a value with code 0 or 6 to 15 written to CMD (R25). -/
  | cmdNoneCode (value : Word)
  /-- ACAUSE_WRITE (R171). -/
  | acauseWrite (value : Word)
  /-- AMASK_WRITE (R172). -/
  | amaskWrite (value : Word)
  /-- TIME0_READ (R173). -/
  | time0Read
  /-- REGISTER_WRITE_IGNORED: a write to the register at an offset, the level of address lines A3 to A1
  (R166). -/
  | registerWriteIgnored (offset : BitVec 3) (value : Word)
  /-- HOST_RAM_WRITE (R16). -/
  | hostRamWrite (addr : Addr) (value : Word)
  /-- NONE: code 0 in the command word of an axis (R79). -/
  | axisNone (a : Axis) (arg : BitVec 12)
  /-- START: code 1 (R82). -/
  | start (a : Axis) (arg : BitVec 12)
  /-- PAUSE: code 2 (R83, R84). -/
  | pause (a : Axis) (arg : BitVec 12)
  /-- RESUME: code 3 (R86, R87). -/
  | resume (a : Axis) (arg : BitVec 12)
  /-- ABORT: code 4 (R88). -/
  | abort (a : Axis) (arg : BitVec 12)
  /-- CLEAR: code 5 (R89). -/
  | clear (a : Axis) (arg : BitVec 12)
  /-- INTERJECT: code 6 (R90). -/
  | interject (a : Axis) (arg : BitVec 12)
  /-- WITHDRAW: code 7 (R91). -/
  | withdraw (a : Axis) (arg : BitVec 12)
  /-- SETPOS: code 8 (R92). -/
  | setpos (a : Axis) (arg : BitVec 12)
  /-- UNKNOWN_COMMAND: a code of 9 to 15 (R80). -/
  | unknownCommand (a : Axis) (code : BitVec 4) (arg : BitVec 12)
  /-- REARM: a value written to the control word of a join point (R131). -/
  | rearm (j : Point) (value : Word)
  /-- SLOT_STATE_WRITE: a value written to the state word of a slot (R151). -/
  | slotStateWrite (k : Slot) (value : Word)
  /-- LINK_WORD_EVENT: a value written to the link word of a page (R55). -/
  | linkWordEvent (p : Page) (value : Word)
  /-- STATE_WORD_EVENT: a value written to the state word of a page (R56). -/
  | stateWordEvent (p : Page) (value : Word)
  /-- STEP_BOUNDARY: the end of a step's length (R70). -/
  | stepBoundary (a : Axis)
  /-- LEAD_GAP_END (R67). -/
  | leadGapEnd (a : Axis)
  /-- STEP_START (R61). -/
  | stepStart (a : Axis)
  /-- PULSE_END (R63). -/
  | pulseEnd (a : Axis)
  /-- DWELL_EXPIRY (R74). -/
  | dwellExpiry (a : Axis)
  /-- WAIT_INPUT_TIMEOUT (R144). -/
  | waitInputTimeout (a : Axis)
  /-- JOIN_TIMEOUT (R126). -/
  | joinTimeout (j : Point)
  /-- AGING_EXPIRY (R162). -/
  | agingExpiry
  /-- QUALIFIED_CHANGE (R135). -/
  | qualifiedChange (n : Line)
  /-- TICK_BOUNDARY; `raw` is the raw level of each line sampled at it (R22, R134). -/
  | tickBoundary (raw : BitVec 16)
  /-- RESET_N_RELEASE (R33). -/
  | resetNRelease
deriving DecidableEq, Repr

end Sys2Proof
end

