-- ==== Sys2Proof/Decode.lean ====
section
/-!
DEFINITION. Reading a command from bits. No row of spec/opcode_table.json gives bits: a command
reaches the part as a host access, a pin event or a timed event, never as an encoded word.
-/
namespace Sys2Proof

/-- The command that a word spells by the bits of the opcode table: none, since the table gives
none of its rows any bits. -/
def decodeTableWord (nbits w : Nat) : Option Instr :=
  let _ := nbits
  let _ := w
  none

end Sys2Proof
end

