-- ==== Sys2Proof/Config.lean ====
section
/-!
DEFINITION. What the spec leaves open and the model must not fix: the order in which events of
different blocks are taken inside one tick.
-/
namespace Sys2Proof

/-- The free order. Where several events of one tick may be taken in either order (R48, R123,
R129, R136, R148), the machine takes candidate number `freeOrder k % n` of its `n` candidates and
advances the counter `k` (State.freeCount). It has no body, so a proof about the machine holds for
every order (log 6). -/
opaque Config.freeOrder : Nat → Nat

end Sys2Proof
end

