-- ==== Sys2Proof/Machine/State.lean ====
section
/-!
DEFINITION. The state of the part as plain data: every register, buffer, counter, mode and pin the
spec names, the queue of waiting commands, and the state right after reset.
-/
namespace Sys2Proof.Machine

/-! ### Outcomes that are not a next state -/

/-- No command of this part stops the machine: every error the spec describes is a state (an axis
HALTED, a slot BAD, a command refused, a cause bit). So there is no constructor. -/
inductive Fault where
deriving DecidableEq, Repr

/-- Why a command has no meaning. -/
inductive Refusal where
  /-- An arm of exec not written yet; no arm uses it. Safe. -/
  | notModelled (mnemonic : String)
deriving DecidableEq, Repr

/-! ### Device and setup -/

/-- The phases of INIT: RESET_N held low (R33), the zero fill (R19), the soft-reset scan with the
timebase value kept for its spend times (R20, R32). -/
inductive InitPhase where
  | held
  | zeroFill
  | scan (kept : Time)
deriving DecidableEq, Repr

/-- Device states (R23). -/
inductive DevState where
  | init (phase : InitPhase)
  | stopped
  | running
  | stopping
deriving DecidableEq, Repr

/-- Results shown in the CMD read-back (R168). -/
inductive CmdResult where
  | taken
  | refused
deriving DecidableEq, Repr

/-- Setup fault codes (R27). -/
inductive SetupFault where
  | ok
  | noAxes
  | axisLimits
  | joinMembers
  | inputAxes
  | inputHead
deriving DecidableEq, Repr

/-- Edge sense of a line (R133). -/
inductive EdgeSense where
  | off
  | rising
  | falling
  | both
deriving DecidableEq, Repr

/-- Action of a line (R133). -/
inductive LineAction where
  | off
  | halt
  | pause
  | interject
deriving DecidableEq, Repr

/-- The soft limits of one axis in the running setup (R26, R69). -/
structure AxisLimits where
  enabled : Bool
  min : Pos
  max : Pos
deriving DecidableEq, Repr

/-- The members and the timeout of a join point in the running setup (R120). -/
structure PointSetup where
  members : AxisMask
  timeout : Word
deriving DecidableEq, Repr

/-- The copied setup of an input line (R133). -/
structure LineSetup where
  filter : BitVec 4
  edge : EdgeSense
  action : LineAction
  actionMask : AxisMask
  capture : Bool
  captureMask : AxisMask
  head : Word
deriving DecidableEq, Repr

/-- The running setup: the copy taken by the last RUN_START that passed validation (R26). -/
structure Setup where
  tickdiv : BitVec 8
  dirlead : BitVec 8
  enabled : AxisMask
  reportAge : Word
  recordMask : AxisMask
  limits : Vector AxisLimits 8
  points : Vector PointSetup 16
  lines : Vector LineSetup 16
deriving DecidableEq, Repr

/-! ### Contexts -/

/-- A segment record as read: eight words (R37). -/
structure SegRecord where
  w0 : Word
  w1 : Word
  w2 : Word
  w3 : Word
  w4 : Word
  w5 : Word
  w6 : Word
  w7 : Word
deriving DecidableEq, Repr

/-- The running copy of a segment that takes time (R59, R74, R102, R143). The running copy of a NOTE
or an END is never kept, since both take no time. -/
inductive Running where
  /-- Steps not yet started, interval V, change D, width W, direction (true = forward). -/
  | run (remaining v : Nat) (d : Int) (width : Nat) (forward report : Bool) (tag : Word)
  /-- Remaining ticks. -/
  | dwell (ticks : Nat) (report : Bool) (tag : Word)
  /-- The released flag is set when `released` holds the generation of the release (R123). -/
  | join (point : Point) (released : Option Word) (broken report : Bool) (tag : Word)
  /-- Line, awaited level, remaining timeout (none = no timeout), TIMEOUT_HALT. -/
  | waitInput (line : Line) (level : Bool) (timeout : Option Nat) (timeoutHalt report : Bool)
      (tag : Word)
deriving DecidableEq, Repr

/-- The wait of a starved context and the page it waits on (R53). -/
inductive Wait where
  | link (q : Page)
  | state (p : Page)
deriving DecidableEq, Repr

/-- What a context is doing in its chain (R36). -/
inductive Phase where
  | atBegin
  | inSegment (copy : Running)
  | starved (wait : Wait)
deriving DecidableEq, Repr

/-- A context of an axis (R36, R102). `index` equals `count` once the page is finished. -/
structure Context where
  level : Level
  idleBase : Bool
  page : Option Page
  count : Nat
  index : Nat
  residue : Nat
  following : Option SegRecord
  phase : Phase
deriving DecidableEq, Repr

/-- Where an interjection request came from (R104). -/
inductive Source where
  | command
  | trip (line : Line)
deriving DecidableEq, Repr

/-- A pending interjection request (R104). -/
structure Request where
  head : Word
  source : Source
deriving DecidableEq, Repr

/-- The pending set: one slot for each of the levels 1, 2 and 3 (R104). -/
structure PendingSet where
  one : Option Request
  two : Option Request
  three : Option Request
deriving DecidableEq, Repr

/-! ### Axis engines -/

/-- Axis states (R76). -/
inductive AxisState where
  | off
  | idle
  | running
  | dwelling
  | waitJoin
  | waitInput
  | starved
  | pausing
  | paused
  | reportWait
  | halted
deriving DecidableEq, Repr

/-- Halt causes (R94). -/
inductive HaltCause where
  | aborted
  | softLimit
  | badSegment
  | badLink
  | trip
  | tripOverrun
  | joinBroken
  | waitTimeout
  | runStopped
deriving DecidableEq, Repr

/-- The STEP output: high until a tick (the first low tick), or low since a tick; `low none` when no
pulse has been made since power-on (R63, R67). Ticks are counted as in State.now. -/
inductive StepOut where
  | high (until_ : Nat)
  | low (since : Option Nat)
deriving DecidableEq, Repr

/-- A change of DIR to 0 that waits for STEP to go low: ordered by a reset (R34) or by RUN_START
(R73). -/
inductive DirZero where
  | notWaiting
  | byReset
  | byRunStart
deriving DecidableEq, Repr

/-- The step gate (R65 to R67, R70): nothing due; a step in flight until a tick; a due step whose
DIR change waits for STEP to go low; a lead gap until a tick; a due step that waits for DIRLEAD and
for quiet time. -/
inductive Gate where
  | idle
  | inFlight (ends : Nat)
  | dirWait
  | leadGap (ends : Nat)
  | startWait
deriving DecidableEq, Repr

/-- One axis engine (R76). `stack` has its top first. `shownPage`, `shownIndex` and `shownRemaining`
are what the status block shows while no context runs (R98, R75). `beganCount` is the full count of
the RUN that has begun in this tick (R75, log 30). `copy` is the part's own copy of the words +18 to
+31 (R4). `dirty` says that a rewrite of the status block is owed at the end of this tick (R99,
log 8). -/
structure AxisEngine where
  state : AxisState
  ctx : Option Context
  stack : List Context
  requests : PendingSet
  position : Pos
  step : StepOut
  dir : Bool
  dirChange : Option Nat
  dirZero : DirZero
  gate : Gate
  haltCause : Option HaltCause
  haltDetail : BitVec 8
  haltLevel : Level
  shownPage : Word
  shownIndex : Nat
  shownRemaining : Nat
  beganCount : Option Nat
  copy : List Word
  updateCount : Word
  dirty : Bool
deriving DecidableEq, Repr

/-! ### Join points, lines, records, report unit -/

/-- Why a join point broke (R120). -/
inductive BreakCause where
  | timeout
  | memberHalted
deriving DecidableEq, Repr

/-- State of a join point; the break cause is none while OPEN (R120). -/
inductive JoinState where
  | opened
  | broken (cause : BreakCause)
deriving DecidableEq, Repr

/-- A join point (R120). Members and timeout stand in the running setup. -/
structure JoinPoint where
  state : JoinState
  arrivals : AxisMask
  generation : Word
  deadline : Option Time
deriving DecidableEq, Repr

/-- An input line (R133). The setup of the line stands in the running setup; its waiting axes are
computed from the axis engines (log 19). -/
structure InputLine where
  qualified : Bool
  runCount : Nat
deriving DecidableEq, Repr

/-- A claimant of a page: a context, named by its axis and level (R8). -/
structure Claimant where
  axis : Axis
  level : Level
deriving DecidableEq, Repr

/-- Segment kinds (R37). -/
inductive SegKind where
  | run
  | dwell
  | join
  | waitInput
  | note
  | end_
deriving DecidableEq, Repr

/-- What a record carries after the common words, by kind (R147, 12.4). -/
inductive RecordBody where
  | done (a : Axis) (l : Level) (kind : SegKind) (page : Page) (index : Nat) (tag : Word) (pos : Pos)
      (generation : Option Word)
  | note (a : Axis) (l : Level) (page : Page) (index : Nat) (tag : Word) (pos : Pos) (value : Word)
  | halt (a : Axis) (l : Level) (cause : HaltCause) (detail : BitVec 8) (page : Page) (index : Nat)
      (pos : Pos)
  | starve (a : Axis) (l : Level) (page : Page) (pos : Pos)
  | timeout (a : Axis) (l : Level) (line : Line) (tag : Word) (page : Page) (index : Nat)
  | capture (line : Line) (rising : Bool) (mask : AxisMask) (positions : List Pos)
  | interjectIn (a : Axis) (l : Level) (head : Word) (source : Source)
  | interjectOut (a : Axis) (l : Level) (resumed : Level)
  | drops (count : Word)
deriving DecidableEq, Repr

/-- A record as it is made: its timestamp is the tick of its cause (R147). -/
structure Record where
  time : Time
  body : RecordBody
deriving DecidableEq, Repr

/-- A slot of the report pool (R150). `page` is the page the slot was taken with; a slot that the
host makes FULL has none. `records` and `used` describe the page being filled (R152, R153); its
write offset is 8 + `used`. -/
inductive SlotState where
  | unused
  | empty
  | filling (page : Page) (records used : Nat)
  | full (page : Option Page)
  | bad
deriving DecidableEq, Repr

/-- The report unit (R149 to R162). -/
structure ReportUnit where
  slots : Vector SlotState 8
  lastClosed : Slot
  seq : Word
  pagesClosed : Word
  queue : List Record
  owed : Vector (List Record) 8
  waitList : List Axis
  drops : Word
  deadline : Option Time
deriving DecidableEq, Repr

/-! ### Internal work of one command -/

/-- A piece of work that a command started and that is not done yet (log 9). `boundary` marks a
chain that a step boundary has to stop at its next begin point for an interjection (R108). -/
inductive Task where
  /-- The begin point of the running context of an axis (R42). -/
  | begin (a : Axis) (boundary : Bool)
  /-- Leave the finished page: read the link, release the page (R47 step 4). -/
  | leave (a : Axis) (boundary : Bool)
  /-- Try to enter the page named by a value (R45); `header` is the header state carried by an event
  on the page's state word (R56). -/
  | enter (a : Axis) (value : Word) (header : Option Word) (boundary : Bool)
  /-- Resume the activity of the running context (R87, R112). -/
  | resume (a : Axis)
  /-- The arrival of an axis has completed its meeting: its JOIN completes at once (R50, R122). -/
  | arrived (a : Axis)
  /-- The JOIN of the running context has been released and completes (R123). -/
  | joinDone (a : Axis)
  /-- A break of a join point reaches an axis (R127). -/
  | breakAt (a : Axis) (j : Point)
  /-- The last owed record of an axis has been placed (R158). -/
  | owingEnded (a : Axis)
  /-- "Level seen" of a line reaches a waiting axis (R135). -/
  | levelSeen (a : Axis) (n : Line)
  /-- A trip of a line reaches an axis (R138 to R140). -/
  | tripHalt (a : Axis) (n : Line)
  | tripPause (a : Axis) (n : Line)
  | tripInterject (a : Axis) (n : Line)
  /-- The CAPTURE record of an edge (R137). -/
  | capture (n : Line) (rising : Bool)
deriving DecidableEq, Repr

/-! ### The machine -/

/-- The whole part. `ram` lists the words that are not 0, by rising address; `claims` lists the
claimed pages, by rising page. `portData` is the word driven on D15 to D0 by the last read of TIME0.
`rawLevels` holds the levels on IN0 to IN15 at the last tick boundary (log 22). `snapsOwed` counts the
SNAP commands of this tick whose words are not written yet (R35, log 27). `now`, `freeCount` and
`agenda` are the model's own (log 14, log 6, log 9). -/
structure State where
  ram : List (Nat × Word)
  claims : List (Nat × Claimant)
  dev : DevState
  timebase : Time
  timeLatch : BitVec 32
  cmdBack : Option (BitVec 4 × CmdResult)
  faultCode : SetupFault
  faultIndex : BitVec 4
  acause : CauseBits
  amask : CauseBits
  portData : Word
  setup : Setup
  axes : Vector AxisEngine 8
  points : Vector JoinPoint 16
  lines : Vector InputLine 16
  report : ReportUnit
  rawLevels : BitVec 16
  snapCount : Word
  snapsOwed : Nat
  now : Nat
  freeCount : Nat
  agenda : List Task
  pending : List Instr
deriving DecidableEq, Repr

/-! ### Reset values -/

/-- Limits off (R33). -/
def AxisLimits.reset : AxisLimits := { enabled := false, min := 0, max := 0 }

/-- Not in use, no timeout (R33, R132). -/
def PointSetup.reset : PointSetup := { members := 0, timeout := 0 }

/-- Filter length 0, edge sense NONE, action NONE, capture off (R33, R146). -/
def LineSetup.reset : LineSetup :=
  { filter := 0, edge := .off, action := .off, actionMask := 0, capture := false, captureMask := 0
    head := 0 }

/-- The internal setup copy after a reset: all zero (R33). -/
def Setup.reset : Setup :=
  { tickdiv := 0, dirlead := 0, enabled := 0, reportAge := 0, recordMask := 0
    limits := #v[.reset, .reset, .reset, .reset, .reset, .reset, .reset, .reset]
    points := #v[.reset, .reset, .reset, .reset, .reset, .reset, .reset, .reset,
                 .reset, .reset, .reset, .reset, .reset, .reset, .reset, .reset]
    lines := #v[.reset, .reset, .reset, .reset, .reset, .reset, .reset, .reset,
                .reset, .reset, .reset, .reset, .reset, .reset, .reset, .reset] }

/-- No pending request (R104). -/
def PendingSet.empty : PendingSet := { one := none, two := none, three := none }

/-- An axis engine at power-on: OFF, position 0, outputs 0, nothing held (R33, R100, R119). -/
def AxisEngine.reset : AxisEngine :=
  { state := .off, ctx := none, stack := [], requests := .empty, position := 0
    step := .low none, dir := false, dirChange := none, dirZero := .notWaiting, gate := .idle
    haltCause := none, haltDetail := 0, haltLevel := 0
    shownPage := 0, shownIndex := 0, shownRemaining := 0, beganCount := none
    copy := [0, 0, 0, 0, 0, 0, 0, 0, 0, 0, 0, 0, 0, 0]
    updateCount := 0, dirty := false }

/-- OPEN, no arrivals, generation 0, no deadline (R33, R132). -/
def JoinPoint.reset : JoinPoint :=
  { state := .opened, arrivals := 0, generation := 0, deadline := none }

/-- Qualified level 0, run count 0 (R33, R146). -/
def InputLine.reset : InputLine := { qualified := false, runCount := 0 }

/-- The report unit after a hard reset (R33, R150, R165). -/
def ReportUnit.reset : ReportUnit :=
  { slots := #v[.unused, .unused, .unused, .unused, .unused, .unused, .unused, .unused]
    lastClosed := 7, seq := 0, pagesClosed := 0, queue := []
    owed := #v[[], [], [], [], [], [], [], []]
    waitList := [], drops := 0, deadline := none }

/-- The part at power-on, held at the start of INIT (R33, log 16). -/
def State.reset : State :=
  { ram := [], claims := [], dev := .init .held, timebase := 0, timeLatch := 0, cmdBack := none
    faultCode := .ok, faultIndex := 0, acause := 0, amask := 0, portData := 0, setup := .reset
    axes := #v[.reset, .reset, .reset, .reset, .reset, .reset, .reset, .reset]
    points := #v[.reset, .reset, .reset, .reset, .reset, .reset, .reset, .reset,
                 .reset, .reset, .reset, .reset, .reset, .reset, .reset, .reset]
    lines := #v[.reset, .reset, .reset, .reset, .reset, .reset, .reset, .reset,
                .reset, .reset, .reset, .reset, .reset, .reset, .reset, .reset]
    report := .reset, rawLevels := 0, snapCount := 0, snapsOwed := 0, now := 0, freeCount := 0
    agenda := [], pending := [] }

end Sys2Proof.Machine
end

