-- ==== Sys2Proof/Machine/Flags.lean ====
section
/-!
DEFINITION. The alert causes, ALERT_N and what the registers read (R166 to R173, 12.5).
-/
namespace Sys2Proof.Machine

/-- The ten alert causes (R170). -/
inductive AlertCause where
  | resetDone
  | setupBad
  | runStopped
  | pageClosed
  | roomExhausted
  | recordsDropped
  | slotFault
  | axisHalted
  | axisStarved
  | joinBroken
deriving DecidableEq, Repr

/-- The ACAUSE bit of a cause (R170). -/
def AlertCause.bit : AlertCause → CauseBits
  | .resetDone => 0x001
  | .setupBad => 0x002
  | .runStopped => 0x004
  | .pageClosed => 0x008
  | .roomExhausted => 0x010
  | .recordsDropped => 0x020
  | .slotFault => 0x040
  | .axisHalted => 0x080
  | .axisStarved => 0x100
  | .joinBroken => 0x200

/-- Set a cause bit; a bit already set stays set (R170). -/
def State.setCause (c : AlertCause) (s : State) : State := { s with acause := s.acause ||| c.bit }

/-- ALERT_N is asserted exactly while a set cause is also set in AMASK (R172). -/
def State.alertAsserted (s : State) : Bool := s.acause &&& s.amask != 0

/-- The level of the ALERT_N pin: low when asserted (R172). -/
def State.alertN (s : State) : Bool := !s.alertAsserted

/-- Device state codes of STAT (R169). -/
def DevState.code : DevState → BitVec 2
  | .init _ => 0
  | .stopped => 1
  | .running => 2
  | .stopping => 3

/-- Setup fault codes of STAT (R27). -/
def SetupFault.code : SetupFault → BitVec 3
  | .ok => 0
  | .noAxes => 1
  | .axisLimits => 2
  | .joinMembers => 3
  | .inputAxes => 4
  | .inputHead => 5

/-- Command results of the CMD read-back (R168). -/
def CmdResult.code : CmdResult → BitVec 2
  | .taken => 1
  | .refused => 2

/-- The CMD read-back: code in 3:0, result in 9:8, 0 when no command since the reset (12.5). -/
def State.cmdWord (s : State) : Word :=
  match s.cmdBack with
  | none => 0
  | some (code, result) => 0#6 ++ result.code ++ 0#4 ++ code

/-- STAT: device state in 1:0, fault code in 6:4, fault index in 11:8 (12.5). -/
def State.statWord (s : State) : Word :=
  0#4 ++ s.faultIndex ++ 0#1 ++ s.faultCode.code ++ 0#2 ++ s.dev.code

/-- What a host read of a register returns (R166 to R173). Only the read of TIME0 also changes the
part (execTime0Read). -/
def State.readRegister (s : State) : Reg → Word
  | .id => 0x8201
  | .cmd => s.cmdWord
  | .stat => s.statWord
  | .acause => s.acause.setWidth 16
  | .amask => s.amask.setWidth 16
  | .time0 => s.timebase.extractLsb' 0 16
  | .time1 => s.timeLatch.extractLsb' 0 16
  | .time2 => s.timeLatch.extractLsb' 16 16

/-- The device is in INIT (R23). -/
def State.inInit (s : State) : Bool :=
  match s.dev with
  | .init _ => true
  | .stopped => false
  | .running => false
  | .stopping => false

/-- Clear the causes written as 1 (R171). -/
def State.clearCauses (value : Word) (s : State) : State :=
  { s with acause := s.acause &&& ~~~(value.extractLsb' 0 10) }

end Sys2Proof.Machine
end

