-- ==== Sys2Proof/Machine/Operands.lean ====
section
/-!
DEFINITION. The fields of every word the host and the part exchange (12 Word layouts): codes,
command words, segment records, setup words, and the layout of report records. R178: only the bits
of a field are taken; R179: bits outside the fields are written 0.
-/
namespace Sys2Proof.Machine

/-! ### Lists and tables over axes, points and lines -/

/-- All axes. -/
def allAxes : List Axis := [0, 1, 2, 3, 4, 5, 6, 7]

/-- All numbers of join points and of input lines. -/
def allSixteen : List (Fin 16) := [0, 1, 2, 3, 4, 5, 6, 7, 8, 9, 10, 11, 12, 13, 14, 15]

/-- A table over the axes or the slots. -/
def table8 {α : Type} (f : Fin 8 → α) : Vector α 8 :=
  #v[f 0, f 1, f 2, f 3, f 4, f 5, f 6, f 7]

/-- A table over the join points or the lines. -/
def table16 {α : Type} (f : Fin 16 → α) : Vector α 16 :=
  #v[f 0, f 1, f 2, f 3, f 4, f 5, f 6, f 7, f 8, f 9, f 10, f 11, f 12, f 13, f 14, f 15]

/-- Axis `a` is named in a mask. -/
def inMask (m : AxisMask) (a : Axis) : Bool := m.getLsbD a.val

/-- The mask with bit `a` set. -/
def maskBit (a : Axis) : AxisMask := 1#8 <<< a.val

/-- The axes named in a mask, ascending. -/
def maskAxes (m : AxisMask) : List Axis := allAxes.filter (inMask m)

/-! ### Directory addresses (12.1) -/

/-- Word `off` of page `p` (R1). -/
def pageWord (p : Page) (off : BitVec 8) : Addr := p ++ off

/-- Word `off` of the axis block of axis `a`. -/
def axisWord (a : Axis) (off : Nat) : Addr := BitVec.ofNat 15 (0x0100 + 32 * a.val + off)

/-- Word `off` of the entry of join point `j`. -/
def joinWord (j : Point) (off : Nat) : Addr := BitVec.ofNat 15 (0x0080 + 8 * j.val + off)

/-- Word `off` of the entry of line `n`. -/
def lineWord (n : Line) (off : Nat) : Addr := BitVec.ofNat 15 (0x0200 + 8 * n.val + off)

/-- The page word of slot `k`. -/
def slotPageWord (k : Slot) : Addr := BitVec.ofNat 15 (0x0040 + 2 * k.val)

/-- The state word of slot `k`. -/
def slotStateWord (k : Slot) : Addr := BitVec.ofNat 15 (0x0041 + 2 * k.val)

/-- Word 8 + 8i of a page: the first word of segment record i (R6). -/
def recordOffset (i : Nat) : BitVec 8 := BitVec.ofNat 8 (8 + 8 * i)

/-- Which block owns a fixed watched word (R12). -/
inductive Owner where
  | axisCommand (a : Axis)
  | joinControl (j : Point)
  | slotState (k : Slot)
  | unwatched
deriving DecidableEq, Repr

/-- The owner of a word (R12). -/
def watchOwner (addr : Addr) : Owner :=
  let n := addr.toNat
  if 0x0100 ≤ n ∧ n < 0x0200 ∧ n % 32 = 0 then .axisCommand (Fin.ofNat 8 ((n - 0x0100) / 32))
  else if 0x0080 ≤ n ∧ n < 0x0100 ∧ n % 8 = 2 then .joinControl (Fin.ofNat 16 ((n - 0x0080) / 8))
  else if 0x0040 ≤ n ∧ n < 0x0050 ∧ n % 2 = 1 then .slotState (Fin.ofNat 8 ((n - 0x0040) / 2))
  else .unwatched

/-! ### Multi-word values, low word first (00_scope "Multi-word values") -/

/-- Bits 15:0 of a 32-bit value. -/
def lowWord (v : BitVec 32) : Word := v.extractLsb' 0 16

/-- Bits 31:16 of a 32-bit value. -/
def highWord (v : BitVec 32) : Word := v.extractLsb' 16 16

/-- The three words of a time, low, mid, high. -/
def timeWords (t : Time) : List Word :=
  [t.extractLsb' 0 16, t.extractLsb' 16 16, t.extractLsb' 32 16]

/-! ### Command words (R79) -/

/-- The command word with a code in bits 3:0 and the given bits 15:4. -/
def commandWord (code : BitVec 4) (arg : BitVec 12) : Word := arg ++ code

/-- Command code, bits 3:0. -/
def commandCode (v : Word) : BitVec 4 := v.extractLsb' 0 4

/-- Interjection level, bits 5:4. -/
def commandLevel (v : Word) : Level := Fin.ofNat 4 (v.extractLsb' 4 2).toNat

/-- Tag, bits 15:8. -/
def commandTag (v : Word) : BitVec 8 := v.extractLsb' 8 8

/-- A page number of a general page, 3 to 127, in a 16-bit word (R45 test 1, R82, R90, R152). -/
def generalPage? (v : Word) : Option Page :=
  if 3 ≤ v.toNat ∧ v.toNat ≤ 127 then some (v.extractLsb' 0 7) else none

/-- The halt detail of a page or link value: the value, or 0xFF above 0xFF (R45). -/
def linkDetail (v : Word) : BitVec 8 := if v.toNat ≤ 0xFF then v.extractLsb' 0 8 else 0xFF

/-! ### Segment records (12.3) -/

/-- Kind field, bits 3:0 of word 0. -/
def SegRecord.kindCode (r : SegRecord) : BitVec 4 := r.w0.extractLsb' 0 4

/-- The kind, none for the invalid codes 0 and 7 to 15 (R37). -/
def SegRecord.kind (r : SegRecord) : Option SegKind :=
  match r.kindCode.toNat with
  | 1 => some .run
  | 2 => some .dwell
  | 3 => some .join
  | 4 => some .waitInput
  | 5 => some .note
  | 6 => some .end_
  | _ => none

/-- REPORT flag. -/
def SegRecord.report (r : SegRecord) : Bool := r.w0.getLsbD 4

/-- DIR flag, forward when 1. -/
def SegRecord.forward (r : SegRecord) : Bool := r.w0.getLsbD 5

/-- TIMEOUT_HALT flag. -/
def SegRecord.timeoutHalt (r : SegRecord) : Bool := r.w0.getLsbD 6

/-- Step count of a RUN, 24 bits. -/
def SegRecord.stepCount (r : SegRecord) : Nat := (r.w2.extractLsb' 0 8 ++ r.w1).toNat

/-- Interval V of a RUN, 24 bits. -/
def SegRecord.interval (r : SegRecord) : Nat := (r.w4.extractLsb' 0 8 ++ r.w3).toNat

/-- Change D of a RUN, signed. -/
def SegRecord.change (r : SegRecord) : Int := r.w5.toInt

/-- Pulse width W of a RUN. -/
def SegRecord.width (r : SegRecord) : Nat := r.w6.toNat

/-- Duration of a DWELL, 32 bits. -/
def SegRecord.duration (r : SegRecord) : Nat := (r.w2 ++ r.w1).toNat

/-- Join point of a JOIN, none above 15. -/
def SegRecord.joinPoint (r : SegRecord) : Option Point :=
  if h : r.w1.toNat < 16 then some ⟨r.w1.toNat, h⟩ else none

/-- Line of a WAIT_INPUT. -/
def SegRecord.line (r : SegRecord) : Line := Fin.ofNat 16 (r.w1.extractLsb' 0 4).toNat

/-- Awaited level of a WAIT_INPUT. -/
def SegRecord.awaited (r : SegRecord) : Bool := r.w1.getLsbD 8

/-- Timeout of a WAIT_INPUT; 0 is none (R143). -/
def SegRecord.timeout (r : SegRecord) : Option Nat :=
  if (r.w3 ++ r.w2).toNat = 0 then none else some (r.w3 ++ r.w2).toNat

/-- Value of a NOTE. -/
def SegRecord.value (r : SegRecord) : Word := r.w1

/-- Tag, word 7. -/
def SegRecord.tag (r : SegRecord) : Word := r.w7

/-! ### Codes (12.6) -/

/-- Axis state codes (R76). -/
def AxisState.code : AxisState → Word
  | .off => 0
  | .idle => 1
  | .running => 2
  | .dwelling => 3
  | .waitJoin => 4
  | .waitInput => 5
  | .starved => 6
  | .pausing => 7
  | .paused => 8
  | .reportWait => 9
  | .halted => 10

/-- Halt cause codes (R94). -/
def HaltCause.code : HaltCause → BitVec 8
  | .aborted => 1
  | .softLimit => 2
  | .badSegment => 3
  | .badLink => 4
  | .trip => 5
  | .tripOverrun => 6
  | .joinBroken => 7
  | .waitTimeout => 8
  | .runStopped => 9

/-- Segment kind codes (R37). -/
def SegKind.code : SegKind → BitVec 4
  | .run => 1
  | .dwell => 2
  | .join => 3
  | .waitInput => 4
  | .note => 5
  | .end_ => 6

/-- Slot state codes (R150). -/
def SlotState.code : SlotState → Word
  | .unused => 0
  | .empty => 1
  | .filling _ _ _ => 2
  | .full _ => 3
  | .bad => 4

/-- Edge sense, bits 1:0 (R133). -/
def edgeSense (v : Word) : EdgeSense :=
  match (v.extractLsb' 0 2).toNat with
  | 0 => .off
  | 1 => .rising
  | 2 => .falling
  | _ => .both

/-- Line action, bits 1:0 (R133). -/
def lineAction (v : Word) : LineAction :=
  match (v.extractLsb' 0 2).toNat with
  | 0 => .off
  | 1 => .halt
  | 2 => .pause
  | _ => .interject

/-- Word +3 of a join entry: OPEN 0 or BROKEN 1, break cause in the high byte (R121). -/
def JoinState.word : JoinState → Word
  | .opened => 0x0000
  | .broken .timeout => 0x0101
  | .broken .memberHalted => 0x0201

/-- Source word of an INTERJECT_IN record (R113). -/
def Source.word : Source → Word
  | .command => 0
  | .trip n => BitVec.ofNat 16 (1 + n.val)

/-! ### Record layouts (12.4) -/

/-- Axis in bits 2:0, level in bits 5:4. -/
def axisLevelWord (a : Axis) (l : Level) : Word :=
  0#10 ++ BitVec.ofNat 2 l.val ++ 0#1 ++ BitVec.ofNat 3 a.val

/-- Page in bits 6:0, index in bits 12:8. -/
def pageIndexWord (p : Page) (i : Nat) : Word := 0#3 ++ BitVec.ofNat 5 i ++ 0#1 ++ p

/-- A page number as a word. -/
def pageNumber (p : Page) : Word := p.setWidth 16

/-- Low and high word of each position, in order. -/
def positionWords : List Pos → List Word
  | [] => []
  | p :: ps => lowWord p :: highWord p :: positionWords ps

/-- Record kind codes (12.6). -/
def RecordBody.code : RecordBody → BitVec 8
  | .done .. => 1
  | .note .. => 2
  | .halt .. => 3
  | .starve .. => 4
  | .timeout .. => 5
  | .capture .. => 6
  | .interjectIn .. => 7
  | .interjectOut .. => 8
  | .drops .. => 9

/-- The words from +5 on. -/
def RecordBody.words : RecordBody → List Word
  | .done a l kind page index tag pos generation =>
    [axisLevelWord a l ||| (kind.code.setWidth 16 <<< 8), pageIndexWord page index, tag, lowWord pos,
      highWord pos] ++ generation.toList
  | .note a l page index tag pos value =>
    [axisLevelWord a l, pageIndexWord page index, tag, lowWord pos, highWord pos, value]
  | .halt a l cause detail page index pos =>
    [axisLevelWord a l, detail ++ cause.code, pageIndexWord page index, lowWord pos, highWord pos]
  | .starve a l page pos => [axisLevelWord a l, pageNumber page, lowWord pos, highWord pos]
  | .timeout a l line tag page index =>
    [axisLevelWord a l, BitVec.ofNat 16 line.val, tag, pageIndexWord page index]
  | .capture line rising mask positions =>
    [BitVec.ofNat 16 (line.val + if rising then 0x100 else 0), mask.setWidth 16] ++
      positionWords positions
  | .interjectIn a l head source => [axisLevelWord a l, head, source.word]
  | .interjectOut a l resumed => [axisLevelWord a l, BitVec.ofNat 16 resumed.val]
  | .drops count => [count]

/-- The length of a record in words (R147). -/
def Record.length (r : Record) : Nat := 5 + r.body.words.length

/-- The words of a record placed with sequence number `seq` (12.4). -/
def Record.words (r : Record) (seq : Word) : List Word :=
  (0#3 ++ BitVec.ofNat 5 r.length ++ r.body.code) :: seq :: (timeWords r.time ++ r.body.words)

/-- Essential records; the others are droppable (R148). -/
def RecordBody.essential : RecordBody → Bool
  | .done .. => true
  | .note .. => true
  | .halt .. => true
  | .starve .. => true
  | .timeout .. => true
  | .capture .. => false
  | .interjectIn .. => false
  | .interjectOut .. => false
  | .drops .. => false

/-- The axis a record belongs to; a CAPTURE and a DROPS record belong to none (R148). -/
def RecordBody.axis? : RecordBody → Option Axis
  | .done a .. => some a
  | .note a .. => some a
  | .halt a .. => some a
  | .starve a .. => some a
  | .timeout a .. => some a
  | .capture .. => none
  | .interjectIn a .. => some a
  | .interjectOut a .. => some a
  | .drops .. => none

end Sys2Proof.Machine
end

