-- ==== Sys2Proof/Machine/Ops.lean ====
section
/-!
DEFINITION. The named operations over the state that every block uses: the exchange RAM and the
claim table as sparse lists, the axis engines, the status blocks and the snapshot, the free order.
-/
namespace Sys2Proof.Machine

/-! ### Sparse tables: lists of keys and values with keys strictly rising -/

/-- The value at a key. -/
def Sparse.find? {α : Type} : List (Nat × α) → Nat → Option α
  | [], _ => none
  | (k, v) :: m, a => if k = a then some v else Sparse.find? m a

/-- Put a value at a key, keeping the keys rising. -/
def Sparse.insert {α : Type} : List (Nat × α) → Nat → α → List (Nat × α)
  | [], a, v => [(a, v)]
  | (k, w) :: m, a, v =>
    if a < k then (a, v) :: (k, w) :: m
    else if k = a then (a, v) :: m
    else (k, w) :: Sparse.insert m a v

/-- Remove a key. -/
def Sparse.erase {α : Type} : List (Nat × α) → Nat → List (Nat × α)
  | [], _ => []
  | (k, w) :: m, a => if k = a then Sparse.erase m a else (k, w) :: Sparse.erase m a

/-- The keys rise strictly. -/
def Sparse.rising {α : Type} : List (Nat × α) → Bool
  | [] => true
  | (k, _) :: m => m.all (fun e => k < e.1) && Sparse.rising m

/-! ### The exchange RAM -/

/-- The exchange RAM as a list of the words that are not 0 (log 1, log 2). -/
abbrev Memory := List (Nat × Word)

/-- What an unlisted word reads as: 0, as after the zero fill (R19). -/
def Memory.unlisted : Word := 0

/-- Read one word. -/
def Memory.read (m : Memory) (a : Addr) : Word := (Sparse.find? m a.toNat).getD Memory.unlisted

/-- Write one word, keeping the canonical form. -/
def Memory.write (m : Memory) (a : Addr) (v : Word) : Memory :=
  if v = Memory.unlisted then Sparse.erase m a.toNat else Sparse.insert m a.toNat v

/-- The canonical form: addresses strictly rising, each below 32,768, none holding the value of an
unlisted word. -/
def Memory.wf (m : Memory) : Bool :=
  Sparse.rising m && m.all (fun e => e.1 < 32768 && e.2 != Memory.unlisted)

/-- Write consecutive words (R17: low word first; the order has no effect inside one event). -/
def Memory.writeWords : Memory → Addr → List Word → Memory
  | m, _, [] => m
  | m, a, w :: ws => Memory.writeWords (m.write a w) (a + 1) ws

/-- Write the fields that differ from the words of `old`, from address `a` on, each field whole with
its low word first (R17, R98); where `old` has ended, write every field. -/
def Memory.writeChanged : Memory → Addr → List Word → List (List Word) → Memory
  | m, _, _, [] => m
  | m, a, old, f :: fs =>
    Memory.writeChanged (if old.take f.length = f then m else m.writeWords a f)
      (a + BitVec.ofNat 15 f.length) (old.drop f.length) fs

/-- Read one word of the exchange RAM. -/
def State.read (s : State) (a : Addr) : Word := Memory.read s.ram a

/-- Write one word of the exchange RAM. -/
def State.write (a : Addr) (v : Word) (s : State) : State := { s with ram := Memory.write s.ram a v }

/-- Write consecutive words of the exchange RAM. -/
def State.writeWords (a : Addr) (ws : List Word) (s : State) : State :=
  { s with ram := Memory.writeWords s.ram a ws }

/-- What a host read of a word returns: 0 in INIT, else the word (R19, R20). -/
def State.hostRead (s : State) (a : Addr) : Word := if s.inInit then 0 else s.read a

/-- The signed 32-bit value held in two words, low word first. -/
def Memory.read32 (m : Memory) (lo hi : Addr) : BitVec 32 := m.read hi ++ m.read lo

/-! ### Parts of the state -/

/-- Axis engine `a`. -/
def State.ax (s : State) (a : Axis) : AxisEngine := s.axes[a]

/-- Replace axis engine `a`. -/
def State.setAx (s : State) (a : Axis) (x : AxisEngine) : State := { s with axes := s.axes.set a x }

/-- Apply a change to every axis engine. -/
def State.mapAxes (f : Axis → AxisEngine → AxisEngine) (s : State) : State :=
  { s with axes := table8 fun a => f a (s.ax a) }

/-- Join point `j`. -/
def State.point (s : State) (j : Point) : JoinPoint := s.points[j]

/-- Replace join point `j`. -/
def State.setPoint (s : State) (j : Point) (p : JoinPoint) : State :=
  { s with points := s.points.set j p }

/-- Input line `n`. -/
def State.line (s : State) (n : Line) : InputLine := s.lines[n]

/-- Replace input line `n`. -/
def State.setLine (s : State) (n : Line) (l : InputLine) : State :=
  { s with lines := s.lines.set n l }

/-- The members of point `j` in the running setup (R120). -/
def State.members (s : State) (j : Point) : AxisMask := s.setup.points[j].members

/-- The running setup of line `n` (R133). -/
def State.lineSetup (s : State) (n : Line) : LineSetup := s.setup.lines[n]

/-- The soft limits of axis `a` in the running setup (R69). -/
def State.limits (s : State) (a : Axis) : AxisLimits := s.setup.limits[a]

/-- The records owed to axis `a` (R157). -/
def State.owedOf (s : State) (a : Axis) : List Record := s.report.owed[a]

/-- Axis `a` owes at least one record (R42 step 1). -/
def State.owes (s : State) (a : Axis) : Bool := !(s.owedOf a).isEmpty

/-- Add work to be done inside the current command (log 9). -/
def State.push (t : Task) (s : State) : State := { s with agenda := s.agenda ++ [t] }

/-! ### Axis engines -/

/-- Active states: every state other than OFF, IDLE and HALTED (R76). -/
def AxisState.active : AxisState → Bool
  | .off => false
  | .idle => false
  | .halted => false
  | .running => true
  | .dwelling => true
  | .waitJoin => true
  | .waitInput => true
  | .starved => true
  | .pausing => true
  | .paused => true
  | .reportWait => true

/-- Put axis `a` in a state; the status block is to be rewritten (R99). -/
def State.setAxState (a : Axis) (st : AxisState) (s : State) : State :=
  s.setAx a { s.ax a with state := st, dirty := true }

/-- Replace the running context of axis `a`. -/
def State.setCtx (a : Axis) (c : Option Context) (s : State) : State :=
  s.setAx a { s.ax a with ctx := c }

/-- The status block of axis `a` is to be rewritten at the end of this tick (R99). -/
def State.touch (a : Axis) (s : State) : State := s.setAx a { s.ax a with dirty := true }

/-- The step gate of axis `a` becomes `g`. -/
def State.setGate (a : Axis) (g : Gate) (s : State) : State := s.setAx a { s.ax a with gate := g }

/-- The running level: of the running context; at the halt while HALTED; 0 otherwise (R76, R101). -/
def AxisEngine.level (x : AxisEngine) : Level :=
  match x.ctx with
  | some c => c.level
  | none => if x.state = .halted then x.haltLevel else 0

/-- Steps not yet started, of a context IN_SEGMENT on a RUN; 0 otherwise (R75). -/
def Context.remaining (c : Context) : Nat :=
  match c.phase with
  | .inSegment (.run remaining _ _ _ _ _ _) => remaining
  | _ => 0

/-- The remaining step count: of the running context, else as it was last shown (R75, R93). -/
def AxisEngine.remaining (x : AxisEngine) : Nat :=
  match x.ctx with
  | some c => c.remaining
  | none => x.shownRemaining

/-- The running context is IN_SEGMENT on a RUN. -/
def AxisEngine.onRun (x : AxisEngine) : Bool :=
  match x.ctx with
  | none => false
  | some c =>
    match c.phase with
    | .inSegment (.run _ _ _ _ _ _ _) => true
    | _ => false

/-- The remaining step count that a rewrite writes: a RUN that has begun in this tick writes its full
count (R75, log 30). -/
def AxisEngine.countWritten (x : AxisEngine) : Nat :=
  if x.onRun then x.beganCount.getD x.remaining else x.remaining

/-- The page of a context as a page number; 0 for none. -/
def Context.pageOr0 (c : Context) : Page := c.page.getD 0

/-- The current page of the status block (R98). -/
def AxisEngine.pageWord (x : AxisEngine) : Word :=
  match x.ctx with
  | some c => pageNumber c.pageOr0
  | none => x.shownPage

/-- The segment index of the status block (R98). -/
def AxisEngine.index (x : AxisEngine) : Nat :=
  match x.ctx with
  | some c => c.index
  | none => x.shownIndex

/-- The slot of level 1, 2 or 3 of a pending set; level 0 has none (R91, R104). -/
def PendingSet.get (p : PendingSet) (l : Level) : Option Request :=
  match l with
  | 0 => none
  | 1 => p.one
  | 2 => p.two
  | 3 => p.three

/-- Set the slot of level 1, 2 or 3; level 0 has none. -/
def PendingSet.set (p : PendingSet) (l : Level) (r : Option Request) : PendingSet :=
  match l with
  | 0 => p
  | 1 => { p with one := r }
  | 2 => { p with two := r }
  | 3 => { p with three := r }

/-- The pending levels mask, bit L for the slot of level L (R98). -/
def PendingSet.mask (p : PendingSet) : Word :=
  (if p.one.isSome then 2 else 0) ||| (if p.two.isSome then 4 else 0) |||
    (if p.three.isSome then 8 else 0)

/-- The DIR level that the step gate and the status block go by: 0 while a change to 0 waits for
STEP to go low (R73, log 12). -/
def AxisEngine.dirLevel (x : AxisEngine) : Bool :=
  match x.dirZero with
  | .notWaiting => x.dir
  | .byReset => false
  | .byRunStart => false

/-! ### Status blocks and update counts (R18, R98, R99) -/

/-- The fields +18 to +31 of the status block of axis `a`, by their words; the remaining step count and
the position have two, low word first (R75, R98). -/
def State.statusFields (s : State) (a : Axis) : List (List Word) :=
  let x := s.ax a
  let remaining := BitVec.ofNat 32 x.countWritten
  [[x.state.code],
   [BitVec.ofNat 16 x.level.val],
   [BitVec.ofNat 16 x.stack.length],
   [x.requests.mask],
   [match x.haltCause with | some c => c.code.setWidth 16 | none => 0],
   [x.haltDetail.setWidth 16],
   [x.pageWord],
   [BitVec.ofNat 16 x.index],
   [lowWord remaining, highWord remaining],
   [lowWord x.position, highWord x.position],
   [BitVec.ofNat 16 (s.owedOf a).length],
   [if x.dirLevel then 1 else 0]]

/-- The words +18 to +31 of the status block of axis `a` (R98). -/
def State.statusWords (s : State) (a : Axis) : List Word := (s.statusFields a).flatten

/-- Rewrite the status block of axis `a` in one bracket: the update count becomes odd, every field that
has changed is written whole, the update count becomes even (R18, R98). -/
def State.rewriteStatus (a : Axis) (s : State) : State :=
  let count := (s.ax a).updateCount
  let words := s.statusWords a
  let fields := s.statusFields a
  let s := s.write (axisWord a 17) (count + 1)
  let s := { s with ram := Memory.writeChanged s.ram (axisWord a 18) (s.ax a).copy fields }
  let s := s.write (axisWord a 17) (count + 2)
  s.setAx a
    { s.ax a with copy := words, updateCount := count + 2, dirty := false, beganCount := none }

/-- Rewrite the status block of axis `a` if a rewrite is owed (R99). -/
def State.flushStatus (a : Axis) (s : State) : State :=
  if (s.ax a).dirty then s.rewriteStatus a else s

/-- Rewrite every status block that is owed a rewrite, at the end of a tick (R99, log 8). -/
def State.flushAll (s : State) : State := allAxes.foldl (fun s a => s.flushStatus a) s

/-! ### The snapshot (R35) -/

/-- The position of axis `a` as SNAP writes it: 0 for an OFF axis (R35). -/
def State.snapPosition (s : State) (a : Axis) : Pos :=
  if (s.ax a).state = .off then 0 else (s.ax a).position

/-- The words of the snapshot block from 0x0021 on: the time, then the positions (R35). -/
def State.snapWords (s : State) : List Word :=
  timeWords s.timebase ++ positionWords (allAxes.map s.snapPosition)

/-- Write the snapshot that the SNAP commands of this tick ask for: the time, the positions, then the
snap count, which has advanced by one for each of them (R35, log 27). -/
def State.flushSnap (s : State) : State :=
  if s.snapsOwed = 0 then s
  else
    let count := s.snapCount + BitVec.ofNat 16 s.snapsOwed
    { (s.writeWords 0x0021 s.snapWords).write 0x0020 count with snapCount := count, snapsOwed := 0 }

/-- The writes that fall at the end of a tick: snapshot and status blocks (R16, R35, R99). -/
def State.endTick (s : State) : State := s.flushSnap.flushAll

/-! ### The free order (log 6) -/

/-- The index of the candidate taken out of `n`; with one candidate nothing is chosen. -/
def State.choose (n : Nat) (s : State) : Nat × State :=
  if n ≤ 1 then (0, s)
  else (Config.freeOrder s.freeCount % n, { s with freeCount := s.freeCount + 1 })

/-- Apply `f` to each axis of a list, in the free order. `n` is at least the length of the list. -/
def State.inFreeOrder (f : Axis → State → State) : Nat → List Axis → State → State
  | 0, _, s => s
  | n + 1, as, s =>
    match as with
    | [] => s
    | a :: rest =>
      let (i, s) := s.choose (rest.length + 1)
      let chosen := (a :: rest).getD i a
      State.inFreeOrder f n ((a :: rest).erase chosen) (f chosen s)

end Sys2Proof.Machine
end

