-- ==== Sys2Proof/Machine/Reports.lean ====
section
/-!
DEFINITION. The report unit (chapter 9): taking a slot, placing and closing, shortage, the drain.
-/
namespace Sys2Proof.Machine

/-- Change the report unit. -/
def State.mapReport (f : ReportUnit → ReportUnit) (s : State) : State :=
  { s with report := f s.report }

/-- State of slot `k`. -/
def State.slot (s : State) (k : Slot) : SlotState := s.report.slots[k]

/-- Set the state of slot `k` inside the report unit. -/
def State.setSlot (k : Slot) (v : SlotState) (s : State) : State :=
  s.mapReport fun r => { r with slots := r.slots.set k v }

/-- Set the state of slot `k` and write its state word (R150). -/
def State.writeSlot (k : Slot) (v : SlotState) (s : State) : State :=
  (s.setSlot k v).write (slotStateWord k) v.code

/-- The slot is FILLING. -/
def SlotState.isFilling : SlotState → Bool
  | .filling _ _ _ => true
  | .unused => false
  | .empty => false
  | .full _ => false
  | .bad => false

/-- The page a slot is FILLING or FULL with (R150). -/
def SlotState.page? : SlotState → Option Page
  | .filling p _ _ => some p
  | .full p => p
  | .unused => none
  | .empty => none
  | .bad => none

/-- The FILLING slot, if there is one (R150). -/
def State.fillingSlot (s : State) : Option Slot := allAxes.find? fun k => (s.slot k).isFilling

/-- The page of the FILLING slot, its record count and its words used. -/
def State.filling (s : State) : Option (Slot × Page × Nat × Nat) :=
  match s.fillingSlot with
  | none => none
  | some k =>
    match s.slot k with
    | .filling p records used => some (k, p, records, used)
    | .unused => none
    | .empty => none
    | .full _ => none
    | .bad => none

/-- Page `p` has a claimant (R8). -/
def State.claimed (s : State) (p : Page) : Bool := (Sparse.find? s.claims p.toNat).isSome

/-! ### Taking a slot (R152) -/

/-- The tests of a slot take on the page word of an EMPTY slot: in 3 to 127, not the page of a
FILLING or FULL slot, not claimed (R152, R11). The page's header is not read (R176). -/
def State.poolPage (s : State) (k : Slot) : Option Page :=
  match generalPage? (s.read (slotPageWord k)) with
  | none => none
  | some p =>
    if allAxes.any fun i => (s.slot i).page? == some p then none
    else if s.claimed p then none
    else some p

/-- Visit the slots of a search in order, from the slot after the last closed; make each EMPTY slot
that fails its tests BAD, stop at the first slot taken. Answers whether a slot was taken (R152). -/
def State.searchSlots : List Slot → State → Bool × State
  | [], s => (false, s)
  | k :: ks, s =>
    if s.slot k = .empty then
      match s.poolPage k with
      | none => State.searchSlots ks ((s.writeSlot k .bad).setCause .slotFault)
      | some p =>
        let seq := s.report.seq
        let s := s.writeWords (pageWord p 0) [2, 0, seq, seq - 1, 0, 0, 0, 0]
        (true, s.writeSlot k (.filling p 0 0))
    else State.searchSlots ks s

/-- The order in which a search visits the slots: each once, from the slot after the last closed. -/
def searchOrder (last : Slot) : List Slot :=
  [last + 1, last + 2, last + 3, last + 4, last + 5, last + 6, last + 7, last]

/-- Take a slot (R152). -/
def State.takeSlot (s : State) : Bool × State := s.searchSlots (searchOrder s.report.lastClosed)

/-! ### Placing and closing (R153, R154) -/

/-- Close reasons (R154). -/
inductive CloseReason where
  | full
  | aged
  | flush
  | stop
  | reset
deriving DecidableEq, Repr

/-- Close reason codes (R154). -/
def CloseReason.code : CloseReason → Word
  | .full => 1
  | .aged => 2
  | .flush => 3
  | .stop => 4
  | .reset => 5

/-- Close the FILLING page with a reason and a close time (R154); a RESET close does not set
PAGE_CLOSED (R165). With no FILLING slot nothing happens. -/
def State.closePage (reason : CloseReason) (time : Time) (s : State) : State :=
  match s.filling with
  | none => s
  | some (k, p, _, _) =>
    let s := s.writeWords (pageWord p 5) [reason.code, time.extractLsb' 0 16, time.extractLsb' 16 16]
    let s := s.writeSlot k (.full (some p))
    let closed := s.report.pagesClosed + 1
    let s := s.mapReport fun r =>
      { r with lastClosed := k, pagesClosed := closed, deadline := none }
    let s := s.write 0x0010 closed
    if reason = .reset then s else s.setCause .pageClosed

/-- Close the FILLING page only if it holds records (R154). -/
def State.closeIfRecords (reason : CloseReason) (time : Time) (s : State) : State :=
  match s.filling with
  | none => s
  | some (_, _, records, _) => if records = 0 then s else s.closePage reason time

/-- The aging deadline of a page whose first record is placed now: none with an age of 0 or in a
state in which the timebase holds (R162). -/
def State.agingDeadline (s : State) : Option Time :=
  if s.setup.reportAge = 0 then none
  else
    match s.dev with
    | .running => some (s.timebase + s.setup.reportAge.setWidth 48 * 1024)
    | .stopping => some (s.timebase + s.setup.reportAge.setWidth 48 * 1024)
    | .init _ => none
    | .stopped => none

/-- Place a record in the FILLING page, in which it fits (R153, R149). -/
def State.placeIn (k : Slot) (p : Page) (records used : Nat) (rec : Record) (s : State) : State :=
  let seq := s.report.seq
  let used' := used + rec.length
  let s := s.writeWords (pageWord p (BitVec.ofNat 8 (8 + used))) (rec.words seq)
  let s := s.write (pageWord p 1) (BitVec.ofNat 16 (records + 1))
  let s := s.write (pageWord p 3) seq
  let s := s.write (pageWord p 4) (BitVec.ofNat 16 used')
  let s := s.setSlot k (.filling p (records + 1) used')
  let s := s.mapReport fun r => { r with seq := seq + 1 }
  let s := s.write 0x0011 (seq + 1)
  if records = 0 then
    let deadline := s.agingDeadline
    s.mapReport fun r => { r with deadline := deadline }
  else s

/-- Place a record in the page just taken; with no FILLING slot nothing happens. -/
def State.placeFresh (rec : Record) (s : State) : State :=
  match s.filling with
  | none => s
  | some (k, p, records, used) => s.placeIn k p records used rec

/-- Take a slot and place a record in it; false when no slot could be taken. -/
def State.takeAndPlace (rec : Record) (s : State) : Bool × State :=
  match s.takeSlot with
  | (false, s) => (false, s)
  | (true, s) => (true, s.placeFresh rec)

/-- Place a record if there is room: in the FILLING page if it fits, else in a slot taken after that
page has closed FULL (R153). Answers whether it was placed. -/
def State.tryPlace (rec : Record) (s : State) : Bool × State :=
  match s.filling with
  | some (k, p, records, used) =>
    if used + rec.length ≤ 248 then (true, s.placeIn k p records used rec)
    else (s.closePage .full s.timebase).takeAndPlace rec
  | none => s.takeAndPlace rec

/-! ### Shortage (R155 to R159) -/

/-- Count one record lost: saturating at 65535, written to word 0x0013, RECORDS_DROPPED set
(R159). -/
def State.countDrop (s : State) : State :=
  let n := if s.report.drops = 0xFFFF then s.report.drops else s.report.drops + 1
  ((s.mapReport fun r => { r with drops := n }).write 0x0013 n).setCause .recordsDropped

/-- Replace the records owed to axis `a`; its status block is owed a rewrite (R157, R99). -/
def State.setOwed (a : Axis) (rs : List Record) (s : State) : State :=
  (s.mapReport fun r => { r with owed := r.owed.set a rs }).touch a

/-- Hold a record at the tail of the holding queue (R156). -/
def State.holdRecord (rec : Record) (s : State) : State :=
  let queue := s.report.queue ++ [rec]
  (s.mapReport fun r => { r with queue := queue }).write 0x0012 (BitVec.ofNat 16 queue.length)

/-- Owe an essential record to its axis: at the tail of its store, with its axis at the tail of the
wait list if it owed nothing; a store of three loses its newest record, counted as dropped (R157,
R158). -/
def State.oweRecord (a : Axis) (rec : Record) (s : State) : State :=
  let store := s.owedOf a
  if store.length ≥ 3 then (s.setOwed a (store.dropLast ++ [rec])).countDrop
  else if store.isEmpty then
    (s.setOwed a [rec]).mapReport fun r => { r with waitList := r.waitList ++ [a] }
  else s.setOwed a (store ++ [rec])

/-- The axis a record belongs to owes records. -/
def State.ownerOwes (s : State) (body : RecordBody) : Bool :=
  match body.axis? with
  | some a => s.owes a
  | none => false

/-- A record that finds no room: the first row of R155 that applies. ROOM_EXHAUSTED is set whatever
the outcome. -/
def State.noRoom (rec : Record) (s : State) : State :=
  let s := s.setCause .roomExhausted
  if s.ownerOwes rec.body then
    match rec.body.essential, rec.body.axis? with
    | true, some a => s.oweRecord a rec
    | _, _ => s.countDrop
  else if s.report.queue.length < 8 then s.holdRecord rec
  else
    match rec.body.essential, rec.body.axis? with
    | true, some a => s.oweRecord a rec
    | _, _ => s.countDrop

/-- Hand a record of this tick to the report unit (R147, R153, R155). -/
def State.handRecord (body : RecordBody) (s : State) : State :=
  let entry : Record := { time := s.timebase, body := body }
  match s.tryPlace entry with
  | (true, s) => s
  | (false, s) => s.noRoom entry

/-! ### The drain (R160) -/

/-- Step 1: place the records of the holding queue from the head. A record that finds no room stays
where it is, sets ROOM_EXHAUSTED and ends the drain (R155, R160; log 28). `n` bounds the number of
records. Answers whether the step is done. -/
def State.drainQueue : Nat → State → Bool × State
  | 0, s => (s.report.queue.isEmpty, s)
  | n + 1, s =>
    match s.report.queue with
    | [] => (true, s)
    | rec :: rest =>
      match s.tryPlace rec with
      | (false, s) => (false, s.setCause .roomExhausted)
      | (true, s) =>
        State.drainQueue n
          ((s.mapReport fun r => { r with queue := rest }).write 0x0012
            (BitVec.ofNat 16 rest.length))

/-- Step 2: a DROPS record, if the pending drop count is not 0; it is made only when it can be placed
(R159). -/
def State.drainDrops (s : State) : Bool × State :=
  if s.report.drops = 0 then (true, s)
  else
    match s.tryPlace { time := s.timebase, body := .drops s.report.drops } with
    | (false, s) => (false, s)
    | (true, s) => (true, (s.mapReport fun r => { r with drops := 0 }).write 0x0013 0)

/-- One owed record of axis `a` has been placed; with the last one the axis leaves the wait list and
is told (R158). -/
def State.owedPlaced (a : Axis) (rest : List Record) (s : State) : State :=
  let s := s.setOwed a rest
  if rest.isEmpty then
    (s.mapReport fun r => { r with waitList := r.waitList.erase a }).push (.owingEnded a)
  else s

/-- Step 3: place the owed records, axis by axis in the order of the wait list, each axis's records
from the head of its store. A record that finds no room stays where it is, sets ROOM_EXHAUSTED and ends
the drain (R155, R160; log 28). `n` bounds the number of records. -/
def State.drainOwed : Nat → State → Bool × State
  | 0, s => (s.report.waitList.isEmpty, s)
  | n + 1, s =>
    match s.report.waitList with
    | [] => (true, s)
    | a :: _ =>
      match s.owedOf a with
      | [] => (false, s)
      | rec :: rest =>
        match s.tryPlace rec with
        | (false, s) => (false, s.setCause .roomExhausted)
        | (true, s) => State.drainOwed n (s.owedPlaced a rest)

/-- How many records are owed. -/
def State.owedTotal (s : State) : Nat := (allAxes.map fun a => (s.owedOf a).length).sum

/-- The report unit keeps something to place: queued or owed records or a pending drop count. -/
def State.keepsRecords (s : State) : Bool :=
  !s.report.queue.isEmpty || !s.report.waitList.isEmpty || s.report.drops != 0

/-- The three steps of a drain; each begins only when the one before is done. -/
def State.drainSteps (s : State) : State :=
  match s.drainQueue s.report.queue.length with
  | (false, s) => s
  | (true, s) =>
    match s.drainDrops with
    | (false, s) => s
    | (true, s) => (s.drainOwed s.owedTotal).2

/-- A drain (R160): take a slot, unless one is FILLING, and place what the report unit keeps. -/
def State.drain (s : State) : State :=
  if s.fillingSlot.isSome then s.drainSteps
  else
    match s.takeSlot with
    | (false, s) => s
    | (true, s) => s.drainSteps

/-! ### Entering STOPPED (R31) -/

/-- The device becomes STOPPED: the timebase holds, a FILLING page that holds records closes with
reason STOP, RUN_STOPPED is set (R31). -/
def State.enterStopped (s : State) : State :=
  let s := { s with dev := .stopped }
  (s.closeIfRecords .stop s.timebase).setCause .runStopped

/-- The last owed record has been placed in STOPPING (R31, R158). -/
def State.checkStopped (s : State) : State :=
  if s.dev = .stopping ∧ s.report.waitList = [] then s.enterStopped else s

end Sys2Proof.Machine
end

