-- ==== Sys2Proof/Machine/StepGate.lean ====
section
/-!
DEFINITION. The outputs and the step gate (chapter 4, R34): DIR changes, lead gaps, quiet time, the
conditions under which a due step starts, the start of a step and the end of a pulse.
-/
namespace Sys2Proof.Machine

/-- STEP is high. -/
def StepOut.isHigh : StepOut → Bool
  | .high _ => true
  | .low _ => false

/-- Quiet time: STEP has been low for at least the one tick before tick `now` (R65, R67). -/
def StepOut.quiet (o : StepOut) (now : Nat) : Bool :=
  match o with
  | .high _ => false
  | .low none => true
  | .low (some since) => since + 1 ≤ now

/-- Tick `now` is at least DIRLEAD ticks after the last DIR change (R65). -/
def AxisEngine.leadPassed (x : AxisEngine) (dirlead now : Nat) : Bool :=
  match x.dirChange with
  | none => true
  | some t => t + dirlead ≤ now

/-- The direction and the remaining count of the running RUN, if the axis runs one. -/
def AxisEngine.runForward (x : AxisEngine) : Option Bool :=
  match x.ctx with
  | none => none
  | some c =>
    match c.phase with
    | .inSegment (.run _ _ _ _ forward _ _) => some forward
    | .inSegment (.dwell _ _ _) => none
    | .inSegment (.join _ _ _ _ _) => none
    | .inSegment (.waitInput _ _ _ _ _ _) => none
    | .atBegin => none
    | .starved _ => none

/-- The position a step would give, as an exact integer without wrap (R69). -/
def AxisEngine.nextPosition (x : AxisEngine) (forward : Bool) : Int :=
  if forward then x.position.toInt + 1 else x.position.toInt - 1

/-- The step would leave the soft limits (R65 step 1, R69). -/
def AxisEngine.pastLimit (x : AxisEngine) (l : AxisLimits) (forward : Bool) : Bool :=
  l.enabled && (x.nextPosition forward < l.min.toInt || l.max.toInt < x.nextPosition forward)

/-- A due step whose direction is checked (R65 steps 2 and 3): change DIR and begin a lead gap, wait
for STEP to go low before the change, or wait for the start. -/
def AxisEngine.gateStep (x : AxisEngine) (dirlead now : Nat) (forward : Bool) : AxisEngine :=
  if x.dirLevel = forward then { x with gate := .startWait }
  else if x.step.isHigh then { x with gate := .dirWait }
  else { x with dir := forward, dirChange := some now, gate := .leadGap (now + dirlead) }

/-- A due step may start at tick `now` (R65 step 3). -/
def AxisEngine.mayStart (x : AxisEngine) (dirlead now : Nat) : Bool :=
  x.gate == .startWait && x.leadPassed dirlead now && x.step.quiet now

/-- The clamp of the interval for the next step (R62). -/
def clampInterval (v : Int) : Nat :=
  if v < 32 then 32 else if 16777215 < v then 16777215 else v.toNat

/-- The start of a step at tick `now` (R61, R63): length and residue, next interval, count,
position, pulse. -/
def AxisEngine.startStep (x : AxisEngine) (now : Nat) : AxisEngine :=
  match x.ctx with
  | none => x
  | some c =>
    match c.phase with
    | .inSegment (.run remaining v d width forward report tag) =>
      let length := (c.residue + v) / 16
      let run := Running.run (remaining - 1) (clampInterval (v + d)) d width forward report tag
      { x with
        ctx := some { c with residue := (c.residue + v) % 16, phase := .inSegment run }
        position := if forward then x.position + 1 else x.position - 1
        step := .high (now + min width (length - 1))
        gate := .inFlight (now + length) }
    | .inSegment (.dwell _ _ _) => x
    | .inSegment (.join _ _ _ _ _) => x
    | .inSegment (.waitInput _ _ _ _ _ _) => x
    | .atBegin => x
    | .starved _ => x

/-- A change of DIR to 0 that waited for STEP takes place at the first low tick; one that RUN_START
brings about is recorded as the last DIR change (R34, R66, R73). -/
def AxisEngine.applyDirZero (x : AxisEngine) (now : Nat) : AxisEngine :=
  match x.dirZero with
  | .notWaiting => x
  | .byReset => { x with dir := false, dirZero := .notWaiting }
  | .byRunStart =>
    { x with
      dir := false
      dirChange := if x.dir then some now else x.dirChange
      dirZero := .notWaiting }

/-- The end of a pulse at tick `now`: STEP goes low, a waiting change of DIR to 0 takes place, and a
due step that waited for STEP goes through the gate (R63, R66). -/
def AxisEngine.endPulse (x : AxisEngine) (dirlead now : Nat) : AxisEngine :=
  let x := ({ x with step := .low (some now) } : AxisEngine).applyDirZero now
  match x.gate, x.runForward with
  | .dirWait, some forward => x.gateStep dirlead now forward
  | _, _ => x

/-- RUN_START brings DIR to 0: at once where STEP is low, recorded if DIR was 1; else at the first
low tick (R66, R73). -/
def AxisEngine.zeroDirAtRunStart (x : AxisEngine) (now : Nat) : AxisEngine :=
  if x.step.isHigh then { x with dirChange := none, dirZero := .byRunStart }
  else
    { x with
      dir := false
      dirChange := if x.dir then some now else none
      dirZero := .notWaiting }

/-- An axis engine after a reset that does not cut its outputs (R34): a pulse goes on to its end, DIR
goes to 0 when STEP is low. -/
def AxisEngine.resetKeepingPulse (x : AxisEngine) : AxisEngine :=
  if x.step.isHigh then
    { AxisEngine.reset with step := x.step, dir := x.dir, dirZero := .byReset }
  else { AxisEngine.reset with step := x.step }

/-! ### When the timed events of the outputs are due -/

/-- DIRLEAD of the running setup (R67). -/
def State.dirlead (s : State) : Nat := s.setup.dirlead.toNat

/-- The axis has step boundaries: it is RUNNING or PAUSING (R70). -/
def AxisState.stepping : AxisState → Bool
  | .running => true
  | .pausing => true
  | .off => false
  | .idle => false
  | .dwelling => false
  | .waitJoin => false
  | .waitInput => false
  | .starved => false
  | .paused => false
  | .reportWait => false
  | .halted => false

/-- Axis `a` is at work: the device is RUNNING (R24), and the axis is RUNNING or PAUSING. -/
def State.stepping (s : State) (a : Axis) : Bool := s.dev == .running && (s.ax a).state.stepping

/-- The end of the step in flight has come (R70). -/
def State.stepBoundaryDue (s : State) (a : Axis) : Bool :=
  s.stepping a &&
    match (s.ax a).gate with
    | .inFlight ends => ends ≤ s.now
    | .idle => false
    | .dirWait => false
    | .leadGap _ => false
    | .startWait => false

/-- The end of a lead gap has come (R67). -/
def State.leadGapDue (s : State) (a : Axis) : Bool :=
  s.stepping a &&
    match (s.ax a).gate with
    | .leadGap ends => ends ≤ s.now
    | .idle => false
    | .inFlight _ => false
    | .dirWait => false
    | .startWait => false

/-- A due step meets the conditions of the gate (R65). -/
def State.stepStartDue (s : State) (a : Axis) : Bool :=
  s.stepping a && (s.ax a).runForward.isSome && (s.ax a).mayStart s.dirlead s.now

/-- The width of the pulse has run out, in any device state (R34, R63). -/
def State.pulseEndDue (s : State) (a : Axis) : Bool :=
  match (s.ax a).step with
  | .high until_ => until_ ≤ s.now
  | .low _ => false

end Sys2Proof.Machine
end

