-- ==== Sys2Proof/Machine/Chain.lean ====
section
/-!
DEFINITION. What an axis engine does with its chain (chapters 3 to 7): claims, the entry into HALTED,
the join unit, begin points, completions, page entry, starvation, acceptance, push, pop and
resumption. A function that leads to a further step of a chain, or to an event at another axis,
pushes it as a task; `State.settle` takes the tasks one after another.
-/
namespace Sys2Proof.Machine

/-! ### Claims (R8 to R10) -/

/-- Release the claim on page `p`: SPENT, spend time, spender, claimant removed (R10). -/
def State.releasePage (p : Page) (c : Claimant) (time : Time) (s : State) : State :=
  let s := s.writeWords (pageWord p 4) (timeWords time ++ [axisLevelWord c.axis c.level])
  let s := s.write (pageWord p 1) 3
  { s with claims := Sparse.erase s.claims p.toNat }

/-- Release the claims of a list of claimed pages (R10). -/
def State.releaseList (time : Time) : List (Nat × Claimant) → State → State
  | [], s => s
  | (p, c) :: l, s => State.releaseList time l (s.releasePage (BitVec.ofNat 7 p) c time)

/-- Release every claim of the contexts of axis `a`, each with its own level (R93 step 2). -/
def State.releaseAxisClaims (a : Axis) (s : State) : State :=
  s.releaseList s.timebase (s.claims.filter fun e => e.2.axis = a)

/-! ### Join unit: breaks (R127, R128) -/

/-- A context that holds an arrival at point `j`: IN_SEGMENT on a JOIN at `j` with neither flag set
(R123). -/
def Context.holdsArrival (c : Context) (j : Point) : Bool :=
  match c.phase with
  | .inSegment (.join p none false _ _) => p = j
  | _ => false

/-- Set the released flag, with the generation of the release, of a context that holds an arrival at
`j` (R123). -/
def Context.flagReleased (j : Point) (generation : Word) (c : Context) : Context :=
  match c.phase with
  | .inSegment (.join p none false report tag) =>
    if p = j then { c with phase := .inSegment (.join p (some generation) false report tag) } else c
  | _ => c

/-- Set the broken flag of a context that holds an arrival at `j` (R127). -/
def Context.flagBroken (j : Point) (c : Context) : Context :=
  match c.phase with
  | .inSegment (.join p none false report tag) =>
    if p = j then { c with phase := .inSegment (.join p none true report tag) } else c
  | _ => c

/-- Push a task for each axis of a list. -/
def State.pushEach (f : Axis → Task) : List Axis → State → State
  | [], s => s
  | a :: l, s => State.pushEach f l (s.push (f a))

/-- Break point `j`: BROKEN with the cause, no deadline, word +3 written, JOIN_BROKEN set, and a
break sent to every arrived axis (R127). -/
def State.breakPoint (j : Point) (cause : BreakCause) (s : State) : State :=
  let p := s.point j
  let s := s.setPoint j { p with state := .broken cause, deadline := none }
  let s := s.write (joinWord j 3) (JoinState.broken cause).word
  let s := s.setCause .joinBroken
  s.pushEach (fun a => .breakAt a j) (maskAxes p.arrivals)

/-- The halt of a member breaks point `j` if it is OPEN and holds arrivals (R128). -/
def State.breakIfMember (a : Axis) (s : State) (j : Point) : State :=
  if inMask (s.members j) a ∧ (s.point j).state = .opened ∧ (s.point j).arrivals ≠ 0 then
    s.breakPoint j .memberHalted
  else s

/-- The join unit is told that axis `a` has halted (R128). -/
def State.tellHalted (a : Axis) (s : State) : State := allSixteen.foldl (State.breakIfMember a) s

/-! ### Entry into HALTED (R93, R94) -/

/-- The axis engine HALTED: no context, no request, gate idle, outputs and position held (R72, R93
steps 1 to 3). -/
def AxisEngine.halted (x : AxisEngine) (cause : HaltCause) (detail : BitVec 8) : AxisEngine :=
  { x with
    state := .halted
    ctx := none
    stack := []
    requests := .empty
    gate := .idle
    haltCause := some cause
    haltDetail := detail
    haltLevel := x.level
    shownPage := x.pageWord
    shownIndex := x.index
    shownRemaining := x.remaining
    beganCount := none
    dirty := true }

/-- The page that the HALT record names (R94). -/
def AxisEngine.haltPage (x : AxisEngine) : Page :=
  match x.ctx with
  | some c => c.pageOr0
  | none => 0

/-- Axis `a` enters HALTED; an axis that is HALTED, IDLE or OFF is left as it is (R93, R95). -/
def State.halt (a : Axis) (cause : HaltCause) (detail : BitVec 8) (s : State) : State :=
  let x := s.ax a
  if x.state.active then
    let s := s.releaseAxisClaims a
    let s := s.setAx a (x.halted cause detail)
    let s := s.handRecord (.halt a x.level cause detail x.haltPage x.index x.position)
    let s := s.tellHalted a
    s.setCause .axisHalted
  else s

/-! ### Interjections: acceptance (R105 to R107) -/

/-- The highest level whose slot holds a request, with the request (R106). -/
def PendingSet.top (p : PendingSet) : Option (Level × Request) :=
  match p.three with
  | some r => some (3, r)
  | none =>
    match p.two with
    | some r => some (2, r)
    | none =>
      match p.one with
      | some r => some (1, r)
      | none => none

/-- The acceptance check takes a request: the highest pending level is above the running level and
at most one context is saved (R106). -/
def AxisEngine.acceptable (x : AxisEngine) : Bool :=
  match x.requests.top with
  | none => false
  | some (l, _) => x.level < l && x.stack.length ≤ 1

/-- The context pushed for an IDLE axis (R103). -/
def Context.idleBaseContext : Context :=
  { level := 0, idleBase := true, page := none, count := 0, index := 0, residue := 0
    following := none, phase := .atBegin }

/-- A context created by START or by taking a request, about to enter its head page (R82, R107). It
names the head page with index 0, as a halt on the entry does (R45). -/
def Context.fresh (l : Level) (head : Word) : Context :=
  { level := l, idleBase := false, page := generalPage? head, count := 0, index := 0
    residue := 0, following := none, phase := .atBegin }

/-- Hand over an interjection record, if the axis is in the interjection-record mask (R113). -/
def State.interjectionRecord (a : Axis) (body : RecordBody) (s : State) : State :=
  if inMask s.setup.recordMask a then s.handRecord body else s

/-- Make the acceptance check and take the request if the check takes one: save the running context
or an idle base, empty the slot, create the new context, make INTERJECT_IN, enter the head page
(R106, R107). -/
def State.accept (a : Axis) (s : State) : State :=
  let x := s.ax a
  match x.requests.top with
  | none => s
  | some (l, r) =>
    if x.acceptable then
      let s := s.setAx a
        { x with
          state := .running
          ctx := some (Context.fresh l r.head)
          stack := x.ctx.getD Context.idleBaseContext :: x.stack
          requests := x.requests.set l none
          gate := .idle
          beganCount := none
          dirty := true }
      let s := s.interjectionRecord a (.interjectIn a l r.head r.source)
      s.push (.enter a r.head none false)
    else s

/-! ### Completion (R47) -/

/-- Steps 2 to 4 of a completion: advance the index; the next begin point, or the end of the page
(R47). -/
def State.advance (a : Axis) (c : Context) (boundary : Bool) (s : State) : State :=
  let c := { c with index := c.index + 1, phase := .atBegin }
  let s := s.setAx a { s.ax a with ctx := some c, gate := .idle, dirty := true }
  s.push (if c.index < c.count then .begin a boundary else .leave a boundary)

/-- The DONE record of the segment at the index of context `c` (R47 step 1). -/
def State.doneBody (s : State) (a : Axis) (c : Context) (kind : SegKind) (tag : Word)
    (generation : Option Word) : RecordBody :=
  .done a c.level kind c.pageOr0 c.index tag (s.ax a).position generation

/-- Completion of the running segment of context `c` (R47). -/
def State.complete (a : Axis) (c : Context) (kind : SegKind) (report : Bool) (tag : Word)
    (generation : Option Word) (boundary : Bool) (s : State) : State :=
  let s := if report then s.handRecord (s.doneBody a c kind tag generation) else s
  s.advance a c boundary

/-! ### Join unit: arrivals and release (R122, R123) -/

/-- A release reaches axis `a`: the released flag of each of its contexts that holds an arrival, and
the completion of a running JOIN that is not PAUSED; the JOIN of `last`, whose arrival made the
release, completes at once (R50, R122, R123). -/
def State.releaseAxis (j : Point) (generation : Word) (last : Axis) (s : State) (a : Axis) : State :=
  let x := s.ax a
  let completes : Bool := match x.ctx with
    | some c => c.holdsArrival j && x.state != .paused
    | none => false
  let s := s.setAx a
    { x with
      ctx := x.ctx.map (Context.flagReleased j generation)
      stack := x.stack.map (Context.flagReleased j generation) }
  if completes then s.push (if a = last then .arrived a else .joinDone a) else s

/-- Release of point `j` to the arrived axes, made by the arrival of `last` (R123). -/
def State.releasePoint (j : Point) (arrivals : AxisMask) (last : Axis) (s : State) : State :=
  let generation := (s.point j).generation + 1
  let s := s.setPoint j
    { state := .opened, arrivals := 0, generation := generation, deadline := none }
  let s := (s.write (joinWord j 4) 0).write (joinWord j 5) generation
  (maskAxes arrivals).foldl (State.releaseAxis j generation last) s

/-- The deadline of a meeting whose first arrival comes now (R125). -/
def State.joinDeadline (s : State) (j : Point) : Option Time :=
  let timeout := s.setup.points[j].timeout
  if timeout = 0 then none else some (s.timebase + timeout.setWidth 48 * 1024)

/-- The arrival of axis `a`, whose JOIN at `j` has just begun (R122). -/
def State.arrive (a : Axis) (j : Point) (s : State) : State :=
  let p := s.point j
  match p.state with
  | .broken _ => s.halt a .joinBroken (BitVec.ofNat 8 j.val)
  | .opened =>
    if inMask p.arrivals a then s.setAxState a .waitJoin
    else
      let arrivals := p.arrivals ||| maskBit a
      if arrivals = s.members j then
        (s.setAxState a .waitJoin).releasePoint j arrivals a
      else
        let deadline := if p.arrivals = 0 then s.joinDeadline j else p.deadline
        let s := s.setPoint j { p with arrivals := arrivals, deadline := deadline }
        let s := s.write (joinWord j 4) (arrivals.setWidth 16)
        s.setAxState a .waitJoin

/-! ### Beginning a segment (R42, R43) -/

/-- Record `i` of page `p` as read now (R40). -/
def State.readRecord (s : State) (p : Page) (i : Nat) : SegRecord :=
  let w := fun (k : BitVec 8) => s.read (pageWord p (recordOffset i + k))
  { w0 := w 0, w1 := w 1, w2 := w 2, w3 := w 3, w4 := w 4, w5 := w 5, w6 := w 6, w7 := w 7 }

/-- The validity check: the kind of a record that passes it (R43). -/
def State.validKind (s : State) (a : Axis) (r : SegRecord) : Option SegKind :=
  match r.kind with
  | none => none
  | some .run =>
    if 1 ≤ r.stepCount ∧ 32 ≤ r.interval ∧ 1 ≤ r.width ∧ r.width < r.interval / 16 then some .run
    else none
  | some .join =>
    match r.joinPoint with
    | none => none
    | some j => if inMask (s.members j) a then some .join else none
  | some .dwell => some .dwell
  | some .waitInput => some .waitInput
  | some .note => some .note
  | some .end_ => some .end_

/-- A step of the running RUN is due: the limit check, then the gate (R65, R69). -/
def State.stepDue (a : Axis) (s : State) : State :=
  let x := s.ax a
  match x.runForward with
  | none => s
  | some forward =>
    if x.pastLimit (s.limits a) forward then s.halt a .softLimit 0
    else s.setAx a (x.gateStep s.dirlead s.now forward)

/-- The running context of axis `a` runs `copy`, with the axis in state `st`. -/
def State.runCopy (a : Axis) (c : Context) (copy : Running) (st : AxisState) (s : State) : State :=
  s.setAx a
    { s.ax a with state := st, ctx := some { c with phase := .inSegment copy }, dirty := true }

/-- A RUN of `count` steps has begun on axis `a` in this tick (R75). -/
def State.setBegan (a : Axis) (count : Nat) (s : State) : State :=
  s.setAx a { s.ax a with beganCount := some count }

/-- END on a context of level 0 makes the axis IDLE (R51 steps 3 and 4). -/
def State.baseEnd (a : Axis) (c : Context) (s : State) : State :=
  s.setAx a
    { s.ax a with
      state := .idle
      ctx := none
      gate := .idle
      shownPage := pageNumber c.pageOr0
      shownIndex := c.index
      shownRemaining := 0
      dirty := true }

/-- END on a context of level 1 to 3 pops the saved context `top` (R111 steps 2 to 5). -/
def State.pop (a : Axis) (c top : Context) (rest : List Context) (s : State) : State :=
  let s := s.setAx a
    { s.ax a with
      state := .running
      ctx := some top
      stack := rest
      gate := .idle
      shownPage := pageNumber c.pageOr0
      shownIndex := c.index
      shownRemaining := 0
      dirty := true }
  let s := s.interjectionRecord a (.interjectOut a c.level top.level)
  if (s.ax a).acceptable then s.accept a else s.push (.resume a)

/-- END begins: its DONE record, the release of the page, then the end of the base chain or a pop
(R51, R52). -/
def State.endChain (a : Axis) (c : Context) (r : SegRecord) (s : State) : State :=
  let s := if r.report then s.handRecord (s.doneBody a c .end_ r.tag none) else s
  let s := s.releasePage c.pageOr0 { axis := a, level := c.level } s.timebase
  match (s.ax a).stack with
  | [] => s.baseEnd a c
  | top :: rest => s.pop a c top rest

/-- The segment `r` of kind `kind` starts on context `c` (R42 step 3): the next record is read (R40),
then the kind's own behaviour starts. -/
def State.startSegment (a : Axis) (c : Context) (r : SegRecord) (kind : SegKind) (s : State) :
    State :=
  let next :=
    if c.index + 1 < c.count ∧ kind ≠ .end_ then some (s.readRecord c.pageOr0 (c.index + 1)) else none
  let c := { c with following := next }
  match kind with
  | .run =>
    ((s.runCopy a c (.run r.stepCount r.interval r.change r.width r.forward r.report r.tag)
      .running).setBegan a r.stepCount).stepDue a
  | .dwell =>
    if r.duration = 0 then s.complete a c .dwell r.report r.tag none false
    else s.runCopy a c (.dwell r.duration r.report r.tag) .dwelling
  | .join =>
    match r.joinPoint with
    | none => s
    | some j => (s.runCopy a c (.join j none false r.report r.tag) .running).arrive a j
  | .waitInput =>
    if (s.line r.line).qualified = r.awaited then s.complete a c .waitInput r.report r.tag none false
    else
      s.runCopy a c (.waitInput r.line r.awaited r.timeout r.timeoutHalt r.report r.tag) .waitInput
  | .note =>
    let s :=
      if r.report then
        s.handRecord (.note a c.level c.pageOr0 c.index r.tag (s.ax a).position r.value)
      else s
    s.advance a c false
  | .end_ => s.endChain a c r

/-- The begin point of the running context (R42). At the boundary of a PAUSING axis the pause takes
effect here instead (R83); at a boundary whose check takes a request, the push (R108). -/
def State.begin (a : Axis) (boundary : Bool) (s : State) : State :=
  let x := s.ax a
  match x.ctx with
  | none => s
  | some c =>
    match c.phase, c.following with
    | .atBegin, some r =>
      if x.state = .pausing then s.setAxState a .paused
      else if boundary then s.accept a
      else if s.owes a then s.setAxState a .reportWait
      else
        match s.validKind a r with
        | none => s.halt a .badSegment (r.kindCode.setWidth 8)
        | some kind => s.startSegment a c r kind
    | _, _ => s

/-! ### Entering and leaving a page (R41, R44 to R46, R53, R54) -/

/-- The word a wait watches: the link word or the state word of its page (R53). -/
def Wait.word : Wait → Addr
  | .link q => pageWord q 2
  | .state p => pageWord p 1

/-- The page of a wait. -/
def Wait.page : Wait → Page
  | .link q => q
  | .state p => p

/-- The context starved on a wait: a state wait stands on its page with index 0, a link wait on the
finished page with index equal to its count (R53). -/
def Context.starve (c : Context) (w : Wait) : Context :=
  match w with
  | .link _ => { c with following := none, phase := .starved w }
  | .state p =>
    { c with page := some p, count := 0, index := 0, following := none, phase := .starved w }

/-- The running context starves: STARVED and watched, or PAUSED at the boundary of a PAUSING axis;
STARVE record and AXIS_STARVED; at a boundary whose check takes a request, the push (R54, R83,
R108). -/
def State.starve (a : Axis) (c : Context) (w : Wait) (boundary : Bool) (s : State) : State :=
  let x := s.ax a
  let st := if x.state = .pausing then AxisState.paused else .starved
  let s := s.setAx a { x with state := st, ctx := some (c.starve w), gate := .idle, dirty := true }
  let s := s.handRecord (.starve a c.level w.page x.position)
  let s := s.setCause .axisStarved
  if boundary then s.accept a else s

/-- The claim on page `p` is granted to context `c` (R46, R9 step 7). -/
def State.grantClaim (a : Axis) (c : Context) (p : Page) (count : Nat) (boundary : Bool)
    (s : State) : State :=
  let s := { s with claims := Sparse.insert s.claims p.toNat { axis := a, level := c.level } }
  let s := s.write (pageWord p 1) 2
  let c :=
    { c with page := some p, count := count, index := 0, following := some (s.readRecord p 0)
             phase := .atBegin }
  let s := s.setAx a { s.ax a with ctx := some c, gate := .idle, dirty := true }
  s.push (.begin a boundary)

/-- The outcome of the tests of a page entry (R45). -/
inductive Entry where
  | badLink
  | wait
  | granted (count : Nat)
deriving DecidableEq, Repr

/-- Tests 2 to 7 of the entry transaction on page `p`, with `header` in the place of the header state
when an event carries it (R45, R56). -/
def State.testEntry (s : State) (p : Page) (header : Option Word) : Entry :=
  let state := header.getD (s.read (pageWord p 1))
  let count := (s.read (pageWord p 3)).toNat
  if s.claimed p then .badLink
  else if s.read (pageWord p 0) ≠ 1 then .badLink
  else if state = 0 then .wait
  else if state ≠ 1 then .badLink
  else if count < 1 ∨ 31 < count then .badLink
  else .granted count

/-- The running context tries to enter the page named by `value` (R45). -/
def State.enter (a : Axis) (value : Word) (header : Option Word) (boundary : Bool) (s : State) :
    State :=
  match (s.ax a).ctx with
  | none => s
  | some c =>
    match generalPage? value with
    | none => s.halt a .badLink (linkDetail value)
    | some p =>
      match s.testEntry p header with
      | .badLink => s.halt a .badLink (linkDetail value)
      | .wait => s.starve a c (.state p) boundary
      | .granted count => s.grantClaim a c p count boundary

/-- The running context has finished its page: the link is read, the page released, and the link
followed or starved on (R41, R47 step 4). -/
def State.leave (a : Axis) (boundary : Bool) (s : State) : State :=
  match (s.ax a).ctx with
  | none => s
  | some c =>
    match c.page with
    | none => s
    | some q =>
      let link := s.read (pageWord q 2)
      let s := s.releasePage q { axis := a, level := c.level } s.timebase
      if link = 0 then s.starve a c (.link q) boundary else s.push (.enter a link none boundary)

/-! ### Resumption (R57, R87, R112) -/

/-- The timeout of a WAIT_INPUT takes effect: a WAIT_TIMEOUT halt, or completion with a TIMEOUT
record whatever the REPORT flag (R144). -/
def State.waitExpires (a : Axis) (c : Context) (n : Line) (timeoutHalt : Bool) (tag : Word)
    (s : State) : State :=
  if timeoutHalt then s.halt a .waitTimeout (BitVec.ofNat 8 n.val)
  else (s.handRecord (.timeout a c.level n tag c.pageOr0 c.index)).advance a c false

/-- The re-check of a STARVED context that was not watched: the word of its wait is read; 0 (FREE)
keeps the wait, with its watch set again; another value is followed (R57). -/
def State.recheck (a : Axis) (w : Wait) (s : State) : State :=
  let value := s.read w.word
  if value = 0 then s.setAxState a .starved
  else
    match w with
    | .link _ => s.push (.enter a value none false)
    | .state p => s.push (.enter a (pageNumber p) none false)

/-- Resume the running copy of context `c` (R87, R112). -/
def State.resumeCopy (a : Axis) (c : Context) (copy : Running) (s : State) : State :=
  match copy with
  | .run _ _ _ _ _ _ _ => (s.setAxState a .running).stepDue a
  | .dwell ticks report tag =>
    if ticks = 0 then s.complete a c .dwell report tag none false else s.setAxState a .dwelling
  | .waitInput n level timeout timeoutHalt report tag =>
    if (s.line n).qualified = level then s.complete a c .waitInput report tag none false
    else if timeout = some 0 then s.waitExpires a c n timeoutHalt tag
    else s.setAxState a .waitInput
  | .join j released broken report tag =>
    match released with
    | some generation => s.complete a c .join report tag (some generation) false
    | none =>
      if broken then s.halt a .joinBroken (BitVec.ofNat 8 j.val) else s.setAxState a .waitJoin

/-- Resume the activity of the running context, after RESUME (R87) or after a pop (R112). An idle
base makes the axis IDLE (R103). -/
def State.resumeContext (a : Axis) (s : State) : State :=
  match (s.ax a).ctx with
  | none => s
  | some c =>
    if c.idleBase then (s.setCtx a none).setAxState a .idle
    else
      match c.phase with
      | .atBegin => (s.setAxState a .running).push (.begin a false)
      | .inSegment copy => (s.setAxState a .running).resumeCopy a c copy
      | .starved w => (s.setAxState a .running).recheck a w

/-! ### Events that reach an axis -/

/-- A released JOIN completes, unless the axis has been PAUSED (R123). -/
def State.joinDone (a : Axis) (s : State) : State :=
  let x := s.ax a
  match x.ctx with
  | none => s
  | some c =>
    match c.phase with
    | .inSegment (.join _ (some generation) _ report tag) =>
      if x.state = .paused then s else s.complete a c .join report tag (some generation) false
    | _ => s

/-- A break of point `j` reaches axis `a` (R127). -/
def State.breakAt (a : Axis) (j : Point) (s : State) : State :=
  let x := s.ax a
  if x.stack.any fun c => c.holdsArrival j then s.halt a .joinBroken (BitVec.ofNat 8 j.val)
  else
    match x.ctx with
    | none => s
    | some c =>
      if c.holdsArrival j then
        if x.state = .paused then s.setCtx a (some (c.flagBroken j))
        else s.halt a .joinBroken (BitVec.ofNat 8 j.val)
      else s

/-- The axis is told that it owes nothing any more: REPORT_WAIT ends, with the acceptance check first
(R97). In any other state nothing changes (R158). -/
def State.owingEnded (a : Axis) (s : State) : State :=
  let x := s.ax a
  if x.state = .reportWait then
    if x.acceptable then s.accept a else (s.setAxState a .running).push (.begin a false)
  else s

/-- The axis waits on line `n`: in WAIT_INPUT, with a running WAIT_INPUT on that line (R142). -/
def AxisEngine.waitsOn (x : AxisEngine) (n : Line) : Bool :=
  x.state == .waitInput &&
    match x.ctx with
    | none => false
    | some c =>
      match c.phase with
      | .inSegment (.waitInput m _ _ _ _ _) => m = n
      | _ => false

/-- "Level seen" of line `n` reaches axis `a`: its WAIT_INPUT completes, if it still waits for the
level that the line now has (R135, R142). -/
def State.levelSeen (a : Axis) (n : Line) (s : State) : State :=
  let x := s.ax a
  if x.waitsOn n then
    match x.ctx with
    | none => s
    | some c =>
      match c.phase with
      | .inSegment (.waitInput m level _ _ report tag) =>
        if (s.line m).qualified = level then s.complete a c .waitInput report tag none false else s
      | _ => s
  else s

/-- States in which PAUSE takes hold at once (R84). -/
def AxisState.pausesAtOnce : AxisState → Bool
  | .dwelling => true
  | .waitJoin => true
  | .waitInput => true
  | .starved => true
  | .reportWait => true
  | .off => false
  | .idle => false
  | .running => false
  | .pausing => false
  | .paused => false
  | .halted => false

/-- PAUSE takes effect on axis `a`: RUNNING becomes PAUSING, a waiting or dwelling axis becomes
PAUSED; no other state changes (R83, R84, R139). -/
def State.pauseAxis (a : Axis) (s : State) : State :=
  let x := s.ax a
  if x.state = .running then s.setAxState a .pausing
  else if x.state.pausesAtOnce then s.setAxState a .paused
  else s

/-- States in which a request is checked at the tick it enters the pending set (R90, R105). -/
def AxisState.checksAtOnce : AxisState → Bool
  | .idle => true
  | .dwelling => true
  | .waitJoin => true
  | .waitInput => true
  | .starved => true
  | .off => false
  | .running => false
  | .pausing => false
  | .paused => false
  | .reportWait => false
  | .halted => false

/-- A request enters the empty slot of a level; the acceptance check is made at once where the state
allows (R90, R105, R115). -/
def State.placeRequest (a : Axis) (l : Level) (r : Request) (s : State) : State :=
  let x := s.ax a
  let s := s.setAx a { x with requests := x.requests.set l (some r), dirty := true }
  if x.state.checksAtOnce then s.accept a else s

/-- An INTERJECT trip of line `n` reaches axis `a` (R115, R116). -/
def State.tripInterject (a : Axis) (n : Line) (s : State) : State :=
  let x := s.ax a
  if x.state = .off ∨ x.state = .halted then s
  else
    match x.requests.three with
    | some _ => s.halt a .tripOverrun (BitVec.ofNat 8 n.val)
    | none => s.placeRequest a 3 { head := (s.lineSetup n).head, source := .trip n }

/-- The CAPTURE record of an edge of line `n` (R137). -/
def State.capture (n : Line) (rising : Bool) (s : State) : State :=
  let mask := (s.lineSetup n).captureMask
  s.handRecord (.capture n rising mask ((maskAxes mask).map fun a => (s.ax a).position))

/-! ### Taking the tasks of a command (log 9) -/

/-- The axis a task belongs to. -/
def Task.axis? : Task → Option Axis
  | .begin a _ => some a
  | .leave a _ => some a
  | .enter a _ _ _ => some a
  | .resume a => some a
  | .arrived a => some a
  | .joinDone a => some a
  | .breakAt a _ => some a
  | .owingEnded a => some a
  | .levelSeen a _ => some a
  | .tripHalt a _ => some a
  | .tripPause a _ => some a
  | .tripInterject a _ => some a
  | .capture _ _ => none

/-- A task that carries on a chain already moving; the others are events that reach an axis. -/
def Task.movesChain : Task → Bool
  | .begin _ _ => true
  | .leave _ _ => true
  | .enter _ _ _ _ => true
  | .resume _ => true
  | .arrived _ => true
  | .joinDone _ => false
  | .breakAt _ _ => false
  | .owingEnded _ => false
  | .levelSeen _ _ => false
  | .tripHalt _ _ => false
  | .tripPause _ _ => false
  | .tripInterject _ _ => false
  | .capture _ _ => false

/-- A task may be taken next: an event meets the state that the moving chain of its axis has reached
(R81, R141), so it waits for that chain. -/
def Task.mayRun (agenda : List Task) (t : Task) : Bool :=
  t.movesChain || !agenda.any fun u => u.movesChain && u.axis? == t.axis?

/-- Take one task. Chains and the events of the other blocks move only while the device is RUNNING
(R24). -/
def State.runTask (t : Task) (s : State) : State :=
  if s.dev = .running then
    match t with
    | .begin a boundary => s.begin a boundary
    | .leave a boundary => s.leave a boundary
    | .enter a value header boundary => s.enter a value header boundary
    | .resume a => s.resumeContext a
    | .arrived a => s.joinDone a
    | .joinDone a => s.joinDone a
    | .breakAt a j => s.breakAt a j
    | .owingEnded a => s.owingEnded a
    | .levelSeen a n => s.levelSeen a n
    | .tripHalt a n => s.halt a .trip (BitVec.ofNat 8 n.val)
    | .tripPause a _ => s.pauseAxis a
    | .tripInterject a n => s.tripInterject a n
    | .capture n rising => s.capture n rising
  else s

/-- Choose the next task in the free order (log 6) and take it off the agenda. -/
def State.nextTask (s : State) : Option (Task × State) :=
  match s.agenda.filter (Task.mayRun s.agenda) with
  | [] => none
  | t :: ts =>
    let (i, s) := s.choose (ts.length + 1)
    let chosen := (t :: ts).getD i t
    some (chosen, { s with agenda := s.agenda.erase chosen })

/-- Take tasks until none is left. `n` bounds their number (log 9). -/
def State.settle : Nat → State → State
  | 0, s => s
  | n + 1, s =>
    match s.nextTask with
    | none => s
    | some (t, s) => State.settle n (s.runTask t)

/-- More tasks than one command can lead to: each of the 125 general pages can be entered at most
once in a tick, since it is SPENT when it is left, and holds at most 31 segments (log 9). -/
def settleBound : Nat := 16384

/-- Take every task of the command (log 9). -/
def State.settled (s : State) : State := { s.settle settleBound with agenda := [] }

end Sys2Proof.Machine
end

