-- ==== Sys2Proof/Machine/AxisCommands.lean ====
section
/-!
DEFINITION. The axis commands (chapter 5): the command event and its answer, and the check and the
effect of each command.
-/
namespace Sys2Proof.Machine

/-- Answer results (R79). -/
inductive AnswerResult where
  | accepted
  | refusedState
  | refusedBusy
  | refusedArg
  | notRunning
  | unknownCommand
deriving DecidableEq, Repr

/-- Answer result codes (R79). -/
def AnswerResult.code : AnswerResult → BitVec 4
  | .accepted => 1
  | .refusedState => 2
  | .refusedBusy => 3
  | .refusedArg => 4
  | .notRunning => 5
  | .unknownCommand => 6

/-- The answer word: result in 3:0, bits 7:4 0, tag in 15:8 (R79). -/
def answerWord (tag : BitVec 8) (r : AnswerResult) : Word := tag ++ 0#4 ++ r.code

/-- Write the answer word of axis `a` (R79). -/
def State.answer (a : Axis) (tag : BitVec 8) (r : AnswerResult) (s : State) : State :=
  s.write (axisWord a 16) (answerWord tag r)

/-- The checks of R80 in order, ahead of the command's own `check`. -/
def State.commandResult (a : Axis) (v : Word) (check : State → AnswerResult) (s : State) :
    AnswerResult :=
  if s.dev ≠ .running then .notRunning
  else if 9 ≤ (commandCode v).toNat then .unknownCommand
  else if (s.ax a).state = .off then .refusedState
  else check s

/-- A host write of `v` to the command word of axis `a`, for a command other than NONE: discarded in
INIT (R15); else stored (R12), answered (R13), and carried out when ACCEPTED (R80). -/
def State.commandWrite (a : Axis) (v : Word) (check : State → AnswerResult)
    (effect : State → State) (s : State) : State :=
  if s.inInit then s
  else
    let s := s.write (axisWord a 0) v
    let result := s.commandResult a v check
    let s := s.answer a (commandTag v) result
    if result = .accepted then effect s else s

/-! ### The commands -/

/-- START: IDLE, and a base head page in 3 to 127 (R82). -/
def startCheck (a : Axis) (s : State) : AnswerResult :=
  if (s.ax a).state ≠ .idle then .refusedState
  else if (generalPage? (s.read (axisWord a 1))).isNone then .refusedArg
  else .accepted

/-- START: a running context at level 0, and entry into the head page (R82). -/
def startEffect (a : Axis) (s : State) : State :=
  let head := s.read (axisWord a 1)
  let s := s.setAx a
    { s.ax a with
      state := .running, ctx := some (Context.fresh 0 head), gate := .idle, dirty := true }
  s.push (.enter a head none false)

/-- PAUSE (R83, R84). -/
def pauseCheck (a : Axis) (s : State) : AnswerResult :=
  let x := s.ax a
  if x.state = .pausing then .refusedBusy
  else if x.state = .running ∨ x.state.pausesAtOnce then .accepted
  else .refusedState

/-- RESUME (R86, R87). -/
def resumeCheck (a : Axis) (s : State) : AnswerResult :=
  let x := s.ax a
  if x.state = .pausing ∨ x.state = .paused then .accepted else .refusedState

/-- RESUME cancels the pause of a PAUSING axis (R86); on a PAUSED axis it makes the acceptance check
and otherwise resumes the frozen activity (R87). -/
def resumeEffect (a : Axis) (s : State) : State :=
  let x := s.ax a
  if x.state = .pausing then s.setAxState a .running
  else if x.acceptable then s.accept a
  else s.push (.resume a)

/-- ABORT: any active state (R88). -/
def abortCheck (a : Axis) (s : State) : AnswerResult :=
  if (s.ax a).state.active then .accepted else .refusedState

/-- CLEAR: HALTED, and no record owed (R89). -/
def clearCheck (a : Axis) (s : State) : AnswerResult :=
  if (s.ax a).state ≠ .halted then .refusedState
  else if s.owes a then .refusedBusy
  else .accepted

/-- CLEAR: IDLE, halt cause, detail and level 0, remaining step count 0 (R89). -/
def clearEffect (a : Axis) (s : State) : State :=
  s.setAx a
    { s.ax a with
      state := .idle
      haltCause := none
      haltDetail := 0
      haltLevel := 0
      shownRemaining := 0
      dirty := true }

/-- INTERJECT: state, level 1 to 3, head page in 3 to 127, empty slot, in this order (R90). -/
def interjectCheck (a : Axis) (v : Word) (s : State) : AnswerResult :=
  let x := s.ax a
  if x.state = .halted then .refusedState
  else if commandLevel v = 0 then .refusedArg
  else if (generalPage? (s.read (axisWord a 2))).isNone then .refusedArg
  else if (x.requests.get (commandLevel v)).isSome then .refusedBusy
  else .accepted

/-- INTERJECT places the request (R90). -/
def interjectEffect (a : Axis) (v : Word) (s : State) : State :=
  s.placeRequest a (commandLevel v) { head := s.read (axisWord a 2), source := .command }

/-- WITHDRAW: the slot of the level holds a request (R91). -/
def withdrawCheck (a : Axis) (v : Word) (s : State) : AnswerResult :=
  if ((s.ax a).requests.get (commandLevel v)).isSome then .accepted else .refusedState

/-- WITHDRAW empties the slot (R91). -/
def withdrawEffect (a : Axis) (v : Word) (s : State) : State :=
  let x := s.ax a
  s.setAx a { x with requests := x.requests.set (commandLevel v) none, dirty := true }

/-- The SETPOS value of axis `a`, words +3 and +4 (R92). -/
def State.setposValue (s : State) (a : Axis) : Pos :=
  Memory.read32 s.ram (axisWord a 3) (axisWord a 4)

/-- SETPOS: IDLE or HALTED, and a value within the soft limits where they are enabled (R92). -/
def setposCheck (a : Axis) (s : State) : AnswerResult :=
  let x := s.ax a
  let l := s.limits a
  let value := (s.setposValue a).toInt
  if x.state ≠ .idle ∧ x.state ≠ .halted then .refusedState
  else if l.enabled ∧ (value < l.min.toInt ∨ l.max.toInt < value) then .refusedArg
  else .accepted

/-- SETPOS sets the position (R92). -/
def setposEffect (a : Axis) (s : State) : State :=
  s.setAx a { s.ax a with position := s.setposValue a, dirty := true }

/-- A host write of code NONE: stored, no answer, no effect (R79, R80). -/
def State.noneWrite (a : Axis) (v : Word) (s : State) : State :=
  if s.inInit then s else s.write (axisWord a 0) v

/-- A host write of `v` to the command word of axis `a`, by the code it carries (R79). -/
def State.axisCommandWrite (a : Axis) (v : Word) (s : State) : State :=
  match (commandCode v).toNat with
  | 0 => s.noneWrite a v
  | 1 => s.commandWrite a v (startCheck a) (startEffect a)
  | 2 => s.commandWrite a v (pauseCheck a) (State.pauseAxis a)
  | 3 => s.commandWrite a v (resumeCheck a) (resumeEffect a)
  | 4 => s.commandWrite a v (abortCheck a) (State.halt a .aborted 0)
  | 5 => s.commandWrite a v (clearCheck a) (clearEffect a)
  | 6 => s.commandWrite a v (interjectCheck a v) (interjectEffect a v)
  | 7 => s.commandWrite a v (withdrawCheck a v) (withdrawEffect a v)
  | 8 => s.commandWrite a v (setposCheck a) (setposEffect a)
  | _ => s.commandWrite a v (fun _ => .unknownCommand) id

/-! ### The meanings -/

/-- NONE (R79, R80). -/
def execAxisNone (a : Axis) (arg : BitVec 12) (s : State) : Host.Outcome State Fault Refusal :=
  .next (s.noneWrite a (commandWord 0 arg))

/-- START (R82). -/
def execStart (a : Axis) (arg : BitVec 12) (s : State) : Host.Outcome State Fault Refusal :=
  .next (s.commandWrite a (commandWord 1 arg) (startCheck a) (startEffect a)).settled

/-- PAUSE (R83, R84). -/
def execPause (a : Axis) (arg : BitVec 12) (s : State) : Host.Outcome State Fault Refusal :=
  .next (s.commandWrite a (commandWord 2 arg) (pauseCheck a) (State.pauseAxis a)).settled

/-- RESUME (R86, R87). -/
def execResume (a : Axis) (arg : BitVec 12) (s : State) : Host.Outcome State Fault Refusal :=
  .next (s.commandWrite a (commandWord 3 arg) (resumeCheck a) (resumeEffect a)).settled

/-- ABORT (R88). -/
def execAbort (a : Axis) (arg : BitVec 12) (s : State) : Host.Outcome State Fault Refusal :=
  .next (s.commandWrite a (commandWord 4 arg) (abortCheck a) (State.halt a .aborted 0)).settled

/-- CLEAR (R89). -/
def execClear (a : Axis) (arg : BitVec 12) (s : State) : Host.Outcome State Fault Refusal :=
  .next (s.commandWrite a (commandWord 5 arg) (clearCheck a) (clearEffect a)).settled

/-- INTERJECT (R90). -/
def execInterject (a : Axis) (arg : BitVec 12) (s : State) : Host.Outcome State Fault Refusal :=
  let v := commandWord 6 arg
  .next (s.commandWrite a v (interjectCheck a v) (interjectEffect a v)).settled

/-- WITHDRAW (R91). -/
def execWithdraw (a : Axis) (arg : BitVec 12) (s : State) : Host.Outcome State Fault Refusal :=
  let v := commandWord 7 arg
  .next (s.commandWrite a v (withdrawCheck a v) (withdrawEffect a v)).settled

/-- SETPOS (R92). -/
def execSetpos (a : Axis) (arg : BitVec 12) (s : State) : Host.Outcome State Fault Refusal :=
  .next (s.commandWrite a (commandWord 8 arg) (setposCheck a) (setposEffect a)).settled

/-- UNKNOWN_COMMAND: a code of 9 to 15 (R80). A code below 9 is the command of that code (R79,
log 18). -/
def execUnknownCommand (a : Axis) (code : BitVec 4) (arg : BitVec 12) (s : State) :
    Host.Outcome State Fault Refusal :=
  .next (s.axisCommandWrite a (commandWord code arg)).settled

end Sys2Proof.Machine
end

