-- ==== Sys2Proof/Machine/Events.lean ====
section
/-!
DEFINITION. The timed events of the blocks and the tick boundary (R22, R61 to R67, R70, R74, R126,
R134 to R144, R162). An event that is not due does not arise: the state stays as it is (log 4).
-/
namespace Sys2Proof.Machine

/-! ### Step generation -/

/-- A step boundary at which steps remain: the pause, the acceptance check, or the next step due (R70
steps 2 to 4). -/
def State.boundary (a : Axis) (s : State) : State :=
  let s := s.setGate a .idle
  let x := s.ax a
  if x.state = .pausing then s.setAxState a .paused
  else if x.acceptable then s.accept a
  else s.stepDue a

/-- The end of a step's length: completion of a RUN with no steps left, with the pause or the push at
the begin point that follows (R70 step 1, R83, R108); else the boundary. -/
def State.stepBoundary (a : Axis) (s : State) : State :=
  let x := s.ax a
  match x.ctx with
  | none => s
  | some c =>
    match c.phase with
    | .inSegment (.run remaining _ _ _ _ report tag) =>
      if remaining = 0 then
        s.complete a c .run report tag none (x.state != .pausing && x.acceptable)
      else s.boundary a
    | _ => s

/-- STEP_BOUNDARY (R70). -/
def execStepBoundary (a : Axis) (s : State) : Host.Outcome State Fault Refusal :=
  if s.stepBoundaryDue a then .next (s.stepBoundary a).settled else .next s

/-- LEAD_GAP_END: a step boundary at which the held step becomes due again (R67). -/
def execLeadGapEnd (a : Axis) (s : State) : Host.Outcome State Fault Refusal :=
  if s.leadGapDue a then .next (s.boundary a).settled else .next s

/-- STEP_START (R61). -/
def execStepStart (a : Axis) (s : State) : Host.Outcome State Fault Refusal :=
  if s.stepStartDue a then .next (s.setAx a ((s.ax a).startStep s.now)) else .next s

/-- PULSE_END (R63, R66, R34). -/
def execPulseEnd (a : Axis) (s : State) : Host.Outcome State Fault Refusal :=
  if s.pulseEndDue a then .next (s.setAx a ((s.ax a).endPulse s.dirlead s.now)) else .next s

/-! ### DWELL and WAIT_INPUT -/

/-- Axis `a` is DWELLING with no ticks left (R74). -/
def State.dwellDue (s : State) (a : Axis) : Bool :=
  s.dev == .running && (s.ax a).state == .dwelling &&
    match (s.ax a).ctx with
    | none => false
    | some c =>
      match c.phase with
      | .inSegment (.dwell ticks _ _) => ticks == 0
      | _ => false

/-- The DWELL completes (R74). -/
def State.dwellExpiry (a : Axis) (s : State) : State :=
  match (s.ax a).ctx with
  | none => s
  | some c =>
    match c.phase with
    | .inSegment (.dwell _ report tag) => s.complete a c .dwell report tag none false
    | _ => s

/-- DWELL_EXPIRY (R74). -/
def execDwellExpiry (a : Axis) (s : State) : Host.Outcome State Fault Refusal :=
  if s.dwellDue a then .next (s.dwellExpiry a).settled else .next s

/-- Axis `a` is in WAIT_INPUT with a remaining timeout of 0 (R143). -/
def State.waitTimeoutDue (s : State) (a : Axis) : Bool :=
  s.dev == .running && (s.ax a).state == .waitInput &&
    match (s.ax a).ctx with
    | none => false
    | some c =>
      match c.phase with
      | .inSegment (.waitInput _ _ timeout _ _ _) => timeout == some 0
      | _ => false

/-- The timeout of the WAIT_INPUT takes effect (R144). -/
def State.waitTimeout (a : Axis) (s : State) : State :=
  match (s.ax a).ctx with
  | none => s
  | some c =>
    match c.phase with
    | .inSegment (.waitInput n _ _ timeoutHalt _ tag) => s.waitExpires a c n timeoutHalt tag
    | _ => s

/-- WAIT_INPUT_TIMEOUT (R143, R144). -/
def execWaitInputTimeout (a : Axis) (s : State) : Host.Outcome State Fault Refusal :=
  if s.waitTimeoutDue a then .next (s.waitTimeout a).settled else .next s

/-! ### Deadlines of the timebase -/

/-- The deadline of point `j` has come (R126); no deadline falls due outside RUNNING (R120). -/
def State.joinTimeoutDue (s : State) (j : Point) : Bool :=
  s.dev == .running && (s.point j).state == .opened && (s.point j).deadline == some s.timebase

/-- JOIN_TIMEOUT: the point breaks with cause TIMEOUT (R126). -/
def execJoinTimeout (j : Point) (s : State) : Host.Outcome State Fault Refusal :=
  if s.joinTimeoutDue j then .next (s.breakPoint j .timeout).settled else .next s

/-- The aging deadline has come; the timebase counts in RUNNING and STOPPING only (R22, R162). -/
def State.agingDue (s : State) : Bool :=
  (s.dev == .running || s.dev == .stopping) && s.report.deadline == some s.timebase

/-- AGING_EXPIRY: the FILLING page closes with reason AGED, and its deadline is gone (R154, R162). -/
def execAgingExpiry (s : State) : Host.Outcome State Fault Refusal :=
  if s.agingDue then
    .next ((s.closeIfRecords .aged s.timebase).mapReport fun r => { r with deadline := none })
  else .next s

/-! ### Input lines -/

/-- The sample just taken was the last that the filter of line `n` needs: filter length + 1
consecutive samples have differed from the qualified level (R134). -/
def State.changeDue (s : State) (n : Line) : Bool :=
  s.dev == .running && (s.lineSetup n).filter.toNat + 1 ≤ (s.line n).runCount

/-- A change to `level` matches an edge sense (R135). -/
def EdgeSense.isMatch (e : EdgeSense) (level : Bool) : Bool :=
  match e with
  | .off => false
  | .rising => level
  | .falling => !level
  | .both => true

/-- The action of line `n` is sent to each axis in its mask (R136, R138 to R140). -/
def State.sendAction (n : Line) (s : State) : State :=
  let l := s.lineSetup n
  match l.action with
  | .off => s
  | .halt => s.pushEach (fun a => .tripHalt a n) (maskAxes l.actionMask)
  | .pause => s.pushEach (fun a => .tripPause a n) (maskAxes l.actionMask)
  | .interject => s.pushEach (fun a => .tripInterject a n) (maskAxes l.actionMask)

/-- The edge of line `n`: its CAPTURE record and its action (R136). -/
def State.edge (n : Line) (level : Bool) (s : State) : State :=
  let s := if (s.lineSetup n).capture then s.push (.capture n level) else s
  s.sendAction n

/-- A qualified change of line `n`: mirror word, waits, edge (R135). -/
def State.qualifiedChange (n : Line) (s : State) : State :=
  let level := !(s.line n).qualified
  let s := s.setLine n { qualified := level, runCount := 0 }
  let s := s.write (lineWord n 7) (if level then 1 else 0)
  let s := s.pushEach (fun a => .levelSeen a n) (allAxes.filter fun a => (s.ax a).waitsOn n)
  if (s.lineSetup n).edge.isMatch level then s.edge n level else s

/-- QUALIFIED_CHANGE (R135). -/
def execQualifiedChange (n : Line) (s : State) : Host.Outcome State Fault Refusal :=
  if s.changeDue n then .next (s.qualifiedChange n).settled else .next s

/-! ### The tick boundary -/

/-- An event of the current tick that has not been taken (log 5). -/
def State.anyDue (s : State) : Bool :=
  allAxes.any (fun a => s.stepBoundaryDue a || s.leadGapDue a || s.stepStartDue a ||
      s.pulseEndDue a || s.dwellDue a || s.waitTimeoutDue a) ||
    allSixteen.any (fun j => s.joinTimeoutDue j) ||
    s.agingDue ||
    allSixteen.any (fun n => s.changeDue n)

/-- One filter step with a raw sample; the run count reaches filter length + 1 when the change is
qualified, which QUALIFIED_CHANGE then takes at this tick (R134). -/
def InputLine.sample (l : InputLine) (raw : Bool) : InputLine :=
  if raw = l.qualified then { l with runCount := 0 } else { l with runCount := l.runCount + 1 }

/-- The counts of an axis fall by 1: the ticks of a DWELL while DWELLING, the timeout of a WAIT_INPUT
while in WAIT_INPUT (R74, R143). -/
def AxisEngine.countDown (x : AxisEngine) : AxisEngine :=
  match x.ctx with
  | none => x
  | some c =>
    match x.state, c.phase with
    | .dwelling, .inSegment (.dwell ticks report tag) =>
      { x with ctx := some { c with phase := .inSegment (.dwell (ticks - 1) report tag) } }
    | .waitInput, .inSegment (.waitInput n level (some t) timeoutHalt report tag) =>
      { x with
        ctx := some
          { c with phase := .inSegment (.waitInput n level (some (t - 1)) timeoutHalt report tag) } }
    | _, _ => x

/-- The timebase counts in RUNNING and STOPPING (R22). -/
def State.advanceTimebase (s : State) : State :=
  match s.dev with
  | .running => { s with timebase := s.timebase + 1 }
  | .stopping => { s with timebase := s.timebase + 1 }
  | .stopped => s
  | .init _ => s

/-- In RUNNING each line takes a sample and the counts fall (R24, R134). -/
def State.sampleAndCount (raw : BitVec 16) (s : State) : State :=
  if s.dev = .running then
    let lines := table16 fun n => (s.line n).sample (raw.getLsbD n.val)
    ({ s with lines := lines }).mapAxes fun _ x => x.countDown
  else s

/-- A tick ends with the writes that fall at its end, and the next begins (R16, R22, R134). -/
def State.tick (raw : BitVec 16) (s : State) : State :=
  let s := s.endTick
  let s := { s with now := s.now + 1, rawLevels := raw }
  s.advanceTimebase.sampleAndCount raw

/-- TICK_BOUNDARY (R22). While an event of the current tick has not been taken the tick does not end:
nothing happens (log 5). -/
def execTickBoundary (raw : BitVec 16) (s : State) : Host.Outcome State Fault Refusal :=
  if s.anyDue then .next s else .next (s.tick raw)

end Sys2Proof.Machine
end

