-- ==== Sys2Proof/Machine/HostRam.lean ====
section
/-!
DEFINITION. Host writes to the exchange RAM (chapter 1) and the events of the write monitor: the
words of starved axes (R14, R55, R56), join control words (R131), slot state words (R151).
-/
namespace Sys2Proof.Machine

/-- Axis `a` is STARVED and watches the word of wait `w` (R14): the dynamic watch stands exactly while
the axis is STARVED with its running context in that wait (log 19). -/
def State.watches (s : State) (a : Axis) (w : Wait) : Bool :=
  (s.ax a).state == .starved &&
    match (s.ax a).ctx with
    | none => false
    | some c => c.phase == .starved w

/-- The axes that watch the word of wait `w`. -/
def State.watchers (s : State) (w : Wait) : List Axis := allAxes.filter fun a => s.watches a w

/-- The entry transactions of the axes of a list, into the page named by `value`, one after another in
the free order, ahead of all that their claims lead to (R9, R56; log 6). -/
def State.enterEach (value : Word) (header : Option Word) (as : List Axis) (s : State) : State :=
  s.inFreeOrder (fun a s => s.enter a value header false) as.length as

/-- A host write of `v` to the link word of page `q` is an event for every axis that watches it: 0
keeps the wait, another value is followed as a link (R14, R55). -/
def State.linkWordEvent (q : Page) (v : Word) (s : State) : State :=
  if v = 0 ∨ s.dev ≠ .running then s else s.enterEach v none (s.watchers (.link q))

/-- A host write of `v` to the state word of page `p` is an event for every axis that watches it: FREE
keeps the wait, with another value the entry transaction is made with `v` as the header state (R14,
R56). -/
def State.stateWordEvent (p : Page) (v : Word) (s : State) : State :=
  if v = 0 ∨ s.dev ≠ .running then s
  else s.enterEach (pageNumber p) (some v) (s.watchers (.state p))

/-- A host write of `v` to the control word of point `j`: 1 opens a BROKEN point while the device is
RUNNING; anything else is ignored (R131). -/
def State.joinControlWrite (j : Point) (v : Word) (s : State) : State :=
  if s.inInit then s
  else
    let s := s.write (joinWord j 2) v
    let p := s.point j
    if s.dev = .running ∧ v = 1 ∧ p.state ≠ .opened then
      let s := s.setPoint j { p with state := .opened, arrivals := 0 }
      (s.write (joinWord j 4) 0).write (joinWord j 3) 0
    else s

/-- The state a slot takes from a host write of `v`, when it is not FILLING (R151). -/
def SlotState.hostWritten (old : SlotState) (v : Word) : SlotState :=
  match v.toNat with
  | 1 => .empty
  | 3 => match old with
    | .full p => .full p
    | .filling _ _ _ => .full none
    | .unused => .full none
    | .empty => .full none
    | .bad => .full none
  | 4 => .bad
  | _ => .unused

/-- A host write of `v` to the state word of slot `k` (R151): a FILLING slot answers by FILLING and
SLOT_FAULT; another slot takes the state written, and EMPTY starts a drain if anything is kept (R160).
The last owed record placed ends STOPPING (R31). -/
def State.slotStateWrite (k : Slot) (v : Word) (s : State) : State :=
  if s.inInit then s
  else
    let s := s.write (slotStateWord k) v
    if (s.slot k).isFilling then (s.write (slotStateWord k) 2).setCause .slotFault
    else
      let s := s.setSlot k ((s.slot k).hostWritten v)
      if v = 1 ∧ s.keepsRecords then s.drain.checkStopped else s

/-- A host write of `v` to a word that is no fixed watched word: discarded in INIT (R19, R20); else
stored, and an event for the axes that watch the word as the link word or the state word of its page
(R14). -/
def State.plainWrite (addr : Addr) (v : Word) (s : State) : State :=
  if s.inInit then s
  else
    let s := s.write addr v
    let p : Page := addr.extractLsb' 8 7
    let off : BitVec 8 := addr.extractLsb' 0 8
    if off = 1 then s.stateWordEvent p v
    else if off = 2 then s.linkWordEvent p v
    else s

/-- A host write of `v` to any word: to the owner of a watched word, else stored (R12, R14, R16). -/
def State.hostWrite (addr : Addr) (v : Word) (s : State) : State :=
  match watchOwner addr with
  | .axisCommand a => s.axisCommandWrite a v
  | .joinControl j => s.joinControlWrite j v
  | .slotState k => s.slotStateWrite k v
  | .unwatched => s.plainWrite addr v

/-- HOST_RAM_WRITE (R16). A write to a watched word is the event of that word (log 18). -/
def execHostRamWrite (addr : Addr) (value : Word) (s : State) : Host.Outcome State Fault Refusal :=
  .next (s.hostWrite addr value).settled

/-- REARM and every other write to a join control word (R131). -/
def execRearm (j : Point) (value : Word) (s : State) : Host.Outcome State Fault Refusal :=
  .next (s.joinControlWrite j value)

/-- SLOT_STATE_WRITE (R151). -/
def execSlotStateWrite (k : Slot) (value : Word) (s : State) : Host.Outcome State Fault Refusal :=
  .next (s.slotStateWrite k value).settled

/-- LINK_WORD_EVENT: a host write to the link word of page `p` (R55). Where no axis watches the word
it is only stored (R14, log 18). -/
def execLinkWordEvent (p : Page) (value : Word) (s : State) : Host.Outcome State Fault Refusal :=
  if s.inInit then .next s
  else .next ((s.write (pageWord p 2) value).linkWordEvent p value).settled

/-- STATE_WORD_EVENT: a host write to the state word of page `p` (R56). Where no axis watches the
word it is only stored (R14, log 18). -/
def execStateWordEvent (p : Page) (value : Word) (s : State) : Host.Outcome State Fault Refusal :=
  if s.inInit then .next s
  else .next ((s.write (pageWord p 1) value).stateWordEvent p value).settled

end Sys2Proof.Machine
end

