-- ==== Sys2Proof/Machine/Resets.lean ====
section
/-!
DEFINITION. Hard reset, zero fill, soft reset and its scan (R19, R20, R32 to R34, R165).
-/
namespace Sys2Proof.Machine

/-- The axis engine after a hard reset: at power-on with both outputs 0, else with a pulse that runs
out and DIR that follows it (R33, R34). -/
def AxisEngine.hardReset (kind : ResetKind) (x : AxisEngine) : AxisEngine :=
  match kind with
  | .pin => x.resetKeepingPulse
  | .powerOn => AxisEngine.reset

/-- HARD_RESET: every block at its reset value, the device held at the start of INIT (R33). The words
of the exchange RAM are cleared by the zero fill that follows (R19, log 2). The waiting commands are
the sender's. -/
def execHardReset (kind : ResetKind) (s : State) : Host.Outcome State Fault Refusal :=
  .next
    { State.reset with
      ram := s.ram
      axes := table8 fun a => (s.ax a).hardReset kind
      rawLevels := s.rawLevels
      now := s.now
      freeCount := s.freeCount
      pending := s.pending }

/-- RESET_N_RELEASE: the zero fill begins (R33). With RESET_N not held it does not arise (log 4). -/
def execResetNRelease (s : State) : Host.Outcome State Fault Refusal :=
  if s.dev = .init .held then .next { s with dev := .init .zeroFill } else .next s

/-- STEP of some axis is high: INIT does not end yet, since every axis leaves it with STEP low and DIR 0
(R34, log 29). -/
def State.anyPulse (s : State) : Bool := allAxes.any fun a => (s.ax a).step.isHigh

/-- ZERO_FILL_END: every word of the exchange RAM is 0, the device is STOPPED and ACAUSE holds
RESET_DONE alone (R19, R33, R34). With no zero fill running it does not arise (log 4). -/
def execZeroFillEnd (s : State) : Host.Outcome State Fault Refusal :=
  if s.dev = .init .zeroFill ∧ s.anyPulse = false then
    .next { s with ram := [], dev := .stopped, acause := AlertCause.resetDone.bit }
  else .next s

/-- An axis engine after a soft reset: internal state at its reset values, the pulse running out; the
words last written to its status block and the update count stand (R18, R32, R34, R100, log 26). -/
def AxisEngine.softReset (x : AxisEngine) : AxisEngine :=
  { x.resetKeepingPulse with copy := x.copy, updateCount := x.updateCount }

/-- The report unit when SOFT_RESET is taken: queue, owed store, wait list, drop count and deadline go
(R32, R165 items 3 and 4); slots, numbering and counts stand until the scan. -/
def ReportUnit.softReset (r : ReportUnit) : ReportUnit :=
  { r with queue := [], owed := ReportUnit.reset.owed, waitList := [], drops := 0, deadline := none }

/-- SOFT_RESET taken: the writes owed in this tick are made, the timebase is kept for the scan, and the
blocks return to their reset values (R18, R25, R32). -/
def State.softReset (s : State) : State :=
  let s := s.endTick
  { s with
    dev := .init (.scan s.timebase)
    timebase := 0
    timeLatch := 0
    cmdBack := none
    faultCode := .ok
    faultIndex := 0
    acause := 0
    amask := 0
    setup := .reset
    axes := table8 fun a => (s.ax a).softReset
    points := State.reset.points
    lines := State.reset.lines
    report := s.report.softReset
    agenda := [] }

/-- SOFT_RESET: ignored in INIT (R25, R32). -/
def State.softResetCommand (s : State) : State := if s.inInit then s else s.softReset

/-- SOFT_RESET (R32). -/
def execSoftReset (s : State) : Host.Outcome State Fault Refusal := .next s.softResetCommand

/-- The FILLING slot at the scan: closed with reason RESET if its page holds records, else returned to
EMPTY (R20, R165). -/
def State.scanFilling (kept : Time) (s : State) : State :=
  match s.filling with
  | none => s
  | some (k, _, records, _) =>
    if records = 0 then s.writeSlot k .empty else s.closePage .reset kept

/-- The scan: every claim released with the kept time, the FILLING slot, the last closed slot (R20,
R165). -/
def State.scan (kept : Time) (s : State) : State :=
  let s := s.releaseList kept s.claims
  let s := { s with claims := [] }
  (s.scanFilling kept).mapReport fun r => { r with lastClosed := 7 }

/-- SOFT_RESET_SCAN_END: the scan is done, the device is STOPPED and ACAUSE holds RESET_DONE alone
(R20, R32, R34). With no scan running it does not arise (log 4). -/
def execSoftResetScanEnd (s : State) : Host.Outcome State Fault Refusal :=
  match s.dev with
  | .init (.scan kept) =>
    if s.anyPulse then .next s
    else .next { s.scan kept with dev := .stopped, acause := AlertCause.resetDone.bit }
  | .init .held => .next s
  | .init .zeroFill => .next s
  | .stopped => .next s
  | .running => .next s
  | .stopping => .next s

end Sys2Proof.Machine
end

