-- ==== Sys2Proof/Machine/RunControl.lean ====
section
/-!
DEFINITION. Run control (chapter 2) and FLUSH (R163): the setup copy and its validation, RUN_START,
RUN_STOP, FLUSH and SNAP.
-/
namespace Sys2Proof.Machine

/-- The CMD read-back shows a code and a result (R25, R168). -/
def State.readBack (code : BitVec 4) (result : CmdResult) (s : State) : State :=
  { s with cmdBack := some (code, result) }

/-! ### The setup copy (R26) -/

/-- The soft limits of axis `a` as they stand in its axis block. -/
def Memory.axisLimits (m : Memory) (a : Axis) : AxisLimits :=
  { enabled := (m.read (axisWord a 5)).getLsbD 0
    min := m.read32 (axisWord a 6) (axisWord a 7)
    max := m.read32 (axisWord a 8) (axisWord a 9) }

/-- The members and timeout of point `j` as they stand in its join entry. -/
def Memory.pointSetup (m : Memory) (j : Point) : PointSetup :=
  { members := (m.read (joinWord j 0)).extractLsb' 0 8, timeout := m.read (joinWord j 1) }

/-- The setup of line `n` as it stands in its input entry (R133). -/
def Memory.lineSetup (m : Memory) (n : Line) : LineSetup :=
  { filter := (m.read (lineWord n 0)).extractLsb' 0 4
    edge := edgeSense (m.read (lineWord n 1))
    action := lineAction (m.read (lineWord n 2))
    actionMask := (m.read (lineWord n 3)).extractLsb' 0 8
    capture := (m.read (lineWord n 4)).getLsbD 0
    captureMask := (m.read (lineWord n 5)).extractLsb' 0 8
    head := m.read (lineWord n 6) }

/-- The candidate copy of the setup (R26). -/
def Memory.setup (m : Memory) : Setup :=
  { tickdiv := (m.read 0x0000).extractLsb' 0 8
    dirlead := (m.read 0x0001).extractLsb' 0 8
    enabled := (m.read 0x0002).extractLsb' 0 8
    reportAge := m.read 0x0003
    recordMask := (m.read 0x0004).extractLsb' 0 8
    limits := table8 m.axisLimits
    points := table16 m.pointSetup
    lines := table16 m.lineSetup }

/-! ### Validation (R27) -/

/-- A mask names an axis that is not enabled. -/
def Setup.namesDisabled (c : Setup) (m : AxisMask) : Bool := m &&& ~~~c.enabled != 0

/-- Checks of axis `a`: AXIS_LIMITS. -/
def Setup.axisFault (c : Setup) (a : Axis) : Option SetupFault :=
  let l := c.limits[a]
  if inMask c.enabled a ∧ l.enabled ∧
      (0 < l.min.toInt ∨ l.max.toInt < 0 ∨ l.max.toInt < l.min.toInt) then some .axisLimits
  else none

/-- Checks of point `j`: JOIN_MEMBERS. -/
def Setup.pointFault (c : Setup) (j : Point) : Option SetupFault :=
  if c.namesDisabled c.points[j].members then some .joinMembers else none

/-- Checks of line `n`: INPUT_AXES, then INPUT_HEAD. -/
def Setup.lineFault (c : Setup) (n : Line) : Option SetupFault :=
  let l := c.lines[n]
  if (l.action ≠ .off ∧ c.namesDisabled l.actionMask) ∨ (l.capture ∧ c.namesDisabled l.captureMask)
  then some .inputAxes
  else if l.action = .interject ∧ (generalPage? l.head).isNone then some .inputHead
  else none

/-- The first item of a list that fails, with its index. -/
def firstFailing {n : Nat} (f : Fin n → Option SetupFault) :
    List (Fin n) → Option (SetupFault × BitVec 4)
  | [] => none
  | i :: is =>
    match f i with
    | some e => some (e, BitVec.ofNat 4 i.val)
    | none => firstFailing f is

/-- The first failing check: setup block, axes, join points, lines (R27). -/
def Setup.firstFault (c : Setup) : Option (SetupFault × BitVec 4) :=
  if c.enabled = 0 then some (.noAxes, 0)
  else
    match firstFailing c.axisFault allAxes with
    | some e => some e
    | none =>
      match firstFailing c.pointFault allSixteen with
      | some e => some e
      | none => firstFailing c.lineFault allSixteen

/-! ### RUN_START (R28, R29) -/

/-- The axis engine at the start of a span: IDLE if enabled, else OFF; nothing held; its status block
is to be rewritten whole (R29 items 3 and 4). -/
def AxisEngine.atRunStart (x : AxisEngine) (enabled : Bool) (now : Nat) : AxisEngine :=
  ({ x with
      state := if enabled then .idle else .off
      ctx := none
      stack := []
      requests := .empty
      position := 0
      gate := .idle
      haltCause := none
      haltDetail := 0
      haltLevel := 0
      shownPage := 0
      shownIndex := 0
      shownRemaining := 0
      beganCount := none
      copy := []
      dirty := true } : AxisEngine).zeroDirAtRunStart now

/-- The line loads a raw level as its qualified level (R29 item 6). -/
def InputLine.loaded (level : Bool) : InputLine := { qualified := level, runCount := 0 }

/-- Write the state, arrivals mask and generation of every join entry as 0 (R29 item 5). -/
def State.writeJoinEntries : List Point → State → State
  | [], s => s
  | j :: l, s => State.writeJoinEntries l (s.writeWords (joinWord j 3) [0, 0, 0])

/-- Write the qualified level of every line to its mirror word (R29 item 6). -/
def State.writeMirrors : List Line → State → State
  | [], s => s
  | n :: l, s =>
    State.writeMirrors l (s.write (lineWord n 7) (if (s.line n).qualified then 1 else 0))

/-- A page that is FILLING and holds records gets its aging deadline from tick 0 (R162). -/
def State.restartAging (s : State) : State :=
  match s.filling with
  | none => s
  | some (_, _, records, _) =>
    if records = 0 then s
    else
      let deadline := s.agingDeadline
      s.mapReport fun r => { r with deadline := deadline }

/-- RUN_START with a setup that fails validation (R28). -/
def State.refuseStart (fault : SetupFault) (index : BitVec 4) (s : State) : State :=
  ({ s with faultCode := fault, faultIndex := index }.setCause .setupBad).readBack 1 .refused

/-- RUN_START with a valid setup (R29). The tick divider restarts, so the tick ends (R21): a snapshot
asked for in it is written first, and the status blocks are rewritten before the write cycle ends
(log 8, log 27). That rewrite takes in what was owed before it in the tick, and an event at the axis
later in tick 0 is rewritten in a second bracket (log 31). -/
def State.startSpan (c : Setup) (raw : BitVec 16) (s : State) : State :=
  let s := s.flushSnap
  let s := { s with setup := c, timebase := 0 }
  let s := s.mapAxes fun a x => x.atRunStart (inMask c.enabled a) s.now
  let s := { s with points := table16 fun _ => JoinPoint.reset }
  let s := s.writeJoinEntries allSixteen
  let s := { s with lines := table16 fun n => InputLine.loaded (raw.getLsbD n.val) }
  let s := s.writeMirrors allSixteen
  let s := { s with dev := .running, faultCode := .ok, faultIndex := 0 }
  (s.restartAging.readBack 1 .taken).flushAll

/-- RUN_START (R25, R26 to R29): ignored in INIT, refused in RUNNING and STOPPING. -/
def State.runStartCommand (raw : BitVec 16) (s : State) : State :=
  match s.dev with
  | .init _ => s
  | .running => s.readBack 1 .refused
  | .stopping => s.readBack 1 .refused
  | .stopped =>
    let c := Memory.setup s.ram
    match c.firstFault with
    | some (fault, index) => s.refuseStart fault index
    | none => s.startSpan c raw

/-- RUN_START (R29). -/
def execRunStart (raw : BitVec 16) (s : State) : Host.Outcome State Fault Refusal :=
  .next (s.runStartCommand raw)

/-! ### RUN_STOP (R30, R31) -/

/-- RUN_STOP taken in RUNNING: every active axis halts, the breaks that follow are taken, and the
device becomes STOPPED, or STOPPING while an axis owes a record (R30). -/
def State.stopSpan (s : State) : State :=
  let active := allAxes.filter fun a => (s.ax a).state.active
  let s := s.inFreeOrder (fun a s => s.halt a .runStopped 0) active.length active
  let s := s.settled
  let s := if s.report.waitList = [] then s.enterStopped else { s with dev := .stopping }
  s.readBack 2 .taken

/-- RUN_STOP (R25, R30): ignored in INIT, refused in STOPPED and STOPPING. -/
def State.runStopCommand (s : State) : State :=
  match s.dev with
  | .init _ => s
  | .stopped => s.readBack 2 .refused
  | .stopping => s.readBack 2 .refused
  | .running => s.stopSpan

/-- RUN_STOP (R30). -/
def execRunStop (s : State) : Host.Outcome State Fault Refusal := .next s.runStopCommand

/-! ### FLUSH and SNAP -/

/-- FLUSH closes the FILLING page if it holds records; taken in every state but INIT (R163, R25). -/
def State.flushCommand (s : State) : State :=
  if s.inInit then s else (s.closeIfRecords .flush s.timebase).readBack 4 .taken

/-- FLUSH (R163). -/
def execFlush (s : State) : Host.Outcome State Fault Refusal := .next s.flushCommand

/-- SNAP, taken in every state but INIT (R25): the snapshot of this tick is asked for, and written at
the end of the tick, with every step that starts in the tick (R35, log 27). -/
def State.snapCommand (s : State) : State :=
  if s.inInit then s else { s with snapsOwed := s.snapsOwed + 1 }.readBack 5 .taken

/-- SNAP (R35). -/
def execSnap (s : State) : Host.Outcome State Fault Refusal := .next s.snapCommand

end Sys2Proof.Machine
end

