-- ==== Sys2Proof/Machine/Registers.lean ====
section
/-!
DEFINITION. Host accesses to the register window (chapter 10): the registers by their offsets, a write
by register, and the rows of the register window that are not one run-control command.
-/
namespace Sys2Proof.Machine

/-! ### The registers by offset (R166) -/

/-- The register that address lines A3 to A1 select (R166). -/
def Reg.ofOffset (offset : BitVec 3) : Reg :=
  match offset.toNat with
  | 0 => .id
  | 1 => .cmd
  | 2 => .stat
  | 3 => .acause
  | 4 => .amask
  | 5 => .time0
  | 6 => .time1
  | _ => .time2

/-- What a host read at an offset returns (R166). -/
def State.readOffset (s : State) (offset : BitVec 3) : Word := s.readRegister (Reg.ofOffset offset)

/-! ### Writes (R25, R166, R171, R172) -/

/-- A host write of `value` to CMD: bits 3:0 are the command code, the other bits are ignored; a code of
no command is refused (R25, R168). RUN_START loads the levels now on the input pins (R29 item 6,
log 22). -/
def State.cmdWrite (value : Word) (s : State) : State :=
  let code : BitVec 4 := value.extractLsb' 0 4
  match code.toNat with
  | 1 => s.runStartCommand s.rawLevels
  | 2 => s.runStopCommand
  | 3 => s.softResetCommand
  | 4 => s.flushCommand
  | 5 => s.snapCommand
  | _ => if s.inInit then s else s.readBack code .refused

/-- A host write of `value` to ACAUSE: each cause bit written as 1 is cleared; ignored in INIT (R171,
R166). -/
def State.acauseWrite (value : Word) (s : State) : State :=
  if s.inInit then s else s.clearCauses value

/-- A host write of `value` to AMASK: bits 9:0 are stored; ignored in INIT (R172, R166). -/
def State.amaskWrite (value : Word) (s : State) : State :=
  if s.inInit then s else { s with amask := value.extractLsb' 0 10 }

/-- A host write of `value` to a register: to CMD, ACAUSE or AMASK, else ignored (R166). -/
def State.registerWrite (reg : Reg) (value : Word) (s : State) : State :=
  match reg with
  | .id => s
  | .cmd => s.cmdWrite value
  | .stat => s
  | .acause => s.acauseWrite value
  | .amask => s.amaskWrite value
  | .time0 => s
  | .time1 => s
  | .time2 => s

/-! ### The meanings -/

/-- CMD_NONE_CODE: a write to CMD with a code of no command (R25). A value that carries one of the codes
1 to 5 is the command of that code (log 18). -/
def execCmdNoneCode (value : Word) (s : State) : Host.Outcome State Fault Refusal :=
  .next (s.cmdWrite value)

/-- ACAUSE_WRITE (R171). -/
def execAcauseWrite (value : Word) (s : State) : Host.Outcome State Fault Refusal :=
  .next (s.acauseWrite value)

/-- AMASK_WRITE (R172). -/
def execAmaskWrite (value : Word) (s : State) : Host.Outcome State Fault Refusal :=
  .next (s.amaskWrite value)

/-- TIME0_READ: the port returns timebase bits 15:0 and bits 47:16 go to the time latch, in every
device state (R173, R166). -/
def execTime0Read (s : State) : Host.Outcome State Fault Refusal :=
  .next { s with portData := s.readRegister .time0, timeLatch := s.timebase.extractLsb' 16 32 }

/-- REGISTER_WRITE_IGNORED: a write to ID, STAT or TIME0 to TIME2, or in INIT to any register, changes
nothing (R166). A write to CMD, ACAUSE or AMASK outside INIT is the write to that register (log 18). -/
def execRegisterWriteIgnored (offset : BitVec 3) (value : Word) (s : State) :
    Host.Outcome State Fault Refusal :=
  .next (s.registerWrite (Reg.ofOffset offset) value)

end Sys2Proof.Machine
end

