-- ==== Sys2Proof/Machine/Dispatch.lean ====
section
/-!
DEFINITION. The effect of each command on everything but the queue: one arm per constructor.
-/
namespace Sys2Proof.Machine

def exec (i : Instr) (s : State) : Host.Outcome State Fault Refusal :=
  match i with
  | .hardReset kind => Sys2Proof.Machine.execHardReset kind s
  | .zeroFillEnd => Sys2Proof.Machine.execZeroFillEnd s
  | .softReset => Sys2Proof.Machine.execSoftReset s
  | .softResetScanEnd => Sys2Proof.Machine.execSoftResetScanEnd s
  | .runStart raw => Sys2Proof.Machine.execRunStart raw s
  | .runStop => Sys2Proof.Machine.execRunStop s
  | .flush => Sys2Proof.Machine.execFlush s
  | .snap => Sys2Proof.Machine.execSnap s
  | .cmdNoneCode value => Sys2Proof.Machine.execCmdNoneCode value s
  | .acauseWrite value => Sys2Proof.Machine.execAcauseWrite value s
  | .amaskWrite value => Sys2Proof.Machine.execAmaskWrite value s
  | .time0Read => Sys2Proof.Machine.execTime0Read s
  | .registerWriteIgnored offset value => Sys2Proof.Machine.execRegisterWriteIgnored offset value s
  | .hostRamWrite addr value => Sys2Proof.Machine.execHostRamWrite addr value s
  | .axisNone a arg => Sys2Proof.Machine.execAxisNone a arg s
  | .start a arg => Sys2Proof.Machine.execStart a arg s
  | .pause a arg => Sys2Proof.Machine.execPause a arg s
  | .resume a arg => Sys2Proof.Machine.execResume a arg s
  | .abort a arg => Sys2Proof.Machine.execAbort a arg s
  | .clear a arg => Sys2Proof.Machine.execClear a arg s
  | .interject a arg => Sys2Proof.Machine.execInterject a arg s
  | .withdraw a arg => Sys2Proof.Machine.execWithdraw a arg s
  | .setpos a arg => Sys2Proof.Machine.execSetpos a arg s
  | .unknownCommand a code arg => Sys2Proof.Machine.execUnknownCommand a code arg s
  | .rearm j value => Sys2Proof.Machine.execRearm j value s
  | .slotStateWrite k value => Sys2Proof.Machine.execSlotStateWrite k value s
  | .linkWordEvent p value => Sys2Proof.Machine.execLinkWordEvent p value s
  | .stateWordEvent p value => Sys2Proof.Machine.execStateWordEvent p value s
  | .stepBoundary a => Sys2Proof.Machine.execStepBoundary a s
  | .leadGapEnd a => Sys2Proof.Machine.execLeadGapEnd a s
  | .stepStart a => Sys2Proof.Machine.execStepStart a s
  | .pulseEnd a => Sys2Proof.Machine.execPulseEnd a s
  | .dwellExpiry a => Sys2Proof.Machine.execDwellExpiry a s
  | .waitInputTimeout a => Sys2Proof.Machine.execWaitInputTimeout a s
  | .joinTimeout j => Sys2Proof.Machine.execJoinTimeout j s
  | .agingExpiry => Sys2Proof.Machine.execAgingExpiry s
  | .qualifiedChange n => Sys2Proof.Machine.execQualifiedChange n s
  | .tickBoundary raw => Sys2Proof.Machine.execTickBoundary raw s
  | .resetNRelease => Sys2Proof.Machine.execResetNRelease s

end Sys2Proof.Machine
end

