-- ==== Sys2Proof/WellFormed.lean ====
section
/-!
DEFINITION. When a command term is an instance of its row of the opcode table. The checks that
depend on the state of the part are made by the meanings; the ones here are on the operands alone.
-/
namespace Sys2Proof

/-- A value written to CMD carries one of the five run-control codes in bits 3:0 (R25). -/
def isRunControlCode (value : Word) : Bool :=
  1 ≤ (value.extractLsb' 0 4).toNat && (value.extractLsb' 0 4).toNat ≤ 5

/-- The fixed watched words: the command word of an axis, the control word of a join point, the
state word of a report slot (R12). -/
def isFixedWatched (addr : Addr) : Bool :=
  let n := addr.toNat
  (0x0100 ≤ n && n < 0x0200 && n % 32 == 0) || (0x0080 ≤ n && n < 0x0100 && n % 8 == 2) ||
    (0x0040 ≤ n && n < 0x0050 && n % 2 == 1)

/-- General pages are pages 3 to 127 (R1). -/
def isGeneralPage (p : Page) : Bool := 3 ≤ p.toNat

/-- The operand checks of each row. -/
def Instr.wellFormed : Instr → Bool
  | .cmdNoneCode value => !isRunControlCode value
  | .unknownCommand _ code _ => 9 ≤ code.toNat
  | .hostRamWrite addr _ => !isFixedWatched addr
  | .linkWordEvent p _ => isGeneralPage p
  | .stateWordEvent p _ => isGeneralPage p
  | .hardReset _ => true
  | .zeroFillEnd => true
  | .softReset => true
  | .softResetScanEnd => true
  | .runStart _ => true
  | .runStop => true
  | .flush => true
  | .snap => true
  | .acauseWrite _ => true
  | .amaskWrite _ => true
  | .time0Read => true
  | .registerWriteIgnored _ _ => true
  | .axisNone _ _ => true
  | .start _ _ => true
  | .pause _ _ => true
  | .resume _ _ => true
  | .abort _ _ => true
  | .clear _ _ => true
  | .interject _ _ => true
  | .withdraw _ _ => true
  | .setpos _ _ => true
  | .rearm _ _ => true
  | .slotStateWrite _ _ => true
  | .stepBoundary _ => true
  | .leadGapEnd _ => true
  | .stepStart _ => true
  | .pulseEnd _ => true
  | .dwellExpiry _ => true
  | .waitInputTimeout _ => true
  | .joinTimeout _ => true
  | .agingExpiry => true
  | .qualifiedChange _ => true
  | .tickBoundary _ => true
  | .resetNRelease => true

end Sys2Proof
end

