-- ==== Sys2Proof/Safety.lean ====
section
/-!
DEFINITION. What is always true of the part between two commands: the laws the spec numbers first to
tenth, the conditions on the device state, and the conditions under which the model's own fields stand.
Each is a predicate on one state; that every step keeps it is an obligation.
-/
namespace Sys2Proof.Machine

/-! ### The model's own fields -/

/-- Nothing is left over from an earlier command: no task waits (log 9). -/
abbrev Quiet (s : State) : Prop := s.agenda = []

/-- The exchange RAM is in its canonical form (log 1). -/
abbrev MemoryLaw (s : State) : Prop := Memory.wf s.ram = true

/-- The update count is even: no bracket is open between two commands (R18, log 8). -/
abbrev BracketLaw (s : State) : Prop :=
  ∀ a : Axis, (s.ax a).updateCount.getLsbD 0 = false

/-! ### Claims (first law, R8) -/

/-- No page has two claimants, and every claimed page is a general page (R8). -/
abbrev ClaimLaw (s : State) : Prop :=
  Sparse.rising s.claims = true ∧ ∀ e ∈ s.claims, 3 ≤ e.1 ∧ e.1 ≤ 127

/-! ### Contexts (second law, R109) -/

/-- The levels of a list of contexts fall strictly from below `l`; an idle base has level 0. -/
def levelsBelow : Level → List Context → Bool
  | _, [] => true
  | l, c :: cs => c.level < l && (!c.idleBase || c.level == 0) && levelsBelow c.level cs

/-- At most two saved contexts, with levels that rise from the bottom to the top and lie below the
running level; an OFF, IDLE or HALTED axis holds no context at all (R76, R103, R109). -/
def AxisEngine.stackLaw (x : AxisEngine) : Bool :=
  x.stack.length ≤ 2 &&
    match x.ctx with
    | none => x.stack.isEmpty
    | some c => x.state.active && (!c.idleBase || c.level == 0) && levelsBelow c.level x.stack

/-- The second law, for every axis (R109). -/
abbrev StackLaw (s : State) : Prop := ∀ a : Axis, (s.ax a).stackLaw = true

/-- An idle base is the context that a push on an IDLE axis saves: it stands on no page, claims nothing
and has nothing to begin (R103). -/
abbrev IdleBaseLaw (s : State) : Prop :=
  ∀ a : Axis, ∀ c ∈ (s.ax a).ctx.toList ++ (s.ax a).stack,
    c.idleBase = true → c = Context.idleBaseContext

/-! ### Pending requests (third law, R104) -/

/-- No request is pending on an OFF or HALTED axis (R104). -/
abbrev PendingLaw (s : State) : Prop :=
  ∀ a : Axis, (s.ax a).state = .off ∨ (s.ax a).state = .halted → (s.ax a).requests = .empty

/-! ### Reports (fifth to eighth law, R150, R156 to R158) -/

/-- At most one slot is FILLING (R150). -/
abbrev FillingLaw (s : State) : Prop :=
  ∀ j k : Slot, (s.slot j).isFilling = true → (s.slot k).isFilling = true → j = k

/-- At most 8 records are held, and any only while no slot is FILLING and none is EMPTY (R156). -/
abbrev QueueLaw (s : State) : Prop :=
  s.report.queue.length ≤ 8 ∧
    (s.report.queue ≠ [] →
      ∀ k : Slot, (s.slot k).isFilling = false ∧ s.slot k ≠ .empty)

/-- The first half of the seventh law and the eighth law: no axis owes more than 3 records; the wait list
names exactly the axes that owe, each once (R157, R158). -/
abbrev OweLaw (s : State) : Prop :=
  (∀ a : Axis, (s.owedOf a).length ≤ 3) ∧ s.report.waitList.Nodup ∧
    ∀ a : Axis, a ∈ s.report.waitList ↔ s.owedOf a ≠ []

/-! ### Join points (ninth law, R120) -/

/-- The arrived axes are members, and while the point is OPEN and in use they are not all of the
members (R120). -/
abbrev JoinLaw (s : State) : Prop :=
  ∀ j : Point,
    (s.point j).arrivals &&& ~~~(s.members j) = 0 ∧
      ((s.point j).state = .opened → s.members j ≠ 0 → (s.point j).arrivals ≠ s.members j)

/-! ### The device (R23, R8) -/

/-- The device is never STOPPED, or in INIT, while an axis owes a record (R23, R31). -/
abbrev StoppedLaw (s : State) : Prop :=
  s.inInit = true ∨ s.dev = .stopped → s.report.waitList = []

/-- Outside RUNNING no axis is active (R24, R30). -/
abbrev RestLaw (s : State) : Prop :=
  s.dev ≠ .running → ∀ a : Axis, (s.ax a).state.active = false

/-- The context is STARVED (R53). -/
def Context.isStarved (c : Context) : Bool :=
  match c.phase with
  | .starved _ => true
  | .atBegin => false
  | .inSegment _ => false

/-- Context `c` can be the claimant of page `p` at level `l`: it has the level, stands on the page and
is not STARVED (R8, R53). -/
def Context.holdsPage (c : Context) (l : Level) (p : Page) : Bool :=
  c.level == l && c.page == some p && !c.isStarved

/-- The soft-reset scan is still to be done (R20). -/
def State.scanning (s : State) : Bool :=
  match s.dev with
  | .init (.scan _) => true
  | .init .held => false
  | .init .zeroFill => false
  | .stopped => false
  | .running => false
  | .stopping => false

/-- Each claim belongs to a context of its axis, running or saved, that stands on the page; only
between SOFT_RESET and the end of its scan do claims outlive their contexts (R8, R20). -/
abbrev HolderLaw (s : State) : Prop :=
  s.scanning = false → ∀ e ∈ s.claims,
    ((s.ax e.2.axis).ctx.toList ++ (s.ax e.2.axis).stack).any
      (fun c => c.holdsPage e.2.level (BitVec.ofNat 7 e.1)) = true

/-! ### Pages (R1, R45, R152) -/

/-- The page a context stands on is a general page; a context with no page has nothing to begin. -/
def Context.pageGeneral (c : Context) : Bool :=
  match c.page with
  | none => c.following.isNone && c.phase == .atBegin
  | some p => isGeneralPage p

/-- The page of a FILLING slot is a general page. -/
def SlotState.pageGeneral (v : SlotState) : Bool :=
  match v with
  | .filling p _ _ => isGeneralPage p
  | .unused => true
  | .empty => true
  | .full _ => true
  | .bad => true

/-- Every page the part may write is a general page: claimed, stood on by a context, or FILLING. -/
abbrev PageLaw (s : State) : Prop :=
  (∀ e ∈ s.claims, 3 ≤ e.1 ∧ e.1 ≤ 127) ∧
    (∀ a : Axis, ∀ c ∈ (s.ax a).ctx.toList ++ (s.ax a).stack, c.pageGeneral = true) ∧
    ∀ k : Slot, (s.slot k).pageGeneral = true

/-- Every record that waits for room has a length a record can have: at most 23 words (R147). -/
abbrev RecordLaw (s : State) : Prop :=
  (∀ r ∈ s.report.queue, r.length ≤ 23) ∧ ∀ a : Axis, ∀ r ∈ s.owedOf a, r.length ≤ 23

end Sys2Proof.Machine
end

