-- ==== Sys2Proof/Certificates/Slice0/Obligations.lean ====
section
/-!
DEFINITION. The statements for the provers. First the vocabulary they are written in; then one
definition for each statement. "Accepted", "halted", "starved" and so on are said with the full next
state, so that every statement about a result is also a frame: what it does not name is unchanged.
-/
namespace Sys2Proof.Machine

/-! ### Frames over the exchange RAM -/

/-- Every word that `touched` does not name reads the same in `t` as in `s`. -/
abbrev SameRamBut (touched : Addr → Bool) (s t : State) : Prop :=
  ∀ addr : Addr, touched addr = false → t.read addr = s.read addr

/-- Words +17 to +31 of the axis block of `a`: the status block without the answer word (R98). -/
def isStatusWord (a : Axis) (addr : Addr) : Bool :=
  0x0100 + 32 * a.val + 17 ≤ addr.toNat && addr.toNat ≤ 0x0100 + 32 * a.val + 31

/-- Words `lo` to `hi` of page `p`. -/
def isPageWord (p : Page) (lo hi : Nat) (addr : Addr) : Bool :=
  256 * p.toNat + lo ≤ addr.toNat && addr.toNat ≤ 256 * p.toNat + hi

/-! ### What an event leaves to the end of its tick (R18, R35, R98, R99) -/

/-- From `s` to `t` axis engine `a` has become `e`, and its status block is owed a rewrite at the end of
the tick (log 8). Nothing else has changed, the exchange RAM included. -/
abbrev AxisBecomes (a : Axis) (e : AxisEngine) (s t : State) : Prop :=
  t = s.setAx a { e with dirty := true }

/-- The other word of the field that word +18 + `i` belongs to; `i` itself in a field of one word: the
remaining step count is +26 and +27, the position +28 and +29 (R98). -/
def otherWord (i : Nat) : Nat :=
  match i with
  | 8 => 9
  | 9 => 8
  | 10 => 11
  | 11 => 10
  | i => i

/-- Word +18 + `i` of the status block of `a` is as the part's own copy has it (R4). -/
abbrev WordUnchanged (a : Axis) (s : State) (i : Nat) : Prop :=
  (s.ax a).copy[i]? = (s.statusWords a)[i]?

/-- What word +18 + `i` of the status block of `a` reads after the rewrite: the value it has in `s`, or
what stood there where the part's own copy shows no change of its field (R98, R4). -/
def rewrittenWord (a : Axis) (s : State) (i : Nat) : Word :=
  if WordUnchanged a s i ∧ WordUnchanged a s (otherWord i) then s.read (axisWord a (18 + i))
  else (s.statusWords a).getD i 0

/-- From `s` to `t` the status block of `a` has been rewritten as it stands in `s`, if a rewrite was
owed: one bracket, which advances the update count by 2 (R18). -/
abbrev StatusRewritten (a : Axis) (s t : State) : Prop :=
  (s.ax a).dirty = true →
    t.read (axisWord a 17) = (s.ax a).updateCount + 2 ∧
    ∀ i : Fin 14, t.read (axisWord a (18 + i.val)) = rewrittenWord a s i.val

/-- The update count after the end of a tick (R18). -/
def AxisEngine.countAfter (x : AxisEngine) : Word :=
  if x.dirty then x.updateCount + 2 else x.updateCount

/-- From `s` to `t` the snapshot has been written as it stands in `s`, if SNAP was taken in the tick:
the time, the positions (0 for an OFF axis), the snap count advanced by one for each SNAP (R35). -/
abbrev SnapshotWritten (s t : State) : Prop :=
  s.snapsOwed ≠ 0 →
    t.read 0x0020 = s.snapCount + BitVec.ofNat 16 s.snapsOwed ∧
    t.read 0x0021 = s.timebase.extractLsb' 0 16 ∧ t.read 0x0022 = s.timebase.extractLsb' 16 16 ∧
    t.read 0x0023 = s.timebase.extractLsb' 32 16 ∧
    ∀ a : Axis,
      t.read (BitVec.ofNat 15 (0x0024 + 2 * a.val)) =
        (if (s.ax a).state = .off then 0 else (s.ax a).position.extractLsb' 0 16) ∧
      t.read (BitVec.ofNat 15 (0x0025 + 2 * a.val)) =
        (if (s.ax a).state = .off then 0 else (s.ax a).position.extractLsb' 16 16)

/-- The words of the snapshot block, if a snapshot is owed. -/
def State.snapTouches (s : State) (addr : Addr) : Bool :=
  s.snapsOwed != 0 && 0x0020 ≤ addr.toNat && addr.toNat ≤ 0x0033

/-- The words that the end of a tick writes in state `s`. -/
def State.tickTouches (s : State) (addr : Addr) : Bool :=
  (allAxes.any fun a => (s.ax a).dirty && isStatusWord a addr) || s.snapTouches addr

/-! ### Axis commands (R79, R80) -/

/-- The level field of a command, from bits 15:4 of its word. -/
def argLevel (arg : BitVec 12) : Level := Fin.ofNat 4 (arg.extractLsb' 0 2).toNat

/-- The state after a command word has been stored and answered (R12, R79). -/
def State.answered (a : Axis) (code : BitVec 4) (arg : BitVec 12) (result : BitVec 4) (s : State) :
    State :=
  (s.write (axisWord a 0) (arg ++ code)).write (axisWord a 16)
    (arg.extractLsb' 4 8 ++ 0#4 ++ result)

/-- The answer code of a command that is turned away, by the checks of R80 in their order; `own` are
the command's own checks. -/
def State.refusal (s : State) (a : Axis) (own : Option (BitVec 4)) : Option (BitVec 4) :=
  if s.dev = .stopped ∨ s.dev = .stopping then some 5
  else if (s.ax a).state = .off then some 2
  else own

/-- A word that holds a number outside 3 to 127 (R82, R90). -/
abbrev NoGeneralPage (v : Word) : Prop := v.toNat < 3 ∨ 127 < v.toNat

/-- START's own checks (R82). -/
def State.startRefusal (s : State) (a : Axis) : Option (BitVec 4) :=
  if (s.ax a).state ≠ .idle then some 2
  else if NoGeneralPage (s.read (axisWord a 1)) then some 4
  else none

/-- PAUSE's own checks (R83, R84). -/
def State.pauseRefusal (s : State) (a : Axis) : Option (BitVec 4) :=
  if (s.ax a).state = .pausing then some 3
  else if (s.ax a).state = .paused ∨ (s.ax a).state = .idle ∨ (s.ax a).state = .halted then some 2
  else none

/-- RESUME's own checks (R86, R87). -/
def State.resumeRefusal (s : State) (a : Axis) : Option (BitVec 4) :=
  if (s.ax a).state = .pausing ∨ (s.ax a).state = .paused then none else some 2

/-- ABORT's own checks (R88). -/
def State.abortRefusal (s : State) (a : Axis) : Option (BitVec 4) :=
  if (s.ax a).state = .idle ∨ (s.ax a).state = .halted then some 2 else none

/-- CLEAR's own checks (R89). -/
def State.clearRefusal (s : State) (a : Axis) : Option (BitVec 4) :=
  if (s.ax a).state ≠ .halted then some 2
  else if s.owedOf a ≠ [] then some 3
  else none

/-- INTERJECT's own checks (R90). -/
def State.interjectRefusal (s : State) (a : Axis) (arg : BitVec 12) : Option (BitVec 4) :=
  if (s.ax a).state = .halted then some 2
  else if argLevel arg = 0 then some 4
  else if NoGeneralPage (s.read (axisWord a 2)) then some 4
  else if (s.ax a).requests.get (argLevel arg) ≠ none then some 3
  else none

/-- WITHDRAW's own checks (R91). -/
def State.withdrawRefusal (s : State) (a : Axis) (arg : BitVec 12) : Option (BitVec 4) :=
  if (s.ax a).requests.get (argLevel arg) = none then some 2 else none

/-- The SETPOS value lies outside enabled soft limits (R92). -/
abbrev State.setposOutside (s : State) (a : Axis) : Prop :=
  (s.limits a).enabled = true ∧
    ((Memory.read32 s.ram (axisWord a 3) (axisWord a 4)).toInt < (s.limits a).min.toInt ∨
      (s.limits a).max.toInt < (Memory.read32 s.ram (axisWord a 3) (axisWord a 4)).toInt)

/-- SETPOS's own checks (R92). -/
def State.setposRefusal (s : State) (a : Axis) : Option (BitVec 4) :=
  if (s.ax a).state ≠ .idle ∧ (s.ax a).state ≠ .halted then some 2
  else if s.setposOutside a then some 4
  else none

/-! ### Segments and pages -/

/-- The running copy and the axis state with which segment record `r` begins on axis `a`, for a valid
record that takes time and does not arrive at a join point: a RUN whose first step stays within the
limits, a DWELL of at least one tick, a WAIT_INPUT whose line is not at the awaited level (R43, R59,
R74, R143). -/
def State.begins (s : State) (a : Axis) (r : SegRecord) : Option (Running × AxisState) :=
  match s.validKind a r with
  | some .run =>
    if (s.ax a).pastLimit (s.limits a) r.forward then none
    else
      some (.run r.stepCount r.interval r.change r.width r.forward r.report r.tag, .running)
  | some .dwell =>
    if r.duration = 0 then none else some (.dwell r.duration r.report r.tag, .dwelling)
  | some .waitInput =>
    if (s.line r.line).qualified = r.awaited then none
    else some (.waitInput r.line r.awaited r.timeout r.timeoutHalt r.report r.tag, .waitInput)
  | some .join => none
  | some .note => none
  | some .end_ => none
  | none => none

/-- The axis engine on which a segment has begun on context `c`: for a RUN its first step is due and
goes through the gate (R42 step 3, R65), and its full count is what this tick shows (R75, log 30). -/
def AxisEngine.started (x : AxisEngine) (c : Context) (copy : Running) (st : AxisState)
    (dirlead now : Nat) : AxisEngine :=
  let x := { x with state := st, ctx := some { c with phase := .inSegment copy } }
  match copy with
  | .run n _ _ _ forward _ _ => { x with beganCount := some n }.gateStep dirlead now forward
  | .dwell _ _ _ => x
  | .join _ _ _ _ _ => x
  | .waitInput _ _ _ _ _ _ => x

/-- Context `c` with the record after its segment in its following copy (R40). -/
def Context.readsNext (c : Context) (s : State) : Context :=
  { c with
    following :=
      if c.index + 1 < c.count then some (s.readRecord c.pageOr0 (c.index + 1)) else none }

/-- Page `p` passes the tests of the entry transaction, with `header` as its state (R9, R45). -/
abbrev EntryGranted (s : State) (p : Page) (header : Word) : Prop :=
  s.claimed p = false ∧ s.read (pageWord p 0) = 1 ∧ header = 1 ∧
    1 ≤ (s.read (pageWord p 3)).toNat ∧ (s.read (pageWord p 3)).toNat ≤ 31

/-- Page `p` fails the tests of the entry transaction with BAD_LINK (R9, R45). -/
abbrev EntryBad (s : State) (p : Page) (header : Word) : Prop :=
  s.claimed p = true ∨ s.read (pageWord p 0) ≠ 1 ∨ (header ≠ 0 ∧ header ≠ 1) ∨
    (header = 1 ∧ ((s.read (pageWord p 3)).toNat < 1 ∨ 31 < (s.read (pageWord p 3)).toNat))

/-- Page `p` makes the context wait: unclaimed, a segment page, FREE (R45 test 4). -/
abbrev EntryWaits (s : State) (p : Page) (header : Word) : Prop :=
  s.claimed p = false ∧ s.read (pageWord p 0) = 1 ∧ header = 0

/-- The state after the claim of context `c` of axis `a` on page `p` is granted (R9 step 7). -/
def State.withClaim (s : State) (a : Axis) (c : Context) (p : Page) : State :=
  { s with claims := Sparse.insert s.claims p.toNat { axis := a, level := c.level } }.write
    (pageWord p 1) 2

/-- The context that stands at the begin point of segment 0 of page `p` (R46). -/
def Context.onPage (c : Context) (s : State) (p : Page) : Context :=
  { c with page := some p, count := (s.read (pageWord p 3)).toNat, index := 0, phase := .atBegin }

/-- Context `c` of axis `a` starves on wait `w`: STARVE record, AXIS_STARVED, STARVED (R53, R54). -/
abbrev Starves (a : Axis) (c : Context) (w : Wait) (s t : State) : Prop :=
  AxisBecomes a
    { s.ax a with
      state := .starved
      ctx := some (c.starve w)
      gate := .idle }
    ((s.handRecord (.starve a c.level w.page (s.ax a).position)).setCause .axisStarved) t

/-- No point of which axis `a` is a member is OPEN with arrivals: its halt breaks none (R128). -/
abbrev NoMeeting (s : State) (a : Axis) : Prop :=
  ∀ j : Point, inMask (s.members j) a = true → (s.point j).state = .opened →
    (s.point j).arrivals = 0

/-- Axis `a` halts with a cause and a detail, and its halt breaks no join point: claims released, HALT
record, AXIS_HALTED, the engine HALTED without contexts and requests (R93, R94). -/
abbrev Halts (a : Axis) (cause : HaltCause) (detail : BitVec 8) (s t : State) : Prop :=
  AxisBecomes a
    { s.ax a with
      state := .halted, ctx := none, stack := [], requests := .empty, gate := .idle
      haltCause := some cause, haltDetail := detail, haltLevel := (s.ax a).level
      shownPage := (s.ax a).pageWord, shownIndex := (s.ax a).index
      shownRemaining := (s.ax a).remaining, beganCount := none }
    (((s.releaseAxisClaims a).handRecord
      (.halt a (s.ax a).level cause detail (s.ax a).haltPage (s.ax a).index
        (s.ax a).position)).setCause .axisHalted)
    t

/-- The DONE record of the segment at the index of context `c`, if its REPORT flag is set (R47). -/
def State.recorded (s : State) (a : Axis) (c : Context) (kind : SegKind) (report : Bool) (tag : Word)
    (generation : Option Word) : State :=
  if report then
    s.handRecord (.done a c.level kind c.pageOr0 c.index tag (s.ax a).position generation)
  else s

/-- END with record `r` on context `c`, the only context of axis `a`: its record, the release of its
page, and IDLE (R51). -/
abbrev EndsBase (a : Axis) (c : Context) (r : SegRecord) (s t : State) : Prop :=
  AxisBecomes a
    { s.ax a with
      state := .idle, ctx := none, gate := .idle
      shownPage := pageNumber c.pageOr0, shownIndex := c.index, shownRemaining := 0 }
    ((s.recorded a c .end_ r.report r.tag none).releasePage c.pageOr0 { axis := a, level := c.level }
      s.timebase) t

/-- Context `c` with its index advanced past the segment that has completed (R47 step 2). -/
def Context.advanced (c : Context) : Context := { c with index := c.index + 1, phase := .atBegin }

/-- The state with running context `c` on axis `a`, its step gate idle and a rewrite owed. -/
def State.withCtx (s : State) (a : Axis) (c : Context) : State :=
  s.setAx a { s.ax a with ctx := some c, gate := .idle, dirty := true }

/-- The halt detail of a link value (R45). -/
def badLinkDetail (v : Word) : BitVec 8 := if v.toNat ≤ 255 then v.extractLsb' 0 8 else 0xFF

/-! ### Where a chain goes

The predicates below say how a command that starts in `s` with a chain in motion on axis `a` ends in `t`.
`next u t` stands for: with the running context of `a` at a begin point in `u`, the command ends in `t`
(`AtBegin`). The order of the tasks of one chain is the chain's own (log 9). -/

/-- The three outcomes of the entry of context `c`, running on axis `a` in `s`, into page `p`, with
`header` as the page's state (R45, R46). -/
abbrev Enters (a : Axis) (next : State → State → Prop) (c : Context) (p : Page) (header : Word)
    (s t : State) : Prop :=
  (EntryGranted s p header →
    next
      ((s.withClaim a c p).withCtx a
        { c.onPage s p with following := some (s.readRecord p 0) }) t) ∧
  (EntryWaits s p header → Starves a c (.state p) s t) ∧
  (EntryBad s p header → NoMeeting s a → Halts a .badLink (p.setWidth 8) s t)

/-- Context `c` of axis `a` acts on a link value that is not 0 (R44, R45, R55). -/
abbrev Follows (a : Axis) (next : State → State → Prop) (c : Context) (value : Word)
    (s t : State) : Prop :=
  (NoGeneralPage value → NoMeeting s a → Halts a .badLink (badLinkDetail value) s t) ∧
  ∀ p ∈ generalPage? value, Enters a next c p (s.read (pageWord p 1)) s t

/-- After the record of a completion on context `c` of axis `a`, which is not PAUSING and takes no
request here (R47 steps 2 to 4): the next begin point of the page, or, at its end, the link is read and
the page released, and the context starves on a link of 0 or follows the link. -/
abbrev Completes (a : Axis) (next : State → State → Prop) (c : Context) (s t : State) : Prop :=
  (c.index + 1 < c.count → next (s.withCtx a c.advanced) t) ∧
  (c.count ≤ c.index + 1 → ∀ q ∈ c.page,
    (s.read (pageWord q 2) = 0 →
      Starves a c.advanced (.link q)
        ((s.withCtx a c.advanced).releasePage q { axis := a, level := c.level } s.timebase) t) ∧
    (s.read (pageWord q 2) ≠ 0 →
      Follows a next c.advanced (s.read (pageWord q 2))
        ((s.withCtx a c.advanced).releasePage q { axis := a, level := c.level } s.timebase) t))

/-- The axis engine that has taken the request of level `l` for page `p`: the running context, or an
idle base, is saved, the slot is empty, a context of level `l` is about to enter `p` (R103, R107). -/
def AxisEngine.interjected (x : AxisEngine) (l : Level) (p : Page) : AxisEngine :=
  { x with
    state := .running
    gate := .idle
    beganCount := none
    dirty := true
    stack :=
      x.ctx.getD
        { level := 0, idleBase := true, page := none, count := 0, index := 0, residue := 0
          following := none, phase := .atBegin } :: x.stack
    requests := x.requests.set l none
    ctx :=
      some
        { level := l, idleBase := false, page := some p, count := 0, index := 0, residue := 0
          following := none, phase := .atBegin } }

/-- Axis engine `x` of axis `a` takes its highest request, of level `l` for page `p`: INTERJECT_IN if
the axis is in the record mask, and the entry into the head page (R106, R107, R113). -/
abbrev TakesRequest (a : Axis) (next : State → State → Prop) (x : AxisEngine) (l : Level)
    (r : Request) (p : Page) (s t : State) : Prop :=
  ∀ u : State,
    u =
      (if inMask s.setup.recordMask a then
        (s.setAx a (x.interjected l p)).handRecord (.interjectIn a l r.head r.source)
      else s.setAx a (x.interjected l p)) →
    ∀ c ∈ (x.interjected l p).ctx, Enters a next c p (u.read (pageWord p 1)) u t

/-- The running context of axis `a` resumes its activity, at RESUME or at a pop, by what it is doing
(the tables of R87 and R112; R57; R103 for an idle base). -/
abbrev Resumes (a : Axis) (next : State → State → Prop) (s t : State) : Prop :=
  ∀ c ∈ (s.ax a).ctx,
    (c.idleBase = true → AxisBecomes a { s.ax a with state := .idle, ctx := none } s t) ∧
    (c.idleBase = false →
      match c.phase with
      | .atBegin => next s t
      | .inSegment (.run _ _ _ _ forward _ _) =>
        ((s.ax a).pastLimit (s.limits a) forward = false →
          AxisBecomes a ({ s.ax a with state := .running }.gateStep s.dirlead s.now forward) s t) ∧
        ((s.ax a).pastLimit (s.limits a) forward = true → NoMeeting s a →
          Halts a .softLimit 0 s t)
      | .inSegment (.dwell ticks report tag) =>
        (ticks ≠ 0 → AxisBecomes a { s.ax a with state := .dwelling } s t) ∧
        (ticks = 0 → Completes a next c (s.recorded a c .dwell report tag none) t)
      | .inSegment (.waitInput n level timeout timeoutHalt report tag) =>
        ((s.line n).qualified = level →
          Completes a next c (s.recorded a c .waitInput report tag none) t) ∧
        ((s.line n).qualified ≠ level → timeout ≠ some 0 →
          AxisBecomes a { s.ax a with state := .waitInput } s t) ∧
        ((s.line n).qualified ≠ level → timeout = some 0 → timeoutHalt = true → NoMeeting s a →
          Halts a .waitTimeout (BitVec.ofNat 8 n.val) s t) ∧
        ((s.line n).qualified ≠ level → timeout = some 0 → timeoutHalt = false →
          Completes a next c (s.handRecord (.timeout a c.level n tag c.pageOr0 c.index)) t)
      | .inSegment (.join j released broken report tag) =>
        (∀ g ∈ released, Completes a next c (s.recorded a c .join report tag (some g)) t) ∧
        (released = none → broken = false →
          AxisBecomes a { s.ax a with state := .waitJoin } s t) ∧
        (released = none → broken = true → NoMeeting s a →
          Halts a .joinBroken (BitVec.ofNat 8 j.val) s t)
      | .starved (.link q) =>
        (s.read (pageWord q 2) = 0 → AxisBecomes a { s.ax a with state := .starved } s t) ∧
        (s.read (pageWord q 2) ≠ 0 → Follows a next c (s.read (pageWord q 2)) s t)
      | .starved (.state p) =>
        (s.read (pageWord p 1) = 0 → AxisBecomes a { s.ax a with state := .starved } s t) ∧
        (isGeneralPage p = true → s.read (pageWord p 1) ≠ 0 →
          Enters a next c p (s.read (pageWord p 1)) s t))

/-- The axis engine after the pop that ends context `c`: the top saved context runs (R111 step 2). -/
def AxisEngine.popped (x : AxisEngine) (c top : Context) (rest : List Context) : AxisEngine :=
  { x with
    state := .running, ctx := some top, stack := rest, gate := .idle
    shownPage := pageNumber c.pageOr0, shownIndex := c.index, shownRemaining := 0, dirty := true }

/-- END with record `r` on interjection context `c` of axis `a`, with saved contexts `top :: rest`: its
record, the release of its page, the top context restored, INTERJECT_OUT if the axis is in the record
mask; then the acceptance check takes a request, or the restored context resumes (R111). -/
abbrev Pops (a : Axis) (next : State → State → Prop) (c : Context) (r : SegRecord) (top : Context)
    (rest : List Context) (s t : State) : Prop :=
  ∀ u v w : State,
    u = s.recorded a c .end_ r.report r.tag none →
    v =
      (u.releasePage c.pageOr0 { axis := a, level := c.level } u.timebase).setAx a
        ((s.ax a).popped c top rest) →
    w =
      (if inMask s.setup.recordMask a then v.handRecord (.interjectOut a c.level top.level)
      else v) →
    (((s.ax a).popped c top rest).acceptable = false → Resumes a next w t) ∧
    (((s.ax a).popped c top rest).acceptable = true →
      ∀ m ∈ (s.ax a).requests.top, ∀ p ∈ generalPage? m.2.head,
        TakesRequest a next ((s.ax a).popped c top rest) m.1 m.2 p w t)

/-- The state in which the JOIN of running context `c` at point `j` has been released by its own
arrival, the only one the point needs (R122, R123). -/
def State.soleRelease (s : State) (a : Axis) (c : Context) (j : Point) : State :=
  (((s.setAx a { s.ax a with ctx := some c }).setPoint j
    { state := .opened, arrivals := 0, generation := (s.point j).generation + 1
      deadline := none }).write (joinWord j 4) 0).write (joinWord j 5) ((s.point j).generation + 1)

/-- Valid segment `r` of kind JOIN at point `j` begins on context `c`: the arrival halts the axis at a
BROKEN point, waits beside or among the arrivals, or completes a meeting of its axis alone (R122). -/
abbrev Arrives (a : Axis) (next : State → State → Prop) (c : Context) (r : SegRecord) (j : Point)
    (s t : State) : Prop :=
  ∀ waiting : Context,
    waiting =
      { c.readsNext s with phase := .inSegment (.join j none false r.report r.tag) } →
    ((s.point j).state ≠ .opened → NoMeeting s a →
      Halts a .joinBroken (BitVec.ofNat 8 j.val)
        (s.setAx a { s.ax a with ctx := some waiting }) t) ∧
    ((s.point j).state = .opened → inMask (s.point j).arrivals a = true →
      AxisBecomes a { s.ax a with state := .waitJoin, ctx := some waiting } s t) ∧
    ((s.point j).state = .opened → inMask (s.point j).arrivals a = false →
      (s.point j).arrivals ||| maskBit a ≠ s.members j →
      AxisBecomes a { s.ax a with state := .waitJoin, ctx := some waiting }
        ((s.setPoint j
          { s.point j with
            arrivals := (s.point j).arrivals ||| maskBit a
            deadline :=
              if (s.point j).arrivals = 0 then
                if s.setup.points[j].timeout = 0 then none
                else some (s.timebase + s.setup.points[j].timeout.setWidth 48 * 1024)
              else (s.point j).deadline }).write
          (joinWord j 4) (((s.point j).arrivals ||| maskBit a).setWidth 16)) t) ∧
    ((s.point j).state = .opened → (s.point j).arrivals = 0 → s.members j = maskBit a →
      (∀ b ∈ (s.ax a).stack, b.holdsArrival j = false) →
      Completes a next (c.readsNext s)
        ((s.soleRelease a waiting j).recorded a (c.readsNext s) .join r.report r.tag
          (some ((s.point j).generation + 1))) t)

/-- The running context of axis `a`, which is not PAUSING and takes no request here, stands at a begin
point in `s`, and the command ends in `t` (R42, R43, R50 to R52). The chain is followed through `n`
segments that take no time; nothing is said of what lies behind them. -/
def AtBegin (a : Axis) : Nat → State → State → Prop
  | 0, _, _ => True
  | n + 1, s, t =>
    (s.ax a).state ≠ .pausing → ∀ c ∈ (s.ax a).ctx, c.phase = .atBegin → ∀ r ∈ c.following,
      (s.owes a = true → AxisBecomes a { s.ax a with state := .reportWait } s t) ∧
      (s.owes a = false →
        (s.validKind a r = none → NoMeeting s a →
          Halts a .badSegment (r.kindCode.setWidth 8) s t) ∧
        (∀ b ∈ s.begins a r,
          AxisBecomes a ((s.ax a).started (c.readsNext s) b.1 b.2 s.dirlead s.now) s t) ∧
        (s.validKind a r = some .run → (s.ax a).pastLimit (s.limits a) r.forward = true →
          NoMeeting s a →
          Halts a .softLimit 0
            (s.setAx a
              { s.ax a with
                ctx :=
                  some
                    { c.readsNext s with
                      phase :=
                        .inSegment
                          (.run r.stepCount r.interval r.change r.width r.forward r.report r.tag) } })
            t) ∧
        (s.validKind a r = some .dwell → r.duration = 0 →
          Completes a (AtBegin a n) (c.readsNext s) (s.recorded a c .dwell r.report r.tag none) t) ∧
        (s.validKind a r = some .waitInput → (s.line r.line).qualified = r.awaited →
          Completes a (AtBegin a n) (c.readsNext s) (s.recorded a c .waitInput r.report r.tag none)
            t) ∧
        (s.validKind a r = some .note →
          Completes a (AtBegin a n) (c.readsNext s)
            (if r.report then
              s.handRecord
                (.note a c.level c.pageOr0 c.index r.tag (s.ax a).position r.value)
            else s) t) ∧
        (s.validKind a r = some .join → ∀ j ∈ r.joinPoint, Arrives a (AtBegin a n) c r j s t) ∧
        (s.validKind a r = some .end_ →
          match (s.ax a).stack with
          | [] => EndsBase a c r s t
          | top :: rest => Pops a (AtBegin a n) c r top rest s t))

/-- The begin points of a command: followed through up to 31 segments that take no time. -/
abbrev BeginPoint (a : Axis) (s t : State) : Prop := AtBegin a 31 s t

/-- After the record of a completion on context `c` of axis `a`, which is not PAUSING and takes no
request here, the chain goes on (R47 steps 2 to 4, R42). -/
abbrev ChainGoesOn (a : Axis) (c : Context) (s t : State) : Prop := Completes a (BeginPoint a) c s t

/-! ### Report pages -/

/-- The page of FILLING slot `k` has closed with a reason (R154). -/
abbrev PageCloses (reason : Word) (k : Slot) (p : Page) (s t : State) : Prop :=
  t =
    { s with
      ram := t.ram
      acause := s.acause ||| 0x008
      report :=
        { s.report with
          slots := s.report.slots.set k (.full (some p))
          lastClosed := k
          pagesClosed := s.report.pagesClosed + 1
          deadline := none } } ∧
  t.read (pageWord p 5) = reason ∧
  t.read (pageWord p 6) = s.timebase.extractLsb' 0 16 ∧
  t.read (pageWord p 7) = s.timebase.extractLsb' 16 16 ∧
  t.read (slotStateWord k) = 3 ∧
  t.read 0x0010 = s.report.pagesClosed + 1 ∧
  SameRamBut (fun addr => isPageWord p 5 7 addr || addr == slotStateWord k || addr == 0x0010) s t

/-- Record `rec` has been placed in the page of FILLING slot `k`, which held `records` records in
`used` words (R149, R153, R162). -/
abbrev RecordPlaces (rec : Record) (k : Slot) (p : Page) (records used : Nat) (s t : State) : Prop :=
  t =
    { s with
      ram := t.ram
      report :=
        { s.report with
          slots := s.report.slots.set k (.filling p (records + 1) (used + rec.length))
          seq := s.report.seq + 1
          deadline := if records = 0 then s.agingDeadline else s.report.deadline } } ∧
  (∀ i : Fin 23, i.val < rec.length →
    t.read (pageWord p (BitVec.ofNat 8 (8 + used + i.val))) =
      (rec.words s.report.seq).getD i.val 0) ∧
  t.read (pageWord p 1) = BitVec.ofNat 16 (records + 1) ∧
  t.read (pageWord p 3) = s.report.seq ∧
  t.read (pageWord p 4) = BitVec.ofNat 16 (used + rec.length) ∧
  t.read 0x0011 = s.report.seq + 1 ∧
  SameRamBut
    (fun addr =>
      isPageWord p (8 + used) (7 + used + rec.length) addr || addr == pageWord p 1 ||
        addr == pageWord p 3 || addr == pageWord p 4 || addr == 0x0011)
    s t

/-- The state after slot `k` has been taken with page `p`: header written, FILLING (R152). -/
def State.withSlotTaken (s : State) (k : Slot) (p : Page) : State :=
  { s with
    ram :=
      (Memory.writeWords s.ram (pageWord p 0)
        [2, 0, s.report.seq, s.report.seq - 1, 0, 0, 0, 0]).write (slotStateWord k) 2
    report := { s.report with slots := s.report.slots.set k (.filling p 0 0) } }

/-! ### Setup (R26, R27) -/

/-- Check `f` of item `i` fails in candidate copy `c` (the table of R27). -/
def Setup.fails (c : Setup) (f : SetupFault) (i : Fin 16) : Bool :=
  match f with
  | .ok => false
  | .noAxes => i == 0 && c.enabled == 0
  | .axisLimits =>
    if h : i.val < 8 then
      c.enabled.getLsbD i.val && c.limits[i.val].enabled &&
        (decide (0 < c.limits[i.val].min.toInt) || decide (c.limits[i.val].max.toInt < 0) ||
          decide (c.limits[i.val].max.toInt < c.limits[i.val].min.toInt))
    else false
  | .joinMembers => c.points[i].members &&& ~~~c.enabled != 0
  | .inputAxes =>
    (c.lines[i].action != .off && c.lines[i].actionMask &&& ~~~c.enabled != 0) ||
      (c.lines[i].capture && c.lines[i].captureMask &&& ~~~c.enabled != 0)
  | .inputHead =>
    c.lines[i].action == .interject && (c.lines[i].head.toNat < 3 || 127 < c.lines[i].head.toNat)

/-- The place of a check in the order of R27: the setup block, the axes, the join points, the lines;
within one item by fault code. -/
def checkOrder (f : SetupFault) (i : Fin 16) : Nat :=
  match f with
  | .ok => 0
  | .noAxes => 0
  | .axisLimits => 100 + 2 * i.val
  | .joinMembers => 200 + 2 * i.val
  | .inputAxes => 300 + 2 * i.val
  | .inputHead => 301 + 2 * i.val

/-- The copied setup by the words of the directory (R26). -/
abbrev CopiedFrom (s : State) (c : Setup) : Prop :=
  c.tickdiv = (s.read 0x0000).extractLsb' 0 8 ∧ c.dirlead = (s.read 0x0001).extractLsb' 0 8 ∧
  c.enabled = (s.read 0x0002).extractLsb' 0 8 ∧ c.reportAge = s.read 0x0003 ∧
  c.recordMask = (s.read 0x0004).extractLsb' 0 8 ∧
  (∀ a : Axis,
    c.limits[a] =
      { enabled := (s.read (axisWord a 5)).getLsbD 0
        min := s.read (axisWord a 7) ++ s.read (axisWord a 6)
        max := s.read (axisWord a 9) ++ s.read (axisWord a 8) }) ∧
  (∀ j : Point,
    c.points[j] =
      { members := (s.read (joinWord j 0)).extractLsb' 0 8, timeout := s.read (joinWord j 1) }) ∧
  ∀ n : Line,
    c.lines[n] =
      { filter := (s.read (lineWord n 0)).extractLsb' 0 4
        edge := edgeSense (s.read (lineWord n 1))
        action := lineAction (s.read (lineWord n 2))
        actionMask := (s.read (lineWord n 3)).extractLsb' 0 8
        capture := (s.read (lineWord n 4)).getLsbD 0
        captureMask := (s.read (lineWord n 5)).extractLsb' 0 8
        head := s.read (lineWord n 6) }

end Sys2Proof.Machine

open Sys2Proof Sys2Proof.Machine

/-! ### The queue and the outcomes -/

/-- Step runs the command at the front of the queue on the state with the queue's rest; on an empty
queue the part idles (the model's own queue, log 3). -/
def Obligations.StepTakesFront : Prop :=
  ∀ (c : Instr) (rest : List Instr) (s : State),
    step { s with pending := c :: rest } = exec c { s with pending := rest } ∧
    step { s with pending := [] } = .next { s with pending := [] }

/-- No command faults and none is refused: an event that is not due, too, answers a next state (log 4,
DESIGN CHOICE). A command, HARD_RESET too, leaves the model's own queue alone (log 3, log 24). -/
def Obligations.EveryCommandGivesANextState : Prop :=
  ∀ (c : Instr) (s : State), ∃ t, exec c s = .next t ∧ t.pending = s.pending

/-! ### Resets -/

/-- The reset values of R33, at power-on (log 16: the part starts held in INIT), and the laws that every
step keeps. -/
def Obligations.ResetValuesAndLaws : Prop :=
  State.reset.dev = .init .held ∧ State.reset.faultCode = .ok ∧ State.reset.faultIndex = 0 ∧
  State.reset.cmdBack = none ∧ State.reset.acause = 0 ∧ State.reset.amask = 0 ∧
  State.reset.timebase = 0 ∧ State.reset.timeLatch = 0 ∧
  State.reset.setup.tickdiv = 0 ∧ State.reset.setup.dirlead = 0 ∧ State.reset.setup.enabled = 0 ∧
  State.reset.setup.reportAge = 0 ∧ State.reset.setup.recordMask = 0 ∧
  (∀ a : Axis,
    (State.reset.ax a).state = .off ∧ (State.reset.ax a).position = 0 ∧
    (State.reset.ax a).dir = false ∧ (State.reset.ax a).step = .low none ∧
    (State.reset.ax a).ctx = none ∧ (State.reset.ax a).stack = [] ∧
    (State.reset.ax a).requests = .empty ∧ (State.reset.ax a).haltCause = none ∧
    State.reset.owedOf a = [] ∧ (State.reset.limits a).enabled = false) ∧
  (∀ j : Point,
    State.reset.point j = { state := .opened, arrivals := 0, generation := 0, deadline := none } ∧
    State.reset.members j = 0) ∧
  (∀ n : Line,
    (State.reset.line n).qualified = false ∧ (State.reset.lineSetup n).filter = 0 ∧
    (State.reset.lineSetup n).edge = .off ∧ (State.reset.lineSetup n).action = .off ∧
    (State.reset.lineSetup n).capture = false) ∧
  (∀ k : Slot, State.reset.slot k = .unused) ∧
  State.reset.report.queue = [] ∧ State.reset.report.waitList = [] ∧
  State.reset.report.drops = 0 ∧ State.reset.report.seq = 0 ∧ State.reset.report.pagesClosed = 0 ∧
  State.reset.report.lastClosed = 7 ∧ State.reset.report.deadline = none ∧
  State.reset.claims = [] ∧ State.reset.pending = [] ∧
  (∀ addr : Addr, State.reset.hostRead addr = 0) ∧
  Quiet State.reset ∧ MemoryLaw State.reset ∧ BracketLaw State.reset ∧ ClaimLaw State.reset ∧
  StackLaw State.reset ∧ PendingLaw State.reset ∧ FillingLaw State.reset ∧ QueueLaw State.reset ∧
  OweLaw State.reset ∧ JoinLaw State.reset ∧ StoppedLaw State.reset ∧ PageLaw State.reset ∧
  RecordLaw State.reset ∧ RestLaw State.reset ∧ HolderLaw State.reset ∧ IdleBaseLaw State.reset

/-- HARD_RESET: every block at its reset value; with the pin a high pulse goes on and DIR waits for it,
at power-on both outputs are 0. The exchange RAM is cleared by the zero fill (log 2); the tick count,
the levels on the input pins and the queue are not the part's (log 24). -/
def Obligations.HardResetRestoresEveryBlock : Prop :=
  ∀ (kind : ResetKind) (s : State), ∃ t,
    exec (.hardReset kind) s = .next t ∧
    t =
      { State.reset with
        ram := s.ram, axes := t.axes, rawLevels := s.rawLevels, now := s.now
        freeCount := s.freeCount, pending := s.pending } ∧
    ∀ a : Axis,
      (kind = .powerOn → t.ax a = AxisEngine.reset) ∧
      (kind = .pin → (s.ax a).step.isHigh = false →
        t.ax a = { AxisEngine.reset with step := (s.ax a).step }) ∧
      (kind = .pin → (s.ax a).step.isHigh = true →
        t.ax a =
          { AxisEngine.reset with
            step := (s.ax a).step, dir := (s.ax a).dir, dirZero := .byReset })

/-- RESET_N_RELEASE begins the zero fill; when the fill ends with STEP low on every axis, every word
reads 0, the device is STOPPED and ACAUSE holds RESET_DONE alone. While a STEP is high INIT goes on
(R34, log 29). -/
def Obligations.ZeroFillClearsTheRam : Prop :=
  ∀ s : State,
    (s.dev = .init .held → exec .resetNRelease s = .next { s with dev := .init .zeroFill }) ∧
    (s.dev = .init .zeroFill → (∀ a : Axis, (s.ax a).step.isHigh = false) → ∃ t,
      exec .zeroFillEnd s = .next t ∧
      t = { s with ram := t.ram, dev := .stopped, acause := 0x001 } ∧
      ∀ addr : Addr, t.read addr = 0) ∧
    ((∃ a : Axis, (s.ax a).step.isHigh = true) → exec .zeroFillEnd s = .next s)

/-- SOFT_RESET outside INIT: the rewrites and the snapshot owed in this tick are written (log 8,
log 27), the timebase is kept for the scan, the registers and blocks return to their reset values, a
high pulse goes on; slots, numbering, claims and the rest of the exchange RAM stand. -/
def Obligations.SoftResetResetsTheBlocks : Prop :=
  ∀ s : State, s.inInit = false → ∃ t,
    exec .softReset s = .next t ∧
    t =
      { s with
        ram := t.ram
        dev := .init (.scan s.timebase)
        timebase := 0, timeLatch := 0, cmdBack := none, faultCode := .ok, faultIndex := 0
        acause := 0, amask := 0, setup := .reset, axes := t.axes
        points := State.reset.points, lines := State.reset.lines
        report :=
          { s.report with
            queue := [], owed := ReportUnit.reset.owed, waitList := [], drops := 0
            deadline := none }
        snapCount := s.snapCount + BitVec.ofNat 16 s.snapsOwed, snapsOwed := 0
        agenda := [] } ∧
    (∀ a : Axis,
      ((s.ax a).step.isHigh = false →
        t.ax a =
          { AxisEngine.reset with
            step := (s.ax a).step
            copy := if (s.ax a).dirty then s.statusWords a else (s.ax a).copy
            updateCount := (s.ax a).countAfter }) ∧
      ((s.ax a).step.isHigh = true →
        t.ax a =
          { AxisEngine.reset with
            step := (s.ax a).step, dir := (s.ax a).dir, dirZero := .byReset
            copy := if (s.ax a).dirty then s.statusWords a else (s.ax a).copy
            updateCount := (s.ax a).countAfter }) ∧
      StatusRewritten a s t) ∧
    SnapshotWritten s t ∧ SameRamBut s.tickTouches s t

/-- The words that the end of the soft-reset scan may write. -/
def Sys2Proof.Machine.State.scanTouches (s : State) (addr : Addr) : Bool :=
  (s.claims.any fun e =>
    addr == pageWord (BitVec.ofNat 7 e.1) 1 || isPageWord (BitVec.ofNat 7 e.1) 4 7 addr) ||
  match s.filling with
  | none => false
  | some (k, p, records, _) =>
    addr == slotStateWord k || (records != 0 && (isPageWord p 5 7 addr || addr == 0x0010))

/-- SOFT_RESET_SCAN_END with STEP low on every axis: claimed pages are SPENT with the kept time and
their claimants, the FILLING slot is closed with reason RESET or returned to EMPTY, the last closed slot
is 7, and the device is STOPPED with RESET_DONE alone. While a STEP is high INIT goes on (R34,
log 29). -/
def Obligations.SoftResetScanReleasesPages : Prop :=
  (∀ s : State, (∃ a : Axis, (s.ax a).step.isHigh = true) → exec .softResetScanEnd s = .next s) ∧
  ∀ (s : State) (kept : Time), ClaimLaw s → s.dev = .init (.scan kept) →
    (∀ a : Axis, (s.ax a).step.isHigh = false) → ∃ t,
    exec .softResetScanEnd s = .next t ∧
    t =
      { s with
        ram := t.ram, claims := [], dev := .stopped, acause := 0x001
        report := t.report } ∧
    SameRamBut s.scanTouches s t ∧
    (∀ e ∈ s.claims, t.read (pageWord (BitVec.ofNat 7 e.1) 1) = 3 ∧
      t.read (pageWord (BitVec.ofNat 7 e.1) 4) = kept.extractLsb' 0 16) ∧
    (∀ e ∈ s.claims,
      (∀ k p records used, s.filling = some (k, p, records, used) → records ≠ 0 →
        p ≠ BitVec.ofNat 7 e.1) →
      t.read (pageWord (BitVec.ofNat 7 e.1) 5) = kept.extractLsb' 16 16 ∧
      t.read (pageWord (BitVec.ofNat 7 e.1) 6) = kept.extractLsb' 32 16 ∧
      t.read (pageWord (BitVec.ofNat 7 e.1) 7) = axisLevelWord e.2.axis e.2.level) ∧
    (s.filling = none → t.report = { s.report with lastClosed := 7 }) ∧
    ∀ (k : Slot) (p : Page) (records used : Nat), s.filling = some (k, p, records, used) →
      (records = 0 →
        t.report =
          { s.report with slots := s.report.slots.set k .empty, lastClosed := 7 } ∧
        t.read (slotStateWord k) = 1) ∧
      (records ≠ 0 →
        t.report =
          { s.report with
            slots := s.report.slots.set k (.full (some p))
            pagesClosed := s.report.pagesClosed + 1, lastClosed := 7, deadline := none } ∧
        t.read (slotStateWord k) = 3 ∧ t.read 0x0010 = s.report.pagesClosed + 1 ∧
        t.read (pageWord p 5) = 5 ∧ t.read (pageWord p 6) = kept.extractLsb' 0 16 ∧
        t.read (pageWord p 7) = kept.extractLsb' 16 16)

/-! ### Run control -/

/-- The words that a RUN_START with a valid setup may write. -/
def Sys2Proof.Machine.startTouches (addr : Addr) : Bool :=
  (allAxes.any fun a => isStatusWord a addr) ||
  (allSixteen.any fun j =>
    addr == joinWord j 3 || addr == joinWord j 4 || addr == joinWord j 5 || addr == lineWord j 7)

/-- RUN_START in STOPPED with a valid setup (R26, R29, R73): the setup is copied, the timebase is 0,
enabled axes are IDLE and the others OFF at position 0, every status block is rewritten in one bracket
(log 8, log 31), the join points are OPEN, the lines hold the raw levels, the device is RUNNING. A
snapshot owed in the tick that ends is written first (log 27). -/
def Obligations.RunStartBeginsASpan : Prop :=
  ∀ (raw : BitVec 16) (s : State), s.dev = .stopped →
    (∀ (f : SetupFault) (i : Fin 16), (Memory.setup s.ram).fails f i = false) → ∃ t,
    exec (.runStart raw) s = .next t ∧
    t =
      { s with
        ram := t.ram, dev := .running, timebase := 0, cmdBack := some (1, .taken)
        faultCode := .ok, faultIndex := 0, setup := t.setup, axes := t.axes, points := t.points
        lines := t.lines
        report := { s.report with deadline := t.report.deadline }
        snapCount := s.snapCount + BitVec.ofNat 16 s.snapsOwed, snapsOwed := 0 } ∧
    CopiedFrom s t.setup ∧
    (∀ k p records used, s.filling = some (k, p, records, used) → records ≠ 0 →
      t.report.deadline =
        if t.setup.reportAge = 0 then none else some (t.setup.reportAge.setWidth 48 * 1024)) ∧
    (∀ a : Axis,
      t.ax a =
        { state := if inMask t.setup.enabled a then .idle else .off
          ctx := none, stack := [], requests := .empty, position := 0
          step := (s.ax a).step
          dir := (s.ax a).step.isHigh && (s.ax a).dir
          dirChange :=
            if (s.ax a).dir = true ∧ (s.ax a).step.isHigh = false then some s.now else none
          dirZero := if (s.ax a).step.isHigh then .byRunStart else .notWaiting
          gate := .idle, haltCause := none, haltDetail := 0, haltLevel := 0
          shownPage := 0, shownIndex := 0, shownRemaining := 0, beganCount := none
          copy := t.statusWords a
          updateCount := (s.ax a).updateCount + 2
          dirty := false } ∧
      t.read (axisWord a 17) = (s.ax a).updateCount + 2 ∧
      t.read (axisWord a 18) = (if inMask t.setup.enabled a then 1 else 0) ∧
      (∀ i : Fin 14, i.val ≠ 0 → i.val ≠ 12 → t.read (axisWord a (18 + i.val)) = 0) ∧
      t.read (axisWord a 30) = BitVec.ofNat 16 (s.owedOf a).length) ∧
    (∀ j : Point,
      t.point j = { state := .opened, arrivals := 0, generation := 0, deadline := none } ∧
      t.read (joinWord j 3) = 0 ∧ t.read (joinWord j 4) = 0 ∧ t.read (joinWord j 5) = 0) ∧
    (∀ n : Line,
      t.line n = { qualified := raw.getLsbD n.val, runCount := 0 } ∧
      t.read (lineWord n 7) = if raw.getLsbD n.val then 1 else 0) ∧
    SnapshotWritten s t ∧ SameRamBut (fun addr => startTouches addr || s.snapTouches addr) s t

/-- RUN_START in STOPPED with a setup that fails validation: the first failing check in the order of
R27 is shown in STAT, SETUP_BAD is set, the read-back shows REFUSED, and nothing else changes. -/
def Obligations.RunStartShowsTheFirstFault : Prop :=
  ∀ (raw : BitVec 16) (s : State) (f : SetupFault) (i : Fin 16), s.dev = .stopped →
    (Memory.setup s.ram).fails f i = true →
    (∀ (g : SetupFault) (j : Fin 16),
      (Memory.setup s.ram).fails g j = true → checkOrder f i ≤ checkOrder g j) →
    exec (.runStart raw) s =
      .next
        { s with
          faultCode := f, faultIndex := BitVec.ofNat 4 i.val
          acause := s.acause ||| 0x002, cmdBack := some (1, .refused) }

/-- The commands of CMD that a device state refuses change nothing but the read-back; in INIT a write
to CMD changes nothing at all. -/
def Obligations.RefusedRunControl : Prop :=
  ∀ (s : State) (raw : BitVec 16) (value : Word),
    (s.dev = .running ∨ s.dev = .stopping →
      exec (.runStart raw) s = .next { s with cmdBack := some (1, .refused) }) ∧
    (s.dev = .stopped ∨ s.dev = .stopping →
      exec .runStop s = .next { s with cmdBack := some (2, .refused) }) ∧
    (s.inInit = false → ((value.extractLsb' 0 4).toNat = 0 ∨ 6 ≤ (value.extractLsb' 0 4).toNat) →
      exec (.cmdNoneCode value) s =
        .next { s with cmdBack := some (value.extractLsb' 0 4, .refused) }) ∧
    (s.inInit = true →
      exec (.runStart raw) s = .next s ∧ exec .runStop s = .next s ∧ exec .softReset s = .next s ∧
      exec .flush s = .next s ∧ exec .snap s = .next s ∧ exec (.cmdNoneCode value) s = .next s)

/-- RUN_STOP in RUNNING halts every active axis with RUN_STOPPED, whatever the order (log 6, log 7);
the other axes keep all they hold. Each OPEN point with arrivals and a halted member breaks. The
device is STOPPED, or STOPPING exactly while an axis owes a record. The premise ClaimLaw is a law that
every step keeps. -/
def Obligations.RunStopHaltsActiveAxes : Prop :=
  ∀ s : State, Quiet s → ClaimLaw s → s.dev = .running → ∃ t,
    exec .runStop s = .next t ∧
    t =
      { s with
        ram := t.ram, claims := t.claims, dev := t.dev, cmdBack := some (2, .taken)
        acause := t.acause, axes := t.axes, points := t.points, report := t.report
        freeCount := t.freeCount } ∧
    (t.report.waitList = [] → t.dev = .stopped ∧ t.acause.getLsbD 2 = true) ∧
    (t.report.waitList ≠ [] → t.dev = .stopping) ∧
    (∀ a : Axis, (s.ax a).state.active = true →
      (t.ax a).state = .halted ∧ (t.ax a).haltCause = some .runStopped ∧
      (t.ax a).haltDetail = 0 ∧ (t.ax a).haltLevel = (s.ax a).level ∧ (t.ax a).ctx = none ∧
      (t.ax a).stack = [] ∧ (t.ax a).requests = .empty ∧ (t.ax a).gate = .idle ∧
      (t.ax a).position = (s.ax a).position ∧ (t.ax a).step = (s.ax a).step ∧
      (t.ax a).dir = (s.ax a).dir ∧ t.acause.getLsbD 7 = true) ∧
    (∀ a : Axis, (s.ax a).state.active = false → t.ax a = s.ax a) ∧
    (∀ e ∈ t.claims, e ∈ s.claims ∧ (s.ax e.2.axis).state.active = false) ∧
    (∀ j : Point, (s.point j).state = .opened → (s.point j).arrivals ≠ 0 →
      (∃ a : Axis, inMask (s.members j) a = true ∧ (s.ax a).state.active = true) →
      t.point j = { s.point j with state := .broken .memberHalted, deadline := none }) ∧
    ∀ j : Point,
      ((s.point j).state ≠ .opened ∨ (s.point j).arrivals = 0 ∨
        ∀ a : Axis, inMask (s.members j) a = true → (s.ax a).state.active = false) →
      t.point j = s.point j

/-- FLUSH outside INIT closes the FILLING page with reason FLUSH if it holds records; otherwise only the
read-back changes. AGING_EXPIRY closes it with reason AGED when the timebase equals its deadline. -/
def Obligations.FlushAndAgingCloseThePage : Prop :=
  (∀ s : State, s.inInit = false →
    ((∀ k p records used, s.filling = some (k, p, records, used) → records = 0) →
      exec .flush s = .next { s with cmdBack := some (4, .taken) }) ∧
    ∀ k p records used, s.filling = some (k, p, records, used) → records ≠ 0 → ∃ t,
      exec .flush s = .next t ∧ PageCloses 3 k p { s with cmdBack := some (4, .taken) } t) ∧
  ∀ (k : Slot) (p : Page) (records used : Nat) (s : State),
    s.dev = .running ∨ s.dev = .stopping → s.report.deadline = some s.timebase →
    s.filling = some (k, p, records, used) → records ≠ 0 → ∃ t,
    exec .agingExpiry s = .next t ∧ PageCloses 2 k p s t

/-- SNAP outside INIT is taken at once, and its snapshot is written at the end of its tick with every
step that has started by then (R35, log 27): the time, the positions (0 for an OFF axis) and the snap
count. Two SNAPs in one tick write the same words, and the snap count advances by 2. -/
def Obligations.SnapWritesTheSnapshot : Prop :=
  ∀ s : State,
    (s.inInit = false →
      exec .snap s = .next { s with snapsOwed := s.snapsOwed + 1, cmdBack := some (5, .taken) }) ∧
    ∀ raw : BitVec 16, s.anyDue = false → ∃ t,
      exec (.tickBoundary raw) s = .next t ∧
      t.snapCount = s.snapCount + BitVec.ofNat 16 s.snapsOwed ∧ t.snapsOwed = 0 ∧
      SnapshotWritten s t ∧
      (s.snapsOwed = 0 →
        SameRamBut (fun addr => 0x0020 > addr.toNat || addr.toNat > 0x0033) s t)

/-! ### Registers -/

/-- ID reads 0x8201 in every state. -/
def Obligations.IdReadsPartCode : Prop := ∀ s : State, s.readRegister .id = 0x8201

/-- ACAUSE_WRITE clears each of the ten bits written as 1 and leaves the others; in INIT it is
ignored. HARD_RESET and SOFT_RESET clear every bit. -/
def Obligations.AcauseWriteClears : Prop :=
  (∀ (value : Word) (s : State),
    (s.inInit = true → exec (.acauseWrite value) s = .next s) ∧
    (s.inInit = false → ∃ t,
      exec (.acauseWrite value) s = .next t ∧ t = { s with acause := t.acause } ∧
      ∀ b : Fin 10,
        t.acause.getLsbD b.val = (s.acause.getLsbD b.val && !value.getLsbD b.val))) ∧
  (∀ (kind : ResetKind) (s : State), ∃ t,
    exec (.hardReset kind) s = .next t ∧ t.acause = 0) ∧
  ∀ s : State, s.inInit = false → ∃ t, exec .softReset s = .next t ∧ t.acause = 0

/-- AMASK_WRITE stores bits 9:0, in INIT it is ignored; AMASK reads back with bits 15:10 as 0; ALERT_N
is low exactly while a set cause is also set in the mask; both resets clear the mask. -/
def Obligations.AlertFollowsMaskAndCauses : Prop :=
  (∀ (value : Word) (s : State),
    (s.inInit = true → exec (.amaskWrite value) s = .next s) ∧
    (s.inInit = false →
      exec (.amaskWrite value) s = .next { s with amask := value.extractLsb' 0 10 })) ∧
  (∀ s : State, s.readRegister .amask = 0#6 ++ s.amask) ∧
  (∀ s : State,
    s.alertN = false ↔ ∃ b : Fin 10, s.acause.getLsbD b.val = true ∧ s.amask.getLsbD b.val = true) ∧
  (∀ (kind : ResetKind) (s : State), ∃ t,
    exec (.hardReset kind) s = .next t ∧ t.amask = 0 ∧ t.alertN = true) ∧
  ∀ s : State, s.inInit = false → ∃ t,
    exec .softReset s = .next t ∧ t.amask = 0 ∧ t.alertN = true

/-- TIME0_READ, in every state: the port carries bits 15:0 of the timebase, the latch takes bits 47:16,
which TIME1 and TIME2 then return. The port data is the model's own field (log 23). -/
def Obligations.Time0ReadLoadsTheLatch : Prop :=
  ∀ s : State, ∃ t,
    exec .time0Read s = .next t ∧
    t = { s with portData := s.timebase.extractLsb' 0 16, timeLatch := s.timebase.extractLsb' 16 32 } ∧
    t.readRegister .time1 = s.timebase.extractLsb' 16 16 ∧
    t.readRegister .time2 = s.timebase.extractLsb' 32 16

/-- The run-control command that a value written to CMD is, by its bits 3:0; bits 15:4 are ignored
(R25). -/
def Sys2Proof.Machine.runControlOf (raw : BitVec 16) (value : Word) : Instr :=
  match (value.extractLsb' 0 4).toNat with
  | 1 => .runStart raw
  | 2 => .runStop
  | 3 => .softReset
  | 4 => .flush
  | 5 => .snap
  | _ => .cmdNoneCode value

/-- The register window by its offsets 0 to 7 (R166): what each reads, the CMD read-back with the code in
bits 3:0 and the result in bits 9:8 (TAKEN 1, REFUSED 2), and STAT with the device state in bits 1:0,
the fault code in bits 6:4 and the fault index in bits 11:8 (12.5); a write to ID, STAT or TIME0 to TIME2, and
in INIT any write, changes nothing; a write to offset 1, 3 or 4 is the write to CMD, ACAUSE or AMASK. A
write to CMD is the command of its bits 3:0 (R25); that the row CMD_NONE_CODE with such a value is that
command, with the levels last seen on the pins, is the model's choice (log 18, log 22). -/
def Obligations.ReadOnlyRegistersIgnoreWrites : Prop :=
  ∀ (offset : BitVec 3) (value : Word) (s : State),
    (offset = 0 ∨ offset = 2 ∨ offset = 5 ∨ offset = 6 ∨ offset = 7 ∨ s.inInit = true →
      exec (.registerWriteIgnored offset value) s = .next s) ∧
    exec (.registerWriteIgnored 1 value) s = exec (.cmdNoneCode value) s ∧
    exec (.registerWriteIgnored 3 value) s = exec (.acauseWrite value) s ∧
    exec (.registerWriteIgnored 4 value) s = exec (.amaskWrite value) s ∧
    exec (.cmdNoneCode value) s = exec (runControlOf s.rawLevels value) s ∧
    s.readOffset 0 = 0x8201 ∧
    (s.readOffset 1).toNat =
      (match s.cmdBack with
      | none => 0
      | some (code, .taken) => code.toNat + 256
      | some (code, .refused) => code.toNat + 512) ∧
    (s.readOffset 2).toNat =
      (match s.dev with
      | .init _ => 0
      | .stopped => 1
      | .running => 2
      | .stopping => 3) +
      16 *
        (match s.faultCode with
        | .ok => 0
        | .noAxes => 1
        | .axisLimits => 2
        | .joinMembers => 3
        | .inputAxes => 4
        | .inputHead => 5) +
      256 * s.faultIndex.toNat ∧
    s.readOffset 3 = 0#6 ++ s.acause ∧ s.readOffset 4 = 0#6 ++ s.amask ∧
    s.readOffset 5 = s.timebase.extractLsb' 0 16 ∧ s.readOffset 6 = s.timeLatch.extractLsb' 0 16 ∧
    s.readOffset 7 = s.timeLatch.extractLsb' 16 16

/-! ### The exchange RAM -/

/-- HOST_RAM_WRITE outside INIT to a word that is neither a fixed watched word nor watched by a starved
axis stores the value and nothing more. -/
def Obligations.HostRamWriteStores : Prop :=
  ∀ (addr : Addr) (value : Word) (s : State), Quiet s → s.inInit = false →
    isFixedWatched addr = false →
    (∀ (a : Axis) (w : Wait), s.watches a w = true → w.word ≠ addr) → ∃ t,
    exec (.hostRamWrite addr value) s = .next t ∧ t = { s with ram := t.ram } ∧
    t.read addr = value ∧ SameRamBut (fun b => b == addr) s t

/-- In INIT every host write to the exchange RAM is discarded and gives no event. -/
def Obligations.InitDiscardsHostWrites : Prop :=
  ∀ (s : State), Quiet s → s.inInit = true →
    ∀ (addr : Addr) (value : Word) (a : Axis) (code : BitVec 4) (arg : BitVec 12) (j : Point)
      (k : Slot) (p : Page),
      s.hostRead addr = 0 ∧
      exec (.hostRamWrite addr value) s = .next s ∧ exec (.axisNone a arg) s = .next s ∧
      exec (.start a arg) s = .next s ∧ exec (.pause a arg) s = .next s ∧
      exec (.resume a arg) s = .next s ∧ exec (.abort a arg) s = .next s ∧
      exec (.clear a arg) s = .next s ∧ exec (.interject a arg) s = .next s ∧
      exec (.withdraw a arg) s = .next s ∧ exec (.setpos a arg) s = .next s ∧
      exec (.unknownCommand a code arg) s = .next s ∧ exec (.rearm j value) s = .next s ∧
      exec (.slotStateWrite k value) s = .next s ∧ exec (.linkWordEvent p value) s = .next s ∧
      exec (.stateWordEvent p value) s = .next s

/-- The axis command that a value written to the command word of an axis is (R79). -/
def Sys2Proof.Machine.commandOf (a : Axis) (value : Word) : Instr :=
  match (value.extractLsb' 0 4).toNat with
  | 0 => .axisNone a (value.extractLsb' 4 12)
  | 1 => .start a (value.extractLsb' 4 12)
  | 2 => .pause a (value.extractLsb' 4 12)
  | 3 => .resume a (value.extractLsb' 4 12)
  | 4 => .abort a (value.extractLsb' 4 12)
  | 5 => .clear a (value.extractLsb' 4 12)
  | 6 => .interject a (value.extractLsb' 4 12)
  | 7 => .withdraw a (value.extractLsb' 4 12)
  | 8 => .setpos a (value.extractLsb' 4 12)
  | _ => .unknownCommand a (value.extractLsb' 0 4) (value.extractLsb' 4 12)

/-- A host write to a watched word is the event of its owner with the full value written: the row
HOST_RAM_WRITE at such a word is that event's row, and UNKNOWN_COMMAND with a known code is that
command's row (R12, R14, R79; log 18). -/
def Obligations.WritesToWatchedWordsAreEvents : Prop :=
  ∀ (value : Word) (s : State), Quiet s →
    (∀ a : Axis, exec (.hostRamWrite (axisWord a 0) value) s = exec (commandOf a value) s) ∧
    (∀ (a : Axis) (code : BitVec 4) (arg : BitVec 12),
      exec (.unknownCommand a code arg) s = exec (commandOf a (arg ++ code)) s) ∧
    (∀ j : Point, exec (.hostRamWrite (joinWord j 2) value) s = exec (.rearm j value) s) ∧
    (∀ k : Slot, exec (.hostRamWrite (slotStateWord k) value) s = exec (.slotStateWrite k value) s) ∧
    ∀ p : Page, isGeneralPage p = true →
      exec (.hostRamWrite (pageWord p 2) value) s = exec (.linkWordEvent p value) s ∧
      exec (.hostRamWrite (pageWord p 1) value) s = exec (.stateWordEvent p value) s

/-- The host-written words of the directory and its ignored words (R2, R3). -/
def Sys2Proof.Machine.isHostWord (addr : Addr) : Bool :=
  let n := addr.toNat
  n < 0x0010 || (0x0014 ≤ n && n < 0x0020) || (0x0034 ≤ n && n < 0x0040) ||
  (0x0040 ≤ n && n < 0x0050 && n % 2 == 0) || (0x0050 ≤ n && n < 0x0080) ||
  (0x0080 ≤ n && n < 0x0100 && (n % 8 < 3 || 5 < n % 8)) ||
  (0x0100 ≤ n && n < 0x0200 && n % 32 < 16) || (0x0200 ≤ n && n < 0x0280 && n % 8 < 7) ||
  (0x0280 ≤ n && n < 0x0300)

/-- The word of the exchange RAM that the host itself writes in a command. -/
def Sys2Proof.Machine.wordWritten : Instr → Option Addr
  | .hostRamWrite addr _ => some addr
  | .axisNone a _ => some (axisWord a 0)
  | .start a _ => some (axisWord a 0)
  | .pause a _ => some (axisWord a 0)
  | .resume a _ => some (axisWord a 0)
  | .abort a _ => some (axisWord a 0)
  | .clear a _ => some (axisWord a 0)
  | .interject a _ => some (axisWord a 0)
  | .withdraw a _ => some (axisWord a 0)
  | .setpos a _ => some (axisWord a 0)
  | .unknownCommand a _ _ => some (axisWord a 0)
  | .rearm j _ => some (joinWord j 2)
  | .slotStateWrite k _ => some (slotStateWord k)
  | .linkWordEvent p _ => some (pageWord p 2)
  | .stateWordEvent p _ => some (pageWord p 1)
  | _ => none

/-- The part does not write host-written words of the directory: in every command but the end of the
zero fill they stand, except the word the host itself writes. The premises are laws that every step
keeps (ClaimPageAndRecordLawsKept, PoolLawsKept, MemoryQuietAndBracketsKept). -/
def Obligations.HostWordsKept : Prop :=
  ∀ (c : Instr) (s t : State) (addr : Addr), PageLaw s → RecordLaw s → FillingLaw s →
    Quiet s → exec c s = .next t → c ≠ .zeroFillEnd → isHostWord addr = true →
    wordWritten c ≠ some addr → t.read addr = s.read addr

/-! ### Axis commands -/

/-- NONE stores its word and gives no answer, in every device state but INIT and every axis state.
UNKNOWN_COMMAND is answered UNKNOWN_COMMAND in RUNNING, on an OFF axis too, and NOT_RUNNING in STOPPED
and STOPPING. Nothing but the command word and the answer word changes. -/
def Obligations.CommandsWithoutEffect : Prop :=
  (∀ (a : Axis) (arg : BitVec 12) (s : State), s.inInit = false → ∃ t,
    exec (.axisNone a arg) s = .next t ∧ t = { s with ram := t.ram } ∧
    t.read (axisWord a 0) = arg ++ 0#4 ∧ SameRamBut (fun b => b == axisWord a 0) s t) ∧
  ∀ (a : Axis) (code : BitVec 4) (arg : BitVec 12) (s : State), Quiet s → 9 ≤ code.toNat →
    (s.dev = .running → exec (.unknownCommand a code arg) s = .next (s.answered a code arg 6)) ∧
    (s.dev = .stopped ∨ s.dev = .stopping →
      exec (.unknownCommand a code arg) s = .next (s.answered a code arg 5))

/-- An axis command that is turned away is answered with the code of the first check that applies and
changes nothing but the command word and the answer word. -/
def Obligations.RefusedCommandsOnlyAnswer : Prop :=
  ∀ (a : Axis) (arg : BitVec 12) (r : BitVec 4) (s : State), Quiet s → s.inInit = false →
    (s.refusal a (s.startRefusal a) = some r →
      exec (.start a arg) s = .next (s.answered a 1 arg r)) ∧
    (s.refusal a (s.pauseRefusal a) = some r →
      exec (.pause a arg) s = .next (s.answered a 2 arg r)) ∧
    (s.refusal a (s.resumeRefusal a) = some r →
      exec (.resume a arg) s = .next (s.answered a 3 arg r)) ∧
    (s.refusal a (s.abortRefusal a) = some r →
      exec (.abort a arg) s = .next (s.answered a 4 arg r)) ∧
    (s.refusal a (s.clearRefusal a) = some r →
      exec (.clear a arg) s = .next (s.answered a 5 arg r)) ∧
    (s.refusal a (s.interjectRefusal a arg) = some r →
      exec (.interject a arg) s = .next (s.answered a 6 arg r)) ∧
    (s.refusal a (s.withdrawRefusal a arg) = some r →
      exec (.withdraw a arg) s = .next (s.answered a 7 arg r)) ∧
    (s.refusal a (s.setposRefusal a) = some r →
      exec (.setpos a arg) s = .next (s.answered a 8 arg r))

/-- The axis engine with a base context that is about to enter page `p` (R82). -/
def Sys2Proof.Machine.AxisEngine.startingOn (x : AxisEngine) (p : Page) : AxisEngine :=
  { x with
    state := .running
    gate := .idle
    ctx :=
      some
        { level := 0, idleBase := false, page := some p, count := 0, index := 0, residue := 0
          following := none, phase := .atBegin } }

/-- START accepted: a base context enters the head page. The entry is granted and the chain stands at
segment 0, followed through up to 31 segments that take no time; or the axis starves on a FREE page, or
it halts with BAD_LINK (R42 to R46, R50, R82; log 11 for the page and index that the HALT record names,
log 9 for the order of the chain's own work). The rewrite of the status block is made at the end of the
tick (log 8). What a chain does behind this is said by AtBegin (log 30). -/
def Obligations.StartEntersTheHeadPage : Prop :=
  ∀ (a : Axis) (arg : BitVec 12) (p : Page) (s : State), Quiet s → s.dev = .running →
    (s.ax a).state = .idle → isGeneralPage p = true → s.read (axisWord a 1) = pageNumber p → ∃ t,
    exec (.start a arg) s = .next t ∧
    ∀ c ∈ ((s.ax a).startingOn p).ctx,
      Enters a (BeginPoint a) c p (s.read (pageWord p 1))
        ((s.answered a 1 arg 1).setAx a ((s.ax a).startingOn p)) t

/-- The fields of a segment record by its words (12.3). -/
abbrev Sys2Proof.Machine.SegmentFields (r : SegRecord) : Prop :=
  r.kindCode = r.w0.extractLsb' 0 4 ∧ r.report = r.w0.getLsbD 4 ∧ r.forward = r.w0.getLsbD 5 ∧
  r.timeoutHalt = r.w0.getLsbD 6 ∧ r.tag = r.w7 ∧
  r.stepCount = r.w1.toNat + 65536 * (r.w2.toNat % 256) ∧
  r.interval = r.w3.toNat + 65536 * (r.w4.toNat % 256) ∧
  r.change = r.w5.toInt ∧ r.width = r.w6.toNat ∧
  r.duration = r.w1.toNat + 65536 * r.w2.toNat ∧
  (∀ j : Point, r.joinPoint = some j ↔ r.w1.toNat = j.val) ∧
  r.line.val = r.w1.toNat % 16 ∧ r.awaited = r.w1.getLsbD 8 ∧
  (r.w2 = 0 ∧ r.w3 = 0 → r.timeout = none) ∧
  (r.w2 ≠ 0 ∨ r.w3 ≠ 0 → r.timeout = some (r.w2.toNat + 65536 * r.w3.toNat)) ∧
  r.value = r.w1

/-- The validity check by the words of the record: the kind in bits 3:0 of word 0; a RUN with a count of
at least 1, V of at least 32, and W from 1 to below V / 16; a JOIN at a point of which the axis is a member
(R43, 12.3). -/
abbrev Sys2Proof.Machine.ValidByWords (s : State) (a : Axis) (r : SegRecord) : Prop :=
  (s.validKind a r = some .run ↔
    r.w0.toNat % 16 = 1 ∧ 1 ≤ r.w1.toNat + 65536 * (r.w2.toNat % 256) ∧
    32 ≤ r.w3.toNat + 65536 * (r.w4.toNat % 256) ∧ 1 ≤ r.w6.toNat ∧
    r.w6.toNat < (r.w3.toNat + 65536 * (r.w4.toNat % 256)) / 16) ∧
  (s.validKind a r = some .dwell ↔ r.w0.toNat % 16 = 2) ∧
  (s.validKind a r = some .join ↔
    r.w0.toNat % 16 = 3 ∧ ∃ j : Point, r.w1.toNat = j.val ∧ (s.members j).getLsbD a.val = true) ∧
  (s.validKind a r = some .waitInput ↔ r.w0.toNat % 16 = 4) ∧
  (s.validKind a r = some .note ↔ r.w0.toNat % 16 = 5) ∧
  (s.validKind a r = some .end_ ↔ r.w0.toNat % 16 = 6)

/-- The words of segment record `i` of page `p`: words 8 + 8i to 15 + 8i (R6, 12.2). -/
def Sys2Proof.Machine.State.recordWords (s : State) (p : Page) (i : Nat) : SegRecord :=
  { w0 := s.read (pageWord p (BitVec.ofNat 8 (8 + 8 * i)))
    w1 := s.read (pageWord p (BitVec.ofNat 8 (9 + 8 * i)))
    w2 := s.read (pageWord p (BitVec.ofNat 8 (10 + 8 * i)))
    w3 := s.read (pageWord p (BitVec.ofNat 8 (11 + 8 * i)))
    w4 := s.read (pageWord p (BitVec.ofNat 8 (12 + 8 * i)))
    w5 := s.read (pageWord p (BitVec.ofNat 8 (13 + 8 * i)))
    w6 := s.read (pageWord p (BitVec.ofNat 8 (14 + 8 * i)))
    w7 := s.read (pageWord p (BitVec.ofNat 8 (15 + 8 * i))) }

/-- The words and fields of a segment record and the ranges of its validity check (R6, R43, 12.3). The
first segment of a chain, by the kinds that do not begin at once and stay: an axis that owes records
waits, an invalid record halts the axis with its kind field, END makes it IDLE, a JOIN that does not
complete its meeting is counted and waits (R42, R43, R51, R122, R125). The rewrite of the status block is
made at the end of the tick (log 8). -/
def Obligations.StartMeetsTheFirstSegment : Prop :=
  (∀ (a : Axis) (s : State) (r : SegRecord), SegmentFields r ∧ ValidByWords s a r) ∧
  (∀ (s : State) (p : Page) (i : Nat), i < 31 → s.readRecord p i = s.recordWords p i) ∧
  ∀ (a : Axis) (arg : BitVec 12) (p : Page) (s : State), Quiet s → s.dev = .running →
    (s.ax a).state = .idle → isGeneralPage p = true → s.read (axisWord a 1) = pageNumber p →
    EntryGranted s p (s.read (pageWord p 1)) → ∃ t,
    exec (.start a arg) s = .next t ∧
    ∀ c ∈ ((s.ax a).startingOn p).ctx, ∀ u : State,
      u = ((s.answered a 1 arg 1).setAx a ((s.ax a).startingOn p)).withClaim a c p →
      (s.owes a = true →
        AxisBecomes a
          { (s.ax a).startingOn p with
            state := .reportWait
            ctx := some { c.onPage s p with following := some (s.readRecord p 0) } }
          u t) ∧
      (s.owes a = false → s.validKind a (s.readRecord p 0) = none → NoMeeting s a →
        Halts a .badSegment ((s.readRecord p 0).kindCode.setWidth 8)
          (u.setAx a { (s.ax a).startingOn p with ctx := some (c.onPage s p) }) t) ∧
      (s.owes a = false → (s.readRecord p 0).kind = some .end_ → (s.ax a).stack = [] →
        EndsBase a (c.onPage s p) (s.readRecord p 0) u t) ∧
      (s.owes a = false → s.validKind a (s.readRecord p 0) = some .join →
        ∀ j ∈ (s.readRecord p 0).joinPoint, (s.point j).state = .opened →
          inMask (s.point j).arrivals a = false →
          (s.point j).arrivals ||| maskBit a ≠ s.members j →
          AxisBecomes a
            { (s.ax a).startingOn p with
              state := .waitJoin
              ctx :=
                some
                  { (c.onPage s p).readsNext s with
                    phase :=
                      .inSegment
                        (.join j none false (s.readRecord p 0).report (s.readRecord p 0).tag) } }
            ((u.setPoint j
              { s.point j with
                arrivals := (s.point j).arrivals ||| maskBit a
                deadline :=
                  if (s.point j).arrivals = 0 then
                    if s.setup.points[j].timeout = 0 then none
                    else some (s.timebase + s.setup.points[j].timeout.setWidth 48 * 1024)
                  else (s.point j).deadline }).write
              (joinWord j 4) (((s.point j).arrivals ||| maskBit a).setWidth 16)) t)

/-- PAUSE accepted: a RUNNING axis becomes PAUSING with its step, gap or held step going on; a waiting or
dwelling axis becomes PAUSED with its context frozen as it stands. The rewrite of the status block is made
at the end of the tick (log 8). -/
def Obligations.PauseTakesHold : Prop :=
  ∀ (a : Axis) (arg : BitVec 12) (s : State), Quiet s → s.dev = .running →
    ((s.ax a).state = .running → ∃ t,
      exec (.pause a arg) s = .next t ∧
      AxisBecomes a { s.ax a with state := .pausing } (s.answered a 2 arg 1) t) ∧
    ((s.ax a).state = .dwelling ∨ (s.ax a).state = .waitJoin ∨ (s.ax a).state = .waitInput ∨
        (s.ax a).state = .starved ∨ (s.ax a).state = .reportWait → ∃ t,
      exec (.pause a arg) s = .next t ∧
      AxisBecomes a { s.ax a with state := .paused } (s.answered a 2 arg 1) t)

/-- RESUME on a PAUSING axis cancels the pause and changes nothing else of the axis. On a PAUSED axis
whose acceptance check takes nothing it lets the frozen context go on, by what that is doing (the table
of R87; the re-check of R57). That the HALT record of a state wait whose re-check ends in BAD_LINK names
the page and index of the wait is log 11. The rewrite of the status block is made at the end of the tick
(log 8). What a chain does behind this is said by AtBegin (log 9, log 30). -/
def Obligations.ResumeLetsTheAxisGoOn : Prop :=
  (∀ (a : Axis) (arg : BitVec 12) (s : State), Quiet s → s.dev = .running →
    (s.ax a).state = .pausing → ∃ t,
    exec (.resume a arg) s = .next t ∧
    AxisBecomes a { s.ax a with state := .running } (s.answered a 3 arg 1) t) ∧
  ∀ (a : Axis) (arg : BitVec 12) (s : State), Quiet s → s.dev = .running →
    (s.ax a).state = .paused → (s.ax a).acceptable = false → ∃ t,
    exec (.resume a arg) s = .next t ∧ Resumes a (BeginPoint a) (s.answered a 3 arg 1) t

/-- ABORT on an active axis halts it at once with cause ABORTED and detail 0. Where its halt breaks no
join point, nothing else happens than its halt: contexts and requests gone, claims released, HALT record,
AXIS_HALTED, outputs and position held. In every case, whatever else the breaks halt (log 6, log 7), every
OPEN point with arrivals of which the axis is a member breaks with MEMBER_HALTED, JOIN_BROKEN is set, and
an axis in WAIT_JOIN that had arrived there is HALTED. The rewrite of the status block is made at the end
of the tick (log 8). -/
def Obligations.AbortHaltsTheAxis : Prop :=
  ∀ (a : Axis) (arg : BitVec 12) (s : State), Quiet s → s.dev = .running →
    (s.ax a).state.active = true → ∃ t,
    exec (.abort a arg) s = .next t ∧
    (NoMeeting s a → Halts a .aborted 0 (s.answered a 4 arg 1) t) ∧
    (t.ax a).state = .halted ∧ (t.ax a).haltCause = some .aborted ∧ (t.ax a).haltDetail = 0 ∧
    (t.ax a).ctx = none ∧ (t.ax a).stack = [] ∧ (t.ax a).requests = .empty ∧
    (t.ax a).position = (s.ax a).position ∧ (t.ax a).step = (s.ax a).step ∧
    (t.ax a).dir = (s.ax a).dir ∧ t.acause.getLsbD 7 = true ∧
    ∀ j : Point, inMask (s.members j) a = true → (s.point j).state = .opened →
      (s.point j).arrivals ≠ 0 →
      t.point j = { s.point j with state := .broken .memberHalted, deadline := none } ∧
      t.acause.getLsbD 9 = true ∧
      ∀ b : Axis, inMask (s.point j).arrivals b = true → (s.ax b).state = .waitJoin →
        (∃ c, (s.ax b).ctx = some c ∧ c.holdsArrival j = true) → (t.ax b).state = .halted

/-- A halt releases every claim of the axis and no other: each of its pages is SPENT with the time of
this tick, its spender and level, and has no claimant. -/
def Obligations.HaltReleasesItsClaims : Prop :=
  ∀ (a : Axis) (s : State), ClaimLaw s →
    s.releaseAxisClaims a =
      { s with
        ram := (s.releaseAxisClaims a).ram
        claims := s.claims.filter fun e => e.2.axis ≠ a } ∧
    (∀ e ∈ s.claims, e.2.axis = a →
      (s.releaseAxisClaims a).read (pageWord (BitVec.ofNat 7 e.1) 1) = 3 ∧
      (s.releaseAxisClaims a).read (pageWord (BitVec.ofNat 7 e.1) 4) = s.timebase.extractLsb' 0 16 ∧
      (s.releaseAxisClaims a).read (pageWord (BitVec.ofNat 7 e.1) 5) =
        s.timebase.extractLsb' 16 16 ∧
      (s.releaseAxisClaims a).read (pageWord (BitVec.ofNat 7 e.1) 6) =
        s.timebase.extractLsb' 32 16 ∧
      (s.releaseAxisClaims a).read (pageWord (BitVec.ofNat 7 e.1) 7) = axisLevelWord a e.2.level) ∧
    SameRamBut
      (fun addr => s.claims.any fun e =>
        e.2.axis == a && (addr == pageWord (BitVec.ofNat 7 e.1) 1 ||
          isPageWord (BitVec.ofNat 7 e.1) 4 7 addr))
      s (s.releaseAxisClaims a)

/-- CLEAR on a HALTED axis that owes nothing makes it IDLE with halt cause, detail and level 0 and
remaining step count 0; page, index, position and outputs stand. SETPOS accepted sets the position to the
value of words +3 and +4. WITHDRAW of an occupied slot empties it. Nothing else of the axis changes. The
rewrite of the status block is made at the end of the tick (log 8). -/
def Obligations.ClearSetposWithdraw : Prop :=
  ∀ (a : Axis) (arg : BitVec 12) (s : State), Quiet s → s.dev = .running →
    ((s.ax a).state = .halted → s.owedOf a = [] → ∃ t,
      exec (.clear a arg) s = .next t ∧
      AxisBecomes a
        { s.ax a with
          state := .idle, haltCause := none, haltDetail := 0, haltLevel := 0, shownRemaining := 0 }
        (s.answered a 5 arg 1) t) ∧
    ((s.ax a).state = .idle ∨ (s.ax a).state = .halted → ¬ s.setposOutside a → ∃ t,
      exec (.setpos a arg) s = .next t ∧
      AxisBecomes a
        { s.ax a with position := s.read (axisWord a 4) ++ s.read (axisWord a 3) }
        (s.answered a 8 arg 1) t) ∧
    ((s.ax a).state ≠ .off → (s.ax a).requests.get (argLevel arg) ≠ none → ∃ t,
      exec (.withdraw a arg) s = .next t ∧
      AxisBecomes a { s.ax a with requests := (s.ax a).requests.set (argLevel arg) none }
        (s.answered a 7 arg 1) t)

/-- The axis engine with a request of INTERJECT in the slot of its level (R90). -/
def Sys2Proof.Machine.AxisEngine.withRequest (x : AxisEngine) (l : Level) (head : Word) :
    AxisEngine :=
  { x with requests := x.requests.set l (some { head := head, source := .command }) }

/-- The checks of INTERJECT all pass (R90). -/
abbrev Sys2Proof.Machine.State.interjectAccepted (s : State) (a : Axis) (arg : BitVec 12) : Prop :=
  (s.ax a).state ≠ .off ∧ (s.ax a).state ≠ .halted ∧ argLevel arg ≠ 0 ∧
    3 ≤ (s.read (axisWord a 2)).toNat ∧ (s.read (axisWord a 2)).toNat ≤ 127 ∧
    (s.ax a).requests.get (argLevel arg) = none

/-- INTERJECT accepted where no acceptance check is made at once, or where the check takes nothing: the
slot of the level holds the head page with source "command". The rewrite of the status block is made at
the end of the tick (log 8). -/
def Obligations.InterjectPlacesTheRequest : Prop :=
  ∀ (a : Axis) (arg : BitVec 12) (s : State), Quiet s → s.dev = .running →
    s.interjectAccepted a arg →
    (s.ax a).state = .running ∨ (s.ax a).state = .pausing ∨ (s.ax a).state = .paused ∨
      (s.ax a).state = .reportWait ∨
      ((s.ax a).withRequest (argLevel arg) (s.read (axisWord a 2))).acceptable = false → ∃ t,
    exec (.interject a arg) s = .next t ∧
    AxisBecomes a ((s.ax a).withRequest (argLevel arg) (s.read (axisWord a 2)))
      (s.answered a 6 arg 1) t

/-- The acceptance check takes the request of the highest pending level exactly if that level is above
the running level and at most one context is saved. It takes a request at INTERJECT on an IDLE,
DWELLING, WAIT_JOIN, WAIT_INPUT or STARVED axis, and at RESUME on a PAUSED axis (log 11 for the page and
index of a HALT record at the entry). The rewrite of the status block is made at the end of the tick
(log 8). What a chain does behind this is said by AtBegin (log 9, log 30). -/
def Obligations.RequestsAreTaken : Prop :=
  (∀ x : AxisEngine,
    x.acceptable = true ↔
      ∃ l : Level,
        (x.requests.get l).isSome = true ∧
        (∀ m : Level, (x.requests.get m).isSome = true → m ≤ l) ∧
        x.level < l ∧ x.stack.length ≤ 1) ∧
  ∀ (a : Axis) (arg : BitVec 12) (l : Level) (r : Request) (p : Page) (s : State), Quiet s →
    s.dev = .running → generalPage? r.head = some p →
    (s.interjectAccepted a arg →
      (s.ax a).state = .idle ∨ (s.ax a).state = .dwelling ∨ (s.ax a).state = .waitJoin ∨
        (s.ax a).state = .waitInput ∨ (s.ax a).state = .starved →
      ((s.ax a).withRequest (argLevel arg) (s.read (axisWord a 2))).acceptable = true →
      ((s.ax a).withRequest (argLevel arg) (s.read (axisWord a 2))).requests.top = some (l, r) →
      ∃ t, exec (.interject a arg) s = .next t ∧
        TakesRequest a (BeginPoint a) ((s.ax a).withRequest (argLevel arg) (s.read (axisWord a 2))) l r p
          (s.answered a 6 arg 1) t) ∧
    ((s.ax a).state = .paused → (s.ax a).acceptable = true →
      (s.ax a).requests.top = some (l, r) →
      ∃ t, exec (.resume a arg) s = .next t ∧
        TakesRequest a (BeginPoint a) (s.ax a) l r p (s.answered a 3 arg 1) t)

/-! ### Join points and slots -/

/-- REARM: in RUNNING, 1 opens a BROKEN point with no arrivals and break cause none, keeping its
generation, and writes words +4 and +3; any other value, an OPEN point, STOPPED and STOPPING leave the
value stored and nothing else; in INIT the write is discarded. -/
def Obligations.RearmOpensABrokenPoint : Prop :=
  ∀ (j : Point) (value : Word) (s : State),
    (s.inInit = true → exec (.rearm j value) s = .next s) ∧
    (s.inInit = false →
      (s.dev ≠ .running ∨ value ≠ 1 ∨ (s.point j).state = .opened) →
      exec (.rearm j value) s = .next (s.write (joinWord j 2) value)) ∧
    (s.dev = .running → value = 1 → (s.point j).state ≠ .opened → ∃ t,
      exec (.rearm j value) s = .next t ∧
      t = { s with ram := t.ram, points := t.points } ∧
      t.point j = { s.point j with state := .opened, arrivals := 0 } ∧
      (∀ i : Point, i ≠ j → t.point i = s.point i) ∧
      t.read (joinWord j 2) = 1 ∧ t.read (joinWord j 4) = 0 ∧ t.read (joinWord j 3) = 0 ∧
      SameRamBut
        (fun addr => addr == joinWord j 2 || addr == joinWord j 3 || addr == joinWord j 4) s t)

/-- Axis `b`, which waits at point `j` in `s`, has completed its JOIN in `t`: its context is past it, in
the next segment, or at the begin point of it where the axis owes its DONE record (R123, R42). -/
abbrev Sys2Proof.Machine.JoinCompletes (b : Axis) (c : Context) (next : Running × AxisState)
    (t : State) : Prop :=
  ∃ d : Context, (t.ax b).ctx = some d ∧
    d.level = c.level ∧ d.page = c.page ∧ d.count = c.count ∧ d.index = c.index + 1 ∧
    (((t.ax b).state = next.2 ∧ d.phase = .inSegment next.1) ∨
      ((t.ax b).state = .reportWait ∧ d.phase = .atBegin))

/-- A release by the arrival of `last`: the generation advances, the arrivals are cleared, words +4 and
+5 are written, the point stays OPEN; every context of an arrived axis that holds an arrival at the
point has its released flag set with the generation, and the running ones that are not PAUSED complete
in this command, that of `last` ahead of every other event at its axis (log 6, log 9). A JOIN that
begins by START at an OPEN point whose only member is its axis releases the point at once, its DONE
record carries the generation, and the chain goes on. Where it is the last of several arrivals, every
arrived axis that waits there completes its JOIN in the same command. The rewrite of the status block is
made at the end of the tick (log 8). What a chain does behind this is said by AtBegin (log 11, log 30).
-/
def Obligations.ReleaseOfAPoint : Prop :=
  (∀ (j : Point) (g : Word) (c : Context),
    (∀ rep tag, c.phase = .inSegment (.join j none false rep tag) →
      c.flagReleased j g = { c with phase := .inSegment (.join j (some g) false rep tag) }) ∧
    (c.holdsArrival j = false → c.flagReleased j g = c)) ∧
  (∀ (j : Point) (arrivals : AxisMask) (last : Axis) (s t : State),
    s.releasePoint j arrivals last = t →
    t = { s with ram := t.ram, points := t.points, axes := t.axes, agenda := t.agenda } ∧
    t.point j =
      { state := .opened, arrivals := 0, generation := (s.point j).generation + 1
        deadline := none } ∧
    (∀ i : Point, i ≠ j → t.point i = s.point i) ∧
    t.read (joinWord j 4) = 0 ∧ t.read (joinWord j 5) = (s.point j).generation + 1 ∧
    SameRamBut (fun addr => addr == joinWord j 4 || addr == joinWord j 5) s t ∧
    (∀ a : Axis,
      t.ax a =
        if inMask arrivals a then
          { s.ax a with
            ctx := (s.ax a).ctx.map (Context.flagReleased j ((s.point j).generation + 1))
            stack := (s.ax a).stack.map (Context.flagReleased j ((s.point j).generation + 1)) }
        else s.ax a) ∧
    t.agenda =
      s.agenda ++
        ((maskAxes arrivals).filter fun a =>
          (s.ax a).state != .paused && (s.ax a).ctx.any fun c => c.holdsArrival j).map fun a =>
            if a = last then Task.arrived a else Task.joinDone a) ∧
  (∀ (a : Axis) (arg : BitVec 12) (p : Page) (j : Point) (s : State), Quiet s → s.dev = .running →
    (s.ax a).state = .idle → (s.ax a).stack = [] → isGeneralPage p = true →
    s.read (axisWord a 1) = pageNumber p → EntryGranted s p (s.read (pageWord p 1)) →
    s.owes a = false → s.validKind a (s.readRecord p 0) = some .join →
    (s.readRecord p 0).joinPoint = some j → (s.point j).state = .opened →
    (s.point j).arrivals = 0 → s.members j = maskBit a → ∃ t,
    exec (.start a arg) s = .next t ∧
    ∀ c ∈ ((s.ax a).startingOn p).ctx, ∀ u : State,
      u =
        ((((s.answered a 1 arg 1).setAx a ((s.ax a).startingOn p)).withClaim a c p).setPoint j
          { state := .opened, arrivals := 0, generation := (s.point j).generation + 1
            deadline := none }).write (joinWord j 4) 0 →
      ChainGoesOn a ((c.onPage s p).readsNext s)
        ((u.write (joinWord j 5) ((s.point j).generation + 1)).recorded a
          ((c.onPage s p).readsNext s) .join (s.readRecord p 0).report (s.readRecord p 0).tag
          (some ((s.point j).generation + 1)))
        t) ∧
  ∀ (a : Axis) (arg : BitVec 12) (p : Page) (j : Point) (s : State) (n : Running × AxisState),
    Quiet s → PageLaw s → RecordLaw s → s.dev = .running → (s.ax a).state = .idle →
    isGeneralPage p = true → s.read (axisWord a 1) = pageNumber p →
    EntryGranted s p (s.read (pageWord p 1)) → 2 ≤ (s.read (pageWord p 3)).toNat →
    s.owes a = false → s.validKind a (s.readRecord p 0) = some .join → (s.readRecord p 0).joinPoint = some j →
    s.begins a (s.readRecord p 1) = some n →
    (s.point j).state = .opened → inMask (s.point j).arrivals a = false →
    (s.point j).arrivals ||| maskBit a = s.members j →
    (∀ b : Axis, inMask (s.point j).arrivals b = true →
      (s.ax b).state = .waitJoin ∧
        ∃ c r m, (s.ax b).ctx = some c ∧ c.holdsArrival j = true ∧ c.index + 1 < c.count ∧
          c.following = some r ∧ s.begins b r = some m) → ∃ t,
    exec (.start a arg) s = .next t ∧
    t.point j =
      { state := .opened, arrivals := 0, generation := (s.point j).generation + 1
        deadline := none } ∧
    t.read (joinWord j 4) = 0 ∧ t.read (joinWord j 5) = (s.point j).generation + 1 ∧
    (∀ c ∈ ((s.ax a).startingOn p).ctx, JoinCompletes a (c.onPage s p) n t) ∧
    ∀ (b : Axis) (c : Context) (r : SegRecord) (m : Running × AxisState),
      inMask (s.point j).arrivals b = true → (s.ax b).ctx = some c → c.following = some r →
      s.begins b r = some m → JoinCompletes b c m t

/-- A host write to a slot's state word that starts no drain: a FILLING slot answers by FILLING and
SLOT_FAULT; another slot takes the state written, and UNUSED for 2 and for 5 and above; in INIT the
write is discarded. -/
def Obligations.SlotStateWriteSetsTheSlot : Prop :=
  ∀ (k : Slot) (value : Word) (s : State), Quiet s →
    (s.inInit = true → exec (.slotStateWrite k value) s = .next s) ∧
    (s.inInit = false → (s.slot k).isFilling = true → ∃ t,
      exec (.slotStateWrite k value) s = .next t ∧
      t = { s with ram := t.ram, acause := s.acause ||| 0x040 } ∧
      t.read (slotStateWord k) = 2 ∧ SameRamBut (fun b => b == slotStateWord k) s t) ∧
    (s.inInit = false → (s.slot k).isFilling = false →
      (value ≠ 1 ∨ (s.report.queue = [] ∧ s.report.waitList = [] ∧ s.report.drops = 0)) → ∃ t,
      exec (.slotStateWrite k value) s = .next t ∧
      t = { s with ram := t.ram, report := { s.report with slots := t.report.slots } } ∧
      (∀ i : Slot, i ≠ k → t.slot i = s.slot i) ∧
      (value = 1 → t.slot k = .empty) ∧
      (value = 3 → (∃ p, s.slot k = .full p) → t.slot k = s.slot k) ∧
      (value = 3 → (¬ ∃ p, s.slot k = .full p) → t.slot k = .full none) ∧
      (value = 4 → t.slot k = .bad) ∧
      (value ≠ 1 → value ≠ 3 → value ≠ 4 → t.slot k = .unused) ∧
      t.read (slotStateWord k) = value ∧ SameRamBut (fun b => b == slotStateWord k) s t)

/-- Slot `k` with page `p` is the only room that a host write of EMPTY to `k` offers. -/
abbrev Sys2Proof.Machine.OnlyRoom (k : Slot) (p : Page) (s : State) : Prop :=
  (∀ i : Slot, (s.slot i).isFilling = false) ∧ (∀ i : Slot, i ≠ k → s.slot i ≠ .empty) ∧
  generalPage? (s.read (slotPageWord k)) = some p ∧ s.claimed p = false ∧
  ∀ i : Slot, i ≠ k → (s.slot i).page? ≠ some p

/-- The words of a list of records. -/
def Sys2Proof.Machine.wordsOf (l : List Record) : Nat := (l.map Record.length).sum

/-- A host write of EMPTY that offers the only room drains the holding queue into the page taken: the
records are placed from the head with consecutive sequence numbers, one behind another from word 8, then
a DROPS record with the count, if that is not 0, which clears the count (R159, R160). The aging deadline
of a page begun now is 1024 ticks for each unit of the report age ahead, with an age of 0 or in a state
in which the timebase holds none (R162). A drain that fills the page with owed records stops at the first
one that finds no room: it stays owed with those behind it, the page has closed FULL, and ROOM_EXHAUSTED
is set (R155, R160; log 28); said here for axes that are not in REPORT_WAIT. OweLaw is a law that every
step keeps. The rewrite of the status block is made at the end of the tick (log 8), and the axes whose
owing has ended are told in a free order (log 6, log 10). -/
def Obligations.DrainPlacesTheHoldingQueue : Prop :=
  (∀ s : State,
    s.agingDeadline =
      if s.setup.reportAge ≠ 0 ∧ (s.dev = .running ∨ s.dev = .stopping) then
        some (s.timebase + s.setup.reportAge.setWidth 48 * 1024)
      else none) ∧
  (∀ (k : Slot) (p : Page) (s : State) (count words : Nat), Quiet s → s.inInit = false →
    s.dev ≠ .stopping → OnlyRoom k p s → s.report.waitList = [] →
    s.report.queue ≠ [] ∨ s.report.drops ≠ 0 →
    count = s.report.queue.length + (if s.report.drops = 0 then 0 else 1) →
    words = wordsOf s.report.queue + (if s.report.drops = 0 then 0 else 6) → words ≤ 248 → ∃ t,
    exec (.slotStateWrite k 1) s = .next t ∧
    t =
      { s with
        ram := t.ram
        report :=
          { s.report with
            slots := s.report.slots.set k (.filling p count words)
            queue := [], drops := 0, seq := s.report.seq + BitVec.ofNat 16 count
            deadline := s.agingDeadline } } ∧
    t.read (slotStateWord k) = 2 ∧ (s.report.queue ≠ [] → t.read 0x0012 = 0) ∧
    (s.report.drops ≠ 0 → t.read 0x0013 = 0) ∧
    t.read 0x0011 = s.report.seq + BitVec.ofNat 16 count ∧
    t.read (pageWord p 0) = 2 ∧ t.read (pageWord p 1) = BitVec.ofNat 16 count ∧
    t.read (pageWord p 2) = s.report.seq ∧
    t.read (pageWord p 3) = s.report.seq + BitVec.ofNat 16 count - 1 ∧
    t.read (pageWord p 4) = BitVec.ofNat 16 words ∧
    (∀ (i m : Nat) (rec : Record), s.report.queue[i]? = some rec → m < rec.length →
      t.read (pageWord p (BitVec.ofNat 8 (8 + wordsOf (s.report.queue.take i) + m))) =
        (rec.words (s.report.seq + BitVec.ofNat 16 i)).getD m 0) ∧
    (s.report.drops ≠ 0 → ∀ m : Fin 6,
      t.read (pageWord p (BitVec.ofNat 8 (8 + wordsOf s.report.queue + m.val))) =
        [0x0609, s.report.seq + BitVec.ofNat 16 s.report.queue.length, s.timebase.extractLsb' 0 16,
          s.timebase.extractLsb' 16 16, s.timebase.extractLsb' 32 16, s.report.drops].getD m.val 0) ∧
    SameRamBut
      (fun addr =>
        isPageWord p 0 255 addr || addr == slotStateWord k || addr == 0x0011 ||
          (addr == 0x0012 && !s.report.queue.isEmpty) || (addr == 0x0013 && s.report.drops != 0))
      s t) ∧
  ∀ (k : Slot) (p : Page) (s : State) (a : Axis) (before others : List Axis) (i count words : Nat)
    (rec : Record), Quiet s → s.inInit = false → OnlyRoom k p s → OweLaw s →
    s.report.waitList = before ++ a :: others → (∀ b ∈ before, (s.ax b).state ≠ .reportWait) →
    (s.owedOf a)[i]? = some rec →
    count =
      s.report.queue.length + (if s.report.drops = 0 then 0 else 1) +
        (before.flatMap s.owedOf).length + i →
    words =
      wordsOf s.report.queue + (if s.report.drops = 0 then 0 else 6) +
        wordsOf (before.flatMap s.owedOf) + wordsOf ((s.owedOf a).take i) →
    0 < count → words ≤ 248 → 248 < words + rec.length → ∃ t,
    exec (.slotStateWrite k 1) s = .next t ∧
    t =
      { s with
        ram := t.ram, axes := t.axes, acause := s.acause ||| 0x018, freeCount := t.freeCount
        report :=
          { s.report with
            slots := s.report.slots.set k (.full (some p))
            queue := [], drops := 0, owed := t.report.owed, waitList := a :: others
            seq := s.report.seq + BitVec.ofNat 16 count, lastClosed := k
            pagesClosed := s.report.pagesClosed + 1, deadline := none } } ∧
    (∀ b : Axis,
      t.owedOf b =
        if b ∈ before then [] else if b = a then (s.owedOf a).drop i else s.owedOf b) ∧
    (∀ b : Axis,
      t.ax b =
        if b ∈ before ∨ (b = a ∧ 0 < i) then { s.ax b with dirty := true } else s.ax b) ∧
    t.read (slotStateWord k) = 3 ∧ t.read (pageWord p 1) = BitVec.ofNat 16 count ∧
    t.read (pageWord p 4) = BitVec.ofNat 16 words ∧ t.read (pageWord p 5) = 1 ∧
    t.read 0x0010 = s.report.pagesClosed + 1 ∧
    t.read 0x0011 = s.report.seq + BitVec.ofNat 16 count ∧
    SameRamBut
      (fun addr =>
        isPageWord p 0 255 addr || addr == slotStateWord k || addr == 0x0010 || addr == 0x0011 ||
          (addr == 0x0012 && !s.report.queue.isEmpty) || (addr == 0x0013 && s.report.drops != 0))
      s t

/-- The state in which the last owed record of axis `a` has been placed, before the axis is told. -/
def Sys2Proof.Machine.State.owesNoMore (u : State) (a : Axis) : State :=
  { u with report := { u.report with owed := u.report.owed.set a [], waitList := [] } }

/-- A host write of EMPTY places the last owed record of the only axis that owes: its owed count falls
to 0 and its status block is owed a rewrite. In REPORT_WAIT the acceptance check takes a request, or the
begin point goes on (R97; log 11 for the page and index of a HALT record at the entry); in STOPPING the
device becomes STOPPED and the page closes with reason STOP. The rewrite of the status block is made at
the end of the tick (log 8). What a chain does behind this is said by AtBegin (log 9, log 30). -/
def Obligations.DrainEndsOwing : Prop :=
  ∀ (k : Slot) (p : Page) (a : Axis) (rec : Record) (s : State), Quiet s →
    s.dev = .running ∨ s.dev = .stopping →
    (∀ i : Slot, (s.slot i).isFilling = false) → (∀ i : Slot, i ≠ k → s.slot i ≠ .empty) →
    generalPage? (s.read (slotPageWord k)) = some p → s.claimed p = false →
    (∀ i : Slot, i ≠ k → (s.slot i).page? ≠ some p) →
    s.report.queue = [] → s.report.drops = 0 → s.report.waitList = [a] → s.owedOf a = [rec] →
    (∀ b : Axis, b ≠ a → s.owedOf b = []) → rec.length ≤ 23 → ∃ t u,
    exec (.slotStateWrite k 1) s = .next t ∧
    RecordPlaces rec k p 0 0 ((s.write (slotStateWord k) 1).withSlotTaken k p) u ∧
    (s.dev = .running → (s.ax a).state ≠ .reportWait →
      AxisBecomes a (s.ax a) (u.owesNoMore a) t) ∧
    (s.dev = .running → (s.ax a).state = .reportWait → (s.ax a).acceptable = false →
      BeginPoint a (u.owesNoMore a) t) ∧
    (s.dev = .running → (s.ax a).state = .reportWait → (s.ax a).acceptable = true →
      ∀ l r q, (s.ax a).requests.top = some (l, r) → generalPage? r.head = some q →
        TakesRequest a (BeginPoint a) (s.ax a) l r q (u.owesNoMore a) t) ∧
    (s.dev = .stopping → (s.ax a).state ≠ .reportWait → ∃ v,
      PageCloses 4 k p { u.owesNoMore a with dev := .stopped } v ∧
      AxisBecomes a (s.ax a) { v with acause := v.acause ||| 0x004 } t)

/-! ### Watched words of starved axes -/

/-- Axis `x` has claimed page `p` and begun segment 0 of it, and axis `y` has halted with BAD_LINK
(R56). -/
abbrev Sys2Proof.Machine.EntersFirst (x y : Axis) (p : Page) (next : Running × AxisState)
    (t : State) : Prop :=
  (∃ c, (t.ax x).ctx = some c ∧ c.page = some p ∧ c.index = 0 ∧ c.phase = .inSegment next.1 ∧
    (t.ax x).state = next.2 ∧
    Sparse.find? t.claims p.toNat = some { axis := x, level := c.level }) ∧
  (t.ax y).state = .halted ∧ (t.ax y).haltCause = some .badLink ∧
  (t.ax y).haltDetail = p.setWidth 8 ∧ (t.ax y).ctx = none

/-- LINK_WORD_EVENT and STATE_WORD_EVENT: 0, or a word that no axis watches, is stored and nothing more.
With one axis watching, another value ends the wait: a link value is followed, and a state value stands
for the header state in the entry transaction (log 11 for the page and index that the HALT record of a
state wait names). With two axes watching a page that READY opens, one of them, no matter which (log 6),
claims it and begins segment 0, and the other halts with BAD_LINK (R9, R56). The rewrite of the status
block is made at the end of the tick (log 8). What a chain does behind this is said by AtBegin (log 9,
log 30). -/
def Obligations.WatchedWordEvents : Prop :=
  (∀ (p : Page) (value : Word) (s : State), Quiet s → s.dev = .running →
    ((value = 0 ∨ ∀ a : Axis, s.watches a (.link p) = false) →
      exec (.linkWordEvent p value) s = .next (s.write (pageWord p 2) value)) ∧
    ((value = 0 ∨ ∀ a : Axis, s.watches a (.state p) = false) →
      exec (.stateWordEvent p value) s = .next (s.write (pageWord p 1) value)) ∧
    (∀ (a : Axis) (c : Context), value ≠ 0 → (s.ax a).ctx = some c →
      s.watches a (.link p) = true → (∀ b : Axis, b ≠ a → s.watches b (.link p) = false) → ∃ t,
      exec (.linkWordEvent p value) s = .next t ∧
      Follows a (BeginPoint a) c value (s.write (pageWord p 2) value) t) ∧
    (∀ (a : Axis) (c : Context), value ≠ 0 → isGeneralPage p = true → (s.ax a).ctx = some c →
      s.watches a (.state p) = true → (∀ b : Axis, b ≠ a → s.watches b (.state p) = false) → ∃ t,
      exec (.stateWordEvent p value) s = .next t ∧
      Enters a (BeginPoint a) c p value (s.write (pageWord p 1) value) t)) ∧
  ∀ (p : Page) (a b : Axis) (m n : Running × AxisState) (s : State), Quiet s → s.dev = .running →
    isGeneralPage p = true → a ≠ b →
    s.watches a (.state p) = true → s.watches b (.state p) = true →
    (∀ d : Axis, d ≠ a → d ≠ b → s.watches d (.state p) = false) →
    ClaimLaw s → EntryGranted s p 1 → NoMeeting s a → NoMeeting s b → s.owes a = false → s.owes b = false →
    s.begins a (s.readRecord p 0) = some m → s.begins b (s.readRecord p 0) = some n → ∃ t,
    exec (.stateWordEvent p 1) s = .next t ∧
    (EntersFirst a b p m t ∨ EntersFirst b a p n t)

/-! ### Step generation -/

/-- STEP_START: length, residue, next interval with its clamp, count, position and pulse, all at one
tick; nothing else changes, the status block included. It is due exactly when the gate holds the step
for nothing more: the axis RUNNING or PAUSING on a RUN with a due step, DIRLEAD ticks after the last
change of DIR, STEP low for a whole tick. -/
def Obligations.StepStartBeginsAStep : Prop :=
  (∀ (a : Axis) (s : State) (c : Context) (n v : Nat) (d : Int) (w : Nat) (f rep : Bool) (tag : Word),
    (s.ax a).ctx = some c → c.phase = .inSegment (.run n v d w f rep tag) →
    s.stepStartDue a = true → ∃ next : Nat,
    ((v : Int) + d < 32 → next = 32) ∧ ((v : Int) + d > 16777215 → next = 16777215) ∧
    (32 ≤ (v : Int) + d → (v : Int) + d ≤ 16777215 → (next : Int) = v + d) ∧
    exec (.stepStart a) s =
      .next
        (s.setAx a
          { s.ax a with
            ctx :=
              some
                { c with
                  residue := (c.residue + v) % 16
                  phase := .inSegment (.run (n - 1) next d w f rep tag) }
            position := if f then (s.ax a).position + 1 else (s.ax a).position - 1
            step := .high (s.now + min w ((c.residue + v) / 16 - 1))
            gate := .inFlight (s.now + (c.residue + v) / 16) })) ∧
  ∀ (a : Axis) (s : State),
    s.stepStartDue a = true ↔
      s.dev = .running ∧ ((s.ax a).state = .running ∨ (s.ax a).state = .pausing) ∧
      (s.ax a).gate = .startWait ∧ (s.ax a).runForward ≠ none ∧
      (∀ tick, (s.ax a).dirChange = some tick → tick + s.setup.dirlead.toNat ≤ s.now) ∧
      ((s.ax a).step = .low none ∨ ∃ since, (s.ax a).step = .low (some since) ∧ since + 1 ≤ s.now)

/-- When a step boundary is due: on a RUNNING or PAUSING axis, at the end of the length of the step in
flight and at the end of a lead gap (R67, R70); and the comparison of the soft limits, of the position one
step on with the minimum and the maximum as integers (R69). STEP_BOUNDARY with steps left, and
LEAD_GAP_END: the pause takes effect, or the acceptance check takes a request, or the next step is due:
the limit check, then the gate (log 13 for an empty gap). The rewrite of the status block is made at the
end of the tick (log 8). What a chain does behind this is said by AtBegin (log 9, log 11, log 30). -/
def Obligations.BoundaryWithStepsLeft : Prop :=
  (∀ (a : Axis) (s : State),
    (s.stepBoundaryDue a = true ↔
      s.dev = .running ∧ ((s.ax a).state = .running ∨ (s.ax a).state = .pausing) ∧
      ∃ ends, (s.ax a).gate = .inFlight ends ∧ ends ≤ s.now) ∧
    (s.leadGapDue a = true ↔
      s.dev = .running ∧ ((s.ax a).state = .running ∨ (s.ax a).state = .pausing) ∧
      ∃ ends, (s.ax a).gate = .leadGap ends ∧ ends ≤ s.now)) ∧
  (∀ (x : AxisEngine) (l : AxisLimits),
    (x.pastLimit l true = true ↔
      l.enabled = true ∧
        (x.position.toInt + 1 < l.min.toInt ∨ l.max.toInt < x.position.toInt + 1)) ∧
    (x.pastLimit l false = true ↔
      l.enabled = true ∧
        (x.position.toInt - 1 < l.min.toInt ∨ l.max.toInt < x.position.toInt - 1))) ∧
  ∀ (a : Axis) (s : State) (c : Context) (n v : Nat) (d : Int) (w : Nat) (f rep : Bool) (tag : Word)
    (i : Instr), Quiet s → (s.ax a).ctx = some c →
    c.phase = .inSegment (.run n v d w f rep tag) →
    (i = .stepBoundary a ∧ s.stepBoundaryDue a = true ∧ n ≠ 0) ∨
      (i = .leadGapEnd a ∧ s.leadGapDue a = true) → ∃ t,
    exec i s = .next t ∧
    ((s.ax a).state = .pausing →
      AxisBecomes a { s.ax a with state := .paused, gate := .idle } s t) ∧
    ((s.ax a).state = .running → (s.ax a).acceptable = true →
      ∀ l r p, (s.ax a).requests.top = some (l, r) → generalPage? r.head = some p →
        TakesRequest a (BeginPoint a) (s.ax a) l r p s t) ∧
    ((s.ax a).state = .running → (s.ax a).acceptable = false →
      ((s.ax a).pastLimit (s.limits a) f = true → NoMeeting s a → Halts a .softLimit 0 s t) ∧
      ((s.ax a).pastLimit (s.limits a) f = false →
        ((s.ax a).dirLevel = f → t = s.setAx a { s.ax a with gate := .startWait }) ∧
        ((s.ax a).dirLevel ≠ f → (s.ax a).step.isHigh = true →
          t = s.setAx a { s.ax a with gate := .dirWait }) ∧
        ((s.ax a).dirLevel ≠ f → (s.ax a).step.isHigh = false →
          t =
            s.setAx a
              { s.ax a with
                dir := f, dirChange := some s.now
                gate := .leadGap (s.now + s.setup.dirlead.toNat) })))

/-- A step boundary takes hold of axis `a` where the chain has left it, with axis engine `x` in `s`: on a
PAUSING axis the pause takes effect, else the highest request is taken (R70 steps 2 and 3, R83, R108). -/
abbrev Sys2Proof.Machine.TakenHold (a : Axis) (x : AxisEngine) (s t : State) : Prop :=
  (x.state = .pausing → AxisBecomes a { x with state := .paused } s t) ∧
  (x.state ≠ .pausing → ∀ l r p, x.requests.top = some (l, r) → generalPage? r.head = some p →
    TakesRequest a (BeginPoint a) x l r p s t)

/-- Context `c` of axis `a` starves on wait `w` at a step boundary, with its STARVE record, and the
boundary takes hold of it there (R54, R83, R108). -/
abbrev Sys2Proof.Machine.StarvesAndIsHeld (a : Axis) (c : Context) (w : Wait) (s t : State) : Prop :=
  TakenHold a { s.ax a with ctx := some (c.starve w), gate := .idle }
    ((s.handRecord (.starve a c.level w.page (s.ax a).position)).setCause .axisStarved) t

/-- Context `c` of axis `a`, which a step boundary will take hold of, acts on the link value `value` in
`s`: BAD_LINK halts the axis; on a page that is FREE it starves and is held; on a page whose claim is
granted it is held at the begin point of segment 0 (R45, R49, R83, R108). -/
abbrev Sys2Proof.Machine.FollowsAndIsHeld (a : Axis) (c : Context) (value : Word) (s t : State) : Prop :=
  (NoGeneralPage value → NoMeeting s a → Halts a .badLink (badLinkDetail value) s t) ∧
  ∀ p ∈ generalPage? value,
    (EntryGranted s p (s.read (pageWord p 1)) →
      TakenHold a
        { s.ax a with
          ctx := some { c.onPage s p with following := some (s.readRecord p 0) }, gate := .idle }
        (s.withClaim a c p) t) ∧
    (EntryWaits s p (s.read (pageWord p 1)) → StarvesAndIsHeld a c (.state p) s t) ∧
    (EntryBad s p (s.read (pageWord p 1)) → NoMeeting s a → Halts a .badLink (p.setWidth 8) s t)

/-- STEP_BOUNDARY after the last step: the RUN completes with its DONE record, and the chain goes on; on
a PAUSING axis the pause takes effect at the next begin point, and a request is taken there: on the same
page, or, behind the last counted segment of a page, on the next page, whose claim is granted, or where
the link or the next page starves the chain; a BAD_LINK on the way halts the axis (R49, R83, R108). The
rewrite of the status block is made at the end of the tick (log 8). What a chain does behind this is said
by AtBegin (log 9, log 11, log 30). -/
def Obligations.BoundaryAfterTheLastStep : Prop :=
  ∀ (a : Axis) (s : State) (c : Context) (v : Nat) (d : Int) (w : Nat) (f rep : Bool) (tag : Word),
    Quiet s → (s.ax a).ctx = some c → c.phase = .inSegment (.run 0 v d w f rep tag) →
    s.stepBoundaryDue a = true → ∃ t,
    exec (.stepBoundary a) s = .next t ∧
    ((s.ax a).state = .running → (s.ax a).acceptable = false →
      ChainGoesOn a c (s.recorded a c .run rep tag none) t) ∧
    ((s.ax a).state = .pausing → c.index + 1 < c.count → c.following ≠ none →
      AxisBecomes a { s.ax a with state := .paused, ctx := some c.advanced, gate := .idle }
        (s.recorded a c .run rep tag none) t) ∧
    ((s.ax a).state = .running → (s.ax a).acceptable = true → c.index + 1 < c.count →
      c.following ≠ none → ∀ l r p, (s.ax a).requests.top = some (l, r) →
        generalPage? r.head = some p →
        TakesRequest a (BeginPoint a) { s.ax a with ctx := some c.advanced } l r p
          (s.recorded a c .run rep tag none) t) ∧
    ((s.ax a).state = .pausing ∨ ((s.ax a).state = .running ∧ (s.ax a).acceptable = true) →
      c.count ≤ c.index + 1 → ∀ q ∈ c.page, ∀ u v : State,
        u = s.recorded a c .run rep tag none →
        v =
          (u.withCtx a c.advanced).releasePage q { axis := a, level := c.level } s.timebase →
        (u.read (pageWord q 2) = 0 → StarvesAndIsHeld a c.advanced (.link q) v t) ∧
        (u.read (pageWord q 2) ≠ 0 →
          FollowsAndIsHeld a c.advanced (u.read (pageWord q 2)) v t))

/-- PULSE_END is due once the width of a high pulse has run out (R63). PULSE_END, in any device state:
STEP goes low, a change of DIR to 0 that waited for it takes place
(log 12), and a step that waited for it changes DIR and begins its lead gap. Where both waited, DIR goes
to 0 first: a reverse step then waits for its start, and a forward step changes DIR back to 1 at once
and begins its lead gap (log 12). -/
def Obligations.PulseEndLowersStep : Prop :=
  (∀ (a : Axis) (s : State),
    s.pulseEndDue a = true ↔ ∃ ends, (s.ax a).step = .high ends ∧ ends ≤ s.now) ∧
  ∀ (a : Axis) (s : State), s.pulseEndDue a = true → ∃ t,
    exec (.pulseEnd a) s = .next t ∧
    ((s.ax a).gate ≠ .dirWait → (s.ax a).dirZero = .notWaiting →
      t = s.setAx a { s.ax a with step := .low (some s.now) }) ∧
    ((s.ax a).gate ≠ .dirWait → (s.ax a).dirZero = .byReset →
      t =
        s.setAx a
          { s.ax a with step := .low (some s.now), dir := false, dirZero := .notWaiting }) ∧
    ((s.ax a).gate ≠ .dirWait → (s.ax a).dirZero = .byRunStart →
      t =
        s.setAx a
          { s.ax a with
            step := .low (some s.now), dir := false, dirZero := .notWaiting
            dirChange := if (s.ax a).dir then some s.now else (s.ax a).dirChange }) ∧
    (∀ f, (s.ax a).gate = .dirWait → (s.ax a).dirZero = .notWaiting →
      (s.ax a).runForward = some f → (s.ax a).dir ≠ f →
      t =
        s.setAx a
          { s.ax a with
            step := .low (some s.now), dir := f, dirChange := some s.now
            gate := .leadGap (s.now + s.setup.dirlead.toNat) }) ∧
    ((s.ax a).gate = .dirWait → (s.ax a).dirZero = .byRunStart → (s.ax a).runForward = some true →
      t =
        s.setAx a
          { s.ax a with
            step := .low (some s.now), dir := true, dirZero := .notWaiting
            dirChange := some s.now
            gate := .leadGap (s.now + s.setup.dirlead.toNat) }) ∧
    ((s.ax a).gate = .dirWait → (s.ax a).dirZero = .byRunStart → (s.ax a).runForward = some false →
      t =
        s.setAx a
          { s.ax a with
            step := .low (some s.now), dir := false, dirZero := .notWaiting
            dirChange := if (s.ax a).dir then some s.now else (s.ax a).dirChange
            gate := .startWait })

/-! ### DWELL, WAIT_INPUT and END -/

/-- DWELL_EXPIRY: the DWELL completes with its DONE record and the chain goes on. WAIT_INPUT_TIMEOUT:
with TIMEOUT_HALT the axis halts with WAIT_TIMEOUT and the line; without it the segment completes with a
TIMEOUT record, whatever its REPORT flag, and the chain goes on. The rewrite of the status block is made
at the end of the tick (log 8). What a chain does behind this is said by AtBegin (log 9, log 11, log
30). -/
def Obligations.DwellAndWaitRunOut : Prop :=
  (∀ (a : Axis) (s : State) (c : Context) (rep : Bool) (tag : Word), Quiet s → s.dev = .running →
    (s.ax a).state = .dwelling → (s.ax a).ctx = some c →
    c.phase = .inSegment (.dwell 0 rep tag) → ∃ t,
    exec (.dwellExpiry a) s = .next t ∧
    ChainGoesOn a c (s.recorded a c .dwell rep tag none) t) ∧
  ∀ (a : Axis) (s : State) (c : Context) (n : Line) (level th rep : Bool) (tag : Word), Quiet s →
    s.dev = .running → (s.ax a).state = .waitInput → (s.ax a).ctx = some c →
    c.phase = .inSegment (.waitInput n level (some 0) th rep tag) → ∃ t,
    exec (.waitInputTimeout a) s = .next t ∧
    (th = true → NoMeeting s a → Halts a .waitTimeout (BitVec.ofNat 8 n.val) s t) ∧
    (th = false →
      ChainGoesOn a c (s.handRecord (.timeout a c.level n tag c.pageOr0 c.index)) t)

/-- END on an interjection context, met after a DWELL: the record and the release of END, the top saved
context restored, INTERJECT_OUT if the axis is in the record mask; then the acceptance check takes a
request, or the restored context resumes, whatever it was doing: an idle base makes the axis IDLE, a
context AT_BEGIN takes its begin point, a RUN, a DWELL, a WAIT_INPUT and a JOIN go on, complete or halt,
a STARVED context checks its word again (R111, R112; log 11 for the page and index of a HALT record
there). The acceptance check alone decides which. The rewrite of the status block is made at the end of
the tick (log 8). What a chain does behind this is said by AtBegin (log 9, log 30). -/
def Obligations.EndRestoresTheSavedContext : Prop :=
  ∀ (a : Axis) (s : State) (c top : Context) (rest : List Context) (r : SegRecord) (rep : Bool)
    (tag : Word), Quiet s → s.dev = .running → (s.ax a).state = .dwelling →
    (s.ax a).ctx = some c → c.phase = .inSegment (.dwell 0 rep tag) →
    c.index + 1 < c.count → c.following = some r → r.kind = some .end_ →
    (s.ax a).stack = top :: rest → (s.recorded a c .dwell rep tag none).owes a = false → ∃ t,
    exec (.dwellExpiry a) s = .next t ∧
    Pops a (BeginPoint a) c.advanced r top rest
      ((s.recorded a c .dwell rep tag none).withCtx a c.advanced) t

/-! ### Join timeout, aging, lines, the tick -/

/-- JOIN_TIMEOUT: the point is BROKEN with cause TIMEOUT and no deadline, arrivals and generation
standing, JOIN_BROKEN is set, and every arrived axis that waits there is HALTED. The order of the
breaks is free (log 6). The premises PageLaw and RecordLaw are laws that every step keeps. -/
def Obligations.JoinTimeoutBreaksThePoint : Prop :=
  ∀ (j : Point) (s : State), Quiet s → PageLaw s → RecordLaw s → s.dev = .running →
    (s.point j).state = .opened → (s.point j).deadline = some s.timebase → ∃ t,
    exec (.joinTimeout j) s = .next t ∧
    t.point j = { s.point j with state := .broken .timeout, deadline := none } ∧
    t.read (joinWord j 3) = 0x0101 ∧ t.acause.getLsbD 9 = true ∧
    (∀ a : Axis, inMask (s.point j).arrivals a = true → (s.ax a).state = .waitJoin →
      (∃ c, (s.ax a).ctx = some c ∧ c.holdsArrival j = true) →
      (t.ax a).state = .halted ∧ (t.ax a).haltCause = some .joinBroken) ∧
    ((s.point j).arrivals = 0 →
      t =
        ({ s.setPoint j { s.point j with state := .broken .timeout, deadline := none } with
            acause := s.acause ||| 0x200 }).write
          (joinWord j 3) 0x0101)

/-- The state after the qualified level of line `n` has changed and its mirror word is written
(R135 step 1). -/
def Sys2Proof.Machine.State.lineChanged (s : State) (n : Line) : State :=
  (s.setLine n { qualified := !(s.line n).qualified, runCount := 0 }).write (lineWord n 7)
    (if (s.line n).qualified then 0 else 1)

/-- The same after one choice among two tasks in the free order (log 6). -/
def Sys2Proof.Machine.State.lineChosen (s : State) (n : Line) : State :=
  { s.lineChanged n with freeCount := s.freeCount + 1 }

/-- The change of line `n` in `s` is an edge (R133, R135). -/
def Sys2Proof.Machine.State.isEdge (s : State) (n : Line) : Bool :=
  match (s.lineSetup n).edge with
  | .off => false
  | .rising => !(s.line n).qualified
  | .falling => (s.line n).qualified
  | .both => true

/-- Axis `b`, which waited on a line in `s`, has completed its WAIT_INPUT in `t`, as a JOIN completes
(R142, R47). -/
abbrev Sys2Proof.Machine.WaitCompletes (b : Axis) (c : Context) (next : Running × AxisState)
    (t : State) : Prop :=
  JoinCompletes b c next t

/-- QUALIFIED_CHANGE is due in RUNNING once filter length + 1 samples in a row have differed from the
qualified level (R134; log 22 for the sample that completes the change). QUALIFIED_CHANGE: the level
flips, the run count is cleared, the mirror word is written. Without
waiting axes and without an edge nothing else changes; the only waiting axis completes its wait;
several waiting axes all complete theirs, in a free order (log 6), and no other axis changes; an edge
with capture alone makes one CAPTURE record. The rewrite of the status block is made at the end of the
tick (log 8). What a chain does behind this is said by AtBegin (log 9, log 11, log 30). -/
def Obligations.QualifiedChangeOfALine : Prop :=
  (∀ (n : Line) (s : State),
    s.changeDue n = true ↔
      s.dev = .running ∧ (s.lineSetup n).filter.toNat + 1 ≤ (s.line n).runCount) ∧
  (∀ (n : Line) (x : AxisEngine),
    x.waitsOn n = true ↔
      x.state = .waitInput ∧
        ∃ c level timeout th rep tag,
          x.ctx = some c ∧ c.phase = .inSegment (.waitInput n level timeout th rep tag)) ∧
  ∀ (n : Line) (s : State), Quiet s → s.changeDue n = true → ∃ t,
    exec (.qualifiedChange n) s = .next t ∧
    ((∀ a : Axis, (s.ax a).waitsOn n = false) →
      (s.isEdge n = false ∨
        ((s.lineSetup n).capture = false ∧ (s.lineSetup n).action = .off)) →
      t = s.lineChanged n) ∧
    ((∀ a : Axis, (s.ax a).waitsOn n = false) → s.isEdge n = true →
      (s.lineSetup n).capture = true → (s.lineSetup n).action = .off →
      t =
        (s.lineChanged n).handRecord
          (.capture n (!(s.line n).qualified) (s.lineSetup n).captureMask
            ((allAxes.filter fun a => (s.lineSetup n).captureMask.getLsbD a.val).map fun a =>
              (s.ax a).position))) ∧
    (∀ (a : Axis) (c : Context) (timeout : Option Nat) (th rep : Bool) (tag : Word),
      (s.ax a).state = .waitInput → (s.ax a).ctx = some c →
      c.phase = .inSegment (.waitInput n (!(s.line n).qualified) timeout th rep tag) →
      (∀ b : Axis, b ≠ a → (s.ax b).waitsOn n = false) →
      (s.isEdge n = false ∨
        ((s.lineSetup n).capture = false ∧ (s.lineSetup n).action = .off)) →
      ChainGoesOn a c ((s.lineChanged n).recorded a c .waitInput rep tag none) t) ∧
    ((s.isEdge n = false ∨
        ((s.lineSetup n).capture = false ∧ (s.lineSetup n).action = .off)) →
      (∀ b : Axis, (s.ax b).waitsOn n = true →
        ∃ c r m timeout th rep tag, (s.ax b).ctx = some c ∧
          c.phase = .inSegment (.waitInput n (!(s.line n).qualified) timeout th rep tag) ∧
          c.index + 1 < c.count ∧ c.following = some r ∧
          (s.lineChanged n).begins b r = some m) →
      t =
        { s with
          ram := t.ram, axes := t.axes, lines := (s.lineChanged n).lines, acause := t.acause
          report := t.report, freeCount := t.freeCount } ∧
      (∀ b : Axis, (s.ax b).waitsOn n = false → t.ax b = s.ax b) ∧
      ∀ (b : Axis) (c : Context) (r : SegRecord) (m : Running × AxisState),
        (s.ax b).waitsOn n = true → (s.ax b).ctx = some c → c.following = some r →
        (s.lineChanged n).begins b r = some m → WaitCompletes b c m t)

/-- The CAPTURE record of an edge of line `n` in `s` (R137). -/
def Sys2Proof.Machine.State.captured (s : State) (n : Line) : RecordBody :=
  .capture n (!(s.line n).qualified) (s.lineSetup n).captureMask
    ((allAxes.filter fun a => (s.lineSetup n).captureMask.getLsbD a.val).map fun a =>
      (s.ax a).position)

/-- The axis engine with a request of an INTERJECT trip of line `n` in its level-3 slot (R115). -/
def Sys2Proof.Machine.AxisEngine.withTrip (x : AxisEngine) (n : Line) (head : Word) : AxisEngine :=
  { x with requests := { x.requests with three := some { head := head, source := .trip n } } }

/-- An INTERJECT trip of line `n` takes axis `a` from `s` to `t`, by the table of R115 (R116; log 11 for
the page and index of a HALT record at the entry). -/
abbrev Sys2Proof.Machine.TripInterjects (a : Axis) (n : Line) (s t : State) : Prop :=
  ((s.ax a).state = .off ∨ (s.ax a).state = .halted → t = s) ∧
  ((s.ax a).state ≠ .off → (s.ax a).state ≠ .halted → (s.ax a).requests.three ≠ none →
    (s.ax a).state ≠ .idle → NoMeeting s a → Halts a .tripOverrun (BitVec.ofNat 8 n.val) s t) ∧
  ((s.ax a).requests.three = none →
    ((s.ax a).state = .running ∨ (s.ax a).state = .pausing ∨ (s.ax a).state = .paused ∨
        (s.ax a).state = .reportWait →
      AxisBecomes a ((s.ax a).withTrip n (s.lineSetup n).head) s t) ∧
    ((s.ax a).state = .idle ∨ (s.ax a).state = .dwelling ∨ (s.ax a).state = .waitJoin ∨
        (s.ax a).state = .waitInput ∨ (s.ax a).state = .starved →
      (((s.ax a).withTrip n (s.lineSetup n).head).acceptable = false →
        AxisBecomes a ((s.ax a).withTrip n (s.lineSetup n).head) s t) ∧
      (((s.ax a).withTrip n (s.lineSetup n).head).acceptable = true →
        ∀ m ∈ ((s.ax a).withTrip n (s.lineSetup n).head).requests.top,
          ∀ p ∈ generalPage? m.2.head,
            TakesRequest a (BeginPoint a) ((s.ax a).withTrip n (s.lineSetup n).head) m.1 m.2 p s t)))

/-- A PAUSE reaches axis `a` in `s` and gives `t` (R83, R84, R139). -/
abbrev Sys2Proof.Machine.TripPauses (a : Axis) (s t : State) : Prop :=
  ((s.ax a).state = .running → AxisBecomes a { s.ax a with state := .pausing } s t) ∧
  ((s.ax a).state = .dwelling ∨ (s.ax a).state = .waitJoin ∨ (s.ax a).state = .waitInput ∨
      (s.ax a).state = .starved ∨ (s.ax a).state = .reportWait →
    AxisBecomes a { s.ax a with state := .paused } s t) ∧
  ((s.ax a).state = .off ∨ (s.ax a).state = .idle ∨ (s.ax a).state = .pausing ∨
      (s.ax a).state = .paused ∨ (s.ax a).state = .halted → t = s)

/-- A HALT trip of line `n` reaches axis `a` in `s` and gives `t` (R95, R138). -/
abbrev Sys2Proof.Machine.TripHalts (a : Axis) (n : Line) (s t : State) : Prop :=
  ((s.ax a).state.active = true → NoMeeting s a → Halts a .trip (BitVec.ofNat 8 n.val) s t) ∧
  ((s.ax a).state.active = false → t = s)

/-- An edge of a line without waiting axes applies its action to the axes of its mask, in a free order
(log 6): a HALT trip halts the active ones with cause TRIP and the line as detail, a PAUSE trip is the
PAUSE of each, an INTERJECT trip fills the level-3 slot and halts the axis with TRIP_OVERRUN where that
is occupied; the acceptance check is made at once where the state allows. With capture, the CAPTURE
record and the action are taken in either order (R141). Where the one axis of a HALT or PAUSE mask is
also the one axis that waits on the line, its wait ends before or after the trip (log 6). The rewrite of
the status block is made at the end of the tick (log 8). What a chain does behind this is said by
AtBegin (log 9, log 11, log 30). -/
def Obligations.EdgeAppliesItsAction : Prop :=
  ∀ (n : Line) (s : State), Quiet s → s.changeDue n = true → s.isEdge n = true → ∃ t,
    exec (.qualifiedChange n) s = .next t ∧
    ((∀ a : Axis, (s.ax a).waitsOn n = false) → ∀ a : Axis,
      ((s.lineSetup n).action = .halt → (s.lineSetup n).actionMask.getLsbD a.val = true →
        (s.ax a).state.active = true → (t.ax a).state = .halted) ∧
      ((s.lineSetup n).action = .halt → (s.ax a).state.active = false → t.ax a = s.ax a) ∧
      ((s.lineSetup n).action = .pause →
        (t.ax a).state =
          if (s.lineSetup n).actionMask.getLsbD a.val then
            if (s.ax a).state = .running then .pausing
            else if (s.ax a).state = .dwelling ∨ (s.ax a).state = .waitJoin ∨
                (s.ax a).state = .waitInput ∨ (s.ax a).state = .starved ∨
                (s.ax a).state = .reportWait then .paused
            else (s.ax a).state
          else (s.ax a).state) ∧
      ((s.lineSetup n).actionMask = maskBit a → (s.lineSetup n).capture = false →
        ((s.lineSetup n).action = .halt → TripHalts a n (s.lineChanged n) t) ∧
        ((s.lineSetup n).action = .pause → TripPauses a (s.lineChanged n) t) ∧
        ((s.lineSetup n).action = .interject → TripInterjects a n (s.lineChanged n) t)) ∧
      ((s.lineSetup n).actionMask = maskBit a → (s.lineSetup n).capture = true →
        ((s.lineSetup n).action = .halt →
          TripHalts a n ((s.lineChosen n).handRecord (s.captured n)) t ∨
            ∃ u, TripHalts a n (s.lineChosen n) u ∧ t = u.handRecord (s.captured n)) ∧
        ((s.lineSetup n).action = .pause →
          TripPauses a ((s.lineChosen n).handRecord (s.captured n)) t) ∧
        ((s.lineSetup n).action = .interject → (s.ax a).state = .running →
          (s.ax a).requests.three = none →
          TripInterjects a n ((s.lineChosen n).handRecord (s.captured n)) t))) ∧
    ∀ (a : Axis) (c : Context) (timeout : Option Nat) (th rep : Bool) (tag : Word) (r : SegRecord)
      (b : Running × AxisState) (v u : State),
      (s.ax a).state = .waitInput → (s.ax a).ctx = some c →
      c.phase = .inSegment (.waitInput n (!(s.line n).qualified) timeout th rep tag) →
      (∀ d : Axis, d ≠ a → (s.ax d).waitsOn n = false) →
      (s.lineSetup n).capture = false → (s.lineSetup n).actionMask = maskBit a →
      c.index + 1 < c.count → c.following = some r → (s.lineChosen n).begins a r = some b →
      v = (s.lineChosen n).recorded a c .waitInput rep tag none → v.owes a = false →
      AxisBecomes a
        (({ v.ax a with gate := .idle } : AxisEngine).started (c.advanced.readsNext v) b.1 b.2
          s.dirlead s.now) v u →
      ((s.lineSetup n).action = .halt →
        TripHalts a n (s.lineChosen n) t ∨ TripHalts a n u t) ∧
      ((s.lineSetup n).action = .pause →
        TripPauses a (s.lineChosen n) t ∨ TripPauses a u t)

/-- TICK_BOUNDARY with no event of the tick left: the status blocks owed a rewrite are rewritten as they
stand at the end of the tick (log 8) and the snapshot owed is written (log 27); the timebase advances in
RUNNING and STOPPING; in RUNNING each line takes its sample and the ticks of a DWELL and the timeout of
a WAIT_INPUT fall by 1. That a sample which completes a change leaves the level and counts on until
QUALIFIED_CHANGE is log 22; `now` is log 14, the levels last sampled log 22. Nothing else changes. -/
def Obligations.TickBoundaryAdvances : Prop :=
  ∀ (raw : BitVec 16) (s : State), s.anyDue = false → ∃ t,
    exec (.tickBoundary raw) s = .next t ∧
    t =
      { s with
        ram := t.ram, axes := t.axes, lines := t.lines, rawLevels := raw, now := s.now + 1
        snapCount := s.snapCount + BitVec.ofNat 16 s.snapsOwed, snapsOwed := 0
        timebase :=
          if s.dev = .running ∨ s.dev = .stopping then s.timebase + 1 else s.timebase } ∧
    (∀ n : Line,
      t.line n =
        if s.dev = .running then
          if raw.getLsbD n.val = (s.line n).qualified then { s.line n with runCount := 0 }
          else { s.line n with runCount := (s.line n).runCount + 1 }
        else s.line n) ∧
    (∀ a : Axis,
      ((s.ax a).dirty = false → t.ax a = { s.ax a with ctx := (t.ax a).ctx }) ∧
      ((s.ax a).dirty = true →
        t.ax a =
          { s.ax a with
            ctx := (t.ax a).ctx, copy := s.statusWords a
            updateCount := (s.ax a).updateCount + 2, beganCount := none, dirty := false }) ∧
      StatusRewritten a s t ∧
      (∀ c k rep tag, s.dev = .running → (s.ax a).state = .dwelling → (s.ax a).ctx = some c →
        c.phase = .inSegment (.dwell k rep tag) →
        (t.ax a).ctx = some { c with phase := .inSegment (.dwell (k - 1) rep tag) }) ∧
      (∀ c n level k th rep tag, s.dev = .running → (s.ax a).state = .waitInput →
        (s.ax a).ctx = some c → c.phase = .inSegment (.waitInput n level (some k) th rep tag) →
        (t.ax a).ctx =
          some { c with phase := .inSegment (.waitInput n level (some (k - 1)) th rep tag) }) ∧
      (∀ c n level th rep tag, (s.ax a).ctx = some c →
        c.phase = .inSegment (.waitInput n level none th rep tag) → (t.ax a).ctx = some c) ∧
      (s.dev ≠ .running ∨ ((s.ax a).state ≠ .dwelling ∧ (s.ax a).state ≠ .waitInput) →
        (t.ax a).ctx = (s.ax a).ctx)) ∧
    SnapshotWritten s t ∧ SameRamBut s.tickTouches s t

/-! ### Records, slots and the status block -/

/-- A record handed while a slot is FILLING and it fits is placed there. With no slot FILLING and the
slot after the last closed one EMPTY with a good page, that slot is taken and the record placed from
word 8. A record that does not fit first closes the FILLING page with reason FULL. -/
def Obligations.RecordsArePlaced : Prop :=
  (∀ (body : RecordBody) (k : Slot) (p : Page) (s : State), isGeneralPage p = true →
    body.words.length ≤ 18 →
    (∀ records used, s.filling = some (k, p, records, used) → 5 + body.words.length + used ≤ 248 →
      RecordPlaces { time := s.timebase, body := body } k p records used s (s.handRecord body)) ∧
    ((∀ i : Slot, (s.slot i).isFilling = false) → k = s.report.lastClosed + 1 →
      s.slot k = .empty → s.read (slotPageWord k) = pageNumber p → s.claimed p = false →
      (∀ i : Slot, (s.slot i).page? ≠ some p) →
      RecordPlaces { time := s.timebase, body := body } k p 0 0 (s.withSlotTaken k p)
        (s.handRecord body))) ∧
  ∀ (body : RecordBody) (k : Slot) (p q : Page) (records used : Nat) (s : State),
    isGeneralPage p = true → isGeneralPage q = true → p ≠ q → body.words.length ≤ 18 →
    s.filling = some (k, p, records, used) → FillingLaw s → 248 < 5 + body.words.length + used →
    s.slot (k + 1) = .empty → s.read (slotPageWord (k + 1)) = pageNumber q → s.claimed q = false →
    (∀ i : Slot, (s.slot i).page? ≠ some q) → ∃ u,
    PageCloses 1 k p s u ∧
    RecordPlaces { time := s.timebase, body := body } (k + 1) q 0 0 (u.withSlotTaken (k + 1) q)
      (s.handRecord body)

/-- A record that finds no room: ROOM_EXHAUSTED is set, and by the first row of R155 that applies it is
owed to its axis, dropped and counted, or held. A store of three loses its newest record, which is counted
as dropped (R157). The rewrite of the status block is made at the end of the tick (log 8). -/
def Obligations.RecordsWithoutRoom : Prop :=
  ∀ (body : RecordBody) (s u : State) (rec : Record),
    rec = { time := s.timebase, body := body } → s.tryPlace rec = (false, u) →
    (∀ a, body.axis? = some a → body.essential = true → u.owedOf a ≠ [] →
      (u.owedOf a).length < 3 →
      s.handRecord body =
        { u.touch a with
          acause := u.acause ||| 0x010
          report := { u.report with owed := u.report.owed.set a (u.owedOf a ++ [rec]) } }) ∧
    (∀ a, body.axis? = some a → body.essential = true → u.owedOf a = [] →
      8 ≤ u.report.queue.length →
      s.handRecord body =
        { u.touch a with
          acause := u.acause ||| 0x010
          report :=
            { u.report with
              owed := u.report.owed.set a [rec], waitList := u.report.waitList ++ [a] } }) ∧
    (∀ a, body.axis? = some a → body.essential = true → 3 ≤ (u.owedOf a).length →
      s.handRecord body =
        { u.touch a with
          ram :=
            Memory.write u.ram 0x0013
              (if u.report.drops = 0xFFFF then 0xFFFF else u.report.drops + 1)
          acause := u.acause ||| 0x010 ||| 0x020
          report :=
            { u.report with
              owed := u.report.owed.set a ((u.owedOf a).dropLast ++ [rec])
              drops := if u.report.drops = 0xFFFF then 0xFFFF else u.report.drops + 1 } }) ∧
    ((∀ a, body.axis? = some a → u.owedOf a = []) → u.report.queue.length < 8 →
      s.handRecord body =
        { u with
          ram := Memory.write u.ram 0x0012 (BitVec.ofNat 16 (u.report.queue.length + 1))
          acause := u.acause ||| 0x010
          report := { u.report with queue := u.report.queue ++ [rec] } }) ∧
    (body.essential = false →
      ((∃ a, body.axis? = some a ∧ u.owedOf a ≠ []) ∨ 8 ≤ u.report.queue.length) →
      s.handRecord body =
        { u with
          ram :=
            Memory.write u.ram 0x0013
              (if u.report.drops = 0xFFFF then 0xFFFF else u.report.drops + 1)
          acause := u.acause ||| 0x010 ||| 0x020
          report :=
            { u.report with
              drops := if u.report.drops = 0xFFFF then 0xFFFF else u.report.drops + 1 } })

/-- The tests on the page word of an EMPTY slot: in 3 to 127, not the page of a FILLING or FULL slot,
not claimed (R152, R11). A search for a slot takes the first EMPTY slot after the last closed one that
passes the tests and makes each EMPTY slot visited before it BAD with SLOT_FAULT; without success no
slot is EMPTY. -/
def Obligations.SlotSearchOrder : Prop :=
  (∀ (s : State) (k : Slot) (p : Page),
    (s.poolPage k = some p ↔
      (s.read (slotPageWord k)).toNat = p.toNat ∧ 3 ≤ p.toNat ∧
      (∀ i : Slot,
        s.slot i ≠ .full (some p) ∧ ∀ records used, s.slot i ≠ .filling p records used) ∧
      ∀ e ∈ s.claims, e.1 ≠ p.toNat) ∧
    (NoGeneralPage (s.read (slotPageWord k)) → s.poolPage k = none) ∧
    ((s.read (slotPageWord k)).toNat = p.toNat →
      ((∃ i, s.slot i = .full (some p)) ∨ (∃ i records used, s.slot i = .filling p records used) ∨
        ∃ c, (p.toNat, c) ∈ s.claims) → s.poolPage k = none)) ∧
  ∀ (s t : State),
    (s.takeSlot = (true, t) → ∃ (n : Nat) (k : Slot) (p : Page),
      n < 8 ∧ k = s.report.lastClosed + 1 + Fin.ofNat 8 n ∧ s.slot k = .empty ∧
      s.poolPage k = some p ∧ t.slot k = .filling p 0 0 ∧
      (∀ m, m < n → s.slot (s.report.lastClosed + 1 + Fin.ofNat 8 m) = .empty →
        s.poolPage (s.report.lastClosed + 1 + Fin.ofNat 8 m) = none ∧
        t.slot (s.report.lastClosed + 1 + Fin.ofNat 8 m) = .bad ∧ t.acause.getLsbD 6 = true) ∧
      ∀ i : Slot, i ≠ k → t.slot i = s.slot i ∨ (s.slot i = .empty ∧ t.slot i = .bad)) ∧
    (s.takeSlot = (false, t) → ∀ k : Slot,
      (s.slot k = .empty → s.poolPage k = none ∧ t.slot k = .bad ∧ t.acause.getLsbD 6 = true) ∧
      (s.slot k ≠ .empty → t.slot k = s.slot k))

/-- The fields of the status block, by their words (R98, R75): +18 state, +19 level, +20 depth, +21
pending mask, +22 cause, +23 detail, +24 page, +25 index, +26 and +27 remaining steps (a RUN that has
begun in this tick: its full count, log 30), +28 and +29 position, +30 owed records, +31 DIR level (0
while a change to 0 waits, log 12). With no running context they show what the halt or the END left. The
words of every kind of record: length and kind, sequence number, the time of the cause, then the fields
of its kind (12.4). -/
def Obligations.StatusAndRecordWords : Prop :=
  (∀ (a : Axis) (s : State),
    (s.statusWords a).length = 14 ∧
    (s.statusWords a)[0]? = some (s.ax a).state.code ∧
    (∀ c, (s.ax a).ctx = some c →
      (s.statusWords a)[1]? = some (BitVec.ofNat 16 c.level.val) ∧
      (∀ p, c.page = some p → (s.statusWords a)[6]? = some (p.setWidth 16)) ∧
      (c.page = none → (s.statusWords a)[6]? = some 0) ∧
      (s.statusWords a)[7]? = some (BitVec.ofNat 16 c.index) ∧
      (∀ n v d w f rep tag, c.phase = .inSegment (.run n v d w f rep tag) →
        ∀ m, ((s.ax a).beganCount = none ∧ m = n) ∨ (s.ax a).beganCount = some m →
        (s.statusWords a)[8]? = some ((BitVec.ofNat 32 m).extractLsb' 0 16) ∧
        (s.statusWords a)[9]? = some ((BitVec.ofNat 32 m).extractLsb' 16 16)) ∧
      ((∀ n v d w f rep tag, c.phase ≠ .inSegment (.run n v d w f rep tag)) →
        (s.statusWords a)[8]? = some 0 ∧ (s.statusWords a)[9]? = some 0)) ∧
    ((s.ax a).ctx = none →
      ((s.ax a).state = .halted →
        (s.statusWords a)[1]? = some (BitVec.ofNat 16 (s.ax a).haltLevel.val)) ∧
      ((s.ax a).state ≠ .halted → (s.statusWords a)[1]? = some 0) ∧
      (s.statusWords a)[6]? = some (s.ax a).shownPage ∧
      (s.statusWords a)[7]? = some (BitVec.ofNat 16 (s.ax a).shownIndex) ∧
      (s.statusWords a)[8]? =
        some ((BitVec.ofNat 32 (s.ax a).shownRemaining).extractLsb' 0 16) ∧
      (s.statusWords a)[9]? =
        some ((BitVec.ofNat 32 (s.ax a).shownRemaining).extractLsb' 16 16)) ∧
    (s.statusWords a)[2]? = some (BitVec.ofNat 16 (s.ax a).stack.length) ∧
    (∀ w, (s.statusWords a)[3]? = some w → ∀ i : Fin 16,
      w.getLsbD i.val =
        ((i.val == 1 && (s.ax a).requests.one.isSome) ||
          (i.val == 2 && (s.ax a).requests.two.isSome) ||
          (i.val == 3 && (s.ax a).requests.three.isSome))) ∧
    ((s.ax a).haltCause = none → (s.statusWords a)[4]? = some 0) ∧
    (∀ cause, (s.ax a).haltCause = some cause →
      (s.statusWords a)[4]? = some (cause.code.setWidth 16)) ∧
    (s.statusWords a)[5]? = some ((s.ax a).haltDetail.setWidth 16) ∧
    (s.statusWords a)[10]? = some ((s.ax a).position.extractLsb' 0 16) ∧
    (s.statusWords a)[11]? = some ((s.ax a).position.extractLsb' 16 16) ∧
    (s.statusWords a)[12]? = some (BitVec.ofNat 16 (s.owedOf a).length) ∧
    ((s.ax a).dirZero = .notWaiting →
      (s.statusWords a)[13]? = some (if (s.ax a).dir then 1 else 0)) ∧
    ((s.ax a).dirZero ≠ .notWaiting → (s.statusWords a)[13]? = some 0)) ∧
  ∀ (time : Time) (seq : Word) (a : Axis) (l m : Level) (p : Page) (i : Nat) (tag : Word) (pos : Pos)
    (kind : SegKind) (cause : HaltCause) (detail : BitVec 8) (value : Word) (n : Line)
    (rising : Bool) (mask : AxisMask) (positions : List Pos),
    Record.words { time := time, body := .done a l kind p i tag pos none } seq =
      [0x0A01, seq, time.extractLsb' 0 16, time.extractLsb' 16 16, time.extractLsb' 32 16,
       axisLevelWord a l ||| (kind.code.setWidth 16 <<< 8), pageIndexWord p i, tag,
       pos.extractLsb' 0 16, pos.extractLsb' 16 16] ∧
    Record.words { time := time, body := .done a l .join p i tag pos (some value) } seq =
      [0x0B01, seq, time.extractLsb' 0 16, time.extractLsb' 16 16, time.extractLsb' 32 16,
       axisLevelWord a l ||| 0x0300, pageIndexWord p i, tag,
       pos.extractLsb' 0 16, pos.extractLsb' 16 16, value] ∧
    Record.words { time := time, body := .note a l p i tag pos value } seq =
      [0x0B02, seq, time.extractLsb' 0 16, time.extractLsb' 16 16, time.extractLsb' 32 16,
       axisLevelWord a l, pageIndexWord p i, tag,
       pos.extractLsb' 0 16, pos.extractLsb' 16 16, value] ∧
    Record.words { time := time, body := .halt a l cause detail p i pos } seq =
      [0x0A03, seq, time.extractLsb' 0 16, time.extractLsb' 16 16, time.extractLsb' 32 16,
       axisLevelWord a l, detail ++ cause.code, pageIndexWord p i,
       pos.extractLsb' 0 16, pos.extractLsb' 16 16] ∧
    Record.words { time := time, body := .starve a l p pos } seq =
      [0x0904, seq, time.extractLsb' 0 16, time.extractLsb' 16 16, time.extractLsb' 32 16,
       axisLevelWord a l, p.setWidth 16, pos.extractLsb' 0 16, pos.extractLsb' 16 16] ∧
    Record.words { time := time, body := .timeout a l n tag p i } seq =
      [0x0905, seq, time.extractLsb' 0 16, time.extractLsb' 16 16, time.extractLsb' 32 16,
       axisLevelWord a l, BitVec.ofNat 16 n.val, tag, pageIndexWord p i] ∧
    (positions.length ≤ 8 →
      Record.words { time := time, body := .capture n rising mask positions } seq =
        [BitVec.ofNat 16 (256 * (7 + 2 * positions.length) + 6), seq, time.extractLsb' 0 16,
         time.extractLsb' 16 16, time.extractLsb' 32 16,
         BitVec.ofNat 16 (if rising then 0x100 + n.val else n.val), mask.setWidth 16] ++
          positions.flatMap fun q => [q.extractLsb' 0 16, q.extractLsb' 16 16]) ∧
    Record.words { time := time, body := .interjectIn a l value .command } seq =
      [0x0807, seq, time.extractLsb' 0 16, time.extractLsb' 16 16, time.extractLsb' 32 16,
       axisLevelWord a l, value, 0] ∧
    Record.words { time := time, body := .interjectIn a l value (.trip n) } seq =
      [0x0807, seq, time.extractLsb' 0 16, time.extractLsb' 16 16, time.extractLsb' 32 16,
       axisLevelWord a l, value, BitVec.ofNat 16 (1 + n.val)] ∧
    Record.words { time := time, body := .interjectOut a l m } seq =
      [0x0708, seq, time.extractLsb' 0 16, time.extractLsb' 16 16, time.extractLsb' 32 16,
       axisLevelWord a l, BitVec.ofNat 16 m.val] ∧
    Record.words { time := time, body := .drops value } seq =
      [0x0609, seq, time.extractLsb' 0 16, time.extractLsb' 16 16, time.extractLsb' 32 16, value] ∧
    (axisLevelWord a l).toNat = a.val + 16 * l.val ∧
    (i < 32 → (pageIndexWord p i).toNat = p.toNat + 256 * i)

/-! ### What every step keeps -/

/-- Nothing is left over between commands (log 9), and every update count is even between them: the
brackets open and close inside one command (R18, log 8). The exchange RAM keeps its canonical form
(log 1). -/
def Obligations.MemoryQuietAndBracketsKept : Prop :=
  ∀ s t : State, step s = .next t →
    (Quiet s → Quiet t) ∧ (BracketLaw s → BracketLaw t) ∧ (MemoryLaw s → MemoryLaw t)

/-- Second and third law: at most two saved contexts, levels rising to the running level; no context on
an OFF, IDLE or HALTED axis; no request on an OFF or HALTED axis. -/
def Obligations.ContextLawsKept : Prop :=
  ∀ s t : State, Quiet s → StackLaw s → PendingLaw s → step s = .next t → StackLaw t ∧ PendingLaw t

/-- Fifth and sixth law: at most one slot is FILLING; at most eight records are held, and any only while
no slot is FILLING and none is EMPTY. -/
def Obligations.PoolLawsKept : Prop :=
  ∀ s t : State, FillingLaw s → QueueLaw s → step s = .next t → FillingLaw t ∧ QueueLaw t

/-- The first half of the seventh law, and the eighth law: no axis owes more than three records; the
wait list names exactly the axes that owe, each once; and the device is not STOPPED or in INIT while an
axis owes. The second half of the seventh law, that no segment begins on an axis while it owes a record
(R157, R42), is no part of this statement: it stands in AtBegin. -/
def Obligations.OweLawsKept : Prop :=
  ∀ s t : State, OweLaw s → StoppedLaw s → step s = .next t → OweLaw t ∧ StoppedLaw t

/-- Ninth law: the arrived axes are members, and never all of them while the point is OPEN. -/
def Obligations.JoinLawKept : Prop :=
  ∀ s t : State, Quiet s → JoinLaw s → step s = .next t → JoinLaw t

/-- First law: no page has two claimants, every claimed page is a general page, and each claim belongs
to a context of its axis that stands on the page; outside RUNNING no axis is active, so in STOPPED and
STOPPING no page is claimed (R8). An idle base stands on no page (R103). The pages that contexts and the FILLING slot name are general pages
too, and every record that waits for room has the length of a record. -/
def Obligations.ClaimPageAndRecordLawsKept : Prop :=
  (∀ s t : State, step s = .next t →
    (ClaimLaw s → ClaimLaw t) ∧
    (Quiet s → PageLaw s → RecordLaw s → PageLaw t ∧ RecordLaw t) ∧
    (Quiet s → IdleBaseLaw s → IdleBaseLaw t) ∧
    (Quiet s → ClaimLaw s → StackLaw s → PendingLaw s → RestLaw s → IdleBaseLaw s → HolderLaw s →
      RestLaw t ∧ HolderLaw t)) ∧
  ∀ s : State, StackLaw s → RestLaw s → HolderLaw s → s.dev = .stopped ∨ s.dev = .stopping →
    s.claims = []

/-- What every command keeps of the pulse law (R63): STEP rises only by the start of a step of its axis,
after a low tick and DIRLEAD ticks after the last change of DIR, with DIR standing; after a change of
DIR, STEP is low; STEP falls only when its width has run out, or at power-on; a pulse that stays high
keeps its end. The first clause of the law, that every pulse is high for at least one tick, is no part
of this statement: the width of a pulse stands in StepStartBeginsAStep. -/
def Obligations.PulseLawKept : Prop :=
  ∀ (c : Instr) (s t : State) (a : Axis), Quiet s → exec c s = .next t →
    ((s.ax a).step.isHigh = false → (t.ax a).step.isHigh = true →
      c = .stepStart a ∧ (s.ax a).step.quiet s.now = true ∧
      (s.ax a).leadPassed s.dirlead s.now = true ∧ (t.ax a).dir = (s.ax a).dir) ∧
    ((t.ax a).dir ≠ (s.ax a).dir → (t.ax a).step.isHigh = false) ∧
    ((s.ax a).step.isHigh = true → (t.ax a).step.isHigh = false →
      s.pulseEndDue a = true ∨ c = .hardReset .powerOn) ∧
    ((s.ax a).step.isHigh = true → (t.ax a).step.isHigh = true → (t.ax a).step = (s.ax a).step)
end

