-- ==== Sys2Proof/Laws/State.lean ====
section
/-!
SUPPORT. What each basic update of the state does to each field, by rfl, so that no proof unfolds a
record update.
-/
namespace Sys2Proof.Machine

variable (s : State)

/-! ### setAx -/

@[simp] theorem State.setAx_ram (a : Axis) (x : AxisEngine) : (s.setAx a x).ram = s.ram := rfl
@[simp] theorem State.setAx_claims (a : Axis) (x : AxisEngine) :
    (s.setAx a x).claims = s.claims := rfl
@[simp] theorem State.setAx_dev (a : Axis) (x : AxisEngine) : (s.setAx a x).dev = s.dev := rfl
@[simp] theorem State.setAx_timebase (a : Axis) (x : AxisEngine) :
    (s.setAx a x).timebase = s.timebase := rfl
@[simp] theorem State.setAx_timeLatch (a : Axis) (x : AxisEngine) :
    (s.setAx a x).timeLatch = s.timeLatch := rfl
@[simp] theorem State.setAx_cmdBack (a : Axis) (x : AxisEngine) :
    (s.setAx a x).cmdBack = s.cmdBack := rfl
@[simp] theorem State.setAx_faultCode (a : Axis) (x : AxisEngine) :
    (s.setAx a x).faultCode = s.faultCode := rfl
@[simp] theorem State.setAx_faultIndex (a : Axis) (x : AxisEngine) :
    (s.setAx a x).faultIndex = s.faultIndex := rfl
@[simp] theorem State.setAx_acause (a : Axis) (x : AxisEngine) :
    (s.setAx a x).acause = s.acause := rfl
@[simp] theorem State.setAx_amask (a : Axis) (x : AxisEngine) : (s.setAx a x).amask = s.amask := rfl
@[simp] theorem State.setAx_portData (a : Axis) (x : AxisEngine) :
    (s.setAx a x).portData = s.portData := rfl
@[simp] theorem State.setAx_setup (a : Axis) (x : AxisEngine) : (s.setAx a x).setup = s.setup := rfl
@[simp] theorem State.setAx_axes (a : Axis) (x : AxisEngine) :
    (s.setAx a x).axes = s.axes.set a x := rfl
@[simp] theorem State.setAx_points (a : Axis) (x : AxisEngine) :
    (s.setAx a x).points = s.points := rfl
@[simp] theorem State.setAx_lines (a : Axis) (x : AxisEngine) : (s.setAx a x).lines = s.lines := rfl
@[simp] theorem State.setAx_report (a : Axis) (x : AxisEngine) :
    (s.setAx a x).report = s.report := rfl
@[simp] theorem State.setAx_rawLevels (a : Axis) (x : AxisEngine) :
    (s.setAx a x).rawLevels = s.rawLevels := rfl
@[simp] theorem State.setAx_snapCount (a : Axis) (x : AxisEngine) :
    (s.setAx a x).snapCount = s.snapCount := rfl
@[simp] theorem State.setAx_snapsOwed (a : Axis) (x : AxisEngine) :
    (s.setAx a x).snapsOwed = s.snapsOwed := rfl
@[simp] theorem State.setAx_now (a : Axis) (x : AxisEngine) : (s.setAx a x).now = s.now := rfl
@[simp] theorem State.setAx_freeCount (a : Axis) (x : AxisEngine) :
    (s.setAx a x).freeCount = s.freeCount := rfl
@[simp] theorem State.setAx_agenda (a : Axis) (x : AxisEngine) :
    (s.setAx a x).agenda = s.agenda := rfl
@[simp] theorem State.setAx_pending (a : Axis) (x : AxisEngine) :
    (s.setAx a x).pending = s.pending := rfl

/-! ### setPoint -/

@[simp] theorem State.setPoint_ram (j : Point) (p : JoinPoint) : (s.setPoint j p).ram = s.ram := rfl
@[simp] theorem State.setPoint_claims (j : Point) (p : JoinPoint) :
    (s.setPoint j p).claims = s.claims := rfl
@[simp] theorem State.setPoint_dev (j : Point) (p : JoinPoint) : (s.setPoint j p).dev = s.dev := rfl
@[simp] theorem State.setPoint_timebase (j : Point) (p : JoinPoint) :
    (s.setPoint j p).timebase = s.timebase := rfl
@[simp] theorem State.setPoint_timeLatch (j : Point) (p : JoinPoint) :
    (s.setPoint j p).timeLatch = s.timeLatch := rfl
@[simp] theorem State.setPoint_cmdBack (j : Point) (p : JoinPoint) :
    (s.setPoint j p).cmdBack = s.cmdBack := rfl
@[simp] theorem State.setPoint_faultCode (j : Point) (p : JoinPoint) :
    (s.setPoint j p).faultCode = s.faultCode := rfl
@[simp] theorem State.setPoint_faultIndex (j : Point) (p : JoinPoint) :
    (s.setPoint j p).faultIndex = s.faultIndex := rfl
@[simp] theorem State.setPoint_acause (j : Point) (p : JoinPoint) :
    (s.setPoint j p).acause = s.acause := rfl
@[simp] theorem State.setPoint_amask (j : Point) (p : JoinPoint) :
    (s.setPoint j p).amask = s.amask := rfl
@[simp] theorem State.setPoint_portData (j : Point) (p : JoinPoint) :
    (s.setPoint j p).portData = s.portData := rfl
@[simp] theorem State.setPoint_setup (j : Point) (p : JoinPoint) :
    (s.setPoint j p).setup = s.setup := rfl
@[simp] theorem State.setPoint_axes (j : Point) (p : JoinPoint) :
    (s.setPoint j p).axes = s.axes := rfl
@[simp] theorem State.setPoint_points (j : Point) (p : JoinPoint) :
    (s.setPoint j p).points = s.points.set j p := rfl
@[simp] theorem State.setPoint_lines (j : Point) (p : JoinPoint) :
    (s.setPoint j p).lines = s.lines := rfl
@[simp] theorem State.setPoint_report (j : Point) (p : JoinPoint) :
    (s.setPoint j p).report = s.report := rfl
@[simp] theorem State.setPoint_rawLevels (j : Point) (p : JoinPoint) :
    (s.setPoint j p).rawLevels = s.rawLevels := rfl
@[simp] theorem State.setPoint_snapCount (j : Point) (p : JoinPoint) :
    (s.setPoint j p).snapCount = s.snapCount := rfl
@[simp] theorem State.setPoint_snapsOwed (j : Point) (p : JoinPoint) :
    (s.setPoint j p).snapsOwed = s.snapsOwed := rfl
@[simp] theorem State.setPoint_now (j : Point) (p : JoinPoint) : (s.setPoint j p).now = s.now := rfl
@[simp] theorem State.setPoint_freeCount (j : Point) (p : JoinPoint) :
    (s.setPoint j p).freeCount = s.freeCount := rfl
@[simp] theorem State.setPoint_agenda (j : Point) (p : JoinPoint) :
    (s.setPoint j p).agenda = s.agenda := rfl
@[simp] theorem State.setPoint_pending (j : Point) (p : JoinPoint) :
    (s.setPoint j p).pending = s.pending := rfl

/-! ### setLine -/

@[simp] theorem State.setLine_ram (n : Line) (l : InputLine) : (s.setLine n l).ram = s.ram := rfl
@[simp] theorem State.setLine_claims (n : Line) (l : InputLine) :
    (s.setLine n l).claims = s.claims := rfl
@[simp] theorem State.setLine_dev (n : Line) (l : InputLine) : (s.setLine n l).dev = s.dev := rfl
@[simp] theorem State.setLine_timebase (n : Line) (l : InputLine) :
    (s.setLine n l).timebase = s.timebase := rfl
@[simp] theorem State.setLine_timeLatch (n : Line) (l : InputLine) :
    (s.setLine n l).timeLatch = s.timeLatch := rfl
@[simp] theorem State.setLine_cmdBack (n : Line) (l : InputLine) :
    (s.setLine n l).cmdBack = s.cmdBack := rfl
@[simp] theorem State.setLine_faultCode (n : Line) (l : InputLine) :
    (s.setLine n l).faultCode = s.faultCode := rfl
@[simp] theorem State.setLine_faultIndex (n : Line) (l : InputLine) :
    (s.setLine n l).faultIndex = s.faultIndex := rfl
@[simp] theorem State.setLine_acause (n : Line) (l : InputLine) :
    (s.setLine n l).acause = s.acause := rfl
@[simp] theorem State.setLine_amask (n : Line) (l : InputLine) :
    (s.setLine n l).amask = s.amask := rfl
@[simp] theorem State.setLine_portData (n : Line) (l : InputLine) :
    (s.setLine n l).portData = s.portData := rfl
@[simp] theorem State.setLine_setup (n : Line) (l : InputLine) :
    (s.setLine n l).setup = s.setup := rfl
@[simp] theorem State.setLine_axes (n : Line) (l : InputLine) : (s.setLine n l).axes = s.axes := rfl
@[simp] theorem State.setLine_points (n : Line) (l : InputLine) :
    (s.setLine n l).points = s.points := rfl
@[simp] theorem State.setLine_lines (n : Line) (l : InputLine) :
    (s.setLine n l).lines = s.lines.set n l := rfl
@[simp] theorem State.setLine_report (n : Line) (l : InputLine) :
    (s.setLine n l).report = s.report := rfl
@[simp] theorem State.setLine_rawLevels (n : Line) (l : InputLine) :
    (s.setLine n l).rawLevels = s.rawLevels := rfl
@[simp] theorem State.setLine_snapCount (n : Line) (l : InputLine) :
    (s.setLine n l).snapCount = s.snapCount := rfl
@[simp] theorem State.setLine_snapsOwed (n : Line) (l : InputLine) :
    (s.setLine n l).snapsOwed = s.snapsOwed := rfl
@[simp] theorem State.setLine_now (n : Line) (l : InputLine) : (s.setLine n l).now = s.now := rfl
@[simp] theorem State.setLine_freeCount (n : Line) (l : InputLine) :
    (s.setLine n l).freeCount = s.freeCount := rfl
@[simp] theorem State.setLine_agenda (n : Line) (l : InputLine) :
    (s.setLine n l).agenda = s.agenda := rfl
@[simp] theorem State.setLine_pending (n : Line) (l : InputLine) :
    (s.setLine n l).pending = s.pending := rfl

/-! ### write -/

@[simp] theorem State.write_ram (a : Addr) (v : Word) :
    (s.write a v).ram = Memory.write s.ram a v := rfl
@[simp] theorem State.write_claims (a : Addr) (v : Word) : (s.write a v).claims = s.claims := rfl
@[simp] theorem State.write_dev (a : Addr) (v : Word) : (s.write a v).dev = s.dev := rfl
@[simp] theorem State.write_timebase (a : Addr) (v : Word) :
    (s.write a v).timebase = s.timebase := rfl
@[simp] theorem State.write_timeLatch (a : Addr) (v : Word) :
    (s.write a v).timeLatch = s.timeLatch := rfl
@[simp] theorem State.write_cmdBack (a : Addr) (v : Word) : (s.write a v).cmdBack = s.cmdBack := rfl
@[simp] theorem State.write_faultCode (a : Addr) (v : Word) :
    (s.write a v).faultCode = s.faultCode := rfl
@[simp] theorem State.write_faultIndex (a : Addr) (v : Word) :
    (s.write a v).faultIndex = s.faultIndex := rfl
@[simp] theorem State.write_acause (a : Addr) (v : Word) : (s.write a v).acause = s.acause := rfl
@[simp] theorem State.write_amask (a : Addr) (v : Word) : (s.write a v).amask = s.amask := rfl
@[simp] theorem State.write_portData (a : Addr) (v : Word) :
    (s.write a v).portData = s.portData := rfl
@[simp] theorem State.write_setup (a : Addr) (v : Word) : (s.write a v).setup = s.setup := rfl
@[simp] theorem State.write_axes (a : Addr) (v : Word) : (s.write a v).axes = s.axes := rfl
@[simp] theorem State.write_points (a : Addr) (v : Word) : (s.write a v).points = s.points := rfl
@[simp] theorem State.write_lines (a : Addr) (v : Word) : (s.write a v).lines = s.lines := rfl
@[simp] theorem State.write_report (a : Addr) (v : Word) : (s.write a v).report = s.report := rfl
@[simp] theorem State.write_rawLevels (a : Addr) (v : Word) :
    (s.write a v).rawLevels = s.rawLevels := rfl
@[simp] theorem State.write_snapCount (a : Addr) (v : Word) :
    (s.write a v).snapCount = s.snapCount := rfl
@[simp] theorem State.write_snapsOwed (a : Addr) (v : Word) :
    (s.write a v).snapsOwed = s.snapsOwed := rfl
@[simp] theorem State.write_now (a : Addr) (v : Word) : (s.write a v).now = s.now := rfl
@[simp] theorem State.write_freeCount (a : Addr) (v : Word) :
    (s.write a v).freeCount = s.freeCount := rfl
@[simp] theorem State.write_agenda (a : Addr) (v : Word) : (s.write a v).agenda = s.agenda := rfl
@[simp] theorem State.write_pending (a : Addr) (v : Word) : (s.write a v).pending = s.pending := rfl

/-! ### writeWords -/

@[simp] theorem State.writeWords_ram (a : Addr) (ws : List Word) :
    (s.writeWords a ws).ram = Memory.writeWords s.ram a ws := rfl
@[simp] theorem State.writeWords_claims (a : Addr) (ws : List Word) :
    (s.writeWords a ws).claims = s.claims := rfl
@[simp] theorem State.writeWords_dev (a : Addr) (ws : List Word) :
    (s.writeWords a ws).dev = s.dev := rfl
@[simp] theorem State.writeWords_timebase (a : Addr) (ws : List Word) :
    (s.writeWords a ws).timebase = s.timebase := rfl
@[simp] theorem State.writeWords_timeLatch (a : Addr) (ws : List Word) :
    (s.writeWords a ws).timeLatch = s.timeLatch := rfl
@[simp] theorem State.writeWords_cmdBack (a : Addr) (ws : List Word) :
    (s.writeWords a ws).cmdBack = s.cmdBack := rfl
@[simp] theorem State.writeWords_faultCode (a : Addr) (ws : List Word) :
    (s.writeWords a ws).faultCode = s.faultCode := rfl
@[simp] theorem State.writeWords_faultIndex (a : Addr) (ws : List Word) :
    (s.writeWords a ws).faultIndex = s.faultIndex := rfl
@[simp] theorem State.writeWords_acause (a : Addr) (ws : List Word) :
    (s.writeWords a ws).acause = s.acause := rfl
@[simp] theorem State.writeWords_amask (a : Addr) (ws : List Word) :
    (s.writeWords a ws).amask = s.amask := rfl
@[simp] theorem State.writeWords_portData (a : Addr) (ws : List Word) :
    (s.writeWords a ws).portData = s.portData := rfl
@[simp] theorem State.writeWords_setup (a : Addr) (ws : List Word) :
    (s.writeWords a ws).setup = s.setup := rfl
@[simp] theorem State.writeWords_axes (a : Addr) (ws : List Word) :
    (s.writeWords a ws).axes = s.axes := rfl
@[simp] theorem State.writeWords_points (a : Addr) (ws : List Word) :
    (s.writeWords a ws).points = s.points := rfl
@[simp] theorem State.writeWords_lines (a : Addr) (ws : List Word) :
    (s.writeWords a ws).lines = s.lines := rfl
@[simp] theorem State.writeWords_report (a : Addr) (ws : List Word) :
    (s.writeWords a ws).report = s.report := rfl
@[simp] theorem State.writeWords_rawLevels (a : Addr) (ws : List Word) :
    (s.writeWords a ws).rawLevels = s.rawLevels := rfl
@[simp] theorem State.writeWords_snapCount (a : Addr) (ws : List Word) :
    (s.writeWords a ws).snapCount = s.snapCount := rfl
@[simp] theorem State.writeWords_snapsOwed (a : Addr) (ws : List Word) :
    (s.writeWords a ws).snapsOwed = s.snapsOwed := rfl
@[simp] theorem State.writeWords_now (a : Addr) (ws : List Word) :
    (s.writeWords a ws).now = s.now := rfl
@[simp] theorem State.writeWords_freeCount (a : Addr) (ws : List Word) :
    (s.writeWords a ws).freeCount = s.freeCount := rfl
@[simp] theorem State.writeWords_agenda (a : Addr) (ws : List Word) :
    (s.writeWords a ws).agenda = s.agenda := rfl
@[simp] theorem State.writeWords_pending (a : Addr) (ws : List Word) :
    (s.writeWords a ws).pending = s.pending := rfl

/-! ### setCause -/

@[simp] theorem State.setCause_ram (c : AlertCause) : (s.setCause c).ram = s.ram := rfl
@[simp] theorem State.setCause_claims (c : AlertCause) : (s.setCause c).claims = s.claims := rfl
@[simp] theorem State.setCause_dev (c : AlertCause) : (s.setCause c).dev = s.dev := rfl
@[simp] theorem State.setCause_timebase (c : AlertCause) :
    (s.setCause c).timebase = s.timebase := rfl
@[simp] theorem State.setCause_timeLatch (c : AlertCause) :
    (s.setCause c).timeLatch = s.timeLatch := rfl
@[simp] theorem State.setCause_cmdBack (c : AlertCause) : (s.setCause c).cmdBack = s.cmdBack := rfl
@[simp] theorem State.setCause_faultCode (c : AlertCause) :
    (s.setCause c).faultCode = s.faultCode := rfl
@[simp] theorem State.setCause_faultIndex (c : AlertCause) :
    (s.setCause c).faultIndex = s.faultIndex := rfl
@[simp] theorem State.setCause_acause (c : AlertCause) :
    (s.setCause c).acause = s.acause ||| c.bit := rfl
@[simp] theorem State.setCause_amask (c : AlertCause) : (s.setCause c).amask = s.amask := rfl
@[simp] theorem State.setCause_portData (c : AlertCause) :
    (s.setCause c).portData = s.portData := rfl
@[simp] theorem State.setCause_setup (c : AlertCause) : (s.setCause c).setup = s.setup := rfl
@[simp] theorem State.setCause_axes (c : AlertCause) : (s.setCause c).axes = s.axes := rfl
@[simp] theorem State.setCause_points (c : AlertCause) : (s.setCause c).points = s.points := rfl
@[simp] theorem State.setCause_lines (c : AlertCause) : (s.setCause c).lines = s.lines := rfl
@[simp] theorem State.setCause_report (c : AlertCause) : (s.setCause c).report = s.report := rfl
@[simp] theorem State.setCause_rawLevels (c : AlertCause) :
    (s.setCause c).rawLevels = s.rawLevels := rfl
@[simp] theorem State.setCause_snapCount (c : AlertCause) :
    (s.setCause c).snapCount = s.snapCount := rfl
@[simp] theorem State.setCause_snapsOwed (c : AlertCause) :
    (s.setCause c).snapsOwed = s.snapsOwed := rfl
@[simp] theorem State.setCause_now (c : AlertCause) : (s.setCause c).now = s.now := rfl
@[simp] theorem State.setCause_freeCount (c : AlertCause) :
    (s.setCause c).freeCount = s.freeCount := rfl
@[simp] theorem State.setCause_agenda (c : AlertCause) : (s.setCause c).agenda = s.agenda := rfl
@[simp] theorem State.setCause_pending (c : AlertCause) : (s.setCause c).pending = s.pending := rfl

/-! ### mapReport -/

@[simp] theorem State.mapReport_ram (f : ReportUnit → ReportUnit) :
    (s.mapReport f).ram = s.ram := rfl
@[simp] theorem State.mapReport_claims (f : ReportUnit → ReportUnit) :
    (s.mapReport f).claims = s.claims := rfl
@[simp] theorem State.mapReport_dev (f : ReportUnit → ReportUnit) :
    (s.mapReport f).dev = s.dev := rfl
@[simp] theorem State.mapReport_timebase (f : ReportUnit → ReportUnit) :
    (s.mapReport f).timebase = s.timebase := rfl
@[simp] theorem State.mapReport_timeLatch (f : ReportUnit → ReportUnit) :
    (s.mapReport f).timeLatch = s.timeLatch := rfl
@[simp] theorem State.mapReport_cmdBack (f : ReportUnit → ReportUnit) :
    (s.mapReport f).cmdBack = s.cmdBack := rfl
@[simp] theorem State.mapReport_faultCode (f : ReportUnit → ReportUnit) :
    (s.mapReport f).faultCode = s.faultCode := rfl
@[simp] theorem State.mapReport_faultIndex (f : ReportUnit → ReportUnit) :
    (s.mapReport f).faultIndex = s.faultIndex := rfl
@[simp] theorem State.mapReport_acause (f : ReportUnit → ReportUnit) :
    (s.mapReport f).acause = s.acause := rfl
@[simp] theorem State.mapReport_amask (f : ReportUnit → ReportUnit) :
    (s.mapReport f).amask = s.amask := rfl
@[simp] theorem State.mapReport_portData (f : ReportUnit → ReportUnit) :
    (s.mapReport f).portData = s.portData := rfl
@[simp] theorem State.mapReport_setup (f : ReportUnit → ReportUnit) :
    (s.mapReport f).setup = s.setup := rfl
@[simp] theorem State.mapReport_axes (f : ReportUnit → ReportUnit) :
    (s.mapReport f).axes = s.axes := rfl
@[simp] theorem State.mapReport_points (f : ReportUnit → ReportUnit) :
    (s.mapReport f).points = s.points := rfl
@[simp] theorem State.mapReport_lines (f : ReportUnit → ReportUnit) :
    (s.mapReport f).lines = s.lines := rfl
@[simp] theorem State.mapReport_report (f : ReportUnit → ReportUnit) :
    (s.mapReport f).report = f s.report := rfl
@[simp] theorem State.mapReport_rawLevels (f : ReportUnit → ReportUnit) :
    (s.mapReport f).rawLevels = s.rawLevels := rfl
@[simp] theorem State.mapReport_snapCount (f : ReportUnit → ReportUnit) :
    (s.mapReport f).snapCount = s.snapCount := rfl
@[simp] theorem State.mapReport_snapsOwed (f : ReportUnit → ReportUnit) :
    (s.mapReport f).snapsOwed = s.snapsOwed := rfl
@[simp] theorem State.mapReport_now (f : ReportUnit → ReportUnit) :
    (s.mapReport f).now = s.now := rfl
@[simp] theorem State.mapReport_freeCount (f : ReportUnit → ReportUnit) :
    (s.mapReport f).freeCount = s.freeCount := rfl
@[simp] theorem State.mapReport_agenda (f : ReportUnit → ReportUnit) :
    (s.mapReport f).agenda = s.agenda := rfl
@[simp] theorem State.mapReport_pending (f : ReportUnit → ReportUnit) :
    (s.mapReport f).pending = s.pending := rfl

/-! ### push -/

@[simp] theorem State.push_ram (t : Task) : (s.push t).ram = s.ram := rfl
@[simp] theorem State.push_claims (t : Task) : (s.push t).claims = s.claims := rfl
@[simp] theorem State.push_dev (t : Task) : (s.push t).dev = s.dev := rfl
@[simp] theorem State.push_timebase (t : Task) : (s.push t).timebase = s.timebase := rfl
@[simp] theorem State.push_timeLatch (t : Task) : (s.push t).timeLatch = s.timeLatch := rfl
@[simp] theorem State.push_cmdBack (t : Task) : (s.push t).cmdBack = s.cmdBack := rfl
@[simp] theorem State.push_faultCode (t : Task) : (s.push t).faultCode = s.faultCode := rfl
@[simp] theorem State.push_faultIndex (t : Task) : (s.push t).faultIndex = s.faultIndex := rfl
@[simp] theorem State.push_acause (t : Task) : (s.push t).acause = s.acause := rfl
@[simp] theorem State.push_amask (t : Task) : (s.push t).amask = s.amask := rfl
@[simp] theorem State.push_portData (t : Task) : (s.push t).portData = s.portData := rfl
@[simp] theorem State.push_setup (t : Task) : (s.push t).setup = s.setup := rfl
@[simp] theorem State.push_axes (t : Task) : (s.push t).axes = s.axes := rfl
@[simp] theorem State.push_points (t : Task) : (s.push t).points = s.points := rfl
@[simp] theorem State.push_lines (t : Task) : (s.push t).lines = s.lines := rfl
@[simp] theorem State.push_report (t : Task) : (s.push t).report = s.report := rfl
@[simp] theorem State.push_rawLevels (t : Task) : (s.push t).rawLevels = s.rawLevels := rfl
@[simp] theorem State.push_snapCount (t : Task) : (s.push t).snapCount = s.snapCount := rfl
@[simp] theorem State.push_snapsOwed (t : Task) : (s.push t).snapsOwed = s.snapsOwed := rfl
@[simp] theorem State.push_now (t : Task) : (s.push t).now = s.now := rfl
@[simp] theorem State.push_freeCount (t : Task) : (s.push t).freeCount = s.freeCount := rfl
@[simp] theorem State.push_agenda (t : Task) : (s.push t).agenda = s.agenda ++ [t] := rfl
@[simp] theorem State.push_pending (t : Task) : (s.push t).pending = s.pending := rfl

/-! ### readBack -/

@[simp] theorem State.readBack_ram (code : BitVec 4) (result : CmdResult) :
    (s.readBack code result).ram = s.ram := rfl
@[simp] theorem State.readBack_claims (code : BitVec 4) (result : CmdResult) :
    (s.readBack code result).claims = s.claims := rfl
@[simp] theorem State.readBack_dev (code : BitVec 4) (result : CmdResult) :
    (s.readBack code result).dev = s.dev := rfl
@[simp] theorem State.readBack_timebase (code : BitVec 4) (result : CmdResult) :
    (s.readBack code result).timebase = s.timebase := rfl
@[simp] theorem State.readBack_timeLatch (code : BitVec 4) (result : CmdResult) :
    (s.readBack code result).timeLatch = s.timeLatch := rfl
@[simp] theorem State.readBack_cmdBack (code : BitVec 4) (result : CmdResult) :
    (s.readBack code result).cmdBack = some (code, result) := rfl
@[simp] theorem State.readBack_faultCode (code : BitVec 4) (result : CmdResult) :
    (s.readBack code result).faultCode = s.faultCode := rfl
@[simp] theorem State.readBack_faultIndex (code : BitVec 4) (result : CmdResult) :
    (s.readBack code result).faultIndex = s.faultIndex := rfl
@[simp] theorem State.readBack_acause (code : BitVec 4) (result : CmdResult) :
    (s.readBack code result).acause = s.acause := rfl
@[simp] theorem State.readBack_amask (code : BitVec 4) (result : CmdResult) :
    (s.readBack code result).amask = s.amask := rfl
@[simp] theorem State.readBack_portData (code : BitVec 4) (result : CmdResult) :
    (s.readBack code result).portData = s.portData := rfl
@[simp] theorem State.readBack_setup (code : BitVec 4) (result : CmdResult) :
    (s.readBack code result).setup = s.setup := rfl
@[simp] theorem State.readBack_axes (code : BitVec 4) (result : CmdResult) :
    (s.readBack code result).axes = s.axes := rfl
@[simp] theorem State.readBack_points (code : BitVec 4) (result : CmdResult) :
    (s.readBack code result).points = s.points := rfl
@[simp] theorem State.readBack_lines (code : BitVec 4) (result : CmdResult) :
    (s.readBack code result).lines = s.lines := rfl
@[simp] theorem State.readBack_report (code : BitVec 4) (result : CmdResult) :
    (s.readBack code result).report = s.report := rfl
@[simp] theorem State.readBack_rawLevels (code : BitVec 4) (result : CmdResult) :
    (s.readBack code result).rawLevels = s.rawLevels := rfl
@[simp] theorem State.readBack_snapCount (code : BitVec 4) (result : CmdResult) :
    (s.readBack code result).snapCount = s.snapCount := rfl
@[simp] theorem State.readBack_snapsOwed (code : BitVec 4) (result : CmdResult) :
    (s.readBack code result).snapsOwed = s.snapsOwed := rfl
@[simp] theorem State.readBack_now (code : BitVec 4) (result : CmdResult) :
    (s.readBack code result).now = s.now := rfl
@[simp] theorem State.readBack_freeCount (code : BitVec 4) (result : CmdResult) :
    (s.readBack code result).freeCount = s.freeCount := rfl
@[simp] theorem State.readBack_agenda (code : BitVec 4) (result : CmdResult) :
    (s.readBack code result).agenda = s.agenda := rfl
@[simp] theorem State.readBack_pending (code : BitVec 4) (result : CmdResult) :
    (s.readBack code result).pending = s.pending := rfl

/-! ### mapAxes -/

@[simp] theorem State.mapAxes_ram (f : Axis → AxisEngine → AxisEngine) :
    (s.mapAxes f).ram = s.ram := rfl
@[simp] theorem State.mapAxes_claims (f : Axis → AxisEngine → AxisEngine) :
    (s.mapAxes f).claims = s.claims := rfl
@[simp] theorem State.mapAxes_dev (f : Axis → AxisEngine → AxisEngine) :
    (s.mapAxes f).dev = s.dev := rfl
@[simp] theorem State.mapAxes_timebase (f : Axis → AxisEngine → AxisEngine) :
    (s.mapAxes f).timebase = s.timebase := rfl
@[simp] theorem State.mapAxes_timeLatch (f : Axis → AxisEngine → AxisEngine) :
    (s.mapAxes f).timeLatch = s.timeLatch := rfl
@[simp] theorem State.mapAxes_cmdBack (f : Axis → AxisEngine → AxisEngine) :
    (s.mapAxes f).cmdBack = s.cmdBack := rfl
@[simp] theorem State.mapAxes_faultCode (f : Axis → AxisEngine → AxisEngine) :
    (s.mapAxes f).faultCode = s.faultCode := rfl
@[simp] theorem State.mapAxes_faultIndex (f : Axis → AxisEngine → AxisEngine) :
    (s.mapAxes f).faultIndex = s.faultIndex := rfl
@[simp] theorem State.mapAxes_acause (f : Axis → AxisEngine → AxisEngine) :
    (s.mapAxes f).acause = s.acause := rfl
@[simp] theorem State.mapAxes_amask (f : Axis → AxisEngine → AxisEngine) :
    (s.mapAxes f).amask = s.amask := rfl
@[simp] theorem State.mapAxes_portData (f : Axis → AxisEngine → AxisEngine) :
    (s.mapAxes f).portData = s.portData := rfl
@[simp] theorem State.mapAxes_setup (f : Axis → AxisEngine → AxisEngine) :
    (s.mapAxes f).setup = s.setup := rfl
@[simp] theorem State.mapAxes_axes (f : Axis → AxisEngine → AxisEngine) :
    (s.mapAxes f).axes = table8 fun a => f a (s.ax a) := rfl
@[simp] theorem State.mapAxes_points (f : Axis → AxisEngine → AxisEngine) :
    (s.mapAxes f).points = s.points := rfl
@[simp] theorem State.mapAxes_lines (f : Axis → AxisEngine → AxisEngine) :
    (s.mapAxes f).lines = s.lines := rfl
@[simp] theorem State.mapAxes_report (f : Axis → AxisEngine → AxisEngine) :
    (s.mapAxes f).report = s.report := rfl
@[simp] theorem State.mapAxes_rawLevels (f : Axis → AxisEngine → AxisEngine) :
    (s.mapAxes f).rawLevels = s.rawLevels := rfl
@[simp] theorem State.mapAxes_snapCount (f : Axis → AxisEngine → AxisEngine) :
    (s.mapAxes f).snapCount = s.snapCount := rfl
@[simp] theorem State.mapAxes_snapsOwed (f : Axis → AxisEngine → AxisEngine) :
    (s.mapAxes f).snapsOwed = s.snapsOwed := rfl
@[simp] theorem State.mapAxes_now (f : Axis → AxisEngine → AxisEngine) :
    (s.mapAxes f).now = s.now := rfl
@[simp] theorem State.mapAxes_freeCount (f : Axis → AxisEngine → AxisEngine) :
    (s.mapAxes f).freeCount = s.freeCount := rfl
@[simp] theorem State.mapAxes_agenda (f : Axis → AxisEngine → AxisEngine) :
    (s.mapAxes f).agenda = s.agenda := rfl
@[simp] theorem State.mapAxes_pending (f : Axis → AxisEngine → AxisEngine) :
    (s.mapAxes f).pending = s.pending := rfl

end Sys2Proof.Machine
end

