-- ==== Sys2Proof/Laws/Tables.lean ====
section
/-!
SUPPORT. Reading back the tables: an axis, a point, a line or a slot after one of them was replaced, and
the tables built by table8 and table16.
-/
namespace Sys2Proof.Machine

@[simp] theorem table8_get {α : Type} (f : Fin 8 → α) (i : Fin 8) : (table8 f)[i] = f i := by
  match i with
  | 0 => rfl
  | 1 => rfl
  | 2 => rfl
  | 3 => rfl
  | 4 => rfl
  | 5 => rfl
  | 6 => rfl
  | 7 => rfl

@[simp] theorem table16_get {α : Type} (f : Fin 16 → α) (i : Fin 16) : (table16 f)[i] = f i := by
  obtain ⟨i, hi⟩ := i
  rcases i with _ | _ | _ | _ | _ | _ | _ | _ | _ | _ | _ | _ | _ | _ | _ | _ | i <;>
    first | rfl | omega

theorem mem_allAxes (a : Axis) : a ∈ allAxes := by
  revert a; decide

theorem mem_allSixteen (i : Fin 16) : i ∈ allSixteen := by
  revert i; decide

theorem nodup_allAxes : allAxes.Nodup := by decide

theorem nodup_allSixteen : allSixteen.Nodup := by decide

theorem mem_maskAxes (m : AxisMask) (a : Axis) : a ∈ maskAxes m ↔ inMask m a = true := by
  simp [maskAxes, mem_allAxes]

/-! ### Axes -/

variable (s : State)

@[simp] theorem State.ax_setAx_same (a : Axis) (x : AxisEngine) : (s.setAx a x).ax a = x := by
  simp [State.ax, State.setAx]

theorem State.ax_setAx_ne {a b : Axis} (h : b ≠ a) (x : AxisEngine) :
    (s.setAx a x).ax b = s.ax b := by
  have h' : a.val ≠ b.val := fun e => h (Fin.ext e.symm)
  simp [State.ax, State.setAx, h']

theorem State.ax_setAx (a b : Axis) (x : AxisEngine) :
    (s.setAx a x).ax b = if b = a then x else s.ax b := by
  by_cases h : b = a
  · subst h; simp
  · rw [State.ax_setAx_ne s h, if_neg h]

/-- Replacing an axis engine by itself changes nothing. -/
@[simp] theorem State.setAx_ax (a : Axis) : s.setAx a (s.ax a) = s := by
  have h : s.axes.set a (s.ax a) = s.axes := by
    simp [State.ax]
  simp [State.setAx, h]

@[simp] theorem State.setAx_setAx (a : Axis) (x y : AxisEngine) :
    (s.setAx a x).setAx a y = s.setAx a y := by
  simp [State.setAx, Vector.set_set]

/-- The axes as a table of what `ax` reads. -/
theorem State.axes_eq_table : s.axes = table8 s.ax := by
  apply Vector.ext
  intro i h
  exact (table8_get s.ax ⟨i, h⟩).symm

theorem State.axes_ext {s t : State} (h : ∀ a, s.ax a = t.ax a) : s.axes = t.axes := by
  apply Vector.ext
  intro i hi
  exact h ⟨i, hi⟩

@[simp] theorem State.ax_mapAxes (f : Axis → AxisEngine → AxisEngine) (a : Axis) :
    (s.mapAxes f).ax a = f a (s.ax a) :=
  table8_get (fun b => f b (s.ax b)) a

/-! ### Points, lines, slots, owed stores -/

@[simp] theorem State.point_setPoint_same (j : Point) (p : JoinPoint) :
    (s.setPoint j p).point j = p := by
  simp [State.point, State.setPoint]

theorem State.point_setPoint_ne {i j : Point} (h : i ≠ j) (p : JoinPoint) :
    (s.setPoint j p).point i = s.point i := by
  have h' : j.val ≠ i.val := fun e => h (Fin.ext e.symm)
  simp [State.point, State.setPoint, h']

@[simp] theorem State.line_setLine_same (n : Line) (l : InputLine) : (s.setLine n l).line n = l := by
  simp [State.line, State.setLine]

theorem State.line_setLine_ne {m n : Line} (h : m ≠ n) (l : InputLine) :
    (s.setLine n l).line m = s.line m := by
  have h' : n.val ≠ m.val := fun e => h (Fin.ext e.symm)
  simp [State.line, State.setLine, h']

@[simp] theorem State.slot_setSlot_same (k : Slot) (v : SlotState) : (s.setSlot k v).slot k = v := by
  simp [State.slot, State.setSlot]

theorem State.slot_setSlot_ne {j k : Slot} (h : j ≠ k) (v : SlotState) :
    (s.setSlot k v).slot j = s.slot j := by
  have h' : k.val ≠ j.val := fun e => h (Fin.ext e.symm)
  simp [State.slot, State.setSlot, h']

/-- Replacing an axis engine leaves every other table of the state as it is. -/
theorem State.setAx_tables (a : Axis) (x : AxisEngine) :
    (∀ j, (s.setAx a x).point j = s.point j) ∧ (∀ n, (s.setAx a x).line n = s.line n) ∧
      (∀ k, (s.setAx a x).slot k = s.slot k) ∧ (∀ b, (s.setAx a x).owedOf b = s.owedOf b) ∧
      (∀ b, (s.setAx a x).read b = s.read b) :=
  ⟨fun _ => rfl, fun _ => rfl, fun _ => rfl, fun _ => rfl, fun _ => rfl⟩

/-- A write to the exchange RAM leaves every table of the state as it is. -/
theorem State.write_tables (w : Addr) (v : Word) :
    (∀ a, (s.write w v).ax a = s.ax a) ∧ (∀ j, (s.write w v).point j = s.point j) ∧
      (∀ n, (s.write w v).line n = s.line n) ∧ (∀ k, (s.write w v).slot k = s.slot k) ∧
      (∀ b, (s.write w v).owedOf b = s.owedOf b) :=
  ⟨fun _ => rfl, fun _ => rfl, fun _ => rfl, fun _ => rfl, fun _ => rfl⟩

end Sys2Proof.Machine
end

