-- ==== Sys2Proof/Laws/Memory.lean ====
section
/-!
SUPPORT. The exchange RAM: what a read gives after a write, what a write leaves alone, and that every
write keeps the canonical form.
-/
namespace Sys2Proof.Machine

/-! ### Sparse tables -/

variable {α : Type}

theorem Sparse.find?_insert (m : List (Nat × α)) (k a : Nat) (v : α) :
    Sparse.find? (Sparse.insert m k v) a = if k = a then some v else Sparse.find? m a := by
  induction m with
  | nil => simp [Sparse.insert, Sparse.find?]
  | cons e m ih =>
    obtain ⟨i, w⟩ := e
    simp only [Sparse.insert]
    split
    · simp [Sparse.find?]
    · split
      · rename_i _ h
        subst h
        simp only [Sparse.find?]
        split <;> rfl
      · rename_i _ h
        simp only [Sparse.find?, ih]
        by_cases hi : i = a
        · subst hi; simp [show k ≠ i from fun e => h e.symm]
        · simp [hi]

theorem Sparse.find?_erase (m : List (Nat × α)) (k a : Nat) :
    Sparse.find? (Sparse.erase m k) a = if k = a then none else Sparse.find? m a := by
  induction m with
  | nil => simp [Sparse.erase, Sparse.find?]
  | cons e m ih =>
    obtain ⟨i, w⟩ := e
    simp only [Sparse.erase]
    by_cases hk : i = k
    · subst hk
      rw [if_pos rfl, ih]
      by_cases ha : i = a
      · simp [ha]
      · simp [Sparse.find?, ha]
    · rw [if_neg hk]
      simp only [Sparse.find?, ih]
      by_cases ha : i = a
      · subst ha; simp [show k ≠ i from fun e => hk e.symm]
      · simp [ha]

theorem Sparse.mem_insert {m : List (Nat × α)} {k : Nat} {v : α} {e : Nat × α}
    (h : e ∈ Sparse.insert m k v) : e = (k, v) ∨ e ∈ m := by
  induction m with
  | nil => simpa [Sparse.insert] using h
  | cons f m ih =>
    obtain ⟨i, w⟩ := f
    simp only [Sparse.insert] at h
    split at h
    · simpa using h
    · split at h
      · simp only [List.mem_cons] at h ⊢
        exact h.imp id Or.inr
      · simp only [List.mem_cons] at h ⊢
        rcases h with h | h
        · exact .inr (.inl h)
        · exact (ih h).imp id Or.inr

theorem Sparse.mem_erase {m : List (Nat × α)} {k : Nat} {e : Nat × α}
    (h : e ∈ Sparse.erase m k) : e ∈ m ∧ e.1 ≠ k := by
  induction m with
  | nil => simp [Sparse.erase] at h
  | cons f m ih =>
    obtain ⟨i, w⟩ := f
    simp only [Sparse.erase] at h
    split at h
    · exact ⟨.tail _ (ih h).1, (ih h).2⟩
    · rename_i hk
      rcases List.mem_cons.mp h with h | h
      · subst h; exact ⟨.head _, hk⟩
      · exact ⟨.tail _ (ih h).1, (ih h).2⟩

theorem Sparse.rising_insert {m : List (Nat × α)} (h : Sparse.rising m = true) (k : Nat) (v : α) :
    Sparse.rising (Sparse.insert m k v) = true := by
  induction m with
  | nil => rfl
  | cons e m ih =>
    obtain ⟨i, w⟩ := e
    simp only [Sparse.rising, Bool.and_eq_true, List.all_eq_true, decide_eq_true_eq] at h
    obtain ⟨h₁, h₂⟩ := h
    simp only [Sparse.insert]
    split
    · rename_i hk
      simp only [Sparse.rising, Bool.and_eq_true, List.all_eq_true, decide_eq_true_eq]
      refine ⟨fun f hf => ?_, h₁, h₂⟩
      rcases List.mem_cons.mp hf with hf | hf
      · subst hf; exact hk
      · exact Nat.lt_trans hk (h₁ f hf)
    · split
      · rename_i _ hk
        subst hk
        simp only [Sparse.rising, Bool.and_eq_true, List.all_eq_true, decide_eq_true_eq]
        exact ⟨h₁, h₂⟩
      · rename_i hk hne
        simp only [Sparse.rising, Bool.and_eq_true, List.all_eq_true, decide_eq_true_eq]
        refine ⟨fun f hf => ?_, ih h₂⟩
        rcases Sparse.mem_insert hf with hf | hf
        · subst hf; show i < k; omega
        · exact h₁ f hf

theorem Sparse.rising_erase {m : List (Nat × α)} (h : Sparse.rising m = true) (k : Nat) :
    Sparse.rising (Sparse.erase m k) = true := by
  induction m with
  | nil => rfl
  | cons e m ih =>
    obtain ⟨i, w⟩ := e
    simp only [Sparse.rising, Bool.and_eq_true, List.all_eq_true, decide_eq_true_eq] at h
    obtain ⟨h₁, h₂⟩ := h
    simp only [Sparse.erase]
    split
    · exact ih h₂
    · simp only [Sparse.rising, Bool.and_eq_true, List.all_eq_true, decide_eq_true_eq]
      exact ⟨fun f hf => h₁ f (Sparse.mem_erase hf).1, ih h₂⟩

/-! ### Reading after writing -/

theorem Memory.read_write (m : Memory) (a b : Addr) (v : Word) :
    Memory.read (Memory.write m a v) b = if a = b then v else Memory.read m b := by
  simp only [Memory.read, Memory.write]
  by_cases hab : a = b
  · subst hab
    split
    · rename_i hv
      simp [Sparse.find?_erase, hv]
    · simp [Sparse.find?_insert]
  · have hn : a.toNat ≠ b.toNat := fun e => hab (BitVec.eq_of_toNat_eq e)
    split
    · simp [Sparse.find?_erase, hn]
    · simp [Sparse.find?_insert, hn]

@[simp] theorem Memory.read_write_same (m : Memory) (a : Addr) (v : Word) :
    Memory.read (Memory.write m a v) a = v := by
  simp [Memory.read_write]

theorem Memory.read_write_ne (m : Memory) {a b : Addr} (h : a ≠ b) (v : Word) :
    Memory.read (Memory.write m a v) b = Memory.read m b := by
  simp [Memory.read_write, h]

/-- A write of consecutive words leaves every address that is none of theirs. -/
theorem Memory.read_writeWords_outside (ws : List Word) (m : Memory) (a b : Addr)
    (h : ∀ i, i < ws.length → a + BitVec.ofNat 15 i ≠ b) :
    Memory.read (Memory.writeWords m a ws) b = Memory.read m b := by
  induction ws generalizing m a with
  | nil => rfl
  | cons w ws ih =>
    simp only [Memory.writeWords]
    rw [ih]
    · exact Memory.read_write_ne _ (by simpa using h 0 (by simp)) _
    · intro i hi
      have := h (i + 1) (by simpa using hi)
      rwa [show a + 1 + BitVec.ofNat 15 i = a + BitVec.ofNat 15 (i + 1) by
        rw [Nat.add_comm i 1, BitVec.ofNat_add]; ac_rfl]

/-- A rewrite of the fields that have changed leaves every address that is none of theirs. -/
theorem Memory.read_writeChanged_outside (fs : List (List Word)) (old : List Word) (m : Memory)
    (a b : Addr) (h : ∀ i, i < fs.flatten.length → a + BitVec.ofNat 15 i ≠ b) :
    Memory.read (Memory.writeChanged m a old fs) b = Memory.read m b := by
  induction fs generalizing m a old with
  | nil => simp [Memory.writeChanged]
  | cons f fs ih =>
    simp only [Memory.writeChanged]
    rw [ih]
    · split
      · rfl
      · exact Memory.read_writeWords_outside f m a b fun i hi =>
          h i (by simp only [List.flatten_cons, List.length_append]; omega)
    · intro i hi
      have := h (f.length + i) (by simp only [List.flatten_cons, List.length_append]; omega)
      rwa [BitVec.ofNat_add, ← BitVec.add_assoc] at this

/-- The first field of a rewrite: as the rewrite finds it where the copy shows no change, else written
whole. -/
theorem Memory.read_writeChanged_first (f : List Word) (fs : List (List Word)) (old : List Word)
    (m : Memory) (a : Addr) (i : Nat) (hi : i < f.length)
    (h : (f :: fs).flatten.length ≤ 32768) :
    Memory.read (Memory.writeChanged m a old (f :: fs)) (a + BitVec.ofNat 15 i) =
      if old.take f.length = f then Memory.read m (a + BitVec.ofNat 15 i)
      else Memory.read (Memory.writeWords m a f) (a + BitVec.ofNat 15 i) := by
  simp only [List.flatten_cons, List.length_append] at h
  rw [Memory.writeChanged, Memory.read_writeChanged_outside]
  · split <;> rfl
  · intro k hk he
    rw [BitVec.add_assoc, BitVec.add_right_inj] at he
    have := congrArg BitVec.toNat he
    simp only [BitVec.toNat_add, BitVec.toNat_ofNat] at this
    omega

/-! ### The canonical form -/

theorem Memory.wf_iff (m : Memory) :
    Memory.wf m = true ↔
      Sparse.rising m = true ∧ ∀ e ∈ m, e.1 < 32768 ∧ e.2 ≠ Memory.unlisted := by
  simp [Memory.wf, List.all_eq_true]

theorem Memory.wf_nil : Memory.wf [] = true := rfl

theorem Memory.wf_write {m : Memory} (h : Memory.wf m = true) (a : Addr) (v : Word) :
    Memory.wf (Memory.write m a v) = true := by
  rw [Memory.wf_iff] at h ⊢
  simp only [Memory.write]
  split
  · exact ⟨Sparse.rising_erase h.1 _, fun e he => h.2 e (Sparse.mem_erase he).1⟩
  · rename_i hv
    refine ⟨Sparse.rising_insert h.1 _ _, fun e he => ?_⟩
    rcases Sparse.mem_insert he with he | he
    · subst he; exact ⟨a.isLt, hv⟩
    · exact h.2 e he

theorem Memory.wf_writeWords (ws : List Word) {m : Memory} (h : Memory.wf m = true) (a : Addr) :
    Memory.wf (Memory.writeWords m a ws) = true := by
  induction ws generalizing m a with
  | nil => exact h
  | cons w ws ih => exact ih (Memory.wf_write h a w) (a + 1)

theorem Memory.wf_writeChanged (fs : List (List Word)) (old : List Word) {m : Memory}
    (h : Memory.wf m = true) (a : Addr) : Memory.wf (Memory.writeChanged m a old fs) = true := by
  induction fs generalizing m a old with
  | nil => exact h
  | cons f fs ih =>
    simp only [Memory.writeChanged]
    split
    · exact ih _ h _
    · exact ih _ (Memory.wf_writeWords f h a) _

/-! ### The same on a state -/

theorem State.read_write (s : State) (a b : Addr) (v : Word) :
    (s.write a v).read b = if a = b then v else s.read b :=
  Memory.read_write s.ram a b v

@[simp] theorem State.read_write_same (s : State) (a : Addr) (v : Word) :
    (s.write a v).read a = v :=
  Memory.read_write_same s.ram a v

theorem State.read_write_ne (s : State) {a b : Addr} (h : a ≠ b) (v : Word) :
    (s.write a v).read b = s.read b :=
  Memory.read_write_ne s.ram h v

theorem State.read_writeWords_outside (s : State) (ws : List Word) (a b : Addr)
    (h : ∀ i, i < ws.length → a + BitVec.ofNat 15 i ≠ b) :
    (s.writeWords a ws).read b = s.read b :=
  Memory.read_writeWords_outside ws s.ram a b h

end Sys2Proof.Machine
end

