-- ==== Sys2Proof/Laws/Finish.lean ====
section
/-!
SUPPORT. The end of a command (no task, one task) and the end of a tick: what a rewrite of a status block
and the snapshot change, and what they do where nothing is owed.
-/
namespace Sys2Proof.Machine

variable (s : State)

/-! ### Tasks -/

/-- The free order is not consulted for one candidate. -/
@[simp] theorem State.choose_one : s.choose 1 = (0, s) := rfl

theorem State.inFreeOrder_nil (f : Axis → State → State) (n : Nat) :
    s.inFreeOrder f n [] = s := by
  cases n <;> rfl

/-- One axis is visited without a choice. -/
theorem State.inFreeOrder_one (f : Axis → State → State) (n : Nat) (a : Axis) :
    s.inFreeOrder f (n + 1) [a] = f a s := by
  simp [State.inFreeOrder, State.inFreeOrder_nil]

theorem State.nextTask_nil (h : s.agenda = []) : s.nextTask = none := by
  simp [State.nextTask, h]

theorem State.settle_nil (h : s.agenda = []) (n : Nat) : s.settle n = s := by
  cases n with
  | zero => rfl
  | succ n => simp [State.settle, State.nextTask_nil s h]

/-- A single task that moves a chain, or that no moving chain holds up, is the next one. -/
theorem State.nextTask_one (t : Task) (h : s.agenda = [t]) :
    s.nextTask = some (t, { s with agenda := [] }) := by
  have hr : Task.mayRun [t] t = true := by
    cases hm : t.movesChain <;> simp [Task.mayRun, hm]
  simp [State.nextTask, h, hr]

theorem State.settle_one (t : Task) (h : s.agenda = [t]) (n : Nat) :
    s.settle (n + 1) = ({ s with agenda := [] }.runTask t).settle n := by
  simp [State.settle, State.nextTask_one s t h]

/-- A command that leaves nothing to do ends as it stands. -/
theorem State.settled_nil (h : s.agenda = []) : s.settled = s := by
  simp only [State.settled, State.settle_nil s h]
  rw [← h]

/-- A command with one task ends as that task leaves it, if it leaves none. -/
theorem State.settled_one (t : Task) (h : s.agenda = [t]) (u : State)
    (hu : { s with agenda := [] }.runTask t = u) (ht : u.agenda = []) : s.settled = u := by
  have hs : s.settle settleBound = u := by
    rw [show settleBound = 16383 + 1 from rfl, State.settle_one s t h, hu, State.settle_nil u ht]
  simp only [State.settled, hs]
  rw [← ht]

/-- Nothing is left over after a command. -/
@[simp] theorem State.settled_agenda : s.settled.agenda = [] := rfl

/-! ### What a rewrite of a status block changes (R18, R98) -/

theorem State.rewriteStatus_ax_ne {a b : Axis} (h : b ≠ a) : (s.rewriteStatus a).ax b = s.ax b :=
  State.ax_setAx_ne _ h _

/-- The axis engine after a rewrite. -/
theorem State.rewriteStatus_ax (a : Axis) :
    (s.rewriteStatus a).ax a =
      { s.ax a with
        copy := s.statusWords a, updateCount := (s.ax a).updateCount + 2, dirty := false
        beganCount := none } := by
  simp [State.rewriteStatus, State.ax]

/-- A rewrite changes the exchange RAM and the axis engine, and no other field. -/
theorem State.rewriteStatus_frame (a : Axis) :
    s.rewriteStatus a =
      { s with ram := (s.rewriteStatus a).ram, axes := (s.rewriteStatus a).axes } := rfl

/-- The exchange RAM after a rewrite: the update count odd, the fields that have changed, the update
count even. -/
theorem State.rewriteStatus_ram (a : Axis) :
    (s.rewriteStatus a).ram =
      Memory.write
        (Memory.writeChanged (Memory.write s.ram (axisWord a 17) ((s.ax a).updateCount + 1))
          (axisWord a 18) (s.ax a).copy (s.statusFields a))
        (axisWord a 17) ((s.ax a).updateCount + 2) := by
  unfold State.rewriteStatus
  generalize s.statusFields a = fields
  rfl

/-- A rewrite keeps the canonical form of the exchange RAM. -/
theorem State.rewriteStatus_wf (a : Axis) (h : MemoryLaw s) : MemoryLaw (s.rewriteStatus a) := by
  rw [MemoryLaw, State.rewriteStatus_ram]
  exact Memory.wf_write (Memory.wf_writeChanged _ _ (Memory.wf_write h _ _) _) _ _

/-! ### Rewrites at the end of a tick (R99) -/

theorem State.flushStatus_clean (a : Axis) (h : (s.ax a).dirty = false) : s.flushStatus a = s := by
  simp [State.flushStatus, h]

theorem State.flushStatus_dirty (a : Axis) (h : (s.ax a).dirty = true) :
    s.flushStatus a = s.rewriteStatus a := by
  simp [State.flushStatus, h]

theorem State.flushStatus_ax_ne {a b : Axis} (h : b ≠ a) : (s.flushStatus a).ax b = s.ax b := by
  simp only [State.flushStatus]
  split
  · exact State.rewriteStatus_ax_ne s h
  · rfl

theorem State.flushStatus_done (a : Axis) : ((s.flushStatus a).ax a).dirty = false := by
  simp only [State.flushStatus]
  split
  · rw [State.rewriteStatus_ax]
  · rename_i h
    simpa using h

theorem State.flushStatus_frame (a : Axis) :
    s.flushStatus a = { s with ram := (s.flushStatus a).ram, axes := (s.flushStatus a).axes } := by
  simp only [State.flushStatus]
  split <;> rfl

theorem State.flushStatus_wf (a : Axis) (h : MemoryLaw s) : MemoryLaw (s.flushStatus a) := by
  simp only [State.flushStatus]
  split
  · exact State.rewriteStatus_wf s a h
  · exact h

/-- No rewrite is owed on the axes of a list: rewriting them changes nothing. -/
theorem State.flush_list_clean (l : List Axis) (h : ∀ a ∈ l, (s.ax a).dirty = false) :
    l.foldl (fun s a => s.flushStatus a) s = s := by
  induction l with
  | nil => rfl
  | cons a l ih =>
    rw [List.foldl_cons, State.flushStatus_clean s a (h a (.head _))]
    exact ih fun b hb => h b (.tail _ hb)

theorem State.flushAll_clean (h : ∀ a, (s.ax a).dirty = false) : s.flushAll = s :=
  State.flush_list_clean s allAxes fun a _ => h a

/-- Where a rewrite is owed on axis `a` alone, rewriting every status block rewrites that one. -/
theorem State.flush_list_one (a : Axis) (l : List Axis) (hl : l.Nodup) (ha : a ∈ l)
    (h : ∀ b, b ≠ a → (s.ax b).dirty = false) :
    l.foldl (fun s a => s.flushStatus a) s = s.flushStatus a := by
  induction l with
  | nil => cases ha
  | cons c l ih =>
    rw [List.foldl_cons]
    by_cases hc : c = a
    · subst hc
      refine State.flush_list_clean _ l fun b hb => ?_
      have hbc : b ≠ c := fun e => (List.nodup_cons.mp hl).1 (e ▸ hb)
      rw [State.flushStatus_ax_ne s hbc]
      exact h b hbc
    · rw [State.flushStatus_clean s c (h c hc)]
      exact ih (List.nodup_cons.mp hl).2 ((List.mem_cons.mp ha).resolve_left fun e => hc e.symm)

theorem State.flushAll_one (a : Axis) (h : ∀ b, b ≠ a → (s.ax b).dirty = false) :
    s.flushAll = s.flushStatus a :=
  State.flush_list_one s a allAxes nodup_allAxes (mem_allAxes a) h

theorem State.flush_list_done (l : List Axis) (b : Axis) (h : b ∈ l ∨ (s.ax b).dirty = false) :
    ((l.foldl (fun s a => s.flushStatus a) s).ax b).dirty = false := by
  induction l generalizing s with
  | nil => simpa using h
  | cons c l ih =>
    rw [List.foldl_cons]
    apply ih
    by_cases hb : b = c
    · subst hb; exact .inr (State.flushStatus_done s b)
    · rw [State.flushStatus_ax_ne s hb]
      rcases h with h | h
      · exact .inl ((List.mem_cons.mp h).resolve_left hb)
      · exact .inr h

/-- After the rewrites no rewrite is owed. -/
theorem State.flushAll_done (b : Axis) : (s.flushAll.ax b).dirty = false :=
  State.flush_list_done s allAxes b (.inl (mem_allAxes b))

theorem State.flush_list_frame (l : List Axis) :
    l.foldl (fun s a => s.flushStatus a) s =
      { s with
        ram := (l.foldl (fun s a => s.flushStatus a) s).ram
        axes := (l.foldl (fun s a => s.flushStatus a) s).axes } := by
  induction l generalizing s with
  | nil => rfl
  | cons a l ih =>
    rw [List.foldl_cons, ih, State.flushStatus_frame]

/-- The rewrites change the exchange RAM and the axis engines, and no other field. -/
theorem State.flushAll_frame :
    s.flushAll = { s with ram := s.flushAll.ram, axes := s.flushAll.axes } :=
  State.flush_list_frame s allAxes

theorem State.flush_list_wf (l : List Axis) (h : MemoryLaw s) :
    MemoryLaw (l.foldl (fun s a => s.flushStatus a) s) := by
  induction l generalizing s with
  | nil => exact h
  | cons a l ih => exact ih _ (State.flushStatus_wf s a h)

/-- The rewrites keep the canonical form of the exchange RAM. -/
theorem State.flushAll_wf (h : MemoryLaw s) : MemoryLaw s.flushAll :=
  State.flush_list_wf s allAxes h

/-! ### The snapshot (R35) -/

theorem State.flushSnap_none (h : s.snapsOwed = 0) : s.flushSnap = s := by
  simp [State.flushSnap, h]

/-- The snapshot changes the exchange RAM and its own two counts, and no other field. -/
theorem State.flushSnap_frame :
    s.flushSnap =
      { s with
        ram := s.flushSnap.ram
        snapCount := s.snapCount + BitVec.ofNat 16 s.snapsOwed
        snapsOwed := 0 } := by
  simp only [State.flushSnap]
  split
  · rename_i h
    simp [h]
    rw [← h]
  · rfl

theorem State.flushSnap_wf (h : MemoryLaw s) : MemoryLaw s.flushSnap := by
  simp only [State.flushSnap]
  split
  · exact h
  · exact Memory.wf_write (Memory.wf_writeWords _ h _) _ _

/-- The end of a tick changes the exchange RAM, the axis engines and the two snapshot counts, and no
other field. -/
theorem State.endTick_frame :
    s.endTick =
      { s with
        ram := s.endTick.ram
        axes := s.endTick.axes
        snapCount := s.snapCount + BitVec.ofNat 16 s.snapsOwed
        snapsOwed := 0 } := by
  rw [State.endTick, State.flushAll_frame, State.flushSnap_frame]

theorem State.endTick_wf (h : MemoryLaw s) : MemoryLaw s.endTick :=
  State.flushAll_wf _ (State.flushSnap_wf s h)

/-- Where nothing is owed, the end of a tick writes nothing. -/
theorem State.endTick_nothing (hd : ∀ a, (s.ax a).dirty = false) (hs : s.snapsOwed = 0) :
    s.endTick = s := by
  rw [State.endTick, State.flushSnap_none s hs, State.flushAll_clean s hd]

end Sys2Proof.Machine
end

