-- ==== Sys2Proof/Laws/Reports.lean ====
section
/-!
SUPPORT. What the report unit can do when a record is handed to it: it changes the exchange RAM, its own
state, cause bits, and no axis engine beyond asking for a rewrite of its status block. A drain can also
put tasks on the agenda.
-/
namespace Sys2Proof.Machine

/-- `t` differs from `s` only in what the report unit may change. -/
structure ReportFrame (s t : State) : Prop where
  fields : t = { s with ram := t.ram, axes := t.axes, report := t.report, acause := t.acause }
  axes : ∀ a, t.ax a = s.ax a ∨ t.ax a = { s.ax a with dirty := true }

theorem ReportFrame.refl (s : State) : ReportFrame s s := ⟨rfl, fun _ => .inl rfl⟩

theorem ReportFrame.trans {s t u : State} (h : ReportFrame s t) (k : ReportFrame t u) :
    ReportFrame s u := by
  refine ⟨?_, fun a => ?_⟩
  · rw [k.fields, h.fields]
  · rcases k.axes a with ha | ha <;> rcases h.axes a with hb | hb
    · exact .inl (ha.trans hb)
    · exact .inr (ha.trans hb)
    · exact .inr (by rw [ha, hb])
    · exact .inr (by rw [ha, hb])

theorem ReportFrame.write (s : State) (a : Addr) (v : Word) : ReportFrame s (s.write a v) :=
  ⟨rfl, fun _ => .inl rfl⟩

theorem ReportFrame.writeWords (s : State) (a : Addr) (ws : List Word) :
    ReportFrame s (s.writeWords a ws) :=
  ⟨rfl, fun _ => .inl rfl⟩

theorem ReportFrame.setCause (s : State) (c : AlertCause) : ReportFrame s (s.setCause c) :=
  ⟨rfl, fun _ => .inl rfl⟩

theorem ReportFrame.mapReport (s : State) (f : ReportUnit → ReportUnit) :
    ReportFrame s (s.mapReport f) :=
  ⟨rfl, fun _ => .inl rfl⟩

theorem ReportFrame.writeSlot (s : State) (k : Slot) (v : SlotState) :
    ReportFrame s (s.writeSlot k v) :=
  ⟨rfl, fun _ => .inl rfl⟩

theorem ReportFrame.touch (s : State) (a : Axis) : ReportFrame s (s.touch a) := by
  refine ⟨rfl, fun b => ?_⟩
  by_cases h : b = a
  · subst h; exact .inr (State.ax_setAx_same s b _)
  · exact .inl (State.ax_setAx_ne s h _)

theorem State.searchSlots_frame (ks : List Slot) (s : State) :
    ReportFrame s (s.searchSlots ks).2 := by
  induction ks generalizing s with
  | nil => exact .refl s
  | cons k ks ih =>
    simp only [State.searchSlots]
    split
    · split
      · exact ((ReportFrame.writeSlot s k _).trans (ReportFrame.setCause _ _)).trans (ih _)
      · exact (ReportFrame.writeWords s _ _).trans (ReportFrame.writeSlot _ k _)
    · exact ih s

theorem State.takeSlot_frame (s : State) : ReportFrame s s.takeSlot.2 :=
  State.searchSlots_frame _ s

theorem State.closePage_frame (reason : CloseReason) (time : Time) (s : State) :
    ReportFrame s (s.closePage reason time) := by
  simp only [State.closePage]
  split
  · exact .refl s
  · split <;> exact ⟨rfl, fun _ => .inl rfl⟩

theorem State.closeIfRecords_frame (reason : CloseReason) (time : Time) (s : State) :
    ReportFrame s (s.closeIfRecords reason time) := by
  simp only [State.closeIfRecords]
  split
  · exact .refl s
  · split
    · exact .refl s
    · exact State.closePage_frame reason time s

theorem State.placeIn_frame (k : Slot) (p : Page) (records used : Nat) (rec : Record) (s : State) :
    ReportFrame s (s.placeIn k p records used rec) := by
  simp only [State.placeIn]
  split <;> exact ⟨rfl, fun _ => .inl rfl⟩

theorem State.placeFresh_frame (rec : Record) (s : State) : ReportFrame s (s.placeFresh rec) := by
  simp only [State.placeFresh]
  split
  · exact .refl s
  · exact State.placeIn_frame _ _ _ _ rec s

theorem State.takeAndPlace_frame (rec : Record) (s : State) :
    ReportFrame s (s.takeAndPlace rec).2 := by
  have h := State.takeSlot_frame s
  simp only [State.takeAndPlace]
  split
  · rename_i t ht
    rw [ht] at h
    exact h
  · rename_i t ht
    rw [ht] at h
    exact h.trans (State.placeFresh_frame rec t)

theorem State.tryPlace_frame (rec : Record) (s : State) : ReportFrame s (s.tryPlace rec).2 := by
  simp only [State.tryPlace]
  split
  · split
    · exact State.placeIn_frame _ _ _ _ rec s
    · exact (State.closePage_frame .full _ s).trans (State.takeAndPlace_frame rec _)
  · exact State.takeAndPlace_frame rec s

theorem State.countDrop_frame (s : State) : ReportFrame s s.countDrop :=
  ⟨rfl, fun _ => .inl rfl⟩

theorem State.setOwed_frame (a : Axis) (rs : List Record) (s : State) :
    ReportFrame s (s.setOwed a rs) :=
  (ReportFrame.mapReport s _).trans (ReportFrame.touch _ a)

theorem State.holdRecord_frame (rec : Record) (s : State) : ReportFrame s (s.holdRecord rec) :=
  ⟨rfl, fun _ => .inl rfl⟩

theorem State.oweRecord_frame (a : Axis) (rec : Record) (s : State) :
    ReportFrame s (s.oweRecord a rec) := by
  simp only [State.oweRecord]
  split
  · exact (State.setOwed_frame a _ s).trans (State.countDrop_frame _)
  · split
    · exact (State.setOwed_frame a _ s).trans (ReportFrame.mapReport _ _)
    · exact State.setOwed_frame a _ s

theorem State.noRoom_frame (rec : Record) (s : State) : ReportFrame s (s.noRoom rec) := by
  simp only [State.noRoom]
  refine (ReportFrame.setCause s .roomExhausted).trans ?_
  split
  · split
    · exact State.oweRecord_frame _ rec _
    · exact State.countDrop_frame _
  · split
    · exact State.holdRecord_frame rec _
    · split
      · exact State.oweRecord_frame _ rec _
      · exact State.countDrop_frame _

/-- Everything a handed record can change. -/
theorem State.handRecord_frame (body : RecordBody) (s : State) :
    ReportFrame s (s.handRecord body) := by
  have h := State.tryPlace_frame { time := s.timebase, body := body } s
  simp only [State.handRecord]
  split
  · rename_i t ht
    rw [ht] at h
    exact h
  · rename_i t ht
    rw [ht] at h
    exact h.trans (State.noRoom_frame _ t)

/-- A record of an axis that cannot be placed while nothing is FILLING or EMPTY is held while the
holding queue has room, if its axis owes nothing. -/
theorem State.noRoom_held (rec : Record) (s : State) (ho : s.ownerOwes rec.body = false)
    (hq : s.report.queue.length < 8) :
    s.noRoom rec = (s.setCause .roomExhausted).holdRecord rec := by
  have ho' : (s.setCause .roomExhausted).ownerOwes rec.body = false := by
    rw [← ho]
    cases h : rec.body.axis? <;> simp [State.ownerOwes, h, State.owes, State.owedOf]
  simp [State.noRoom, ho', hq]

/-! ### What a drain can change -/

/-- `t` differs from `s` only in what a drain may change: what the report unit may, and the agenda. -/
structure DrainFrame (s t : State) : Prop where
  fields :
    t = { s with ram := t.ram, axes := t.axes, report := t.report, acause := t.acause, agenda := t.agenda }
  axes : ∀ a, t.ax a = s.ax a ∨ t.ax a = { s.ax a with dirty := true }

theorem DrainFrame.trans {s t u : State} (h : DrainFrame s t) (k : DrainFrame t u) :
    DrainFrame s u := by
  refine ⟨?_, fun a => ?_⟩
  · rw [k.fields, h.fields]
  · rcases k.axes a with ha | ha <;> rcases h.axes a with hb | hb
    · exact .inl (ha.trans hb)
    · exact .inr (ha.trans hb)
    · exact .inr (by rw [ha, hb])
    · exact .inr (by rw [ha, hb])

theorem ReportFrame.toDrain {s t : State} (h : ReportFrame s t) : DrainFrame s t :=
  ⟨by rw [h.fields], h.axes⟩

theorem DrainFrame.push (s : State) (k : Task) : DrainFrame s (s.push k) :=
  ⟨rfl, fun _ => .inl rfl⟩

theorem State.drainQueue_frame (n : Nat) (s : State) : ReportFrame s (s.drainQueue n).2 := by
  induction n generalizing s with
  | zero => exact .refl s
  | succ n ih =>
    simp only [State.drainQueue]
    split
    · exact .refl s
    · rename_i rec rest _
      have h := State.tryPlace_frame rec s
      split
      · rename_i t ht
        rw [ht] at h
        exact h.trans (ReportFrame.setCause t .roomExhausted)
      · rename_i t ht
        rw [ht] at h
        exact (h.trans ((ReportFrame.mapReport t _).trans (ReportFrame.write _ _ _))).trans (ih _)

theorem State.drainDrops_frame (s : State) : ReportFrame s s.drainDrops.2 := by
  simp only [State.drainDrops]
  split
  · exact .refl s
  · have h := State.tryPlace_frame { time := s.timebase, body := .drops s.report.drops } s
    split
    · rename_i t ht
      rw [ht] at h
      exact h
    · rename_i t ht
      rw [ht] at h
      exact h.trans ((ReportFrame.mapReport t _).trans (ReportFrame.write _ _ _))

theorem State.owedPlaced_frame (a : Axis) (rest : List Record) (s : State) :
    DrainFrame s (s.owedPlaced a rest) := by
  have h := (State.setOwed_frame a rest s).toDrain
  simp only [State.owedPlaced]
  split
  · exact (h.trans (ReportFrame.mapReport _ _).toDrain).trans (.push _ _)
  · exact h

theorem State.drainOwed_frame (n : Nat) (s : State) : DrainFrame s (s.drainOwed n).2 := by
  induction n generalizing s with
  | zero => exact (ReportFrame.refl s).toDrain
  | succ n ih =>
    simp only [State.drainOwed]
    split
    · exact (ReportFrame.refl s).toDrain
    · split
      · exact (ReportFrame.refl s).toDrain
      · rename_i rec rest _
        have h := State.tryPlace_frame rec s
        split
        · rename_i t ht
          rw [ht] at h
          exact (h.trans (ReportFrame.setCause t .roomExhausted)).toDrain
        · rename_i t ht
          rw [ht] at h
          exact (h.toDrain.trans (State.owedPlaced_frame _ rest t)).trans (ih _)

theorem State.drainSteps_frame (s : State) : DrainFrame s s.drainSteps := by
  have h := State.drainQueue_frame s.report.queue.length s
  simp only [State.drainSteps]
  split
  · rename_i t ht
    rw [ht] at h
    exact h.toDrain
  · rename_i t ht
    rw [ht] at h
    have k := State.drainDrops_frame t
    split
    · rename_i u hu
      rw [hu] at k
      exact (h.trans k).toDrain
    · rename_i u hu
      rw [hu] at k
      exact (h.trans k).toDrain.trans (State.drainOwed_frame _ u)

/-- Everything a drain can change. -/
theorem State.drain_frame (s : State) : DrainFrame s s.drain := by
  simp only [State.drain]
  split
  · exact State.drainSteps_frame s
  · have h := State.takeSlot_frame s
    split
    · rename_i t ht
      rw [ht] at h
      exact h.toDrain
    · rename_i t ht
      rw [ht] at h
      exact h.toDrain.trans (State.drainSteps_frame t)

end Sys2Proof.Machine
end

