-- ==== Sys2Proof/Laws/Halt.lean ====
section
/-!
SUPPORT. The entry into HALTED: what it does to the axis that halts, and that it leaves every other axis
engine as it is.
-/
namespace Sys2Proof.Machine

/-! ### Placing a record touches no axis engine -/

theorem State.searchSlots_axes (ks : List Slot) (s : State) :
    (s.searchSlots ks).2.axes = s.axes := by
  induction ks generalizing s with
  | nil => rfl
  | cons k ks ih =>
    simp only [State.searchSlots]
    split
    · split
      · rw [ih]; rfl
      · rfl
    · exact ih s

theorem State.closePage_axes (reason : CloseReason) (time : Time) (s : State) :
    (s.closePage reason time).axes = s.axes := by
  simp only [State.closePage]
  split
  · rfl
  · split <;> rfl

theorem State.placeFresh_axes (rec : Record) (s : State) : (s.placeFresh rec).axes = s.axes := by
  simp only [State.placeFresh]
  split
  · rfl
  · simp only [State.placeIn]
    split <;> rfl

theorem State.takeAndPlace_axes (rec : Record) (s : State) :
    (s.takeAndPlace rec).2.axes = s.axes := by
  have h : s.takeSlot.2.axes = s.axes := State.searchSlots_axes _ s
  simp only [State.takeAndPlace]
  split
  · rename_i t ht
    rw [ht] at h
    exact h
  · rename_i t ht
    rw [ht] at h
    rw [State.placeFresh_axes]
    exact h

theorem State.tryPlace_axes (rec : Record) (s : State) : (s.tryPlace rec).2.axes = s.axes := by
  simp only [State.tryPlace]
  split
  · split
    · simp only [State.placeIn]
      split <;> rfl
    · rw [State.takeAndPlace_axes, State.closePage_axes]
  · exact State.takeAndPlace_axes rec s

theorem State.ax_of_axes {s t : State} (h : t.axes = s.axes) (a : Axis) : t.ax a = s.ax a := by
  simp [State.ax, h]

theorem State.setOwed_ax_ne (a : Axis) (rs : List Record) (s : State) {b : Axis} (h : b ≠ a) :
    (s.setOwed a rs).ax b = s.ax b :=
  State.ax_setAx_ne _ h _

theorem State.oweRecord_ax_ne (a : Axis) (rec : Record) (s : State) {b : Axis} (h : b ≠ a) :
    (s.oweRecord a rec).ax b = s.ax b := by
  simp only [State.oweRecord]
  split
  · exact State.setOwed_ax_ne a _ s h
  · split
    · exact State.setOwed_ax_ne a _ s h
    · exact State.setOwed_ax_ne a _ s h

/-- A record without room changes no axis engine but that of the axis it belongs to. -/
theorem State.noRoom_ax_ne (rec : Record) (s : State) {b : Axis} (h : rec.body.axis? ≠ some b) :
    (s.noRoom rec).ax b = s.ax b := by
  simp only [State.noRoom]
  split
  · split
    · rename_i a _ ha
      have hb : b ≠ a := fun e => h (e ▸ ha)
      rw [State.oweRecord_ax_ne _ rec _ hb]
      rfl
    · rfl
  · split
    · rfl
    · split
      · rename_i a _ ha
        have hb : b ≠ a := fun e => h (e ▸ ha)
        rw [State.oweRecord_ax_ne _ rec _ hb]
        rfl
      · rfl

/-- A handed record changes no axis engine but that of the axis it belongs to. -/
theorem State.handRecord_ax_ne (body : RecordBody) (s : State) {b : Axis}
    (h : body.axis? ≠ some b) : (s.handRecord body).ax b = s.ax b := by
  have hp := State.tryPlace_axes { time := s.timebase, body := body } s
  simp only [State.handRecord]
  split
  · rename_i t ht
    rw [ht] at hp
    exact State.ax_of_axes hp b
  · rename_i t ht
    rw [ht] at hp
    rw [State.noRoom_ax_ne _ t h]
    exact State.ax_of_axes hp b

/-! ### Telling the join unit -/

theorem State.pushEach_fields (f : Axis → Task) (l : List Axis) (s : State) :
    s.pushEach f l = { s with agenda := s.agenda ++ l.map f } := by
  induction l generalizing s with
  | nil => simp [State.pushEach]
  | cons a l ih => rw [State.pushEach, ih]; simp [State.push]

theorem State.breakPoint_axes (j : Point) (cause : BreakCause) (s : State) :
    (s.breakPoint j cause).axes = s.axes := by
  simp [State.breakPoint, State.pushEach_fields]

theorem State.breakList_axes (a : Axis) (l : List Point) (s : State) :
    (l.foldl (State.breakIfMember a) s).axes = s.axes := by
  induction l generalizing s with
  | nil => rfl
  | cons j l ih =>
    rw [List.foldl_cons, ih]
    simp only [State.breakIfMember]
    split
    · exact State.breakPoint_axes j _ s
    · rfl

theorem State.tellHalted_axes (a : Axis) (s : State) : (s.tellHalted a).axes = s.axes :=
  State.breakList_axes a allSixteen s

/-- The join unit changes nothing where no point of which the axis is a member is OPEN with
arrivals. -/
theorem State.tellHalted_none (a : Axis) (s : State)
    (h : ∀ j, inMask (s.members j) a = true → (s.point j).state = .opened →
      (s.point j).arrivals = 0) :
    s.tellHalted a = s := by
  have hl : ∀ l : List Point, l.foldl (State.breakIfMember a) s = s := by
    intro l
    induction l with
    | nil => rfl
    | cons j l ih =>
      rw [List.foldl_cons]
      have hj : State.breakIfMember a s j = s := by
        simp only [State.breakIfMember]
        split
        · rename_i hc
          exact absurd (h j hc.1 hc.2.1) hc.2.2
        · rfl
      rw [hj, ih]
  exact hl allSixteen

/-! ### Releasing claims -/

theorem State.releaseList_fields (time : Time) (l : List (Nat × Claimant)) (s : State) :
    s.releaseList time l =
      { s with ram := (s.releaseList time l).ram, claims := (s.releaseList time l).claims } := by
  induction l generalizing s with
  | nil => rfl
  | cons e l ih =>
    obtain ⟨p, c⟩ := e
    rw [State.releaseList, ih]
    rfl

theorem State.releaseAxisClaims_axes (a : Axis) (s : State) :
    (s.releaseAxisClaims a).axes = s.axes := by
  rw [State.releaseAxisClaims, State.releaseList_fields]

/-! ### The halt -/

/-- A halt cause that reaches an axis that is not active changes nothing (R95). -/
theorem State.halt_inactive (a : Axis) (cause : HaltCause) (detail : BitVec 8) (s : State)
    (h : (s.ax a).state.active = false) : s.halt a cause detail = s := by
  simp [State.halt, h]

/-- A halt changes no other axis engine. -/
theorem State.halt_ax_ne (a : Axis) (cause : HaltCause) (detail : BitVec 8) (s : State) {b : Axis}
    (h : b ≠ a) : (s.halt a cause detail).ax b = s.ax b := by
  simp only [State.halt]
  split
  · show (State.tellHalted a _).ax b = _
    rw [State.ax_of_axes (State.tellHalted_axes a _) b,
      State.handRecord_ax_ne _ _ (by simpa [RecordBody.axis?] using fun e : a = b => h e.symm),
      State.ax_setAx_ne _ h, State.ax_of_axes (State.releaseAxisClaims_axes a s) b]
  · rfl

/-- The axis that halts (R93, R94). -/
theorem State.halt_ax (a : Axis) (cause : HaltCause) (detail : BitVec 8) (s : State)
    (h : (s.ax a).state.active = true) :
    (s.halt a cause detail).ax a = (s.ax a).halted cause detail := by
  simp only [State.halt, if_pos h]
  show (State.tellHalted a _).ax a = _
  rw [State.ax_of_axes (State.tellHalted_axes a _) a]
  have hx : ((s.releaseAxisClaims a).setAx a ((s.ax a).halted cause detail)).ax a =
      (s.ax a).halted cause detail := State.ax_setAx_same _ a _
  rcases (State.handRecord_frame
    (.halt a (s.ax a).level cause detail (s.ax a).haltPage (s.ax a).index (s.ax a).position)
    ((s.releaseAxisClaims a).setAx a ((s.ax a).halted cause detail))).axes a with hr | hr
  · rw [hr, hx]
  · rw [hr, hx]
    rfl

end Sys2Proof.Machine
end

