-- ==== Sys2Proof/Laws/Join.lean ====
section
/-!
SUPPORT. The release of a join point (R123): what it changes, and that it reaches the arrived axes alone.
-/
namespace Sys2Proof.Machine

/-- A release at one axis changes its engine and the agenda, and no other field. -/
theorem State.releaseAxis_frame (j : Point) (g : Word) (last : Axis) (s : State) (a : Axis) :
    s.releaseAxis j g last a =
      { s with
        axes := (s.releaseAxis j g last a).axes, agenda := (s.releaseAxis j g last a).agenda } := by
  simp only [State.releaseAxis]
  split <;> split <;> rfl

theorem State.releaseAxis_ax_ne (j : Point) (g : Word) (last : Axis) (s : State) {a b : Axis}
    (h : b ≠ a) : (s.releaseAxis j g last a).ax b = s.ax b := by
  simp only [State.releaseAxis]
  split <;> split <;> exact State.ax_setAx_ne s h _

theorem State.release_list_frame (j : Point) (g : Word) (last : Axis) (l : List Axis) (s : State) :
    l.foldl (State.releaseAxis j g last) s =
      { s with
        axes := (l.foldl (State.releaseAxis j g last) s).axes
        agenda := (l.foldl (State.releaseAxis j g last) s).agenda } := by
  induction l generalizing s with
  | nil => rfl
  | cons a l ih => rw [List.foldl_cons, ih, State.releaseAxis_frame]

theorem State.release_list_ax_other (j : Point) (g : Word) (last : Axis) (l : List Axis) (s : State)
    (b : Axis) (h : b ∉ l) : (l.foldl (State.releaseAxis j g last) s).ax b = s.ax b := by
  induction l generalizing s with
  | nil => rfl
  | cons a l ih =>
    rw [List.foldl_cons, ih _ fun hb => h (.tail _ hb)]
    exact State.releaseAxis_ax_ne j g last s fun e => h (e ▸ .head _)

/-- An axis that had not arrived is not reached by the release. -/
theorem State.releasePoint_ax_other (j : Point) (arrivals : AxisMask) (last : Axis) (s : State)
    (b : Axis) (h : inMask arrivals b = false) : (s.releasePoint j arrivals last).ax b = s.ax b := by
  have hb : b ∉ maskAxes arrivals := fun e => by
    rw [mem_maskAxes, h] at e
    cases e
  exact State.release_list_ax_other j _ last _ _ b hb

end Sys2Proof.Machine
end

