-- ==== Sys2Proof/Tests/Slice0.lean ====
section
/-!
SUPPORT. Tests: ill-formed terms that the checks refuse; one-step tests of the commands; for every
statement with hypotheses, states and operands that meet them, clause by clause.
-/
namespace Sys2Proof.Machine.Tests

set_option maxRecDepth 20000

/-! ### Ill-formed terms -/

theorem test_wf_cmdNoneCode :
    (Instr.cmdNoneCode 0x0011).wellFormed = false ∧ (Instr.cmdNoneCode 0x0005).wellFormed = false ∧
      (Instr.cmdNoneCode 0x0010).wellFormed = true ∧ (Instr.cmdNoneCode 6).wellFormed = true := by
  decide

theorem test_wf_unknownCommand :
    (Instr.unknownCommand 0 8 0).wellFormed = false ∧
      (Instr.unknownCommand 0 9 0).wellFormed = true := by decide

theorem test_wf_hostRamWrite :
    (Instr.hostRamWrite 0x0100 1).wellFormed = false ∧
      (Instr.hostRamWrite 0x00FA 1).wellFormed = false ∧
      (Instr.hostRamWrite 0x004F 1).wellFormed = false ∧
      (Instr.hostRamWrite 0x0101 1).wellFormed = true := by decide

theorem test_wf_linkWordEvent :
    (Instr.linkWordEvent 2 1).wellFormed = false ∧ (Instr.linkWordEvent 3 1).wellFormed = true := by
  decide

theorem test_wf_stateWordEvent :
    (Instr.stateWordEvent 2 1).wellFormed = false ∧ (Instr.stateWordEvent 3 1).wellFormed = true := by
  decide

theorem test_decode_none : decodeTableWord 16 0x0001 = none := by decide

/-! ### Small states -/

/-- A list of words as a memory. -/
def ramOf (ws : List (Nat × Nat)) : Memory :=
  ws.foldl (fun m e => m.write (BitVec.ofNat 15 e.1) (BitVec.ofNat 16 e.2)) []

/-- Four enabled IDLE axes, join points J0 {A0, A1} and J15 {A0}, one HALT line, RUNNING. -/
def base : State :=
  { State.reset with
    dev := .running
    timebase := 1000
    now := 1000
    setup :=
      { Setup.reset with
        enabled := 0x0F
        points := (Setup.reset.points.set 0 { members := 3, timeout := 1 }).set 15
          { members := 1, timeout := 0 } }
    axes := table8 fun a =>
      { AxisEngine.reset with state := if a.val < 4 then AxisState.idle else AxisState.off } }

/-- DWELL of 5 ticks with REPORT, tag 7. -/
def segDwell : SegRecord := { w0 := 0x0012, w1 := 5, w2 := 0, w3 := 0, w4 := 0, w5 := 0, w6 := 0, w7 := 7 }

/-- END. -/
def segEnd : SegRecord := { segDwell with w0 := 0x0006 }

/-- A base context on page 5, segment 0 of 2. -/
def ctxOf (ph : Phase) (next : SegRecord) : Context :=
  { level := 0, idleBase := false, page := some 5, count := 2, index := 0, residue := 3
    following := some next, phase := ph }

/-- An IDLE axis. -/
def idleAxis : AxisEngine := { AxisEngine.reset with state := .idle }

/-- An axis in a state with a context. -/
def busy (st : AxisState) (c : Context) : AxisEngine := { idleAxis with state := st, ctx := some c }

/-- A forward RUN of V 160, D 0, W 1 with `n` steps left. -/
def runPhase (n : Nat) : Phase := .inSegment (.run n 160 0 1 true true 9)

/-- A DWELL with `k` ticks left. -/
def dwellPhase (k : Nat) : Phase := .inSegment (.dwell k true 9)

/-- A WAIT_INPUT for level 1 of IN2. -/
def waitPhase (timeout : Option Nat) (th : Bool) : Phase := .inSegment (.waitInput 2 true timeout th true 9)

/-- The base state with axis engine `x` at A0 and memory `ws`. -/
def withA0 (x : AxisEngine) (ws : List (Nat × Nat)) : State := { base.setAx 0 x with ram := ramOf ws }

/-- Page 5: a segment page with a state, a count and a first record of two words; A0's heads name it. -/
def page5 (state count w0 w1 : Nat) : List (Nat × Nat) :=
  [(0x0100 + 1, 5), (0x0100 + 2, 5), (1280, 1), (1281, state), (1283, count), (1288, w0), (1289, w1)]

/-- The state after a command. -/
def after (c : Instr) (s : State) : State :=
  match exec c s with
  | .next t => t
  | .refused _ => s

/-! ### One step each -/

theorem test_hardReset_keeps_pulse :
    ((after (.hardReset .pin) (withA0 { idleAxis with step := .high 1001, dir := true } [])).ax 0).step
      = .high 1001 := by decide

theorem test_reset_to_stopped :
    (after .zeroFillEnd (after .resetNRelease State.reset)).statWord = 1 ∧
      (after .zeroFillEnd (after .resetNRelease State.reset)).acause = 1 := by decide

theorem test_softReset_scan :
    (after .softResetScanEnd (after .softReset { base with claims := [(5, ⟨2, 1⟩)] })).read 1287
      = 0x0012 := by decide

theorem test_runStart_running :
    (after (.runStart 4) { base with dev := .stopped, ram := ramOf [(2, 1)] }).statWord = 2 ∧
      (after (.runStart 4) { base with dev := .stopped, ram := ramOf [(2, 1)] }).read 0x0217 = 1 := by
  decide

theorem test_runStop_stopped :
    (after .runStop (withA0 (busy .dwelling (ctxOf (dwellPhase 3) segEnd)) [])).statWord = 1 := by
  decide

theorem test_flush_readBack : (after .flush base).cmdWord = 0x0104 := by decide

theorem test_snap_count :
    (after (.tickBoundary 0) (after .snap base)).read 0x0020 = 1 ∧
      (after (.tickBoundary 0) (after .snap base)).read 0x0021 = 1000 := by decide

theorem test_cmdNoneCode :
    (after (.cmdNoneCode 0x00F6) base).cmdWord = 0x0206 ∧
      (after (.cmdNoneCode 0x0015) base).snapsOwed = 1 := by decide

theorem test_acauseWrite : (after (.acauseWrite 0xFC02) { base with acause := 0x003 }).acause = 1 := by
  decide

theorem test_amaskWrite : (after (.amaskWrite 0xFFFF) base).readRegister .amask = 0x03FF := by decide

theorem test_time0Read :
    (after .time0Read { base with timebase := 0x000300020001 }).readRegister .time2 = 3 ∧
      (after .time0Read { base with timebase := 0x000300020001 }).portData = 1 := by decide

theorem test_registerWriteIgnored :
    after (.registerWriteIgnored 2 5) base = base ∧
      (after (.registerWriteIgnored 4 5) base).amask = 5 := by decide

theorem test_hostRamWrite : (after (.hostRamWrite 0x7FFF 9) base).read 0x7FFF = 9 := by decide

theorem test_axisNone : (after (.axisNone 0 0xAB1) base).ram = [(0x0100, 0xAB10)] := by decide

theorem test_start_dwell :
    ((after (.start 0 0xAA0) (withA0 idleAxis (page5 1 2 0x12 5))).ax 0).state = .dwelling ∧
      (after (.start 0 0xAA0) (withA0 idleAxis (page5 1 2 0x12 5))).read 0x0110 = 0xAA01 := by decide

theorem test_start_free :
    (after (.tickBoundary 0)
        (after (.start 0 0) (withA0 idleAxis (page5 0 2 0x12 5)))).read 0x0112 = 6 ∧
      (after (.start 0 0) (withA0 idleAxis (page5 0 2 0x12 5))).acause = 0x110 := by decide

theorem test_pause_running :
    ((after (.pause 0 0) (withA0 (busy .running (ctxOf (runPhase 2) segEnd)) [])).ax 0).state
      = .pausing := by decide

theorem test_resume_dwell :
    ((after (.resume 0 0) (withA0 (busy .paused (ctxOf (dwellPhase 2) segEnd)) [])).ax 0).state
      = .dwelling := by decide

theorem test_abort_halts :
    ((after (.abort 0 0) (withA0 (busy .starved (ctxOf (.starved (.link 5)) segEnd)) [])).ax 0).haltCause
      = some .aborted := by decide

theorem test_clear_idle :
    ((after (.clear 0 0)
      (withA0 { idleAxis with state := .halted, haltCause := some .trip } [])).ax 0).haltCause
      = none := by decide

theorem test_interject_idle :
    ((after (.interject 0 2) (withA0 idleAxis (page5 1 2 0x12 5))).ax 0).level = 2 ∧
      ((after (.interject 0 2) (withA0 idleAxis (page5 1 2 0x12 5))).ax 0).stack.length = 1 := by decide

theorem test_withdraw :
    ((after (.withdraw 0 3)
      (withA0 { busy .running (ctxOf (runPhase 2) segEnd) with
        requests := { PendingSet.empty with three := some ⟨5, .command⟩ } } [])).ax 0).requests.mask
      = 0 := by decide

theorem test_setpos :
    ((after (.setpos 0 0) (withA0 idleAxis [(0x0103, 5), (0x0104, 0xFFFF)])).ax 0).position
      = 0xFFFF0005 := by decide

theorem test_unknownCommand :
    (after (.unknownCommand 7 9 0x550) base).read 0x01F0 = 0x5506 ∧
      after (.unknownCommand 0 8 0x550) base = after (.setpos 0 0x550) base := by decide

theorem test_rearm :
    ((after (.rearm 0 1)
      (base.setPoint 0 { state := .broken .timeout, arrivals := 1, generation := 2, deadline := none })).point
      0).state = .opened := by decide

theorem test_slotStateWrite :
    (after (.slotStateWrite 7 1) base).slot 7 = .empty ∧
      (after (.slotStateWrite 7 2) base).slot 7 = .unused := by decide

theorem test_linkWordEvent_follows :
    ((after (.linkWordEvent 6 5)
      (withA0 (busy .starved { ctxOf (.starved (.link 6)) segEnd with page := some 6 })
        (page5 1 2 0x12 5))).ax 0).state = .dwelling := by decide

theorem test_stateWordEvent_enters :
    ((after (.stateWordEvent 5 1)
      (withA0 (busy .starved (ctxOf (.starved (.state 5)) segEnd)) (page5 0 2 0x12 5))).ax 0).state
      = .dwelling := by decide

theorem test_stepBoundary_next :
    ((after (.stepBoundary 0)
      (withA0 { busy .running (ctxOf (runPhase 2) segEnd) with gate := .inFlight 1000 } [])).ax 0).gate
      = .leadGap 1000 := by decide

theorem test_leadGapEnd :
    ((after (.leadGapEnd 0)
      (withA0 { busy .running (ctxOf (runPhase 2) segEnd) with
        dir := true, gate := .leadGap 1000 } [])).ax 0).gate = .startWait := by decide

theorem test_stepStart :
    ((after (.stepStart 0)
      (withA0 { busy .running (ctxOf (runPhase 2) segEnd) with
        dir := true, gate := .startWait } [])).ax 0).step = .high 1001 ∧
    ((after (.stepStart 0)
      (withA0 { busy .running (ctxOf (runPhase 2) segEnd) with
        dir := true, gate := .startWait } [])).ax 0).position = 1 := by decide

theorem test_pulseEnd :
    ((after (.pulseEnd 0) (withA0 { idleAxis with step := .high 1000 } [])).ax 0).step
      = .low (some 1000) := by decide

theorem test_dwellExpiry_next :
    ((after (.dwellExpiry 0) (withA0 (busy .dwelling (ctxOf (dwellPhase 0) segDwell)) [])).ax 0).index
      = 1 := by decide

theorem test_waitInputTimeout_halts :
    ((after (.waitInputTimeout 0)
      (withA0 (busy .waitInput (ctxOf (waitPhase (some 0) true) segEnd)) [])).ax 0).haltDetail = 2 := by
  decide

theorem test_joinTimeout :
    (after (.joinTimeout 0)
      (base.setPoint 0 { JoinPoint.reset with deadline := some 1000 })).read 0x0083 = 0x0101 := by decide

theorem test_agingExpiry :
    (after .agingExpiry
      { base with
        report :=
          { ReportUnit.reset with
            slots := ReportUnit.reset.slots.set 2 (.filling 20 1 10), deadline := some 1000 } }).read
      0x0045 = 3 := by decide

theorem test_qualifiedChange :
    (after (.qualifiedChange 15) (base.setLine 15 { qualified := false, runCount := 1 })).read 0x027F
      = 1 := by decide

theorem test_tickBoundary_counts :
    (after (.tickBoundary 0) (withA0 (busy .dwelling (ctxOf (dwellPhase 2) segEnd)) [])).timebase
      = 1001 := by decide

theorem test_resetNRelease : (after .resetNRelease State.reset).dev = .init .zeroFill := by decide

/-! ### The hypotheses of the statements can be met

One theorem for each statement that has hypotheses; a clause has its own conjunct. -/

theorem test_meets_HardResetRestoresEveryBlock :
    ((withA0 { idleAxis with step := .high 1001 } []).ax 0).step.isHigh = true ∧
      (base.ax 7).step.isHigh = false := by decide

theorem test_meets_ZeroFillClearsTheRam :
    State.reset.dev = .init .held ∧
      ({ State.reset with dev := .init .zeroFill } : State).dev = .init .zeroFill ∧
      (∀ a : Axis, ({ State.reset with dev := .init .zeroFill } : State).ax a = AxisEngine.reset) ∧
      AxisEngine.reset.step.isHigh = false ∧
      ((withA0 { idleAxis with step := .high 1001 } []).ax 0).step.isHigh = true := by decide

theorem test_meets_SoftResetResetsTheBlocks :
    (withA0 { idleAxis with step := .high 1001, dirty := true } []).inInit = false ∧
      ((withA0 { idleAxis with step := .high 1001, dirty := true } []).ax 0).dirty = true ∧
      ({ base with snapsOwed := 2 } : State).snapsOwed ≠ 0 := by decide

/-- The scan state, with the claim of A2 on page 127 and slots as given. -/
def scanning (slots : Vector SlotState 8) : State :=
  { State.reset with
    dev := .init (.scan 77), claims := [(3, ⟨0, 0⟩), (127, ⟨2, 1⟩)]
    report := { ReportUnit.reset with slots := slots } }

/-- A pool with slot 2 FILLING page 20. -/
def fillingPool (records used : Nat) : Vector SlotState 8 :=
  ReportUnit.reset.slots.set 2 (.filling 20 records used)

theorem test_meets_SoftResetScanReleasesPages :
    ClaimLaw (scanning ReportUnit.reset.slots) ∧
      (scanning ReportUnit.reset.slots).filling = none ∧
      (scanning (fillingPool 0 0)).filling = some (2, 20, 0, 0) ∧
      (scanning (fillingPool 1 10)).filling = some (2, 20, 1, 10) := by decide

theorem test_meets_SoftResetScanReleasesPages_low :
    ∀ a : Axis, ((scanning (fillingPool 1 10)).ax a).step.isHigh = false := by decide

/-- STOPPED with the given directory words. -/
def stoppedWith (ws : List (Nat × Nat)) : State := { base with dev := .stopped, ram := ramOf ws }

theorem test_meets_RunStartBeginsASpan :
    (stoppedWith [(2, 1)]).dev = .stopped ∧
      ∀ (f : SetupFault) (i : Fin 16), (Memory.setup (stoppedWith [(2, 1)]).ram).fails f i = false := by
  refine ⟨by decide, fun f => ?_⟩
  cases f <;> decide

theorem test_meets_RunStartBeginsASpan_filling :
    ({ stoppedWith [(2, 1)] with
        report := { ReportUnit.reset with slots := fillingPool 1 10 } } : State).filling
      = some (2, 20, 1, 10) := by decide

theorem test_meets_RunStartShowsTheFirstFault :
    (Memory.setup (stoppedWith []).ram).fails .noAxes 0 = true ∧
      ∀ (g : SetupFault) (j : Fin 16),
        (Memory.setup (stoppedWith []).ram).fails g j = true → checkOrder .noAxes 0 ≤ checkOrder g j := by
  refine ⟨by decide, fun g => ?_⟩
  cases g <;> decide

theorem test_meets_RunStartShowsTheFirstFault_last :
    (Memory.setup (stoppedWith [(2, 1), (0x027A, 3)]).ram).fails .inputHead 15 = true ∧
      ∀ (g : SetupFault) (j : Fin 16),
        (Memory.setup (stoppedWith [(2, 1), (0x027A, 3)]).ram).fails g j = true →
          checkOrder .inputHead 15 ≤ checkOrder g j := by
  refine ⟨by decide, fun g => ?_⟩
  cases g <;> decide

theorem test_meets_RefusedRunControl :
    base.dev = .running ∧ (stoppedWith []).dev = .stopped ∧ base.inInit = false ∧
      ((0xFFF0 : Word).extractLsb' 0 4).toNat = 0 ∧ 6 ≤ ((6 : Word).extractLsb' 0 4).toNat ∧
      State.reset.inInit = true := by decide

/-- A0 waits at J0 with its arrival counted, A1 is IDLE. -/
def meeting : State :=
  (withA0 (busy .waitJoin (ctxOf (.inSegment (.join 0 none false true 9)) segEnd)) []).setPoint 0
    { JoinPoint.reset with arrivals := 1, deadline := some 1000 }

theorem test_meets_RunStopHaltsActiveAxes :
    Quiet meeting ∧ meeting.dev = .running ∧ (meeting.ax 0).state.active = true ∧
      (meeting.ax 1).state.active = false ∧ (meeting.point 0).state = .opened ∧
      (meeting.point 0).arrivals ≠ 0 ∧ inMask (meeting.members 0) 0 = true ∧
      (meeting.point 15).arrivals = 0 := by decide

theorem test_meets_RunStopHaltsActiveAxes_claims :
    ClaimLaw { meeting with claims := [(5, ⟨0, 0⟩)] } := by decide

/-- A page being filled, with its deadline now. -/
def filling (records used : Nat) : State :=
  { base with
    report :=
      { ReportUnit.reset with slots := fillingPool records used, deadline := some 1000 } }

theorem test_meets_FlushAndAgingCloseThePage :
    (filling 1 10).inInit = false ∧ (filling 1 10).filling = some (2, 20, 1, 10) ∧
      (filling 1 10).report.deadline = some (filling 1 10).timebase ∧ base.filling = none := by decide

theorem test_meets_SnapWritesTheSnapshot :
    base.inInit = false ∧ ({ base with snapsOwed := 2 } : State).anyDue = false ∧
      base.anyDue = false ∧ base.snapsOwed = 0 := by decide

theorem test_meets_registers :
    State.reset.inInit = true ∧ base.inInit = false := by decide

theorem test_meets_HostRamWriteStores :
    Quiet base ∧ base.inInit = false ∧ isFixedWatched 0x7FFF = false ∧
      ∀ (a : Axis) (q : Page), base.watches a (.link q) = false ∧ base.watches a (.state q) = false := by
  refine ⟨by decide, by decide, by decide, fun a q => ?_⟩
  have h : ((base.ax a).state == AxisState.starved) = false := by revert a; decide
  simp [State.watches, h]

theorem test_meets_InitDiscardsHostWrites : Quiet State.reset ∧ State.reset.inInit = true := by decide

theorem test_meets_WritesToWatchedWordsAreEvents :
    Quiet base ∧ isGeneralPage 3 = true ∧ isGeneralPage 127 = true := by decide

theorem test_meets_HostWordsKept :
    PageLaw meeting ∧ RecordLaw meeting ∧ FillingLaw meeting ∧ Quiet meeting ∧ isHostWord 0 = true ∧
      isHostWord 0x02FF = true ∧ wordWritten .runStop = none := by decide

theorem test_meets_CommandsWithoutEffect :
    Quiet base ∧ base.inInit = false ∧ base.dev = .running ∧ 9 ≤ (9 : BitVec 4).toNat ∧
      9 ≤ (15 : BitVec 4).toNat ∧ Quiet (stoppedWith []) ∧ (stoppedWith []).dev = .stopped := by decide

theorem test_meets_RefusedCommandsOnlyAnswer :
    Quiet base ∧ base.inInit = false ∧ base.refusal 0 (base.startRefusal 0) = some 4 ∧
      base.refusal 7 (base.startRefusal 7) = some 2 ∧
      meeting.refusal 0 (meeting.startRefusal 0) = some 2 ∧
      (stoppedWith []).refusal 0 ((stoppedWith []).startRefusal 0) = some 5 ∧
      base.refusal 0 (base.pauseRefusal 0) = some 2 ∧ base.refusal 0 (base.resumeRefusal 0) = some 2 ∧
      base.refusal 0 (base.abortRefusal 0) = some 2 ∧ base.refusal 0 (base.clearRefusal 0) = some 2 ∧
      base.refusal 0 (base.interjectRefusal 0 0) = some 4 ∧
      base.refusal 0 (base.withdrawRefusal 0 1) = some 2 ∧
      meeting.refusal 0 (meeting.setposRefusal 0) = some 2 := by decide

theorem test_meets_RefusedCommandsOnlyAnswer_busy :
    (withA0 (busy .pausing (ctxOf (runPhase 1) segEnd)) []).refusal 0
        ((withA0 (busy .pausing (ctxOf (runPhase 1) segEnd)) []).pauseRefusal 0) = some 3 := by decide

theorem test_meets_StartEntersTheHeadPage :
    Quiet (withA0 idleAxis (page5 1 2 0x12 5)) ∧ isGeneralPage 5 = true ∧
      ((withA0 idleAxis (page5 1 2 0x12 5)).ax 0).state = .idle ∧
      (withA0 idleAxis (page5 1 2 0x12 5)).read (axisWord 0 1) = pageNumber 5 ∧
      EntryGranted (withA0 idleAxis (page5 1 31 0x12 5)) 5 1 ∧
      (withA0 idleAxis (page5 1 2 0x12 5)).owes 0 = false ∧
      ((withA0 idleAxis (page5 1 2 0x12 5)).begins 0
        ((withA0 idleAxis (page5 1 2 0x12 5)).readRecord 5 0)).isSome = true ∧
      EntryWaits (withA0 idleAxis (page5 0 2 0x12 5)) 5 0 ∧
      EntryBad (withA0 idleAxis (page5 3 2 0x12 5)) 5 3 ∧
      EntryBad (withA0 idleAxis (page5 1 32 0x12 5)) 5 1 ∧
      NoMeeting (withA0 idleAxis (page5 3 2 0x12 5)) 0 := by decide

theorem test_meets_StartMeetsTheFirstSegment :
    ({ withA0 idleAxis (page5 1 1 6 0) with
        report :=
          { ReportUnit.reset with
            owed := ReportUnit.reset.owed.set 0 [⟨5, .starve 0 0 5 0⟩], waitList := [0] } } :
      State).owes 0 = true ∧
      EntryGranted (withA0 idleAxis (page5 1 1 6 0)) 5 1 ∧
      (withA0 idleAxis (page5 1 1 0 0)).validKind 0
        ((withA0 idleAxis (page5 1 1 0 0)).readRecord 5 0) = none ∧
      ((withA0 idleAxis (page5 1 1 6 0)).readRecord 5 0).kind = some .end_ ∧
      (withA0 idleAxis (page5 1 1 3 0)).validKind 0
        ((withA0 idleAxis (page5 1 1 3 0)).readRecord 5 0) = some .join ∧
      ((withA0 idleAxis (page5 1 1 3 0)).readRecord 5 0).joinPoint = some 0 ∧
      ((withA0 idleAxis (page5 1 1 3 0)).point 0).arrivals ||| maskBit 0
        ≠ (withA0 idleAxis (page5 1 1 3 0)).members 0 := by decide

/-- The edges of the ranges of R43. -/
theorem test_validity_of_a_run :
    base.validKind 0 ⟨1, 1, 0, 32, 0, 0, 1, 0⟩ = some .run ∧
      base.validKind 0 ⟨1, 0, 0x0100, 32, 0, 0, 1, 0⟩ = none ∧
      base.validKind 0 ⟨1, 0, 1, 31, 0xFF00, 0, 1, 0⟩ = none ∧
      base.validKind 0 ⟨1, 1, 0, 32, 0, 0, 0, 0⟩ = none ∧
      base.validKind 0 ⟨1, 1, 0, 32, 0, 0, 2, 0⟩ = none ∧
      base.validKind 0 ⟨0xFF83, 15, 0, 0, 0, 0, 0, 0⟩ = some .join ∧
      base.validKind 0 ⟨3, 16, 0, 0, 0, 0, 0, 0⟩ = none ∧
      base.validKind 1 ⟨3, 15, 0, 0, 0, 0, 0, 0⟩ = none ∧
      base.validKind 0 ⟨7, 0, 0, 0, 0, 0, 0, 0⟩ = none := by decide

theorem test_meets_PauseTakesHold :
    Quiet (withA0 (busy .running (ctxOf (runPhase 1) segEnd)) []) ∧
      ((withA0 (busy .running (ctxOf (runPhase 1) segEnd)) []).ax 0).state = .running ∧
      Quiet meeting ∧ (meeting.ax 0).state = .waitJoin := by decide

/-- A0 at the begin point of segment 0 of 2 of page 5, which is `r`, with the next record in the RAM. -/
def beginning (r : SegRecord) : State := withA0 (busy .running (ctxOf .atBegin r)) []

/-- A segment of kind word `w0` with one operand word. -/
def seg (w0 w1 : Word) : SegRecord := { segDwell with w0 := w0, w1 := w1 }

theorem test_meets_AtBegin :
    ((beginning segDwell).ax 0).state ≠ .pausing ∧ (beginning segDwell).owes 0 = false ∧
      ((beginning segDwell).begins 0 segDwell).isSome = true ∧
      (beginning segEnd).validKind 0 (seg 0 0) = none ∧ NoMeeting (beginning (seg 0 0)) 0 := by decide

theorem test_meets_AtBegin_noTime :
    (beginning (seg 0x15 7)).validKind 0 (seg 0x15 7) = some .note ∧
      (beginning (seg 0x12 0)).validKind 0 (seg 0x12 0) = some .dwell ∧ (seg 0x12 0).duration = 0 ∧
      (beginning (seg 0x14 2)).validKind 0 (seg 0x14 2) = some .waitInput ∧
      ((beginning (seg 0x14 2)).line (seg 0x14 2).line).qualified = (seg 0x14 2).awaited := by decide

theorem test_meets_AtBegin_end :
    (beginning segEnd).validKind 0 segEnd = some .end_ ∧ ((beginning segEnd).ax 0).stack = [] := by
  decide

theorem test_meets_AtBegin_limit :
    (beginning segDwell).validKind 0 { seg 0x21 1 with w3 := 160, w6 := 1 } = some .run ∧
      (busy .running (ctxOf .atBegin segEnd)).pastLimit { enabled := true, min := 0, max := 0 }
        (seg 0x21 1).forward = true := by decide

theorem test_meets_Arrives :
    (beginning (seg 3 15)).validKind 0 (seg 3 15) = some .join ∧ (seg 3 15).joinPoint = some 15 ∧
      (base.point 15).state = .opened ∧ (base.point 15).arrivals = 0 ∧
      base.members 15 = maskBit 0 ∧ (base.point 0).arrivals ||| maskBit 0 ≠ base.members 0 ∧
      inMask (meeting.point 0).arrivals 0 = true ∧
      ((base.setPoint 15 { JoinPoint.reset with state := .broken .timeout }).point 15).state
        ≠ .opened := by decide

/-- A PAUSED axis. -/
def paused (ph : Phase) : State := withA0 (busy .paused (ctxOf ph segDwell)) []

theorem test_meets_ResumeLetsTheAxisGoOn :
    Quiet (paused (runPhase 1)) ∧ ((paused (runPhase 1)).ax 0).acceptable = false ∧
      ((paused (runPhase 1)).ax 0).pastLimit ((paused (runPhase 1)).limits 0) true = false ∧
      ((paused (waitPhase none true)).line 2).qualified ≠ true ∧
      (paused (.starved (.link 5))).read (pageWord 5 2) = 0 ∧
      NoMeeting (paused (.inSegment (.join 0 none true true 9))) 0 ∧
      Quiet (withA0 (busy .pausing (ctxOf (runPhase 1) segEnd)) []) := by decide

theorem test_meets_ResumeLetsTheAxisGoOn_moved :
    ({ paused (.starved (.state 5)) with ram := ramOf (page5 1 2 0x12 5) } : State).read (pageWord 5 1)
        ≠ 0 ∧
      ({ paused (.starved (.link 5)) with ram := ramOf [(0x0502, 200)] } : State).read (pageWord 5 2)
        = 200 ∧
      ((paused (waitPhase (some 0) false)).setLine 2 { qualified := true, runCount := 0 }).line 2
        = { qualified := true, runCount := 0 } := by decide

theorem test_meets_ResumeLetsTheAxisGoOn_limit :
    (busy .paused (ctxOf (runPhase 1) segEnd)).pastLimit { enabled := true, min := 0, max := 0 } true
      = true := by decide

theorem test_meets_ChainGoesOn :
    (ctxOf (dwellPhase 0) segDwell).index + 1 < (ctxOf (dwellPhase 0) segDwell).count ∧
      (withA0 idleAxis [(0x0502, 0)]).read (pageWord 5 2) = 0 ∧
      NoGeneralPage ((withA0 idleAxis [(0x0502, 128)]).read (pageWord 5 2)) ∧
      NoMeeting (withA0 idleAxis [(0x0502, 128)]) 0 ∧
      generalPage? ((withA0 idleAxis [(0x0502, 127)]).read (pageWord 5 2)) = some 127 ∧
      EntryGranted ((withA0 idleAxis [(0x0502, 127), (0x7F00, 1), (0x7F01, 1), (0x7F03, 1)]).releasePage 5
        ⟨0, 0⟩ 1000) 127 1 := by decide

theorem test_meets_ChainGoesOn_free :
    EntryWaits ((withA0 idleAxis [(0x0502, 127), (0x7F00, 1)]).releasePage 5 ⟨0, 0⟩ 1000) 127 0 ∧
      EntryBad ((withA0 idleAxis [(0x0502, 5), (0x0500, 1)]).releasePage 5 ⟨0, 0⟩ 1000) 5 3 := by
  decide

theorem test_meets_AbortHaltsTheAxis :
    Quiet meeting ∧ (meeting.ax 0).state.active = true ∧ inMask (meeting.members 0) 0 = true ∧
      (meeting.point 0).state = .opened ∧ (meeting.point 0).arrivals ≠ 0 ∧
      inMask (meeting.point 0).arrivals 0 = true ∧ (meeting.ax 0).state = .waitJoin ∧
      (ctxOf (.inSegment (.join 0 none false true 9)) segEnd).holdsArrival 0 = true ∧
      NoMeeting (paused (runPhase 1)) 0 := by decide

theorem test_meets_HaltReleasesItsClaims :
    ClaimLaw { base with claims := [(3, ⟨0, 0⟩), (127, ⟨0, 1⟩)] } := by decide

theorem test_meets_ClearSetposWithdraw :
    Quiet (withA0 { idleAxis with state := .halted } []) ∧
      (withA0 { idleAxis with state := .halted } []).owedOf 0 = [] ∧ Quiet base ∧
      (base.ax 0).state = .idle ∧ ¬ base.setposOutside 0 ∧
      ({ PendingSet.empty with three := some ⟨5, .command⟩ } : PendingSet).get (argLevel 3) ≠ none := by
  decide

/-- A RUNNING axis with head page 5 for interjections. -/
def headed (x : AxisEngine) : State := withA0 x (page5 1 2 0x12 5)

theorem test_meets_InterjectPlacesTheRequest :
    Quiet (headed (busy .running (ctxOf (runPhase 1) segEnd))) ∧
      (headed (busy .running (ctxOf (runPhase 1) segEnd))).interjectAccepted 0 1 ∧
      (headed (busy .running (ctxOf (runPhase 1) segEnd))).interjectAccepted 0 3 := by decide

theorem test_meets_RequestsAreTaken :
    Quiet (headed idleAxis) ∧ (headed idleAxis).interjectAccepted 0 3 ∧
      (idleAxis.withRequest 3 5).acceptable = true ∧
      (idleAxis.withRequest 3 5).requests.top = some (3, ⟨5, .command⟩) ∧
      generalPage? 5 = some 5 ∧
      ({ busy .paused (ctxOf (runPhase 1) segEnd) with
          requests := { PendingSet.empty with one := some ⟨5, .command⟩ } } : AxisEngine).acceptable
        = true := by decide

theorem test_meets_RearmOpensABrokenPoint :
    State.reset.inInit = true ∧ (base.point 0).state = .opened ∧
      ((base.setPoint 15 { JoinPoint.reset with state := .broken .timeout }).point 15).state ≠ .opened := by
  decide

theorem test_meets_ReleaseOfAPoint :
    Quiet (withA0 idleAxis (page5 1 1 3 15)) ∧
      (withA0 idleAxis (page5 1 1 3 15)).validKind 0
        ((withA0 idleAxis (page5 1 1 3 15)).readRecord 5 0) = some .join ∧
      ((withA0 idleAxis (page5 1 1 3 15)).readRecord 5 0).joinPoint = some 15 ∧
      (withA0 idleAxis (page5 1 1 3 15)).members 15 = maskBit 0 ∧
      EntryGranted (withA0 idleAxis (page5 1 1 3 15)) 5 1 := by decide

/-- A1 waits at J0, where only A0 is missing; page 5 holds a JOIN at J0 and a DWELL. -/
def lastArrival : State :=
  ((withA0 idleAxis (page5 1 2 3 0 ++ [(1296, 0x12), (1297, 5)])).setAx 1
    (busy .waitJoin { ctxOf (.inSegment (.join 0 none false true 9)) segDwell with page := some 6 })).setPoint
    0 { JoinPoint.reset with arrivals := 2 }

theorem test_meets_ReleaseOfAPoint_last :
    EntryGranted lastArrival 5 1 ∧ lastArrival.owes 0 = false ∧
      (lastArrival.readRecord 5 0).joinPoint = some 0 ∧
      (lastArrival.begins 0 (lastArrival.readRecord 5 1)).isSome = true ∧
      (lastArrival.point 0).arrivals ||| maskBit 0 = lastArrival.members 0 := by decide

theorem test_meets_ReleaseOfAPoint_laws :
    Quiet lastArrival ∧ PageLaw lastArrival ∧ RecordLaw lastArrival := by decide

theorem test_meets_ReleaseOfAPoint_waiting :
    (∀ b : Axis, inMask (lastArrival.point 0).arrivals b = true → b = 1) ∧
      (lastArrival.ax 1).state = .waitJoin ∧
      (ctxOf (.inSegment (.join 0 none false true 9)) segDwell).holdsArrival 0 = true ∧
      (lastArrival.begins 1 segDwell).isSome = true := by decide

theorem test_meets_SlotStateWriteSetsTheSlot :
    Quiet (filling 1 10) ∧ ((filling 1 10).slot 2).isFilling = true ∧
      ((filling 1 10).slot 7).isFilling = false ∧ base.report.queue = [] ∧
      base.report.waitList = [] ∧ base.report.drops = 0 := by decide

/-- No room but slot 7, which names page 20; the given records are kept. -/
def short (dev : DevState) (st : AxisState) (queue owed : List Record) : State :=
  { withA0 (busy st (ctxOf .atBegin segDwell)) [(0x004E, 20)] with
    dev := dev
    report :=
      { ReportUnit.reset with
        queue := queue, owed := ReportUnit.reset.owed.set 0 owed
        waitList := if owed.isEmpty then [] else [0] } }

theorem test_meets_DrainPlacesTheHoldingQueue :
    Quiet (short .running .running [⟨5, .starve 0 0 5 0⟩, ⟨6, .drops 1⟩] []) ∧
      OnlyRoom 7 20 (short .running .running [⟨5, .drops 1⟩] []) ∧
      (short .running .running [⟨5, .drops 1⟩] []).report.waitList = [] ∧
      wordsOf [⟨5, .starve 0 0 5 0⟩, ⟨6, .drops 1⟩] = 15 := by decide

/-- The same with records dropped. -/
def dropped (s : State) : State := { s with report := { s.report with drops := 5 } }

theorem test_meets_DrainPlacesTheHoldingQueue_drops :
    OnlyRoom 7 20 (dropped (short .running .running [] [])) ∧
      (dropped (short .running .running [] [])).report.drops ≠ 0 ∧
      (after (.slotStateWrite 7 1) (dropped (short .running .running [] []))).read 5133 = 5 := by decide

/-- A CAPTURE record of all eight axes: 23 words. -/
def bigRecord : Record := ⟨5, .capture 0 true 0xFF [0, 0, 0, 0, 0, 0, 0, 0]⟩

/-- A full holding queue, dropped records, and A0, A1 and A2 that owe three records each. -/
def shortOfAll : State :=
  { dropped (short .running .running
      [bigRecord, bigRecord, bigRecord, bigRecord, bigRecord, bigRecord, bigRecord, bigRecord] []) with
    report :=
      { (dropped (short .running .running
          [bigRecord, bigRecord, bigRecord, bigRecord, bigRecord, bigRecord, bigRecord, bigRecord]
          [])).report with
        owed :=
          table8 fun a =>
            if a.val < 3 then [⟨6, .starve a 0 5 0⟩, ⟨7, .starve a 0 5 0⟩, ⟨8, .starve a 0 5 0⟩] else []
        waitList := [0, 1, 2] } }

theorem test_meets_DrainPlacesTheHoldingQueue_runs_out :
    Quiet shortOfAll ∧ OnlyRoom 7 20 shortOfAll ∧ OweLaw shortOfAll ∧
      shortOfAll.report.waitList = [0, 1] ++ 2 :: [] ∧ (shortOfAll.ax 0).state ≠ .reportWait ∧
      (shortOfAll.ax 1).state ≠ .reportWait ∧
      (shortOfAll.owedOf 2)[0]? = some ⟨6, .starve 2 0 5 0⟩ ∧
      wordsOf shortOfAll.report.queue + 6 + wordsOf ([0, 1].flatMap shortOfAll.owedOf) = 244 := by decide

/-- A drain that runs out of room sets ROOM_EXHAUSTED and keeps the records it could not place (R155,
R160, R170). -/
theorem test_drain_runs_out :
    (shortOfAll.slotStateWrite 7 1).acause = 0x018 ∧
      (shortOfAll.slotStateWrite 7 1).report.waitList = [2] := by decide

theorem test_meets_DrainEndsOwing :
    Quiet (short .running .reportWait [] [⟨5, .starve 0 0 5 0⟩]) ∧
      (short .running .reportWait [] [⟨5, .starve 0 0 5 0⟩]).owedOf 0 = [⟨5, .starve 0 0 5 0⟩] ∧
      ((short .running .reportWait [] [⟨5, .starve 0 0 5 0⟩]).begins 0 segDwell).isSome = true ∧
      ((short .running .reportWait [] [⟨5, .starve 0 0 5 0⟩]).ax 0).acceptable = false ∧
      Quiet (short .stopping .halted [] [⟨5, .starve 0 0 5 0⟩]) ∧
      (⟨5, .starve 0 0 5 0⟩ : Record).length ≤ 23 := by decide

theorem test_meets_DrainEndsOwing_takes :
    ({ busy .reportWait (ctxOf .atBegin segDwell) with
        requests := { PendingSet.empty with two := some ⟨5, .command⟩ } } : AxisEngine).acceptable
      = true ∧
    ({ PendingSet.empty with two := some ⟨5, .command⟩ } : PendingSet).top = some (2, ⟨5, .command⟩) := by
  decide

/-- A0 starves on a wait. -/
def starving (w : Wait) : State := withA0 (busy .starved (ctxOf (.starved w) segEnd)) (page5 0 2 0x12 5)

theorem test_meets_WatchedWordEvents :
    Quiet (starving (.link 6)) ∧ (starving (.link 6)).watches 0 (.link 6) = true ∧
      (∀ b : Axis, b ≠ 0 → (starving (.link 6)).watches b (.link 6) = false) ∧
      NoGeneralPage 2 ∧ NoGeneralPage 128 ∧ generalPage? 127 = some 127 ∧
      (starving (.state 5)).watches 0 (.state 5) = true ∧
      (∀ b : Axis, b ≠ 0 → (starving (.state 5)).watches b (.state 5) = false) ∧
      EntryGranted (starving (.state 5)) 5 1 ∧ EntryBad (starving (.state 5)) 5 2 ∧
      (∀ a : Axis, base.watches a (.link 6) = false) := by decide

/-- A0 and A1 starve on page 5, which opens. -/
def twoWatchers : State := (starving (.state 5)).setAx 1 (busy .starved (ctxOf (.starved (.state 5)) segEnd))

theorem test_meets_WatchedWordEvents_two :
    Quiet twoWatchers ∧ twoWatchers.watches 0 (.state 5) = true ∧
      twoWatchers.watches 1 (.state 5) = true ∧
      (∀ d : Axis, d ≠ 0 → d ≠ 1 → twoWatchers.watches d (.state 5) = false) ∧
      EntryGranted twoWatchers 5 1 := by decide

theorem test_meets_WatchedWordEvents_begin :
    ClaimLaw twoWatchers ∧ NoMeeting twoWatchers 0 ∧ NoMeeting twoWatchers 1 ∧
      twoWatchers.owes 0 = false ∧ twoWatchers.owes 1 = false ∧
      (twoWatchers.begins 0 (twoWatchers.readRecord 5 0)).isSome = true ∧
      (twoWatchers.begins 1 (twoWatchers.readRecord 5 0)).isSome = true := by decide

/-- A0 on a RUN with a gate and DIR. -/
def stepping (st : AxisState) (n : Nat) (g : Gate) (dir : Bool) (step : StepOut) : State :=
  withA0 { busy st (ctxOf (runPhase n) segDwell) with gate := g, dir := dir, step := step } []

theorem test_meets_StepStartBeginsAStep :
    (stepping .running 1 .startWait true (.low none)).stepStartDue 0 = true ∧
      (stepping .pausing 1 .startWait true (.low (some 999))).stepStartDue 0 = true ∧
      (stepping .running 1 .startWait true (.low (some 1000))).stepStartDue 0 = false := by decide

theorem test_meets_BoundaryWithStepsLeft :
    Quiet (stepping .running 1 (.inFlight 1000) true (.low none)) ∧
      (stepping .running 1 (.inFlight 1000) true (.low none)).stepBoundaryDue 0 = true ∧
      (stepping .running 1 (.leadGap 1000) true (.low none)).leadGapDue 0 = true ∧
      ((stepping .running 1 (.inFlight 1000) true (.low none)).ax 0).dirLevel = true ∧
      ((stepping .running 1 (.inFlight 1000) false (.high 1001)).ax 0).dirLevel = false ∧
      ((stepping .running 1 (.inFlight 1000) true (.low none)).ax 0).acceptable = false ∧
      (stepping .pausing 1 (.inFlight 1000) true (.low none)).stepBoundaryDue 0 = true := by decide

theorem test_meets_BoundaryAfterTheLastStep :
    Quiet (stepping .running 0 (.inFlight 1000) true (.low none)) ∧
      (stepping .running 0 (.inFlight 1000) true (.low none)).stepBoundaryDue 0 = true ∧
      (stepping .pausing 0 (.inFlight 1000) true (.low none)).stepBoundaryDue 0 = true ∧
      ({ busy .running (ctxOf (runPhase 0) segDwell) with
          requests := { PendingSet.empty with one := some ⟨5, .command⟩ } } : AxisEngine).acceptable
        = true := by decide

/-- A0 at the end of the last step of the last segment of page 5, with link `link` and page 6 in state
`state`. -/
def lastOfPage (st : AxisState) (link state : Nat) : State :=
  withA0
    { busy st { ctxOf (runPhase 0) segDwell with index := 1 } with
      gate := .inFlight 1000, requests := { PendingSet.empty with one := some ⟨7, .command⟩ } }
    [(1282, link), (1536, 1), (1537, state), (1539, 1)]

theorem test_meets_BoundaryAfterTheLastStep_end :
    Quiet (lastOfPage .pausing 6 1) ∧ (lastOfPage .pausing 6 1).stepBoundaryDue 0 = true ∧
      (lastOfPage .running 6 1).stepBoundaryDue 0 = true ∧
      ((lastOfPage .running 6 1).ax 0).acceptable = true ∧
      (lastOfPage .running 6 1).read (pageWord 5 2) = 6 ∧
      (lastOfPage .running 0 1).read (pageWord 5 2) = 0 ∧
      EntryGranted (lastOfPage .running 6 1) 6 1 ∧ EntryWaits (lastOfPage .pausing 6 0) 6 0 ∧
      EntryBad (lastOfPage .pausing 6 3) 6 3 ∧ NoGeneralPage 200 ∧
      NoMeeting (lastOfPage .pausing 200 1) 0 := by decide

theorem test_pause_at_the_end_of_a_page :
    ((after (.stepBoundary 0) (lastOfPage .pausing 6 1)).ax 0).state = .paused ∧
      ((after (.stepBoundary 0) (lastOfPage .running 6 1)).ax 0).level = 1 := by decide

theorem test_meets_PulseEndLowersStep :
    (stepping .running 1 (.inFlight 1001) true (.high 1000)).pulseEndDue 0 = true ∧
      (stepping .running 1 .dirWait false (.high 1000)).pulseEndDue 0 = true ∧
      ((stepping .running 1 .dirWait false (.high 1000)).ax 0).runForward = some true := by decide

theorem test_meets_PulseEndLowersStep_zero :
    (withA0 { busy .running (ctxOf (runPhase 1) segDwell) with
        gate := .dirWait, step := .high 1000, dirZero := .byRunStart } []).pulseEndDue 0 = true ∧
      (busy .running (ctxOf (runPhase 1) segDwell)).runForward = some true ∧
      (busy .running (ctxOf (.inSegment (.run 1 160 0 1 false true 9)) segDwell)).runForward
        = some false := by decide

theorem test_meets_DwellAndWaitRunOut :
    Quiet (withA0 (busy .dwelling (ctxOf (dwellPhase 0) segDwell)) []) ∧
      Quiet (withA0 (busy .waitInput (ctxOf (waitPhase (some 0) true) segDwell)) []) ∧
      NoMeeting (withA0 (busy .waitInput (ctxOf (waitPhase (some 0) true) segDwell)) []) 0 := by decide

/-- A0 in an interjection on a DWELL with no ticks left, END next, one context saved. -/
def interjectedOn (top : Context) : AxisEngine :=
  { busy .dwelling { ctxOf (.inSegment (.dwell 0 false 9)) segEnd with level := 2 } with
    stack := [top] }

theorem test_meets_EndRestoresTheSavedContext :
    Quiet (withA0 (interjectedOn Context.idleBaseContext) []) ∧
      (withA0 (interjectedOn Context.idleBaseContext) []).owes 0 = false ∧ segEnd.kind = some .end_ ∧
      ({ interjectedOn (ctxOf (runPhase 1) segEnd) with
          ctx := some (ctxOf (runPhase 1) segEnd), stack := [] } : AxisEngine).acceptable = false ∧
      ({ interjectedOn (ctxOf (runPhase 1) segEnd) with
          ctx := some (ctxOf (runPhase 1) segEnd), stack := [] } : AxisEngine).pastLimit .reset true
        = false := by decide

theorem test_meets_EndRestoresTheSavedContext_takes :
    (({ interjectedOn (ctxOf (runPhase 1) segEnd) with
          requests := { PendingSet.empty with two := some ⟨5, .command⟩ } } : AxisEngine).popped
        (ctxOf .atBegin segEnd) (ctxOf (runPhase 1) segEnd) []).acceptable = true ∧
      ((interjectedOn (ctxOf (runPhase 1) segEnd)).popped (ctxOf .atBegin segEnd)
        (ctxOf (runPhase 1) segEnd) []).acceptable = false := by decide

theorem test_meets_JoinTimeoutBreaksThePoint :
    Quiet meeting ∧ PageLaw meeting ∧ RecordLaw meeting ∧
      (meeting.point 0).deadline = some meeting.timebase ∧
      inMask (meeting.point 0).arrivals 0 = true := by decide

/-- Line IN15 with an action on A0, about to change. -/
def lineDue (e : EdgeSense) (act : LineAction) (capture : Bool) (x : AxisEngine) : State :=
  { (withA0 x []).setLine 15 { qualified := false, runCount := 1 } with
    setup :=
      { base.setup with
        lines :=
          base.setup.lines.set 15
            { LineSetup.reset with
              edge := e, action := act, actionMask := 1, capture := capture, captureMask := 0xFF } } }

theorem test_meets_QualifiedChangeOfALine :
    Quiet (lineDue .falling .off true idleAxis) ∧
      (lineDue .falling .off true idleAxis).changeDue 15 = true ∧
      (lineDue .falling .off true idleAxis).isEdge 15 = false ∧
      (lineDue .rising .off true idleAxis).isEdge 15 = true ∧
      (∀ a : Axis, ((lineDue .rising .off true idleAxis).ax a).waitsOn 15 = false) ∧
      (busy .waitInput (ctxOf (.inSegment (.waitInput 15 true none false true 9)) segEnd)).waitsOn 15
        = true := by decide

/-- A0 and A1 wait for level 1 of IN15, with a DWELL next. -/
def twoWaiting : State :=
  (lineDue .falling .off true
      (busy .waitInput (ctxOf (.inSegment (.waitInput 15 true none false true 9)) segDwell))).setAx 1
    (busy .waitInput (ctxOf (.inSegment (.waitInput 15 true none false true 9)) segDwell))

theorem test_meets_QualifiedChangeOfALine_two :
    Quiet twoWaiting ∧ twoWaiting.changeDue 15 = true ∧ twoWaiting.isEdge 15 = false ∧
      (twoWaiting.ax 0).waitsOn 15 = true ∧ (twoWaiting.ax 1).waitsOn 15 = true ∧
      (∀ b : Axis, 2 ≤ b.val → (twoWaiting.ax b).waitsOn 15 = false) ∧
      ((twoWaiting.lineChanged 15).begins 1 segDwell).isSome = true := by decide

theorem test_meets_EdgeAppliesItsAction :
    (lineDue .rising .halt false (busy .running (ctxOf (runPhase 1) segEnd))).changeDue 15 = true ∧
      (lineDue .both .pause false (busy .running (ctxOf (runPhase 1) segEnd))).isEdge 15 = true ∧
      ((lineDue .both .interject false (busy .running (ctxOf (runPhase 1) segEnd))).lineSetup
        15).actionMask = maskBit 0 ∧
      Quiet (lineDue .rising .interject false
        { busy .running (ctxOf (runPhase 1) segEnd) with
          requests := { PendingSet.empty with three := some ⟨5, .command⟩ } }) := by decide

theorem test_meets_EdgeAppliesItsAction_trips :
    (busy .running (ctxOf (runPhase 1) segEnd)).state.active = true ∧
      (idleAxis.withTrip 15 5).acceptable = true ∧
      (idleAxis.withTrip 15 5).requests.top = some (3, ⟨5, .trip 15⟩) ∧
      (({ busy .dwelling { ctxOf (dwellPhase 1) segEnd with level := 3 } with stack := [] } :
        AxisEngine).withTrip 15 5).acceptable = false ∧
      NoMeeting (lineDue .rising .halt true (busy .running (ctxOf (runPhase 1) segEnd))) 0 ∧
      (∀ a : Axis, ((lineDue .rising .halt true idleAxis).ax a).waitsOn 15 = false) := by decide

/-- A0 waits for level 1 of IN15, the one axis in the mask of its action. -/
def lineAwaited (act : LineAction) : State :=
  lineDue .rising act false
    (busy .waitInput (ctxOf (.inSegment (.waitInput 15 true none false true 9)) segDwell))

theorem test_meets_EdgeAppliesItsAction_waiting :
    Quiet (lineAwaited .halt) ∧ (lineAwaited .halt).changeDue 15 = true ∧
      (lineAwaited .pause).isEdge 15 = true ∧ ((lineAwaited .halt).ax 0).state = .waitInput ∧
      (∀ d : Axis, d ≠ 0 → ((lineAwaited .halt).ax d).waitsOn 15 = false) ∧
      (((lineAwaited .halt).lineChosen 15).begins 0 segDwell).isSome = true := by decide

theorem test_meets_TickBoundaryAdvances :
    base.anyDue = false ∧
      (withA0 (busy .dwelling (ctxOf (dwellPhase 1) segEnd)) []).anyDue = false ∧
      (withA0 (busy .waitInput (ctxOf (waitPhase (some 1) true) segEnd)) []).anyDue = false ∧
      (withA0 { busy .waitInput (ctxOf (waitPhase none true) segEnd) with dirty := true } []).anyDue
        = false ∧
      ({ base with snapsOwed := 1 } : State).anyDue = false := by decide

theorem test_status_is_rewritten_at_the_tick :
    (after (.tickBoundary 0) (withA0 { idleAxis with dirty := true, position := 7 } [])).read 0x0111 = 2 ∧
      (after (.tickBoundary 0) (withA0 { idleAxis with dirty := true, position := 7 } [])).read 0x011C
        = 7 := by decide

/-- The host's word +29 goes when the position changes, though its high word stays 0; without a change
it stands (R4, R98). -/
theorem test_field_is_rewritten_whole :
    (after (.tickBoundary 0)
        (withA0 { idleAxis with dirty := true, position := 7 } [(0x011D, 9)])).read 0x011D = 0 ∧
      (after (.tickBoundary 0) (withA0 { idleAxis with dirty := true } [(0x011D, 9)])).read 0x011D
        = 9 := by decide

/-- RUN_START's own bracket, and a second one in tick 0 (log 31). -/
theorem test_bracket_of_runStart :
    ((({ base with dev := .stopped } : State).startSpan base.setup 0).ax 0).updateCount = 2 ∧
      (((({ base with dev := .stopped } : State).startSpan base.setup 0).touch 0).endTick.ax
        0).updateCount = 4 := by decide

theorem test_meets_RecordsArePlaced :
    (filling 1 10).filling = some (2, 20, 1, 10) ∧ isGeneralPage 20 = true ∧
      (RecordBody.words (.capture 0 true 0xFF [0, 0, 0, 0, 0, 0, 0, 0])).length = 18 ∧
      ({ base with
          ram := ramOf [(0x0040, 20)]
          report := { ReportUnit.reset with slots := ReportUnit.reset.slots.set 0 .empty } } :
        State).poolPage 0 = some 20 ∧ base.report.lastClosed + 1 = 0 ∧
      FillingLaw (filling 9 240) := by decide

theorem test_meets_RecordsWithoutRoom :
    ((short .running .running [] []).tryPlace ⟨5, .starve 0 0 5 0⟩).1 = false ∧
      ((short .running .running [] [⟨5, .starve 0 0 5 0⟩]).tryPlace ⟨5, .starve 0 0 5 0⟩).1 = false := by
  decide

theorem test_meets_SlotSearchOrder :
    base.takeSlot.1 = false ∧
      ({ base with
          ram := ramOf [(0x0040, 20)]
          report := { ReportUnit.reset with slots := ReportUnit.reset.slots.set 0 .empty } } :
        State).takeSlot.1 = true := by decide

theorem test_meets_SlotSearchOrder_pages :
    NoGeneralPage (base.read (slotPageWord 0)) ∧
      ({ base with ram := ramOf [(0x0040, 20)], claims := [(20, ⟨0, 0⟩)] } : State).poolPage 0 = none ∧
      ({ filling 1 10 with ram := ramOf [(0x0040, 20)] } : State).poolPage 0 = none ∧
      ({ base with
          ram := ramOf [(0x0040, 20)]
          report := { ReportUnit.reset with slots := ReportUnit.reset.slots.set 5 (.full (some 20)) } } :
        State).poolPage 0 = none := by decide

theorem test_meets_stateLaws :
    Quiet meeting ∧ BracketLaw meeting ∧ MemoryLaw meeting ∧ ClaimLaw meeting ∧ StackLaw meeting ∧
      PendingLaw meeting := by decide

theorem test_meets_reportLaws :
    FillingLaw meeting ∧ QueueLaw meeting ∧ OweLaw meeting ∧ StoppedLaw meeting := by decide

theorem test_meets_joinAndPageLaws : JoinLaw meeting ∧ PageLaw meeting ∧ RecordLaw meeting := by decide

/-- A0 dwells on page 5, which it has claimed. -/
def claiming : State :=
  { withA0 (busy .dwelling (ctxOf (dwellPhase 3) segEnd)) [] with claims := [(5, ⟨0, 0⟩)] }

theorem test_meets_holderLaws :
    ClaimLaw claiming ∧ RestLaw claiming ∧ HolderLaw claiming ∧ claiming.scanning = false ∧
      IdleBaseLaw claiming ∧ IdleBaseLaw (withA0 (interjectedOn Context.idleBaseContext) []) ∧
      ¬ IdleBaseLaw
        (withA0 (interjectedOn { Context.idleBaseContext with page := some 5 }) []) := by decide

theorem test_meets_stoppedClaims :
    StackLaw (stoppedWith []) ∧ RestLaw (stoppedWith []) ∧ HolderLaw (stoppedWith []) ∧
      (stoppedWith []).dev = .stopped := by decide

theorem test_meets_PulseLawKept :
    Quiet (stepping .running 1 .startWait true (.low none)) ∧
      ((stepping .running 1 .startWait true (.low none)).ax 0).step.isHigh = false := by decide

theorem test_register_reads :
    ({ base with cmdBack := some (1, .taken) } : State).readOffset 1 = 0x0101 ∧
      ({ base with cmdBack := some (10, .refused) } : State).readOffset 1 = 0x020A ∧
      ({ base with dev := .stopped, faultCode := .inputHead, faultIndex := 6 } : State).readOffset 2
        = 0x0651 := by decide

theorem test_meets_RegisterStatements :
    State.reset.inInit = true ∧ base.inInit = false ∧
      (base.ax 0).haltCause = none ∧ (base.ax 0).dirZero = .notWaiting ∧
      (withA0 (busy .running (ctxOf (runPhase 1) segEnd)) []).statusWords 0 ≠ [] ∧
      ((busy .running (ctxOf (runPhase 1) segEnd)).halted .trip 3).haltCause = some .trip ∧
      ((busy .running (ctxOf (runPhase 1) segEnd)).halted .trip 3).ctx = none := by decide

theorem test_status_of_a_run_begun_in_this_tick :
    ((withA0 { busy .running (ctxOf (runPhase 1) segEnd) with beganCount := some 2 } []).statusWords
        0)[8]? = some 2 ∧
      ((withA0 (busy .running (ctxOf (runPhase 1) segEnd)) []).statusWords 0)[8]? = some 1 := by decide

/-- The laws' premises together with a step that answers a next state. -/
theorem test_meets_LawsKept :
    (Quiet meeting ∧ FillingLaw meeting ∧ StackLaw meeting) ∧
      step { meeting with pending := [.flush] } = .next (after .flush meeting) :=
  ⟨by decide, rfl⟩

end Sys2Proof.Machine.Tests
end

