-- ==== Sys2Proof/Proofs/FirstFault.lean ====
section
/-!
PROOF. The order of the setup checks (R27): each check of the model against the table of the statement,
the first failing item of a list, and RUN_START with a setup that fails (R28).
-/
namespace Sys2Proof.Machine

/-! ### Each item against the table of R27 -/

theorem Setup.fails_ok (c : Setup) (i : Fin 16) : c.fails .ok i = false := rfl

theorem Setup.fails_noAxes_iff (c : Setup) (i : Fin 16) :
    c.fails .noAxes i = true ↔ i = 0 ∧ c.enabled = 0 := by
  simp [Setup.fails]

/-- AXIS_LIMITS is checked for axes only. -/
theorem Setup.axis_of_fails_axisLimits {c : Setup} {i : Fin 16}
    (h : c.fails .axisLimits i = true) : i.val < 8 := by
  by_contra hi
  simp [Setup.fails, hi] at h

theorem Setup.axisFault_eq (c : Setup) (a : Axis) :
    c.axisFault a =
      if c.fails .axisLimits (a.castLE (by decide)) = true then some .axisLimits else none := by
  simp [Setup.axisFault, Setup.fails, inMask, and_assoc, or_assoc]

theorem Setup.pointFault_eq (c : Setup) (j : Point) :
    c.pointFault j = if c.fails .joinMembers j = true then some .joinMembers else none := rfl

/-- A head is refused exactly when it lies outside 3 to 127. -/
theorem generalPage?_eq_none_iff (v : Word) :
    generalPage? v = none ↔ v.toNat < 3 ∨ 127 < v.toNat := by
  unfold generalPage?
  split <;> simp <;> omega

theorem Setup.lineFault_eq (c : Setup) (n : Line) :
    c.lineFault n =
      if c.fails .inputAxes n = true then some .inputAxes
      else if c.fails .inputHead n = true then some .inputHead
      else none := by
  simp [Setup.lineFault, Setup.fails, Setup.namesDisabled, generalPage?_eq_none_iff]

/-! ### The first failing item of a list -/

theorem firstFailing_eq_none {n : Nat} {f : Fin n → Option SetupFault} (l : List (Fin n))
    (h : ∀ j, f j = none) : firstFailing f l = none := by
  induction l with
  | nil => rfl
  | cons j l ih => simp [firstFailing, h j, ih]

/-- On a rising list the result is the failing item before which none fails. -/
theorem firstFailing_eq_some {n : Nat} {f : Fin n → Option SetupFault} {i : Fin n} {e : SetupFault}
    {l : List (Fin n)} (hl : l.Pairwise (· < ·)) (hi : i ∈ l) (hf : f i = some e)
    (hbefore : ∀ j < i, f j = none) : firstFailing f l = some (e, BitVec.ofNat 4 i.val) := by
  induction l with
  | nil => cases hi
  | cons j l ih =>
    obtain ⟨hj, hl⟩ := List.pairwise_cons.mp hl
    rcases List.mem_cons.mp hi with rfl | hi
    · simp [firstFailing, hf]
    · simp [firstFailing, hbefore j (hj i hi), ih hl hi]

theorem rising_allAxes : allAxes.Pairwise (· < ·) := by decide

theorem rising_allSixteen : allSixteen.Pairwise (· < ·) := by decide

/-! ### The order of the checks -/

/-- Every check that stands before check `f` of item `i` passes. -/
def Setup.PassesBefore (c : Setup) (f : SetupFault) (i : Fin 16) : Prop :=
  ∀ (g : SetupFault) (j : Fin 16), checkOrder g j < checkOrder f i → c.fails g j = false

theorem Setup.passesBefore_of_first {c : Setup} {f : SetupFault} {i : Fin 16}
    (h : ∀ (g : SetupFault) (j : Fin 16), c.fails g j = true → checkOrder f i ≤ checkOrder g j) :
    c.PassesBefore f i := fun g j hlt =>
  Bool.eq_false_iff.mpr fun hg => Nat.not_lt.mpr (h g j hg) hlt

section Before

variable {c : Setup} {f : SetupFault} {i : Fin 16}

theorem Setup.PassesBefore.enabled_ne (h : c.PassesBefore f i) (hf : 0 < checkOrder f i) :
    c.enabled ≠ 0 := fun h0 =>
  Bool.eq_false_iff.mp (h .noAxes 0 hf) ((c.fails_noAxes_iff 0).mpr ⟨rfl, h0⟩)

theorem Setup.PassesBefore.axisFault_none (h : c.PassesBefore f i) (a : Axis)
    (ha : 100 + 2 * a.val < checkOrder f i) : c.axisFault a = none := by
  rw [Setup.axisFault_eq, h .axisLimits (a.castLE (by decide)) ha]
  rfl

theorem Setup.PassesBefore.pointFault_none (h : c.PassesBefore f i) (j : Point)
    (hj : 200 + 2 * j.val < checkOrder f i) : c.pointFault j = none := by
  rw [Setup.pointFault_eq, h .joinMembers j hj]
  rfl

theorem Setup.PassesBefore.lineFault_none (h : c.PassesBefore f i) (n : Line)
    (hn : 301 + 2 * n.val < checkOrder f i) : c.lineFault n = none := by
  have haxes : c.fails .inputAxes n = false :=
    h .inputAxes n (show 300 + 2 * n.val < checkOrder f i by omega)
  rw [Setup.lineFault_eq, haxes, h .inputHead n hn]
  rfl

/-- When the setup block and the axes pass, the points decide, then the lines. -/
theorem Setup.PassesBefore.firstFault_eq (h : c.PassesBefore f i) (hf : 200 ≤ checkOrder f i) :
    c.firstFault =
      (firstFailing c.pointFault allSixteen).or (firstFailing c.lineFault allSixteen) := by
  have haxes : firstFailing c.axisFault allAxes = none :=
    firstFailing_eq_none allAxes fun a => h.axisFault_none a (by omega)
  rw [Setup.firstFault, if_neg (h.enabled_ne (by omega)), haxes]
  cases firstFailing c.pointFault allSixteen <;> rfl

/-- The first failing check is a line's: it is the line's own first fault. -/
theorem Setup.PassesBefore.firstFault_eq_line (h : c.PassesBefore f i)
    (hf : 300 + 2 * i.val ≤ checkOrder f i) (hline : c.lineFault i = some f) :
    c.firstFault = some (f, BitVec.ofNat 4 i.val) := by
  have hpoints : firstFailing c.pointFault allSixteen = none :=
    firstFailing_eq_none allSixteen fun j => h.pointFault_none j (by omega)
  have hlines : firstFailing c.lineFault allSixteen = some (f, BitVec.ofNat 4 i.val) :=
    firstFailing_eq_some rising_allSixteen (mem_allSixteen i) hline fun n hn =>
      h.lineFault_none n (by omega)
  rw [h.firstFault_eq (by omega), hpoints, hlines, Option.none_or]

end Before

/-- The model's validation answers the failing check that comes first in the order of R27. -/
theorem Setup.firstFault_eq_some {c : Setup} {f : SetupFault} {i : Fin 16}
    (hfail : c.fails f i = true) (h : c.PassesBefore f i) :
    c.firstFault = some (f, BitVec.ofNat 4 i.val) := by
  cases f with
  | ok => rw [Setup.fails_ok] at hfail; cases hfail
  | noAxes =>
    obtain ⟨rfl, h0⟩ := (c.fails_noAxes_iff i).mp hfail
    exact if_pos h0
  | axisLimits =>
    have hi : i.val < 8 := Setup.axis_of_fails_axisLimits hfail
    have haxis : c.axisFault ⟨i.val, hi⟩ = some .axisLimits :=
      (c.axisFault_eq ⟨i.val, hi⟩).trans (if_pos hfail)
    have haxes : firstFailing c.axisFault allAxes = some (.axisLimits, BitVec.ofNat 4 i.val) :=
      firstFailing_eq_some rising_allAxes (mem_allAxes ⟨i.val, hi⟩) haxis fun a ha =>
        h.axisFault_none a (by simp only [checkOrder, Fin.lt_def] at ha ⊢; omega)
    rw [Setup.firstFault, if_neg (h.enabled_ne (by simp only [checkOrder]; omega)), haxes]
  | joinMembers =>
    have hpoint : c.pointFault i = some .joinMembers := (c.pointFault_eq i).trans (if_pos hfail)
    have hpoints : firstFailing c.pointFault allSixteen = some (.joinMembers, BitVec.ofNat 4 i.val) :=
      firstFailing_eq_some rising_allSixteen (mem_allSixteen i) hpoint fun j hj =>
        h.pointFault_none j (by simp only [checkOrder, Fin.lt_def] at hj ⊢; omega)
    rw [h.firstFault_eq (Nat.le_add_right ..), hpoints, Option.some_or]
  | inputAxes =>
    exact h.firstFault_eq_line (Nat.le_refl _) ((c.lineFault_eq i).trans (if_pos hfail))
  | inputHead =>
    have haxes : c.fails .inputAxes i = false := h .inputAxes i (by simp [checkOrder])
    refine h.firstFault_eq_line (by simp only [checkOrder]; omega) ?_
    rw [Setup.lineFault_eq, haxes, hfail]
    rfl

/-! ### RUN_START -/

/-- RUN_START in STOPPED with a failing setup only shows the fault (R28). -/
theorem exec_runStart_of_firstFault {raw : BitVec 16} {s : State} {f : SetupFault} {index : BitVec 4}
    (hdev : s.dev = .stopped) (h : (Memory.setup s.ram).firstFault = some (f, index)) :
    exec (.runStart raw) s =
      .next
        { s with
          faultCode := f, faultIndex := index
          acause := s.acause ||| 0x002, cmdBack := some (1, .refused) } := by
  have hcmd : s.runStartCommand raw = s.refuseStart f index := by
    simp only [State.runStartCommand, hdev, h]
  exact congrArg Host.Outcome.next hcmd

/-- Settles O9: the failing check that comes first in the order of R27 is the model's result, and
refuseStart shows it. -/
theorem runStartShowsTheFirstFault : Obligations.RunStartShowsTheFirstFault := by
  intro raw s f i hdev hfail hfirst
  exact exec_runStart_of_firstFault hdev
    (Setup.firstFault_eq_some hfail (Setup.passesBefore_of_first hfirst))

end Sys2Proof.Machine
end

