-- ==== Sys2Proof/Proofs/StepStart.lean ====
section
/-!
PROOF. STEP_START: the clamp of the next interval (R62), the start of a step on a RUN (R61, R63), and the
conditions under which the gate lets a due step start (R65, R67).
-/
namespace Sys2Proof.Machine

/-! ### The clamp of the interval (R62) -/

theorem clampInterval_of_lt {v : Int} (h : v < 32) : clampInterval v = 32 := if_pos h

theorem clampInterval_of_gt {v : Int} (h : 16777215 < v) : clampInterval v = 16777215 :=
  (if_neg (by omega)).trans (if_pos h)

theorem clampInterval_of_within {v : Int} (hlow : 32 ≤ v) (hhigh : v ≤ 16777215) :
    (clampInterval v : Int) = v := by
  rw [clampInterval, if_neg (by omega), if_neg (by omega)]
  exact Int.toNat_of_nonneg (by omega)

/-! ### The conditions of the gate (R65, R67) -/

/-- Quiet time: no pulse since power-on, or STEP low for one whole tick before `now`. -/
theorem StepOut.quiet_iff (o : StepOut) (now : Nat) :
    o.quiet now = true ↔ o = .low none ∨ ∃ since, o = .low (some since) ∧ since + 1 ≤ now := by
  rcases o with until_ | _ | since <;> simp [StepOut.quiet]

theorem AxisEngine.leadPassed_iff (x : AxisEngine) (dirlead now : Nat) :
    x.leadPassed dirlead now = true ↔ ∀ tick, x.dirChange = some tick → tick + dirlead ≤ now := by
  unfold AxisEngine.leadPassed
  cases x.dirChange <;> simp

theorem AxisEngine.mayStart_iff (x : AxisEngine) (dirlead now : Nat) :
    x.mayStart dirlead now = true ↔
      x.gate = .startWait ∧ x.leadPassed dirlead now = true ∧ x.step.quiet now = true := by
  simp [AxisEngine.mayStart, and_assoc]

theorem AxisState.stepping_iff (st : AxisState) :
    st.stepping = true ↔ st = .running ∨ st = .pausing := by
  cases st <;> simp [AxisState.stepping]

theorem State.stepping_iff (s : State) (a : Axis) :
    s.stepping a = true ↔
      s.dev = .running ∧ ((s.ax a).state = .running ∨ (s.ax a).state = .pausing) := by
  simp [State.stepping, AxisState.stepping_iff]

/-- A step start is due where the axis has step boundaries, runs a RUN and the gate lets the step start. -/
theorem State.stepStartDue_iff (s : State) (a : Axis) :
    s.stepStartDue a = true ↔
      s.stepping a = true ∧ (s.ax a).runForward ≠ none ∧ (s.ax a).mayStart s.dirlead s.now = true := by
  simp [State.stepStartDue, and_assoc, Option.isSome_iff_ne_none]

/-- The gate's conditions written out on the fields of the state. -/
theorem State.stepStartDue_iff_fields (s : State) (a : Axis) :
    s.stepStartDue a = true ↔
      s.dev = .running ∧ ((s.ax a).state = .running ∨ (s.ax a).state = .pausing) ∧
      (s.ax a).gate = .startWait ∧ (s.ax a).runForward ≠ none ∧
      (∀ tick, (s.ax a).dirChange = some tick → tick + s.setup.dirlead.toNat ≤ s.now) ∧
      ((s.ax a).step = .low none ∨ ∃ since, (s.ax a).step = .low (some since) ∧ since + 1 ≤ s.now) := by
  rw [s.stepStartDue_iff, s.stepping_iff, AxisEngine.mayStart_iff, AxisEngine.leadPassed_iff,
    StepOut.quiet_iff, State.dirlead]
  constructor
  · rintro ⟨⟨hdev, hstate⟩, hrun, hgate, hlead, hquiet⟩
    exact ⟨hdev, hstate, hgate, hrun, hlead, hquiet⟩
  · rintro ⟨hdev, hstate, hgate, hrun, hlead, hquiet⟩
    exact ⟨⟨hdev, hstate⟩, hrun, hgate, hlead, hquiet⟩

/-! ### The start of a step -/

/-- What the start of a step does to an axis engine on a RUN (R61). -/
theorem AxisEngine.startStep_run {x : AxisEngine} {c : Context} {n v w : Nat} {d : Int}
    {f rep : Bool} {tag : Word} (hctx : x.ctx = some c)
    (hphase : c.phase = .inSegment (.run n v d w f rep tag)) (now : Nat) :
    x.startStep now =
      { x with
        ctx :=
          some
            { c with
              residue := (c.residue + v) % 16
              phase := .inSegment (.run (n - 1) (clampInterval (v + d)) d w f rep tag) }
        position := if f then x.position + 1 else x.position - 1
        step := .high (now + min w ((c.residue + v) / 16 - 1))
        gate := .inFlight (now + (c.residue + v) / 16) } := by
  simp only [AxisEngine.startStep, hctx, hphase]

/-- STEP_START where it is due changes the one axis and nothing else. -/
theorem exec_stepStart_of_due {a : Axis} {s : State} (h : s.stepStartDue a = true) :
    exec (.stepStart a) s = .next (s.setAx a ((s.ax a).startStep s.now)) :=
  if_pos h

/-- Settles O40: the next interval is the clamp of V + D, the start of a step is the model's startStep on
a RUN, and the gate's conditions are those of the fields. -/
theorem stepStartBeginsAStep : Obligations.StepStartBeginsAStep := by
  refine ⟨fun a s c n v d w f rep tag hctx hphase hdue => ?_, fun a s => s.stepStartDue_iff_fields a⟩
  refine ⟨clampInterval (v + d), clampInterval_of_lt, clampInterval_of_gt, clampInterval_of_within, ?_⟩
  rw [exec_stepStart_of_due hdue, AxisEngine.startStep_run hctx hphase]

end Sys2Proof.Machine
end

