-- ==== Sys2Proof/Proofs/Rearm.lean ====
section
/-!
PROOF. REARM (R131): the three answers of a join point to a write of its control word, and what the
opening of a BROKEN point does to the point table and to the exchange RAM.
-/
namespace Sys2Proof.Machine

/-! ### The words of one entry -/

/-- Two words of one join entry have different addresses. -/
theorem joinWord_ne (j : Point) {m n : Nat} (hm : m < 8) (hn : n < 8) (h : m ≠ n) :
    joinWord j m ≠ joinWord j n := by
  intro he
  have hval := congrArg BitVec.toNat he
  simp only [joinWord, BitVec.toNat_ofNat] at hval
  omega

/-! ### The opened point -/

/-- What the write of 1 leaves of a BROKEN point `j` in RUNNING: the stored control word, the OPEN point
and its words +4 and +3. -/
def State.rearmed (j : Point) (s : State) : State :=
  (((s.write (joinWord j 2) 1).setPoint j
    { s.point j with state := .opened, arrivals := 0 }).write (joinWord j 4) 0).write (joinWord j 3) 0

section Opened

variable (j : Point) (s : State)

theorem State.rearmed_frame :
    s.rearmed j = { s with ram := (s.rearmed j).ram, points := (s.rearmed j).points } := rfl

theorem State.point_rearmed_same :
    (s.rearmed j).point j = { s.point j with state := .opened, arrivals := 0 } :=
  State.point_setPoint_same (s.write (joinWord j 2) 1) j _

theorem State.point_rearmed_ne {i : Point} (h : i ≠ j) : (s.rearmed j).point i = s.point i :=
  State.point_setPoint_ne (s.write (joinWord j 2) 1) h _

/-- Every read after the opening: the three words of the entry, written last first, and the rest. -/
theorem State.read_rearmed (addr : Addr) :
    (s.rearmed j).read addr =
      if joinWord j 3 = addr then 0
      else if joinWord j 4 = addr then 0
      else if joinWord j 2 = addr then 1
      else s.read addr := by
  have hset (u : State) (p : JoinPoint) : (u.setPoint j p).read addr = u.read addr := rfl
  rw [State.rearmed, State.read_write, State.read_write, hset, State.read_write]

theorem State.read_rearmed_control : (s.rearmed j).read (joinWord j 2) = 1 := by
  have h3 : joinWord j 3 ≠ joinWord j 2 := joinWord_ne j (by decide) (by decide) (by decide)
  have h4 : joinWord j 4 ≠ joinWord j 2 := joinWord_ne j (by decide) (by decide) (by decide)
  rw [State.read_rearmed, if_neg h3, if_neg h4, if_pos rfl]

theorem State.read_rearmed_state : (s.rearmed j).read (joinWord j 3) = 0 := by
  rw [State.read_rearmed, if_pos rfl]

theorem State.read_rearmed_arrivals : (s.rearmed j).read (joinWord j 4) = 0 := by
  rw [State.read_rearmed, if_pos rfl, ite_self]

theorem State.rearmed_sameRamBut :
    SameRamBut
      (fun addr => addr == joinWord j 2 || addr == joinWord j 3 || addr == joinWord j 4)
      s (s.rearmed j) := by
  intro addr h
  simp only [Bool.or_eq_false_iff, beq_eq_false_iff_ne] at h
  obtain ⟨⟨h2, h3⟩, h4⟩ := h
  rw [State.read_rearmed, if_neg h3.symm, if_neg h4.symm, if_neg h2.symm]

end Opened

/-! ### The three answers of REARM -/

section Answers

variable {j : Point} {value : Word} {s : State}

theorem State.inInit_of_running (h : s.dev = .running) : s.inInit = false := by
  rw [State.inInit, h]

theorem exec_rearm_of_inInit (h : s.inInit = true) : exec (.rearm j value) s = .next s :=
  congrArg Host.Outcome.next (if_pos h)

/-- Any write that does not open the point is stored and has no other effect. -/
theorem exec_rearm_of_ignored (hinit : s.inInit = false)
    (h : s.dev ≠ .running ∨ value ≠ 1 ∨ (s.point j).state = .opened) :
    exec (.rearm j value) s = .next (s.write (joinWord j 2) value) := by
  have hopens : ¬(s.dev = .running ∧ value = 1 ∧ (s.point j).state ≠ .opened) := by
    rintro ⟨hdev, hvalue, hpoint⟩
    exact h.elim (· hdev) fun h => h.elim (· hvalue) hpoint
  exact congrArg Host.Outcome.next
    ((if_neg (Bool.eq_false_iff.mp hinit)).trans (if_neg hopens))

theorem exec_rearm_of_broken (hdev : s.dev = .running) (hpoint : (s.point j).state ≠ .opened) :
    exec (.rearm j 1) s = .next (s.rearmed j) :=
  congrArg Host.Outcome.next
    ((if_neg (Bool.eq_false_iff.mp (State.inInit_of_running hdev))).trans
      (if_pos ⟨hdev, rfl, hpoint⟩))

end Answers

/-- Settles O34: INIT discards the write, a write that opens nothing is stored, and 1 to a BROKEN point in
RUNNING gives the rearmed state. -/
theorem rearmOpensABrokenPoint : Obligations.RearmOpensABrokenPoint := by
  intro j value s
  refine ⟨exec_rearm_of_inInit, exec_rearm_of_ignored, ?_⟩
  rintro hdev rfl hpoint
  exact ⟨s.rearmed j, exec_rearm_of_broken hdev hpoint, s.rearmed_frame j, s.point_rearmed_same j,
    fun i => s.point_rearmed_ne j, s.read_rearmed_control j, s.read_rearmed_arrivals j,
    s.read_rearmed_state j, s.rearmed_sameRamBut j⟩

end Sys2Proof.Machine
end

