-- ==== Sys2Proof/Proofs/Alerts.lean ====
section
/-!
PROOF. The alert registers: ID (R167), the writes to ACAUSE and AMASK (R171, R172), the level of ALERT_N
(R172), and what both resets leave of the two registers (R32, R33).
-/
namespace Sys2Proof.Machine

/-! ### What ID and AMASK read -/

@[simp] theorem State.readRegister_id (s : State) : s.readRegister .id = 0x8201 := rfl

theorem State.readRegister_amask (s : State) : s.readRegister .amask = 0#6 ++ s.amask :=
  BitVec.setWidth_eq_append (by decide)

/-- Settles O14. -/
theorem idReadsPartCode : Obligations.IdReadsPartCode := State.readRegister_id

/-! ### The writes -/

section Writes

variable {value : Word} {s : State}

theorem exec_acauseWrite_of_inInit (h : s.inInit = true) : exec (.acauseWrite value) s = .next s :=
  congrArg Host.Outcome.next (if_pos h)

theorem exec_acauseWrite (h : s.inInit = false) :
    exec (.acauseWrite value) s = .next (s.clearCauses value) :=
  congrArg Host.Outcome.next (if_neg (Bool.eq_false_iff.mp h))

theorem exec_amaskWrite_of_inInit (h : s.inInit = true) : exec (.amaskWrite value) s = .next s :=
  congrArg Host.Outcome.next (if_pos h)

theorem exec_amaskWrite (h : s.inInit = false) :
    exec (.amaskWrite value) s = .next { s with amask := value.extractLsb' 0 10 } :=
  congrArg Host.Outcome.next (if_neg (Bool.eq_false_iff.mp h))

end Writes

theorem State.clearCauses_frame (value : Word) (s : State) :
    s.clearCauses value = { s with acause := (s.clearCauses value).acause } := rfl

/-- A cause is left exactly where the value written has a 0. -/
theorem State.getLsbD_clearCauses (value : Word) (s : State) (b : Fin 10) :
    (s.clearCauses value).acause.getLsbD b.val =
      (s.acause.getLsbD b.val && !value.getLsbD b.val) := by
  simp [State.clearCauses]

/-! ### ALERT_N -/

theorem bits_ne_zero_iff {w : Nat} (x : BitVec w) :
    x ≠ 0 ↔ ∃ b : Fin w, x.getLsbD b.val = true := by
  rw [Ne, BitVec.eq_of_getLsbD_eq_iff]
  simp only [not_forall, BitVec.ofNat_eq_ofNat, BitVec.getLsbD_zero, Bool.not_eq_false, Fin.exists_iff]

theorem State.alertN_eq_false_iff_and_ne_zero (s : State) :
    s.alertN = false ↔ s.acause &&& s.amask ≠ 0 := by
  simp [State.alertN, State.alertAsserted]

theorem State.alertN_eq_false_iff (s : State) :
    s.alertN = false ↔
      ∃ b : Fin 10, s.acause.getLsbD b.val = true ∧ s.amask.getLsbD b.val = true := by
  rw [s.alertN_eq_false_iff_and_ne_zero, bits_ne_zero_iff]
  simp only [BitVec.getLsbD_and, Bool.and_eq_true]

/-- With every cause masked ALERT_N is high. -/
theorem State.alertN_of_amask_eq_zero {s : State} (h : s.amask = 0) : s.alertN = true := by
  simp [State.alertN, State.alertAsserted, h]

/-! ### The resets -/

theorem exec_hardReset_alerts (kind : ResetKind) (s : State) :
    ∃ t, exec (.hardReset kind) s = .next t ∧ t.acause = 0 ∧ t.amask = 0 :=
  ⟨_, rfl, rfl, rfl⟩

theorem exec_softReset {s : State} (h : s.inInit = false) : exec .softReset s = .next s.softReset :=
  congrArg Host.Outcome.next (if_neg (Bool.eq_false_iff.mp h))

@[simp] theorem State.softReset_acause (s : State) : s.softReset.acause = 0 := rfl

@[simp] theorem State.softReset_amask (s : State) : s.softReset.amask = 0 := rfl

/-! ### The two registers -/

/-- Settles O15: outside INIT the write is clearCauses, said bit by bit, and each reset leaves
ACAUSE 0. -/
theorem acauseWriteClears : Obligations.AcauseWriteClears := by
  refine ⟨fun value s => ⟨exec_acauseWrite_of_inInit, fun h => ?outside⟩, fun kind s => ?hard,
    fun s h => ⟨s.softReset, exec_softReset h, s.softReset_acause⟩⟩
  case outside =>
    exact ⟨s.clearCauses value, exec_acauseWrite h, s.clearCauses_frame value,
      s.getLsbD_clearCauses value⟩
  case hard =>
    obtain ⟨t, hexec, hacause, -⟩ := exec_hardReset_alerts kind s
    exact ⟨t, hexec, hacause⟩

/-- Settles O16: ALERT_N is low where ACAUSE and AMASK share a bit, and each reset leaves AMASK 0, which
drives it high. -/
theorem alertFollowsMaskAndCauses : Obligations.AlertFollowsMaskAndCauses := by
  refine ⟨fun value s => ⟨exec_amaskWrite_of_inInit, exec_amaskWrite⟩, State.readRegister_amask,
    State.alertN_eq_false_iff, fun kind s => ?hard, fun s h => ?soft⟩
  case hard =>
    obtain ⟨t, hexec, -, hamask⟩ := exec_hardReset_alerts kind s
    exact ⟨t, hexec, hamask, State.alertN_of_amask_eq_zero hamask⟩
  case soft =>
    exact ⟨s.softReset, exec_softReset h, s.softReset_amask,
      State.alertN_of_amask_eq_zero s.softReset_amask⟩

end Sys2Proof.Machine
end

