-- ==== Sys2Proof/Proofs/Moves.lean ====
section
/-!
PROOF. What a piece of chain work can do to the state. Every function of chapters 3 to 7 is a sequence of
moves at one axis, with at most one further step of that axis's own chain put on the agenda; an entry into
a page begins with one more kind of move. A law that every move keeps is kept by every task.
-/
namespace Sys2Proof.Machine

/-! ### Changes of one axis engine -/

/-- From `x` to `y` the update count and STEP stand, and DIR changes only while STEP is low. -/
structure OutputsKept (x y : AxisEngine) : Prop where
  updateCount : y.updateCount = x.updateCount
  step : y.step = x.step
  dir : y.dir ≠ x.dir → y.step.isHigh = false

theorem OutputsKept.refl (x : AxisEngine) : OutputsKept x x := ⟨rfl, rfl, fun h => absurd rfl h⟩

/-- An update that leaves the update count and both outputs. -/
theorem OutputsKept.of_eq {x y : AxisEngine} (hcount : y.updateCount = x.updateCount)
    (hstep : y.step = x.step) (hdir : y.dir = x.dir) : OutputsKept x y :=
  ⟨hcount, hstep, fun h => absurd hdir h⟩

/-- Context `c` has something to do on its page: it is past its begin point, or a record to begin is
read. -/
abbrev Context.Busy (c : Context) : Prop := c.phase ≠ .atBegin ∨ c.following ≠ none

/-- Context `d` is busy context `c` further on in the same place. -/
structure Context.SamePlace (c d : Context) : Prop where
  busy : c.Busy
  level : d.level = c.level
  idleBase : d.idleBase = c.idleBase
  page : d.page = c.page

/-- What one update of an axis engine does to its state, contexts and requests. -/
inductive ContextsWork (x y : AxisEngine) : Prop
  | keeps (ctx : y.ctx = x.ctx) (stack : y.stack = x.stack) (requests : y.requests = x.requests)
      (state : y.state = x.state ∨ y.state.active = true ∧ (x.state.active = true ∨ x.ctx ≠ none))
  | works (c d : Context) (hx : x.ctx = some c) (hy : y.ctx = some d) (place : c.SamePlace d)
      (going : d.isStarved = false) (stack : y.stack = x.stack) (requests : y.requests = x.requests)
      (state : y.state = x.state ∨ y.state.active = true)
  | takes (l : Level) (r : Request) (top : x.requests.top = some (l, r))
      (accepted : x.acceptable = true) (ctx : y.ctx = some (Context.fresh l r.head))
      (stack : y.stack = x.ctx.getD Context.idleBaseContext :: x.stack)
      (requests : y.requests = x.requests.set l none) (state : y.state = .running)
  | asks (l : Level) (r : Option Request)
      (may : r = none ∨ x.state ≠ .off ∧ x.state ≠ .halted) (ctx : y.ctx = x.ctx)
      (stack : y.stack = x.stack) (requests : y.requests = x.requests.set l r)
      (state : y.state = x.state)
  | idles (c : Context) (hx : x.ctx = some c) (base : c.idleBase = true) (hy : y.ctx = none)
      (stack : y.stack = x.stack) (requests : y.requests = x.requests) (state : y.state = .idle)
  | starts (head : Word) (idle : x.state = .idle) (ctx : y.ctx = some (Context.fresh 0 head))
      (stack : y.stack = x.stack) (requests : y.requests = x.requests) (state : y.state = .running)
  | clears (halted : x.state = .halted) (ctx : y.ctx = x.ctx) (stack : y.stack = x.stack)
      (requests : y.requests = x.requests) (state : y.state = .idle)

/-- An update that leaves state, contexts and requests. -/
theorem ContextsWork.same {x y : AxisEngine} (hctx : y.ctx = x.ctx) (hstack : y.stack = x.stack)
    (hrequests : y.requests = x.requests) (hstate : y.state = x.state) : ContextsWork x y :=
  .keeps hctx hstack hrequests (.inl hstate)

/-- The running context goes and the top saved context, if there is one, takes its place. -/
structure DropsContext (x y : AxisEngine) : Prop where
  ctx : y.ctx = x.stack.head?
  stack : y.stack = x.stack.tail
  requests : y.requests = x.requests
  state : y.state = if x.stack = [] then .idle else .running

/-- Running context `c` starves on its link. -/
structure StarvesOnLink (x y : AxisEngine) (c : Context) (q : Page) : Prop where
  ctx : y.ctx = some (c.starve (.link q))
  stack : y.stack = x.stack
  requests : y.requests = x.requests
  state : y.state.active = true

/-! ### Changes of one join point -/

/-- What the join unit does to a point with members `m`: it breaks, it is released, or a member arrives
that is not the last. -/
inductive PointWork (m : AxisMask) (p q : JoinPoint) : Prop
  | breaks (arrivals : q.arrivals = p.arrivals) (state : q.state ≠ .opened)
  | clears (arrivals : q.arrivals = 0)
  | arrives (b : Axis) (member : inMask m b = true) (arrivals : q.arrivals = p.arrivals ||| maskBit b)
      (missing : q.arrivals ≠ m)

/-! ### Moves -/

/-- One move of the work at axis `a`. -/
inductive Move (a : Axis) (s : State) : State → Prop
  | cause (c : AlertCause) : Move a s (s.setCause c)
  | event (k : Task) (h : k.movesChain = false) : Move a s (s.push k)
  | record (body : RecordBody) (h : body.words.length ≤ 18) : Move a s (s.handRecord body)
  | joinEntry (j : Point) (n : Nat) (v : Word) (h : 3 ≤ n ∧ n ≤ 5) :
      Move a s (s.write (joinWord j n) v)
  | line (n : Line) (l : InputLine) : Move a s (s.setLine n l)
  | mirror (n : Line) (v : Word) : Move a s (s.write (lineWord n 7) v)
  | point (j : Point) (p : JoinPoint) (h : PointWork (s.members j) (s.point j) p) :
      Move a s (s.setPoint j p)
  | engine (x : AxisEngine) (outputs : OutputsKept (s.ax a) x) (contexts : ContextsWork (s.ax a) x) :
      Move a s (s.setAx a x)
  | released (b : Axis) (j : Point) (g : Word) :
      Move a s
        (s.setAx b
          { s.ax b with
            ctx := (s.ax b).ctx.map (Context.flagReleased j g)
            stack := (s.ax b).stack.map (Context.flagReleased j g) })
  | halts (cause : HaltCause) (detail : BitVec 8) (h : (s.ax a).state.active = true) :
      Move a s ((s.releaseAxisClaims a).setAx a ((s.ax a).halted cause detail))
  | leaves (c : Context) (q : Page) (hc : (s.ax a).ctx = some c) (hq : c.page = some q) :
      Move a s (s.releasePage q { axis := a, level := c.level } s.timebase)
  | starves (c : Context) (q : Page) (x : AxisEngine) (hc : (s.ax a).ctx = some c)
      (hq : c.page = some q) (outputs : OutputsKept (s.ax a) x)
      (contexts : StarvesOnLink (s.ax a) x c q) :
      Move a s ((s.releasePage q { axis := a, level := c.level } s.timebase).setAx a x)
  | drops (c : Context) (x : AxisEngine) (hc : (s.ax a).ctx = some c) (busy : c.Busy)
      (outputs : OutputsKept (s.ax a) x) (contexts : DropsContext (s.ax a) x) :
      Move a s ((s.releasePage c.pageOr0 { axis := a, level := c.level } s.timebase).setAx a x)

/-- A sequence of moves at axis `a`. -/
def Moves (a : Axis) : State → State → Prop := Relation.ReflTransGen (Move a)

theorem Moves.refl {a : Axis} {s : State} : Moves a s s := Relation.ReflTransGen.refl

theorem Moves.trans {a : Axis} {s t u : State} (h : Moves a s t) (k : Moves a t u) : Moves a s u :=
  Relation.ReflTransGen.trans h k

theorem Moves.tail {a : Axis} {s t u : State} (h : Moves a s t) (k : Move a t u) : Moves a s u :=
  Relation.ReflTransGen.tail h k

theorem Move.moves {a : Axis} {s t : State} (h : Move a s t) : Moves a s t := Moves.tail .refl h

/-- What every move keeps, a sequence of moves keeps. -/
theorem Moves.keeps {a : Axis} {P : State → Prop} (hmove : ∀ s t, Move a s t → P s → P t)
    {s t : State} (h : Moves a s t) (hs : P s) : P t := by
  induction h with
  | refl => exact hs
  | tail _ hlast ih => exact hmove _ _ hlast ih

/-- The first move of an entry of the running context of axis `a` into the page that `value` names: the
claim is granted, or the context starves on the page. -/
inductive EntryMove (a : Axis) (value : Word) (s : State) : State → Prop
  | granted (c : Context) (p : Page) (count : Nat) (r : SegRecord) (hc : (s.ax a).ctx = some c)
      (hp : generalPage? value = some p) (free : s.claimed p = false) :
      EntryMove a value s
        ((({ s with claims := Sparse.insert s.claims p.toNat { axis := a, level := c.level } } :
            State).write (pageWord p 1) 2).setAx a
          { s.ax a with
            ctx :=
              some
                { c with
                  page := some p, count := count, index := 0, following := some r
                  phase := .atBegin }
            gate := .idle, dirty := true })
  | starves (c : Context) (p : Page) (st : AxisState) (hc : (s.ax a).ctx = some c)
      (hp : generalPage? value = some p) (free : s.claimed p = false) (hst : st.active = true) :
      EntryMove a value s
        (s.setAx a
          { s.ax a with
            state := st, ctx := some (c.starve (.state p)), gate := .idle, dirty := true })

/-- The running context of axis `a` may enter the page that `value` names: it is no idle base, and holds
no claim that the entry would leave behind. -/
abbrev Ready (a : Axis) (value : Word) (s : State) : Prop :=
  ∀ c, (s.ax a).ctx = some c →
    c ≠ Context.idleBaseContext ∧
      (c.isStarved = true ∨ ∀ q, c.page = some q →
        generalPage? value = some q ∨ ∀ l, (q.toNat, ({ axis := a, level := l } : Claimant)) ∉ s.claims)

/-- Task `k` is a further step of the chain of axis `a`, other than an entry. -/
structure Task.CarriesOn (a : Axis) (k : Task) : Prop where
  moves : k.movesChain = true
  axis : k.axis? = some a
  noEntry : ∀ b v h g, k ≠ .enter b v h g

/-- A piece of chain work at axis `a`: moves, and at most one further step of its chain on the agenda. -/
inductive Chain (a : Axis) (s : State) : State → Prop
  | stops {t : State} (h : Moves a s t) : Chain a s t
  | goes {u t : State} (k : Task) (before : Moves a s u) (step : k.CarriesOn a)
      (after : Moves a (u.push k) t) : Chain a s t
  | enters {u : State} (value : Word) (header : Option Word) (boundary : Bool) (before : Moves a s u)
      (ready : Ready a value u) : Chain a s (u.push (.enter a value header boundary))

/-- An entry of axis `a`, followed by chain work. -/
inductive EntryChain (a : Axis) (value : Word) (s : State) : State → Prop
  | fails {t : State} (h : Chain a s t) : EntryChain a value s t
  | enters {u t : State} (first : EntryMove a value s u) (then_ : Chain a u t) :
      EntryChain a value s t

theorem Chain.refl (a : Axis) (s : State) : Chain a s s := .stops .refl

theorem Move.chain {a : Axis} {s t : State} (h : Move a s t) : Chain a s t := .stops h.moves

theorem Chain.after {a : Axis} {s u t : State} (h : Moves a s u) (k : Chain a u t) :
    Chain a s t := by
  cases k with
  | stops k => exact .stops (h.trans k)
  | goes k before step after => exact .goes k (h.trans before) step after
  | enters value header boundary before ready =>
    exact .enters value header boundary (h.trans before) ready

/-- The last thing done is to put a further step of the chain on the agenda. -/
theorem Chain.push {a : Axis} {s u : State} {k : Task} (h : Moves a s u) (step : k.CarriesOn a) :
    Chain a s (u.push k) := .goes k h step .refl

theorem Task.carriesOn_begin (a : Axis) (boundary : Bool) : (Task.begin a boundary).CarriesOn a :=
  ⟨rfl, rfl, fun _ _ _ _ h => Task.noConfusion h⟩

theorem Task.carriesOn_leave (a : Axis) (boundary : Bool) : (Task.leave a boundary).CarriesOn a :=
  ⟨rfl, rfl, fun _ _ _ _ h => Task.noConfusion h⟩

theorem Task.carriesOn_resume (a : Axis) : (Task.resume a).CarriesOn a :=
  ⟨rfl, rfl, fun _ _ _ _ h => Task.noConfusion h⟩

theorem Task.carriesOn_arrived (a : Axis) : (Task.arrived a).CarriesOn a :=
  ⟨rfl, rfl, fun _ _ _ _ h => Task.noConfusion h⟩

end Sys2Proof.Machine
end

