-- ==== Sys2Proof/Proofs/ChainMoves.lean ====
section
/-!
PROOF. Every function of chapters 3 to 7 as a piece of chain work: a sequence of moves at its axis, with at
most one further step of the chain on the agenda.
-/
namespace Sys2Proof.Machine

/-! ### What a handed record leaves of an axis engine -/

theorem ReportFrame.ax {s t : State} (h : ReportFrame s t) (a : Axis) :
    ∃ d, t.ax a = { s.ax a with dirty := d } := by
  rcases h.axes a with h | h
  · exact ⟨(s.ax a).dirty, h⟩
  · exact ⟨true, h⟩

section Handed

variable (body : RecordBody) (s : State)

theorem State.handRecord_ax (a : Axis) :
    ∃ d, (s.handRecord body).ax a = { s.ax a with dirty := d } :=
  (State.handRecord_frame body s).ax a

@[simp] theorem State.handRecord_ctx (a : Axis) :
    ((s.handRecord body).ax a).ctx = (s.ax a).ctx := by
  obtain ⟨d, h⟩ := s.handRecord_ax body a
  rw [h]

@[simp] theorem State.handRecord_stack (a : Axis) :
    ((s.handRecord body).ax a).stack = (s.ax a).stack := by
  obtain ⟨d, h⟩ := s.handRecord_ax body a
  rw [h]

@[simp] theorem State.handRecord_state (a : Axis) :
    ((s.handRecord body).ax a).state = (s.ax a).state := by
  obtain ⟨d, h⟩ := s.handRecord_ax body a
  rw [h]

@[simp] theorem State.handRecord_claims : (s.handRecord body).claims = s.claims := by
  rw [(State.handRecord_frame body s).fields]

@[simp] theorem State.handRecord_setup : (s.handRecord body).setup = s.setup := by
  rw [(State.handRecord_frame body s).fields]

@[simp] theorem State.handRecord_timebase : (s.handRecord body).timebase = s.timebase := by
  rw [(State.handRecord_frame body s).fields]

@[simp] theorem State.handRecord_dev : (s.handRecord body).dev = s.dev := by
  rw [(State.handRecord_frame body s).fields]

@[simp] theorem State.handRecord_points : (s.handRecord body).points = s.points := by
  rw [(State.handRecord_frame body s).fields]

@[simp] theorem State.handRecord_lines : (s.handRecord body).lines = s.lines := by
  rw [(State.handRecord_frame body s).fields]

@[simp] theorem State.handRecord_agenda : (s.handRecord body).agenda = s.agenda := by
  rw [(State.handRecord_frame body s).fields]

@[simp] theorem State.handRecord_now : (s.handRecord body).now = s.now := by
  rw [(State.handRecord_frame body s).fields]

@[simp] theorem State.handRecord_freeCount : (s.handRecord body).freeCount = s.freeCount := by
  rw [(State.handRecord_frame body s).fields]

end Handed

/-! ### Records -/

/-- No record but a CAPTURE is longer than 11 words. -/
theorem RecordBody.length_done (a : Axis) (l : Level) (kind : SegKind) (p : Page) (i : Nat)
    (tag : Word) (pos : Pos) (g : Option Word) :
    (RecordBody.done a l kind p i tag pos g).words.length ≤ 18 := by
  cases g <;> simp [RecordBody.words]

theorem positionWords_length (l : List Pos) : (positionWords l).length = 2 * l.length := by
  induction l with
  | nil => rfl
  | cons p l ih => simp only [positionWords, List.length_cons, ih]; omega

theorem maskAxes_length (m : AxisMask) : (maskAxes m).length ≤ 8 :=
  List.length_filter_le _ allAxes

variable {a : Axis} {s t : State}

theorem Moves.record_if (b : Bool) (body : RecordBody) (h : body.words.length ≤ 18) (s : State) :
    Moves a s (if b then s.handRecord body else s) := by
  cases b
  · exact .refl
  · exact (Move.record body h).moves

theorem Moves.interjectionRecord (body : RecordBody) (h : body.words.length ≤ 18) (s : State) :
    Moves a s (s.interjectionRecord a body) :=
  .record_if _ body h s

theorem Moves.capture (n : Line) (rising : Bool) (s : State) : Moves a s (s.capture n rising) := by
  refine (Move.record _ ?_).moves
  have h := maskAxes_length (s.lineSetup n).captureMask
  simp only [RecordBody.words, List.length_append, positionWords_length, List.length_map,
    List.length_cons, List.length_nil]
  omega

/-! ### The state of an axis -/

/-- A change of state between active states, with a rewrite owed. -/
theorem Move.setAxState (st : AxisState) (hst : st.active = true)
    (h : (s.ax a).state.active = true ∨ (s.ax a).ctx ≠ none) : Move a s (s.setAxState a st) :=
  .engine _ (.of_eq rfl rfl rfl) (.keeps rfl rfl rfl (.inr ⟨hst, h⟩))

/-! ### Breaks and halts -/

theorem Moves.pushEach (f : Axis → Task) (hf : ∀ b, (f b).movesChain = false) (l : List Axis)
    (s : State) : Moves a s (s.pushEach f l) := by
  induction l generalizing s with
  | nil => exact .refl
  | cons b l ih => exact (Move.event (f b) (hf b)).moves.trans (ih _)

theorem Moves.breakPoint (j : Point) (cause : BreakCause) (s : State) :
    Moves a s (s.breakPoint j cause) := by
  have hpoint : Move a s
      (s.setPoint j { s.point j with state := .broken cause, deadline := none }) :=
    .point j _ (.breaks rfl JoinState.noConfusion)
  have hmark : Moves a s
      ((((s.setPoint j { s.point j with state := .broken cause, deadline := none }).write
        (joinWord j 3) (JoinState.broken cause).word)).setCause .joinBroken) :=
    .tail (.tail hpoint.moves (.joinEntry j 3 _ (by decide))) (.cause .joinBroken)
  exact hmark.trans (.pushEach _ (fun _ => rfl) _ _)

theorem Moves.breakList (b : Axis) (l : List Point) (s : State) :
    Moves a s (l.foldl (State.breakIfMember b) s) := by
  induction l generalizing s with
  | nil => exact .refl
  | cons j l ih =>
    refine .trans ?_ (ih _)
    rw [State.breakIfMember]
    split
    · exact .breakPoint j _ s
    · exact .refl

theorem Moves.halt (cause : HaltCause) (detail : BitVec 8) (s : State) :
    Moves a s (s.halt a cause detail) := by
  rw [State.halt]
  split
  · rename_i h
    refine .tail (.trans (.tail (Move.halts cause detail h).moves (.record _ ?_))
      (.breakList a allSixteen _)) (.cause .axisHalted)
    simp [RecordBody.words]
  · exact .refl

/-! ### Acceptance -/

theorem Chain.accept (s : State) : Chain a s (s.accept a) := by
  rw [State.accept]
  split
  · exact .refl a s
  · rename_i l r htop
    split
    · rename_i hacc
      have htake : Move a s
          (s.setAx a
            { s.ax a with
              state := .running
              ctx := some (Context.fresh l r.head)
              stack := (s.ax a).ctx.getD Context.idleBaseContext :: (s.ax a).stack
              requests := (s.ax a).requests.set l none
              gate := .idle, beganCount := none, dirty := true }) :=
        .engine _ (.of_eq rfl rfl rfl) (.takes l r htop hacc rfl rfl rfl rfl)
      refine .enters _ _ _ (htake.moves.trans (.interjectionRecord _ (by simp [RecordBody.words]) _)) ?_
      intro c hc
      have hfresh : c = Context.fresh l r.head := by
        simp only [State.interjectionRecord] at hc
        split at hc <;> simpa using hc.symm
      subst hfresh
      exact ⟨fun h => by simp [Context.fresh, Context.idleBaseContext] at h, .inr fun q hq => .inl hq⟩
    · exact .refl a s

/-! ### Completion -/

/-- Context `c` is the running context of axis `a`, further on in the same place. -/
abbrev State.RunsAt (s : State) (a : Axis) (c : Context) : Prop :=
  ∃ d, (s.ax a).ctx = some d ∧ d.SamePlace c

theorem State.RunsAt.of_busy {c : Context} (hc : (s.ax a).ctx = some c) (h : c.Busy) :
    s.RunsAt a c := ⟨c, hc, h, rfl, rfl, rfl⟩

theorem State.RunsAt.congr {c d : Context} (h : s.RunsAt a c) (hlevel : d.level = c.level)
    (hidle : d.idleBase = c.idleBase) (hpage : d.page = c.page) : s.RunsAt a d := by
  obtain ⟨e, hctx, hbusy, hl, hi, hp⟩ := h
  exact ⟨e, hctx, hbusy, hlevel.trans hl, hidle.trans hi, hpage.trans hp⟩

theorem State.RunsAt.handRecord {c : Context} (h : s.RunsAt a c) (body : RecordBody) :
    (s.handRecord body).RunsAt a c := by
  obtain ⟨d, hctx, hd⟩ := h
  exact ⟨d, by rw [State.handRecord_ctx, hctx], hd⟩

theorem State.RunsAt.record_if {c : Context} (h : s.RunsAt a c) (b : Bool) (body : RecordBody) :
    (if b then s.handRecord body else s).RunsAt a c := by
  cases b
  · exact h
  · exact h.handRecord body

/-- The running context goes on in its place as `c`. -/
theorem Move.works {c : Context} (h : s.RunsAt a c) (hc : c.isStarved = false) (x : AxisEngine)
    (outputs : OutputsKept (s.ax a) x) (hctx : x.ctx = some c) (hstack : x.stack = (s.ax a).stack)
    (hrequests : x.requests = (s.ax a).requests)
    (hstate : x.state = (s.ax a).state ∨ x.state.active = true) : Move a s (s.setAx a x) := by
  obtain ⟨d, hd, hplace⟩ := h
  exact .engine x outputs (.works d c hd hctx hplace hc hstack hrequests hstate)

theorem Chain.advance {c : Context} (h : s.RunsAt a c) (boundary : Bool) :
    Chain a s (s.advance a c boundary) := by
  have hmove : Move a s
      (s.setAx a
        { s.ax a with
          ctx := some { c with index := c.index + 1, phase := .atBegin }
          gate := .idle, dirty := true }) :=
    .works (c := { c with index := c.index + 1, phase := .atBegin }) (h.congr rfl rfl rfl) rfl _
      (.of_eq rfl rfl rfl) rfl rfl rfl (.inl rfl)
  rw [State.advance]
  refine .push hmove.moves ?_
  split
  · exact Task.carriesOn_begin a boundary
  · exact Task.carriesOn_leave a boundary

theorem Chain.complete {c : Context} (h : s.RunsAt a c) (kind : SegKind) (report : Bool) (tag : Word)
    (g : Option Word) (boundary : Bool) :
    Chain a s (s.complete a c kind report tag g boundary) :=
  .after (.record_if report _ (RecordBody.length_done ..) s) (.advance (h.record_if report _) boundary)

/-! ### Join points -/

/-- A release at axis `b` sets flags there and, if a JOIN completes, puts its completion on the agenda. -/
theorem State.releaseAxis_eq (j : Point) (g : Word) (last : Axis) (s : State) (b : Axis) :
    ∃ completes : Bool, s.releaseAxis j g last b =
      if completes then
        (s.setAx b
          { s.ax b with
            ctx := (s.ax b).ctx.map (Context.flagReleased j g)
            stack := (s.ax b).stack.map (Context.flagReleased j g) }).push
          (if b = last then .arrived b else .joinDone b)
      else
        s.setAx b
          { s.ax b with
            ctx := (s.ax b).ctx.map (Context.flagReleased j g)
            stack := (s.ax b).stack.map (Context.flagReleased j g) } := ⟨_, rfl⟩

theorem Moves.releaseAxis (j : Point) (g : Word) {b : Axis} (hb : b ≠ a) (s : State) :
    Moves a s (s.releaseAxis j g a b) := by
  obtain ⟨completes, h⟩ := s.releaseAxis_eq j g a b
  rw [h, if_neg hb]
  cases completes
  · exact (Move.released b j g).moves
  · exact (Move.released b j g).moves.tail (.event _ rfl)

theorem Moves.releaseList (j : Point) (g : Word) (l : List Axis) (hl : a ∉ l) (s : State) :
    Moves a s (l.foldl (State.releaseAxis j g a) s) := by
  induction l generalizing s with
  | nil => exact .refl
  | cons b l ih =>
    have hb : b ≠ a := fun h => hl (h ▸ .head _)
    exact .trans (.releaseAxis j g hb s) (ih (fun h => hl (.tail _ h)) _)

/-- A release reaches each arrived axis once, so at most one step of the chain of `a` is put on the
agenda. -/
theorem Chain.releases (j : Point) (g : Word) (l : List Axis) (hl : l.Nodup) (s : State) :
    Chain a s (l.foldl (State.releaseAxis j g a) s) := by
  induction l generalizing s with
  | nil => exact .refl a s
  | cons b l ih =>
    obtain ⟨hb, hl⟩ := List.nodup_cons.mp hl
    rw [List.foldl_cons]
    by_cases hba : b = a
    · subst hba
      obtain ⟨completes, h⟩ := s.releaseAxis_eq j g b b
      rw [h, if_pos rfl]
      cases completes
      · exact .stops ((Move.released b j g).moves.trans (.releaseList j g l hb _))
      · exact .goes _ (Move.released b j g).moves (Task.carriesOn_arrived b)
          (.releaseList j g l hb _)
    · exact .after (.releaseAxis j g hba s) (ih hl _)

theorem nodup_maskAxes (m : AxisMask) : (maskAxes m).Nodup := nodup_allAxes.filter _

theorem Chain.releasePoint (j : Point) (arrivals : AxisMask) (s : State) :
    Chain a s (s.releasePoint j arrivals a) := by
  have hpoint : Move a s
      (s.setPoint j
        { state := .opened, arrivals := 0, generation := (s.point j).generation + 1
          deadline := none }) :=
    .point j _ (.clears rfl)
  exact .after (.tail (.tail hpoint.moves (.joinEntry j 4 _ (by decide)))
    (.joinEntry j 5 _ (by decide))) (.releases j _ _ (nodup_maskAxes arrivals) _)

theorem Chain.arrive (j : Point) (hj : inMask (s.members j) a = true)
    (hs : (s.ax a).state.active = true) : Chain a s (s.arrive a j) := by
  have hwait (u : State) (hu : (u.ax a).state.active = true) : Move a u (u.setAxState a .waitJoin) :=
    .setAxState .waitJoin rfl (.inl hu)
  simp only [State.arrive]
  split
  · exact .stops (.halt _ _ s)
  · split
    · exact (hwait s hs).chain
    · split
      · exact .after (hwait s hs).moves (.releasePoint j _ _)
      · rename_i hmissing
        exact .stops (.tail (.tail (Move.point j _ (.arrives a hj rfl hmissing)).moves
          (.joinEntry j 4 _ (by decide))) (hwait _ hs))

/-! ### Beginning a segment -/

/-- Only the gate, DIR and its last change differ, and DIR changes while STEP is low. -/
theorem AxisEngine.gateStep_outputs (x : AxisEngine) (dirlead now : Nat) (forward : Bool) :
    OutputsKept x (x.gateStep dirlead now forward) := by
  simp only [AxisEngine.gateStep]
  split
  · exact .of_eq rfl rfl rfl
  · split
    · exact .of_eq rfl rfl rfl
    · rename_i h
      exact ⟨rfl, rfl, fun _ => Bool.eq_false_iff.mpr h⟩

theorem AxisEngine.gateStep_contexts (x : AxisEngine) (dirlead now : Nat) (forward : Bool) :
    ContextsWork x (x.gateStep dirlead now forward) := by
  simp only [AxisEngine.gateStep]
  split
  · exact .same rfl rfl rfl rfl
  · split <;> exact .same rfl rfl rfl rfl

theorem Moves.stepDue (s : State) : Moves a s (s.stepDue a) := by
  simp only [State.stepDue]
  split
  · exact .refl
  · split
    · exact .halt _ _ s
    · exact (Move.engine _ (AxisEngine.gateStep_outputs ..) (AxisEngine.gateStep_contexts ..)).moves

theorem Move.runCopy {c : Context} (h : s.RunsAt a c) (copy : Running) (st : AxisState)
    (hst : st.active = true) : Move a s (s.runCopy a c copy st) :=
  .works (c := { c with phase := .inSegment copy }) (h.congr rfl rfl rfl) rfl _ (.of_eq rfl rfl rfl)
    rfl rfl rfl (.inr hst)

/-- END of the base chain: the page is released and the axis is IDLE. -/
theorem Move.baseEnd {c d : Context} (hd : (s.ax a).ctx = some d) (hplace : d.SamePlace c)
    (hstack : (s.ax a).stack = []) :
    Move a s
      ((s.releasePage c.pageOr0 { axis := a, level := c.level } s.timebase).baseEnd a c) := by
  have hpage : c.pageOr0 = d.pageOr0 := by simp [Context.pageOr0, hplace.page]
  rw [hpage, hplace.level]
  refine .drops d _ hd hplace.busy (.of_eq rfl rfl rfl) ⟨?_, ?_, rfl, ?_⟩
  · rw [hstack]; rfl
  · rw [hstack]; exact hstack
  · rw [if_pos hstack]

/-- END of an interjection chain: the page is released, the top saved context runs again, and the
acceptance check or the resumption follows. -/
theorem Chain.pop {c d top : Context} {rest : List Context} (hd : (s.ax a).ctx = some d)
    (hplace : d.SamePlace c) (hstack : (s.ax a).stack = top :: rest) :
    Chain a s
      ((s.releasePage c.pageOr0 { axis := a, level := c.level } s.timebase).pop a c top rest) := by
  have hpage : c.pageOr0 = d.pageOr0 := by simp [Context.pageOr0, hplace.page]
  have hrestored : Move a s
      ((s.releasePage c.pageOr0 { axis := a, level := c.level } s.timebase).setAx a
        { s.ax a with
          state := .running, ctx := some top, stack := rest, gate := .idle
          shownPage := pageNumber c.pageOr0, shownIndex := c.index, shownRemaining := 0
          dirty := true }) := by
    rw [hpage, hplace.level]
    refine .drops d _ hd hplace.busy (.of_eq rfl rfl rfl) ⟨?_, ?_, rfl, ?_⟩
    · rw [hstack]; rfl
    · rw [hstack]; rfl
    · rw [hstack, if_neg (List.cons_ne_nil top rest)]
  refine .after (hrestored.moves.trans
    (.interjectionRecord (.interjectOut a c.level top.level) (by simp [RecordBody.words]) _)) ?_
  rw [State.pop]
  dsimp only
  split
  · exact .accept _
  · exact .push .refl (Task.carriesOn_resume a)

theorem Chain.endChain {c d : Context} (hd : (s.ax a).ctx = some d) (hplace : d.SamePlace c)
    (r : SegRecord) : Chain a s (s.endChain a c r) := by
  have hctx : ((if r.report then s.handRecord (s.doneBody a c .end_ r.tag none) else s).ax a).ctx =
      some d := by
    split
    · rw [State.handRecord_ctx, hd]
    · exact hd
  simp only [State.endChain]
  refine .after (.record_if r.report (s.doneBody a c .end_ r.tag none) (RecordBody.length_done ..) s) ?_
  generalize (if r.report then s.handRecord (s.doneBody a c .end_ r.tag none) else s) = u at hctx ⊢
  split
  · rename_i hstack
    exact (Move.baseEnd hctx hplace hstack).chain
  · rename_i top rest hstack
    exact .pop hctx hplace hstack

theorem State.members_of_validKind {r : SegRecord} {j : Point} (h : s.validKind a r = some .join)
    (hj : r.joinPoint = some j) : inMask (s.members j) a = true := by
  simp only [State.validKind] at h
  split at h <;> simp_all

theorem Chain.startSegment {c d : Context} (hd : (s.ax a).ctx = some d) (hplace : d.SamePlace c)
    (r : SegRecord) (kind : SegKind) (hkind : s.validKind a r = some kind) :
    Chain a s (s.startSegment a c r kind) := by
  have hruns (next : Option SegRecord) : s.RunsAt a { c with following := next } :=
    ⟨d, hd, hplace.busy, hplace.level, hplace.idleBase, hplace.page⟩
  cases kind with
  | run =>
    have hbegan (u : State) (n : Nat) : Move a u (u.setBegan a n) :=
      .engine _ (.of_eq rfl rfl rfl) (.same rfl rfl rfl rfl)
    exact .stops (.trans (.tail (Move.runCopy (hruns _) _ .running rfl).moves (hbegan _ _))
      (.stepDue _))
  | dwell =>
    simp only [State.startSegment]
    split
    · exact .complete (hruns _) ..
    · exact (Move.runCopy (hruns _) _ .dwelling rfl).chain
  | join =>
    simp only [State.startSegment]
    split
    · exact .refl a s
    · rename_i j hj
      refine .after (Move.runCopy (hruns _) _ .running rfl).moves (.arrive j ?_ ?_)
      · exact State.members_of_validKind hkind hj
      · simp [State.runCopy, AxisState.active]
  | waitInput =>
    simp only [State.startSegment]
    split
    · exact .complete (hruns _) ..
    · exact (Move.runCopy (hruns _) _ .waitInput rfl).chain
  | note =>
    refine .after (.record_if r.report _ (by simp [RecordBody.words]) s) (.advance ?_ false)
    exact (hruns _).record_if r.report _
  | end_ => exact .endChain hd ⟨hplace.busy, hplace.level, hplace.idleBase, hplace.page⟩ r

theorem Chain.begin (boundary : Bool) (s : State) : Chain a s (s.begin a boundary) := by
  simp only [State.begin]
  split
  · exact .refl a s
  · rename_i c hc
    split
    · rename_i r _ hr
      have hbusy : c.Busy := .inr (by rw [hr]; exact Option.some_ne_none r)
      have hsome : (s.ax a).ctx ≠ none := by rw [hc]; exact Option.some_ne_none c
      split
      · exact (Move.setAxState .paused rfl (.inr hsome)).chain
      · split
        · exact .accept s
        · split
          · exact (Move.setAxState .reportWait rfl (.inr hsome)).chain
          · split
            · exact .stops (.halt _ _ s)
            · rename_i kind hkind
              exact .startSegment hc ⟨hbusy, rfl, rfl, rfl⟩ r kind hkind
    · exact .refl a s

end Sys2Proof.Machine
end

