-- ==== Sys2Proof/Proofs/TaskMoves.lean ====
section
/-!
PROOF. The pages of a chain, its resumption, the events that reach an axis, the axis commands and the timed
events of an axis, each as a piece of chain work.
-/
namespace Sys2Proof.Machine

variable {a : Axis} {s : State}

/-! ### Entering and leaving a page -/

/-- The axis engine on which context `c` starves on wait `w` (R53, R83). -/
def AxisEngine.starved (x : AxisEngine) (c : Context) (w : Wait) : AxisEngine :=
  { x with
    state := if x.state = .pausing then AxisState.paused else .starved
    ctx := some (c.starve w), gate := .idle, dirty := true }

theorem AxisEngine.starved_active (x : AxisEngine) :
    (if x.state = .pausing then AxisState.paused else AxisState.starved).active = true := by
  split <;> rfl

/-- What follows once the axis engine starves: the record, the cause and, at a boundary, the acceptance
check. -/
theorem Chain.starve (c : Context) (w : Wait) (boundary : Bool) (u : State) :
    Chain a (u.setAx a ((u.ax a).starved c w)) (u.starve a c w boundary) := by
  have hrec : Moves a (u.setAx a ((u.ax a).starved c w))
      (((u.setAx a ((u.ax a).starved c w)).handRecord
        (.starve a c.level w.page (u.ax a).position)).setCause .axisStarved) :=
    .tail (Move.record _ (by simp [RecordBody.words])).moves (.cause .axisStarved)
  cases boundary
  · exact .stops hrec
  · exact .after hrec (.accept _)

theorem State.testEntry_claimed {p : Page} (header : Option Word) (h : s.claimed p = true) :
    s.testEntry p header = .badLink := if_pos h

theorem State.not_claimed_of_testEntry (s : State) {p : Page} {header : Option Word}
    (h : s.testEntry p header ≠ .badLink) : s.claimed p = false :=
  Bool.eq_false_iff.mpr fun hclaimed => h (s.testEntry_claimed header hclaimed)

theorem EntryChain.enter (value : Word) (header : Option Word) (boundary : Bool) (s : State) :
    EntryChain a value s (s.enter a value header boundary) := by
  simp only [State.enter]
  split
  · exact .fails (.refl a s)
  · rename_i c hc
    split
    · exact .fails (.stops (.halt _ _ s))
    · rename_i p hp
      split
      · exact .fails (.stops (.halt _ _ s))
      · rename_i htest
        have hfree : s.claimed p = false :=
          s.not_claimed_of_testEntry (by rw [htest]; exact Entry.noConfusion)
        exact .enters (.starves c p _ hc hp hfree (AxisEngine.starved_active (s.ax a)))
          (.starve c (.state p) boundary s)
      · rename_i count htest
        have hfree : s.claimed p = false :=
          s.not_claimed_of_testEntry (by rw [htest]; exact Entry.noConfusion)
        exact .enters (.granted c p count _ hc hp hfree)
          (.push .refl (Task.carriesOn_begin a boundary))

theorem State.not_mem_erase (l : List (Nat × Claimant)) (k : Nat) (c : Claimant) :
    (k, c) ∉ Sparse.erase l k := fun h => (Sparse.mem_erase h).2 rfl

theorem Chain.leave (boundary : Bool) (s : State) : Chain a s (s.leave a boundary) := by
  simp only [State.leave]
  split
  · exact .refl a s
  · rename_i c hc
    split
    · exact .refl a s
    · rename_i q hq
      split
      · refine .after (Move.starves c q ((s.ax a).starved c (.link q)) hc hq (.of_eq rfl rfl rfl)
          ⟨rfl, rfl, rfl, AxisEngine.starved_active _⟩).moves (.starve c (.link q) boundary _)
      · refine .enters _ _ _ (Move.leaves c q hc hq).moves fun d hd => ?_
        have hdc : d = c := Option.some.inj (hd.symm.trans hc)
        subst hdc
        refine ⟨fun h => by simp [h, Context.idleBaseContext] at hq, .inr fun p hp => .inr fun l => ?_⟩
        have hpq : p = q := Option.some.inj (hp.symm.trans hq)
        subst hpq
        exact State.not_mem_erase s.claims p.toNat _

/-! ### Resumption -/

theorem Context.busy_of_inSegment {c : Context} {copy : Running} (h : c.phase = .inSegment copy) :
    c.Busy := .inl (by rw [h]; exact Phase.noConfusion)

theorem Chain.waitExpires {c : Context} (h : s.RunsAt a c) (n : Line) (timeoutHalt : Bool)
    (tag : Word) : Chain a s (s.waitExpires a c n timeoutHalt tag) := by
  simp only [State.waitExpires]
  split
  · exact .stops (.halt _ _ s)
  · exact .after (Move.record _ (by simp [RecordBody.words])).moves (.advance (h.handRecord _) false)

theorem Chain.recheck {c : Context} {w : Wait} (hc : (s.ax a).ctx = some c)
    (hphase : c.phase = .starved w) : Chain a s (s.recheck a w) := by
  have hready (value : Word) : Ready a value s := fun d hd => by
    have hdc : d = c := Option.some.inj (hd.symm.trans hc)
    subst hdc
    exact ⟨fun h => by simp [h, Context.idleBaseContext] at hphase,
      .inl (by simp [Context.isStarved, hphase])⟩
  simp only [State.recheck]
  split
  · exact (Move.setAxState .starved rfl (.inr (by rw [hc]; exact Option.some_ne_none c))).chain
  · split
    · exact .enters _ none false .refl (hready _)
    · exact .enters _ none false .refl (hready _)

theorem Chain.resumeCopy {c : Context} {copy : Running} (hc : (s.ax a).ctx = some c)
    (hphase : c.phase = .inSegment copy) : Chain a s (s.resumeCopy a c copy) := by
  have hsome : (s.ax a).ctx ≠ none := by rw [hc]; exact Option.some_ne_none c
  have hruns : s.RunsAt a c := .of_busy hc (Context.busy_of_inSegment hphase)
  cases copy with
  | run n v d w f rep tag =>
    exact .stops (.trans (Move.setAxState .running rfl (.inr hsome)).moves (.stepDue _))
  | dwell ticks rep tag =>
    simp only [State.resumeCopy]
    split
    · exact .complete hruns ..
    · exact (Move.setAxState .dwelling rfl (.inr hsome)).chain
  | waitInput n level timeout th rep tag =>
    simp only [State.resumeCopy]
    split
    · exact .complete hruns ..
    · split
      · exact .waitExpires hruns n th tag
      · exact (Move.setAxState .waitInput rfl (.inr hsome)).chain
  | join j released broken rep tag =>
    cases released with
    | some g => exact .complete hruns ..
    | none =>
      simp only [State.resumeCopy]
      split
      · exact .stops (.halt _ _ s)
      · exact (Move.setAxState .waitJoin rfl (.inr hsome)).chain

theorem Chain.resumeContext (s : State) : Chain a s (s.resumeContext a) := by
  simp only [State.resumeContext]
  split
  · exact .refl a s
  · rename_i c hc
    have hrun : Move a s (s.setAxState a .running) :=
      .setAxState .running rfl (.inr (by rw [hc]; exact Option.some_ne_none c))
    have hc' : ((s.setAxState a .running).ax a).ctx = some c := by simpa [State.setAxState] using hc
    split
    · rename_i hidle
      have hsets : (s.setCtx a none).setAxState a .idle =
          s.setAx a { s.ax a with ctx := none, state := .idle, dirty := true } := by
        simp [State.setCtx, State.setAxState]
      have hidles : Move a s (s.setAx a { s.ax a with ctx := none, state := .idle, dirty := true }) :=
        .engine _ (.of_eq rfl rfl rfl) (.idles c hc hidle rfl rfl rfl rfl)
      rw [hsets]
      exact hidles.chain
    · split
      · exact .push hrun.moves (Task.carriesOn_begin a false)
      · rename_i copy hphase
        exact .after hrun.moves (.resumeCopy hc' hphase)
      · rename_i w hphase
        exact .after hrun.moves (.recheck hc' hphase)

/-! ### Events that reach an axis -/

theorem Chain.joinDone (s : State) : Chain a s (s.joinDone a) := by
  simp only [State.joinDone]
  split
  · exact .refl a s
  · rename_i c hc
    split
    · rename_i hphase
      split
      · exact .refl a s
      · exact .complete (.of_busy hc (Context.busy_of_inSegment hphase)) ..
    · exact .refl a s

/-- A context that holds an arrival at a point is in the JOIN there. -/
theorem Context.holdsArrival_iff (c : Context) (j : Point) :
    c.holdsArrival j = true ↔
      ∃ report tag, c.phase = .inSegment (.join j none false report tag) := by
  simp only [Context.holdsArrival]
  split
  · rename_i p rep tag hphase
    constructor
    · intro h
      have hp : p = j := by simpa using h
      subst hp
      exact ⟨rep, tag, hphase⟩
    · rintro ⟨rep', tag', h⟩
      rw [hphase] at h
      simp only [Phase.inSegment.injEq, Running.join.injEq] at h
      simp [h.1]
  · rename_i hne
    simp only [Bool.false_eq_true, false_iff]
    rintro ⟨rep, tag, h⟩
    exact hne j rep tag h

theorem Moves.breakAt (j : Point) (s : State) : Moves a s (s.breakAt a j) := by
  simp only [State.breakAt]
  split
  · exact .halt _ _ s
  · split
    · exact .refl
    · rename_i c hc
      split
      · rename_i hholds
        obtain ⟨rep, tag, hphase⟩ := (c.holdsArrival_iff j).mp hholds
        split
        · have hflag : c.flagBroken j =
              { c with phase := .inSegment (.join j none true rep tag) } := by
            simp [Context.flagBroken, hphase]
          rw [hflag]
          have hplace : c.SamePlace { c with phase := .inSegment (.join j none true rep tag) } :=
            ⟨Context.busy_of_inSegment hphase, rfl, rfl, rfl⟩
          have hset : Move a s
              (s.setCtx a (some { c with phase := .inSegment (.join j none true rep tag) })) :=
            .works ⟨c, hc, hplace⟩ rfl _ (.of_eq rfl rfl rfl) rfl rfl rfl (.inl rfl)
          exact hset.moves
        · exact .halt _ _ s
      · exact .refl

theorem Chain.owingEnded (s : State) : Chain a s (s.owingEnded a) := by
  simp only [State.owingEnded]
  split
  · rename_i hwait
    split
    · exact .accept s
    · exact .push (Move.setAxState .running rfl (.inl (by rw [hwait]; rfl))).moves
        (Task.carriesOn_begin a false)
  · exact .refl a s

theorem Chain.levelSeen (n : Line) (s : State) : Chain a s (s.levelSeen a n) := by
  simp only [State.levelSeen]
  split
  · split
    · exact .refl a s
    · rename_i c hc
      split
      · rename_i hphase
        split
        · exact .complete (.of_busy hc (Context.busy_of_inSegment hphase)) ..
        · exact .refl a s
      · exact .refl a s
  · exact .refl a s

theorem AxisState.active_of_pausesAtOnce {st : AxisState} (h : st.pausesAtOnce = true) :
    st.active = true := by
  cases st <;> first | rfl | cases h

theorem Moves.pauseAxis (s : State) : Moves a s (s.pauseAxis a) := by
  simp only [State.pauseAxis]
  split
  · rename_i hrunning
    exact (Move.setAxState .pausing rfl (.inl (by rw [hrunning]; rfl))).moves
  · split
    · rename_i hpauses
      exact (Move.setAxState .paused rfl (.inl (AxisState.active_of_pausesAtOnce hpauses))).moves
    · exact .refl

theorem Chain.placeRequest (l : Level) (r : Request) (h : (s.ax a).state ≠ .off)
    (h' : (s.ax a).state ≠ .halted) : Chain a s (s.placeRequest a l r) := by
  have hplace : Move a s
      (s.setAx a { s.ax a with requests := (s.ax a).requests.set l (some r), dirty := true }) :=
    .engine _ (.of_eq rfl rfl rfl) (.asks l (some r) (.inr ⟨h, h'⟩) rfl rfl rfl rfl)
  simp only [State.placeRequest]
  split
  · exact .after hplace.moves (.accept _)
  · exact hplace.chain

theorem Chain.tripInterject (n : Line) (s : State) : Chain a s (s.tripInterject a n) := by
  simp only [State.tripInterject]
  split
  · exact .refl a s
  · rename_i h
    obtain ⟨hoff, hhalted⟩ := not_or.mp h
    split
    · exact .stops (.halt _ _ s)
    · exact .placeRequest 3 _ hoff hhalted

/-! ### Axis commands -/

theorem Chain.startEffect (hidle : (s.ax a).state = .idle) : Chain a s (startEffect a s) := by
  have hstart : Move a s
      (s.setAx a
        { s.ax a with
          state := .running, ctx := some (Context.fresh 0 (s.read (axisWord a 1)))
          gate := .idle, dirty := true }) :=
    .engine _ (.of_eq rfl rfl rfl) (.starts _ hidle rfl rfl rfl rfl)
  refine .enters _ _ _ hstart.moves fun c hc => ?_
  have hfresh : c = Context.fresh 0 (s.read (axisWord a 1)) := by simpa using hc.symm
  subst hfresh
  exact ⟨fun h => by simp [Context.fresh, Context.idleBaseContext] at h, .inr fun q hq => .inl hq⟩

theorem Chain.resumeEffect (s : State) : Chain a s (resumeEffect a s) := by
  simp only [Sys2Proof.Machine.resumeEffect]
  split
  · rename_i hpausing
    exact (Move.setAxState .running rfl (.inl (by rw [hpausing]; rfl))).chain
  · split
    · exact .accept s
    · exact .push .refl (Task.carriesOn_resume a)

theorem Move.clearEffect (h : (s.ax a).state = .halted) : Move a s (clearEffect a s) :=
  .engine _ (.of_eq rfl rfl rfl) (.clears h rfl rfl rfl rfl)

theorem Move.withdrawEffect (v : Word) : Move a s (withdrawEffect a v s) :=
  .engine _ (.of_eq rfl rfl rfl) (.asks (commandLevel v) none (.inl rfl) rfl rfl rfl rfl)

theorem Move.setposEffect : Move a s (setposEffect a s) :=
  .engine _ (.of_eq rfl rfl rfl) (.same rfl rfl rfl rfl)

/-! ### Timed events of an axis -/

theorem Chain.boundary (s : State) : Chain a s (s.boundary a) := by
  have hgate : Move a s (s.setGate a .idle) := .engine _ (.of_eq rfl rfl rfl) (.same rfl rfl rfl rfl)
  refine .after hgate.moves ?_
  rw [State.boundary]
  split
  · rename_i hpausing
    exact (Move.setAxState .paused rfl (.inl (by rw [hpausing]; rfl))).chain
  · split
    · exact .accept _
    · exact .stops (.stepDue _)

theorem Chain.stepBoundary (s : State) : Chain a s (s.stepBoundary a) := by
  simp only [State.stepBoundary]
  split
  · exact .refl a s
  · rename_i c hc
    split
    · rename_i hphase
      split
      · exact .complete (.of_busy hc (Context.busy_of_inSegment hphase)) ..
      · exact .boundary s
    · exact .refl a s

theorem Chain.dwellExpiry (s : State) : Chain a s (s.dwellExpiry a) := by
  simp only [State.dwellExpiry]
  split
  · exact .refl a s
  · rename_i c hc
    split
    · rename_i hphase
      exact .complete (.of_busy hc (Context.busy_of_inSegment hphase)) ..
    · exact .refl a s

theorem Chain.waitTimeout (s : State) : Chain a s (s.waitTimeout a) := by
  simp only [State.waitTimeout]
  split
  · exact .refl a s
  · rename_i c hc
    split
    · rename_i hphase
      exact .waitExpires (.of_busy hc (Context.busy_of_inSegment hphase)) ..
    · exact .refl a s

/-! ### Tasks -/

/-- A task is an entry, the record of a capture, or another task of one axis. -/
theorem Task.cases_entry (k : Task) :
    (∃ a value header boundary, k = .enter a value header boundary) ∨
      (∃ n rising, k = .capture n rising) ∨
      ∃ a, k.axis? = some a ∧ ∀ b value header boundary, k ≠ .enter b value header boundary := by
  cases k with
  | enter a value header boundary => exact .inl ⟨a, value, header, boundary, rfl⟩
  | capture n rising => exact .inr (.inl ⟨n, rising, rfl⟩)
  | _ => exact .inr (.inr ⟨_, rfl, fun _ _ _ _ h => Task.noConfusion h⟩)

/-- A task of axis `a` that is no entry does a piece of chain work at `a`. -/
theorem Chain.runTask {k : Task} (hk : k.axis? = some a) (hentry : ∀ b v h g, k ≠ .enter b v h g)
    (s : State) : Chain a s (s.runTask k) := by
  unfold State.runTask
  split
  · cases k with
    | leave b boundary => obtain rfl := Option.some.inj hk; exact .leave boundary s
    | enter b v h g => exact absurd rfl (hentry b v h g)
    | resume b => obtain rfl := Option.some.inj hk; exact .resumeContext s
    | arrived b => obtain rfl := Option.some.inj hk; exact .joinDone s
    | joinDone b => obtain rfl := Option.some.inj hk; exact .joinDone s
    | breakAt b j => obtain rfl := Option.some.inj hk; exact .stops (.breakAt j s)
    | owingEnded b => obtain rfl := Option.some.inj hk; exact .owingEnded s
    | levelSeen b n => obtain rfl := Option.some.inj hk; exact .levelSeen n s
    | tripHalt b n => obtain rfl := Option.some.inj hk; exact .stops (.halt _ _ s)
    | tripPause b n => obtain rfl := Option.some.inj hk; exact .stops (.pauseAxis s)
    | tripInterject b n => obtain rfl := Option.some.inj hk; exact .tripInterject n s
    | capture n rising => cases hk
    -- the begin point, whose constructor has the name of a keyword
    | _ => obtain rfl := Option.some.inj hk; exact .begin _ s
  · exact .refl a s

theorem Moves.runTask_capture (n : Line) (rising : Bool) (s : State) :
    Moves a s (s.runTask (.capture n rising)) := by
  simp only [State.runTask]
  split
  · exact .capture n rising s
  · exact .refl

theorem EntryChain.runTask (value : Word) (header : Option Word) (boundary : Bool) (s : State) :
    EntryChain a value s (s.runTask (.enter a value header boundary)) := by
  simp only [State.runTask]
  split
  · exact .enter value header boundary s
  · exact .fails (.refl a s)

end Sys2Proof.Machine
end

