-- ==== Sys2Proof/Proofs/Agenda.lean ====
section
/-!
PROOF. The agenda of a command (log 9): a chain has at most one step on it, and an entry on it finds its
context ready; what every piece of chain work keeps, a command that settles its agenda keeps.
-/
namespace Sys2Proof.Machine

variable {a b : Axis} {s t : State}

/-! ### Acts: moves, entries and what the agenda itself does -/

/-- One act of a command at any axis: a move, an entry, or a change of the agenda and of the counter of the
free order. -/
inductive Act (s : State) : State → Prop
  | move {t : State} (a : Axis) (h : Move a s t) : Act s t
  | entry {t : State} (a : Axis) (value : Word) (h : EntryMove a value s t) : Act s t
  | agenda (tasks : List Task) (n : Nat) : Act s { s with agenda := tasks, freeCount := n }

/-- A sequence of acts. -/
def Acts : State → State → Prop := Relation.ReflTransGen Act

theorem Acts.refl : Acts s s := Relation.ReflTransGen.refl

theorem Acts.trans {u : State} (h : Acts s t) (k : Acts t u) : Acts s u :=
  Relation.ReflTransGen.trans h k

theorem Act.acts (h : Act s t) : Acts s t := Relation.ReflTransGen.single h

/-- What every act keeps, a sequence of acts keeps. -/
theorem Acts.keeps {P : State → Prop} (hact : ∀ s t, Act s t → P s → P t) (h : Acts s t)
    (hs : P s) : P t := by
  induction h with
  | refl => exact hs
  | tail _ hlast ih => exact hact _ _ hlast ih

theorem Acts.of_moves (h : Moves a s t) : Acts s t :=
  h.keeps (P := Acts s) (fun _ _ hmove hs => hs.trans (Act.move a hmove).acts) .refl

theorem Acts.push (k : Task) (s : State) : Acts s (s.push k) :=
  (Act.agenda (s.agenda ++ [k]) s.freeCount).acts

theorem Chain.acts (h : Chain a s t) : Acts s t := by
  cases h with
  | stops h => exact .of_moves h
  | goes k before _ after => exact ((Acts.of_moves before).trans (.push k _)).trans (.of_moves after)
  | enters value header boundary before _ => exact (Acts.of_moves before).trans (.push _ _)

theorem EntryChain.acts {value : Word} (h : EntryChain a value s t) : Acts s t := by
  cases h with
  | fails h => exact h.acts
  | enters first then_ => exact (Act.entry a value first).acts.trans then_.acts

theorem Acts.runTask (k : Task) (s : State) : Acts s (s.runTask k) := by
  rcases k.cases_entry with ⟨a, value, header, boundary, rfl⟩ | ⟨n, rising, rfl⟩ | ⟨a, hk, hentry⟩
  · exact (EntryChain.runTask value header boundary s).acts
  · exact .of_moves (Moves.runTask_capture (a := 0) n rising s)
  · exact (Chain.runTask hk hentry s).acts

/-! ### Taking the next task -/

/-- Task `k` is a step of the chain of axis `a`. -/
def Task.movesAt (a : Axis) (k : Task) : Bool := k.movesChain && k.axis? == some a

/-- The next task is on the agenda and may run; it is taken off, and the free order may be consulted. -/
theorem State.nextTask_eq_some {k : Task} (h : s.nextTask = some (k, t)) :
    k ∈ s.agenda ∧ k.mayRun s.agenda = true ∧
      ∃ n, t = { s with agenda := s.agenda.erase k, freeCount := n } := by
  simp only [State.nextTask] at h
  split at h
  · cases h
  · rename_i k' ks hfilter
    have hchosen (i : Nat) : (k' :: ks).getD i k' ∈ s.agenda.filter (Task.mayRun s.agenda) := by
      rw [hfilter]
      by_cases hi : i < (k' :: ks).length
      · rw [List.getD_eq_getElem _ _ hi]
        exact List.getElem_mem hi
      · rw [List.getD_eq_default _ _ (Nat.not_lt.mp hi)]
        exact .head _
    simp only [State.choose] at h
    have hmem (i : Nat) := List.mem_filter.mp (hchosen i)
    split at h <;>
    · simp only [Option.some.injEq, Prod.mk.injEq] at h
      obtain ⟨rfl, rfl⟩ := h
      exact ⟨(hmem _).1, (hmem _).2, _, rfl⟩

theorem Acts.settle (n : Nat) (s : State) : Acts s (s.settle n) := by
  induction n generalizing s with
  | zero => exact .refl
  | succ n ih =>
    simp only [State.settle]
    split
    · exact .refl
    · rename_i k u hnext
      obtain ⟨-, -, m, rfl⟩ := State.nextTask_eq_some hnext
      exact ((Act.agenda _ m).acts.trans (.runTask k _)).trans (ih _)

theorem Acts.settled (s : State) : Acts s s.settled :=
  (Acts.settle settleBound s).trans (Act.agenda [] (s.settle settleBound).freeCount).acts

/-! ### One step of each chain -/

/-- The steps of the chain of axis `a` on the agenda. -/
def State.steps (s : State) (a : Axis) : List Task := s.agenda.filter (Task.movesAt a)

/-- Each chain has at most one step on the agenda, and an entry finds its context ready. -/
structure AgendaLaw (s : State) : Prop where
  one : ∀ a, (s.steps a).length ≤ 1
  ready : ∀ a value header boundary, Task.enter a value header boundary ∈ s.agenda → Ready a value s

theorem AgendaLaw.of_quiet (h : Quiet s) : AgendaLaw s :=
  ⟨fun a => by simp [State.steps, h], fun a v g b hmem => by rw [h] at hmem; cases hmem⟩

theorem State.mem_steps {k : Task} : k ∈ s.steps a ↔ k ∈ s.agenda ∧ k.movesChain = true ∧
    k.axis? = some a := by
  simp [State.steps, Task.movesAt]

/-- A move changes no chain's steps. -/
theorem Move.steps (h : Move a s t) (b : Axis) : t.steps b = s.steps b := by
  cases h with
  | event k hk => simp [State.steps, Task.movesAt, hk]
  | record body _ => simp [State.steps]
  | halts cause detail _ =>
    simp only [State.steps, State.setAx_agenda, State.releaseAxisClaims]
    rw [State.releaseList_fields]
  | _ => rfl

/-- A move leaves the entries on the agenda as they are. -/
theorem Move.entries (h : Move a s t) {b : Axis} {value : Word} {header : Option Word}
    {boundary : Bool} (hk : Task.enter b value header boundary ∈ t.agenda) :
    Task.enter b value header boundary ∈ s.agenda := by
  have hmem : Task.enter b value header boundary ∈ t.steps b := State.mem_steps.mpr ⟨hk, rfl, rfl⟩
  rw [h.steps] at hmem
  exact (State.mem_steps.mp hmem).1

/-! ### Contexts that stay ready -/

theorem Context.flagReleased_fields (c : Context) (j : Point) (g : Word) :
    (c.flagReleased j g).level = c.level ∧ (c.flagReleased j g).idleBase = c.idleBase ∧
      (c.flagReleased j g).page = c.page ∧ (c.flagReleased j g).isStarved = c.isStarved := by
  simp only [Context.flagReleased]
  split
  · rename_i hphase
    split
    · exact ⟨rfl, rfl, rfl, by simp [Context.isStarved, hphase]⟩
    · exact ⟨rfl, rfl, rfl, rfl⟩
  · exact ⟨rfl, rfl, rfl, rfl⟩

theorem Context.flagReleased_idleBase {c : Context} {j : Point} {g : Word}
    (h : c.flagReleased j g = Context.idleBaseContext) : c = Context.idleBaseContext := by
  simp only [Context.flagReleased] at h
  split at h
  · split at h
    · simp [Context.idleBaseContext] at h
    · exact h
  · exact h

theorem State.releaseAxisClaims_claims_subset (a : Axis) (s : State) :
    ∀ e ∈ (s.releaseAxisClaims a).claims, e ∈ s.claims := by
  have hlist (time : Time) (l : List (Nat × Claimant)) (u : State) :
      ∀ e ∈ (u.releaseList time l).claims, e ∈ u.claims := by
    induction l generalizing u with
    | nil => exact fun _ h => h
    | cons f l ih => exact fun e he => (Sparse.mem_erase (ih _ e he)).1
  exact hlist _ _ s

/-- Replacing another axis engine and losing claims leaves a ready context ready. -/
theorem Ready.of_ctx {value : Word} (h : Ready a value s) (hctx : (t.ax a).ctx = (s.ax a).ctx)
    (hclaims : ∀ e ∈ t.claims, e.2.axis = a → e ∈ s.claims) : Ready a value t := by
  intro c hc
  obtain ⟨hidle, hholds⟩ := h c (hctx ▸ hc)
  exact ⟨hidle, hholds.imp id fun hq q hpage => (hq q hpage).imp id fun hno l hmem =>
    hno l (hclaims _ hmem rfl)⟩

/-- Work at another axis leaves a ready context ready. -/
theorem Move.ready (h : Move b s t) (hab : a ≠ b) {value : Word} (hr : Ready a value s) :
    Ready a value t := by
  have hset (u : State) (x : AxisEngine) : ((u.setAx b x).ax a).ctx = (u.ax a).ctx := by
    rw [State.ax_setAx_ne u hab]
  have herase (p : Page) : ∀ e ∈ Sparse.erase s.claims p.toNat, e.2.axis = a → e ∈ s.claims :=
    fun e he _ => (Sparse.mem_erase he).1
  cases h with
  | record body _ => exact hr.of_ctx (by simp) fun e he _ => by simpa using he
  | engine x _ _ => exact hr.of_ctx (hset s x) fun e he _ => he
  | released c j g =>
    by_cases hac : a = c
    · subst hac
      intro d hd
      simp only [State.ax_setAx_same, Option.map_eq_some_iff] at hd
      obtain ⟨c, hc, rfl⟩ := hd
      obtain ⟨hidle, hholds⟩ := hr c hc
      obtain ⟨-, -, hpage, hstarved⟩ := c.flagReleased_fields j g
      rw [hpage, hstarved]
      exact ⟨fun h => hidle (Context.flagReleased_idleBase h), hholds⟩
    · exact hr.of_ctx (by rw [State.ax_setAx_ne s hac]) fun e he _ => he
  | halts cause detail _ =>
    refine hr.of_ctx ?_ fun e he _ => State.releaseAxisClaims_claims_subset b s e he
    rw [hset, State.ax_of_axes (State.releaseAxisClaims_axes b s)]
  | leaves c q _ _ => exact hr.of_ctx rfl (herase q)
  | starves c q x _ _ _ _ => exact hr.of_ctx (hset _ x) (herase q)
  | drops c x _ _ _ _ => exact hr.of_ctx (hset _ x) (herase c.pageOr0)
  | _ => exact hr

theorem EntryMove.ready {value value' : Word} (h : EntryMove b value' s t) (hab : a ≠ b)
    (hr : Ready a value s) : Ready a value t := by
  have hset (u : State) (x : AxisEngine) : ((u.setAx b x).ax a).ctx = (u.ax a).ctx := by
    rw [State.ax_setAx_ne u hab]
  cases h with
  | granted c p count r _ _ _ =>
    refine hr.of_ctx (hset _ _) fun e he hea => ?_
    rcases Sparse.mem_insert he with rfl | he
    · exact absurd hea.symm hab
    · exact he
  | starves c p st _ _ _ _ => exact hr.of_ctx (hset s _) fun e he _ => he

theorem Moves.ready (h : Moves b s t) (hab : a ≠ b) {value : Word} (hr : Ready a value s) :
    Ready a value t :=
  h.keeps (fun _ _ hmove => hmove.ready hab) hr

theorem Moves.steps (h : Moves a s t) (b : Axis) : t.steps b = s.steps b :=
  h.keeps (P := fun u => u.steps b = s.steps b) (fun _ _ hmove hs => (hmove.steps b).trans hs) rfl

theorem Moves.entries (h : Moves a s t) {b : Axis} {value : Word} {header : Option Word}
    {boundary : Bool} (hk : Task.enter b value header boundary ∈ t.agenda) :
    Task.enter b value header boundary ∈ s.agenda := by
  have hmem : Task.enter b value header boundary ∈ t.steps b := State.mem_steps.mpr ⟨hk, rfl, rfl⟩
  rw [h.steps] at hmem
  exact (State.mem_steps.mp hmem).1

/-! ### What a piece of chain work does to the agenda -/

theorem State.steps_push_ne {k : Task} (s : State) (h : k.axis? ≠ some b) :
    (s.push k).steps b = s.steps b := by
  simp [State.steps, Task.movesAt, h]

theorem Chain.steps_ne (h : Chain a s t) (hb : b ≠ a) : t.steps b = s.steps b := by
  have hsome {k : Task} (hk : k.axis? = some a) : k.axis? ≠ some b := by
    rw [hk]; exact fun e => hb (Option.some.inj e).symm
  cases h with
  | stops h => exact h.steps b
  | goes k before step after => rw [after.steps, State.steps_push_ne _ (hsome step.axis), before.steps]
  | enters value header boundary before _ => rw [State.steps_push_ne _ (hsome rfl), before.steps]

theorem Chain.steps_same (h : Chain a s t) (hs : s.steps a = []) : (t.steps a).length ≤ 1 := by
  have hpush {u : State} (k : Task) (hu : u.steps a = []) : ((u.push k).steps a).length ≤ 1 := by
    simp only [State.steps, State.push_agenda, List.filter_append] at hu ⊢
    rw [hu]
    exact List.length_filter_le _ [k]
  cases h with
  | stops h => rw [h.steps, hs]; decide
  | goes k before step after => rw [after.steps]; exact hpush k (by rw [before.steps, hs])
  | enters value header boundary before _ => exact hpush _ (by rw [before.steps, hs])

theorem Chain.ready (h : Chain b s t) (hab : a ≠ b) {value : Word} (hr : Ready a value s) :
    Ready a value t := by
  cases h with
  | stops h => exact h.ready hab hr
  | goes k before _ after =>
    have hpushed : Ready a value (State.push k _) := before.ready hab hr
    exact after.ready hab hpushed
  | enters _ _ _ before _ => exact before.ready hab hr

theorem EntryChain.ready {value value' : Word} (h : EntryChain b value' s t) (hab : a ≠ b)
    (hr : Ready a value s) : Ready a value t := by
  cases h with
  | fails h => exact h.ready hab hr
  | enters first then_ => exact then_.ready hab (first.ready hab hr)

theorem EntryMove.agenda {value : Word} (h : EntryMove a value s t) : t.agenda = s.agenda := by
  cases h <;> rfl

theorem EntryChain.steps_ne {value : Word} (h : EntryChain a value s t) (hb : b ≠ a) :
    t.steps b = s.steps b := by
  cases h with
  | fails h => exact h.steps_ne hb
  | enters first then_ => rw [then_.steps_ne hb, State.steps, first.agenda]; rfl

/-- The entries that chain work adds to the agenda are ready, where its chain had no step on it. -/
theorem Chain.agendaLaw (h : Chain a s t) (hs : s.steps a = []) (hlaw : AgendaLaw s) :
    AgendaLaw t := by
  refine ⟨fun b => ?_, fun b value header boundary hmem => ?_⟩
  · by_cases hb : b = a
    · subst hb; exact h.steps_same hs
    · rw [h.steps_ne hb]; exact hlaw.one b
  · by_cases hb : b = a
    · subst hb
      have hnone (u : State) (hu : u.steps b = []) : Task.enter b value header boundary ∉ u.agenda :=
        fun hk => by
          have hk' : Task.enter b value header boundary ∈ u.steps b := State.mem_steps.mpr ⟨hk, rfl, rfl⟩
          rw [hu] at hk'
          cases hk'
      cases h with
      | stops h => exact absurd hmem (hnone _ (by rw [h.steps, hs]))
      | goes k before step after =>
        rcases List.mem_append.mp (after.entries hmem) with hk | hk
        · exact absurd hk (hnone _ (by rw [before.steps, hs]))
        · exact absurd (List.mem_singleton.mp hk).symm (step.noEntry _ _ _ _)
      | enters value' header' boundary' before ready =>
        rcases List.mem_append.mp hmem with hk | hk
        · exact absurd hk (hnone _ (by rw [before.steps, hs]))
        · have heq := List.mem_singleton.mp hk
          simp only [Task.enter.injEq] at heq
          obtain ⟨-, rfl, -, -⟩ := heq
          exact ready
    · have hmem' : Task.enter b value header boundary ∈ t.steps b := State.mem_steps.mpr ⟨hmem, rfl, rfl⟩
      rw [h.steps_ne hb] at hmem'
      exact h.ready hb (hlaw.ready b value header boundary (State.mem_steps.mp hmem').1)

theorem EntryMove.agendaLaw {value : Word} (h : EntryMove a value s t) (hs : s.steps a = [])
    (hlaw : AgendaLaw s) : AgendaLaw t := by
  have hsteps (b : Axis) : t.steps b = s.steps b := by rw [State.steps, h.agenda]; rfl
  refine ⟨fun b => (hsteps b).symm ▸ hlaw.one b, fun b value' header boundary hmem => ?_⟩
  by_cases hb : b = a
  · subst hb
    have hk : Task.enter b value' header boundary ∈ t.steps b := State.mem_steps.mpr ⟨hmem, rfl, rfl⟩
    rw [hsteps, hs] at hk
    cases hk
  · exact h.ready hb (hlaw.ready b value' header boundary (h.agenda ▸ hmem))

theorem EntryChain.agendaLaw {value : Word} (h : EntryChain a value s t) (hs : s.steps a = [])
    (hlaw : AgendaLaw s) : AgendaLaw t := by
  cases h with
  | fails h => exact h.agendaLaw hs hlaw
  | enters first then_ =>
    refine then_.agendaLaw ?_ (first.agendaLaw hs hlaw)
    rw [State.steps, first.agenda]
    exact hs

/-! ### What a settled command keeps -/

/-- `P` is kept by every move, by the entry of a ready context, and by changes of the agenda. -/
structure KeptByWork (P : State → Prop) : Prop where
  move : ∀ a s t, Move a s t → P s → P t
  entry : ∀ a value s t, EntryMove a value s t → Ready a value s → P s → P t
  agenda : ∀ (s : State) (tasks : List Task) (n : Nat), P s → P { s with agenda := tasks, freeCount := n }

section Kept

variable {P : State → Prop}

theorem KeptByWork.moves (hP : KeptByWork P) (h : Moves a s t) (hs : P s) : P t :=
  h.keeps (hP.move a) hs

theorem KeptByWork.chain (hP : KeptByWork P) (h : Chain a s t) (hs : P s) : P t := by
  have hpush (k : Task) (u : State) (hu : P u) : P (u.push k) :=
    hP.agenda u (u.agenda ++ [k]) u.freeCount hu
  cases h with
  | stops h => exact hP.moves h hs
  | goes k before _ after => exact hP.moves after (hpush k _ (hP.moves before hs))
  | enters value header boundary before _ => exact hpush _ _ (hP.moves before hs)

theorem KeptByWork.entryChain (hP : KeptByWork P) {value : Word} (h : EntryChain a value s t)
    (hready : Ready a value s) (hs : P s) : P t := by
  cases h with
  | fails h => exact hP.chain h hs
  | enters first then_ => exact hP.chain then_ (hP.entry a value s _ first hready hs)

/-- Once a task that may run is taken off the agenda, its chain has no step left on it. -/
theorem AgendaLaw.steps_erase (hlaw : AgendaLaw s) {k : Task} (hmem : k ∈ s.agenda)
    (hrun : k.mayRun s.agenda = true) (hk : k.axis? = some a) (n : Nat) :
    ({ s with agenda := s.agenda.erase k, freeCount := n } : State).steps a = [] := by
  have hsub : (s.agenda.erase k).filter (Task.movesAt a) = (s.steps a).erase k :=
    List.erase_filter.symm
  cases hmoves : k.movesChain
  · have hnone : s.steps a = [] := by
      rw [State.steps, List.filter_eq_nil_iff]
      intro u hu hmove
      simp only [Task.mayRun, hmoves, Bool.false_or, Bool.not_eq_true', List.any_eq_false] at hrun
      refine hrun u hu ?_
      rw [hk]
      exact hmove
    show (s.agenda.erase k).filter (Task.movesAt a) = []
    rw [hsub, hnone, List.erase_nil]
  · have hin : k ∈ s.steps a := State.mem_steps.mpr ⟨hmem, hmoves, hk⟩
    show (s.agenda.erase k).filter (Task.movesAt a) = []
    rw [hsub]
    have hlen := List.length_erase_of_mem hin
    have hone := hlaw.one a
    exact List.length_eq_zero_iff.mp (by omega)

theorem AgendaLaw.erase (hlaw : AgendaLaw s) (k : Task) (n : Nat) :
    AgendaLaw { s with agenda := s.agenda.erase k, freeCount := n } := by
  refine ⟨fun a => ?_, fun a value header boundary hmem =>
    hlaw.ready a value header boundary (List.mem_of_mem_erase hmem)⟩
  exact (List.Sublist.length_le ((List.erase_sublist (a := k)).filter _)).trans (hlaw.one a)

/-- A task that may run keeps what work keeps. -/
theorem KeptByWork.runTask (hP : KeptByWork P) {k : Task} (hlaw : AgendaLaw s)
    (hfree : ∀ a, k.axis? = some a → s.steps a = [])
    (hready : ∀ a v h g, k = .enter a v h g → Ready a v s) (hs : P s) :
    P (s.runTask k) ∧ AgendaLaw (s.runTask k) := by
  rcases k.cases_entry with ⟨a, value, header, boundary, rfl⟩ | ⟨n, rising, rfl⟩ | ⟨a, hk, hentry⟩
  · have hchain := EntryChain.runTask (a := a) value header boundary s
    exact ⟨hP.entryChain hchain (hready a value header boundary rfl) hs,
      hchain.agendaLaw (hfree a rfl) hlaw⟩
  · have hmoves (a : Axis) := Moves.runTask_capture (a := a) n rising s
    refine ⟨hP.moves (hmoves 0) hs, fun b => (hmoves 0).steps b ▸ hlaw.one b,
      fun b value header boundary hmem => ?_⟩
    have hb : ∀ b : Axis, b ≠ b + 1 := by decide
    exact (hmoves (b + 1)).ready (hb b) (hlaw.ready b value header boundary ((hmoves 0).entries hmem))
  · have hchain := Chain.runTask hk hentry s
    exact ⟨hP.chain hchain hs, hchain.agendaLaw (hfree a hk) hlaw⟩

theorem KeptByWork.settle (hP : KeptByWork P) (n : Nat) (hlaw : AgendaLaw s) (hs : P s) :
    P (s.settle n) := by
  induction n generalizing s with
  | zero => exact hs
  | succ n ih =>
    simp only [State.settle]
    split
    · exact hs
    · rename_i k u hnext
      obtain ⟨hmem, hrun, m, rfl⟩ := State.nextTask_eq_some hnext
      have hdone := hP.runTask (k := k) (hlaw.erase k m)
        (fun a hk => hlaw.steps_erase hmem hrun hk m)
        (fun a v h g hk => hlaw.ready a v h g (hk ▸ hmem)) (hP.agenda s _ m hs)
      exact ih hdone.2 hdone.1

/-- What work keeps, a command that settles a lawful agenda keeps. -/
theorem KeptByWork.settled (hP : KeptByWork P) (hlaw : AgendaLaw s) (hs : P s) : P s.settled :=
  hP.agenda (s.settle settleBound) [] _ (hP.settle settleBound hlaw hs)

end Kept

end Sys2Proof.Machine
end

