-- ==== Sys2Proof/Proofs/Commands.lean ====
section
/-!
PROOF. What a command can do: one inversion lemma for exec. A host write stores its word; a command that
starts chain work does a piece of it at some axes and settles its agenda; the other commands each have one
effect.
-/
namespace Sys2Proof.Machine

variable {a : Axis} {s t : State}

/-! ### The owner of a word -/

theorem eq_of_watchOwner_axis {addr : Addr} (h : watchOwner addr = .axisCommand a) :
    addr = axisWord a 0 := by
  unfold watchOwner at h
  dsimp only at h
  split at h
  · rename_i hn
    simp only [Owner.axisCommand.injEq] at h
    apply BitVec.eq_of_toNat_eq
    subst h
    simp only [axisWord, Fin.ofNat, BitVec.toNat_ofNat]
    omega
  · split at h
    · cases h
    · split at h <;> cases h

theorem eq_of_watchOwner_join {addr : Addr} {j : Point} (h : watchOwner addr = .joinControl j) :
    addr = joinWord j 2 := by
  unfold watchOwner at h
  dsimp only at h
  split at h
  · cases h
  · split at h
    · rename_i hn
      simp only [Owner.joinControl.injEq] at h
      apply BitVec.eq_of_toNat_eq
      subst h
      simp only [joinWord, Fin.ofNat, BitVec.toNat_ofNat]
      omega
    · split at h <;> cases h

theorem eq_of_watchOwner_slot {addr : Addr} {k : Slot} (h : watchOwner addr = .slotState k) :
    addr = slotStateWord k := by
  unfold watchOwner at h
  dsimp only at h
  split at h
  · cases h
  · split at h
    · cases h
    · split at h
      · rename_i hn
        simp only [Owner.slotState.injEq] at h
        apply BitVec.eq_of_toNat_eq
        subst h
        simp only [slotStateWord, Fin.ofNat, BitVec.toNat_ofNat]
        omega
      · cases h

/-! ### Chain work at several axes -/

/-- Chain work at the axes of a list, one after another, before any task is taken. -/
inductive Opens (s : State) : List Axis → State → Prop
  | nil : Opens s [] s
  | choice {as : List Axis} {u : State} (n : Nat) (h : Opens s as u) :
      Opens s as { u with freeCount := n }
  | chain {as : List Axis} {u t : State} {a : Axis} (h : Opens s as u) (new : a ∉ as)
      (work : Chain a u t) : Opens s (a :: as) t
  | entry {as : List Axis} {u t : State} {a : Axis} {value : Word} (h : Opens s as u) (new : a ∉ as)
      (ready : Ready a value u) (work : EntryChain a value u t) : Opens s (a :: as) t

theorem Opens.acts {as : List Axis} (h : Opens s as t) : Acts s t := by
  induction h with
  | nil => exact .refl
  | choice n _ ih => exact ih.trans (Act.agenda _ n).acts
  | chain _ _ work ih => exact ih.trans work.acts
  | entry _ _ _ work ih => exact ih.trans work.acts

/-- Opening work keeps what work keeps, and leaves a lawful agenda with steps of its own chains alone. -/
theorem KeptByWork.opens {P : State → Prop} (hP : KeptByWork P) {as : List Axis} (h : Opens s as t)
    (hq : Quiet s) (hs : P s) : P t ∧ AgendaLaw t ∧ ∀ b, b ∉ as → t.steps b = [] := by
  induction h with
  | nil => exact ⟨hs, .of_quiet hq, fun b _ => by simp [State.steps, hq]⟩
  | choice n _ ih =>
    obtain ⟨hp, hlaw, hsteps⟩ := ih
    exact ⟨hP.agenda _ _ n hp, ⟨hlaw.one, hlaw.ready⟩, hsteps⟩
  | chain _ new work ih =>
    obtain ⟨hp, hlaw, hsteps⟩ := ih
    refine ⟨hP.chain work hp, work.agendaLaw (hsteps _ new) hlaw, fun b hb => ?_⟩
    rw [work.steps_ne fun e => hb (e ▸ .head _)]
    exact hsteps b fun e => hb (.tail _ e)
  | entry _ new ready work ih =>
    obtain ⟨hp, hlaw, hsteps⟩ := ih
    refine ⟨hP.entryChain work ready hp, work.agendaLaw (hsteps _ new) hlaw, fun b hb => ?_⟩
    rw [work.steps_ne fun e => hb (e ▸ .head _)]
    exact hsteps b fun e => hb (.tail _ e)

theorem Chain.opens (h : Chain a s t) : Opens s [a] t := .chain .nil (List.not_mem_nil) h

theorem getD_mem_cons (i : Nat) (a : Axis) (rest : List Axis) :
    (a :: rest).getD i a ∈ a :: rest := by
  by_cases hi : i < (a :: rest).length
  · rw [List.getD_eq_getElem _ _ hi]
    exact List.getElem_mem hi
  · rw [List.getD_eq_default _ _ (Nat.not_lt.mp hi)]
    exact .head _

/-- Entries of distinct ready axes, one after another in the free order. -/
theorem Opens.inFreeOrder_enter {value : Word} {header : Option Word} {s₀ : State} (n : Nat)
    {as done : List Axis} {s : State} (hopen : Opens s₀ done s) (hnodup : as.Nodup)
    (hnew : ∀ b ∈ as, b ∉ done) (hready : ∀ b ∈ as, Ready b value s) :
    ∃ all, Opens s₀ all (s.inFreeOrder (fun b u => u.enter b value header false) n as) := by
  induction n generalizing as done s with
  | zero => exact ⟨done, hopen⟩
  | succ n ih =>
    cases as with
    | nil => exact ⟨done, hopen⟩
    | cons b rest =>
      simp only [State.inFreeOrder]
      have hchoose : ∃ i m, s.choose (rest.length + 1) = (i, { s with freeCount := m }) := by
        simp only [State.choose]
        split
        · exact ⟨0, s.freeCount, rfl⟩
        · exact ⟨_, _, rfl⟩
      obtain ⟨i, m, hchoose⟩ := hchoose
      rw [hchoose]
      dsimp only
      have hmem : (b :: rest).getD i b ∈ b :: rest := getD_mem_cons i b rest
      generalize (b :: rest).getD i b = c at hmem ⊢
      have hwork := EntryChain.enter (a := c) value header false { s with freeCount := m }
      refine ih (.entry (.choice m hopen) (hnew c hmem) (hready c hmem) hwork) (hnodup.erase c)
        (fun d hd => ?_) fun d hd => ?_
      · have hne : d ≠ c := fun e => by
          subst e
          exact (hnodup.mem_erase_iff.mp hd).1 rfl
        exact fun hin => (List.mem_cons.mp hin).elim hne (hnew d (List.mem_of_mem_erase hd))
      · have hne : d ≠ c := fun e => by
          subst e
          exact (hnodup.mem_erase_iff.mp hd).1 rfl
        exact hwork.ready hne (hready d (List.mem_of_mem_erase hd))

theorem State.watches_iff (s : State) (a : Axis) (w : Wait) :
    s.watches a w = true ↔
      (s.ax a).state = .starved ∧ ∃ c, (s.ax a).ctx = some c ∧ c.phase = .starved w := by
  simp only [State.watches]
  cases (s.ax a).ctx <;> simp

theorem Opens.enterEach (value : Word) (header : Option Word) (w : Wait) (s : State) :
    ∃ all, Opens s all (s.enterEach value header (s.watchers w)) := by
  refine Opens.inFreeOrder_enter _ .nil (nodup_allAxes.filter _) (fun _ _ => List.not_mem_nil)
    fun b hb c hc => ?_
  obtain ⟨-, d, hd, hphase⟩ := (s.watches_iff b w).mp (List.mem_filter.mp hb).2
  have hcd : c = d := Option.some.inj (hc.symm.trans hd)
  subst hcd
  exact ⟨fun h => by simp [h, Context.idleBaseContext] at hphase,
    .inl (by simp [Context.isStarved, hphase])⟩

/-! ### Host writes -/

/-- What a command of the host stores before its effect: nothing, the word written, or a command word and
its answer. -/
inductive HostStores (w : Option Addr) (s : State) : State → Prop
  | nothing : HostStores w s s
  | word (addr : Addr) (v : Word) (hw : w = some addr) : HostStores w s (s.write addr v)
  | answered (a : Axis) (v : Word) (tag : BitVec 8) (r : AnswerResult)
      (hw : w = some (axisWord a 0)) :
      HostStores w s ((s.write (axisWord a 0) v).answer a tag r)

/-! ### What a command can do -/

/-- Only registers and counts of commands differ, and nothing that a law of the part speaks of. -/
structure RegisterFrame (s t : State) : Prop where
  frame :
    t =
      { s with
        timeLatch := t.timeLatch, cmdBack := t.cmdBack, faultCode := t.faultCode
        faultIndex := t.faultIndex, acause := t.acause, amask := t.amask, portData := t.portData
        snapsOwed := t.snapsOwed }

/-- The part after a hard reset. -/
def State.hardReset (kind : ResetKind) (s : State) : State :=
  { State.reset with
    ram := s.ram
    axes := table8 fun a => (s.ax a).hardReset kind
    rawLevels := s.rawLevels
    now := s.now
    freeCount := s.freeCount
    pending := s.pending }

theorem exec_hardReset (kind : ResetKind) (s : State) :
    exec (.hardReset kind) s = .next (s.hardReset kind) := rfl

/-- What a command can do that writes host word `w`. -/
inductive CommandEffect (w : Option Addr) (s : State) : Instr → State → Prop
  | registers (c : Instr) (t : State) (h : RegisterFrame s t) : CommandEffect w s c t
  | hardReset (kind : ResetKind) : CommandEffect w s (.hardReset kind) (s.hardReset kind)
  | fillStarts (c : Instr) (h : s.dev = .init .held) :
      CommandEffect w s c { s with dev := .init .zeroFill }
  | fillEnds (h : s.dev = .init .zeroFill) :
      CommandEffect w s .zeroFillEnd
        { s with ram := [], dev := .stopped, acause := AlertCause.resetDone.bit }
  | softReset (c : Instr) (h : s.inInit = false) : CommandEffect w s c s.softReset
  | scanEnds (c : Instr) (kept : Time) (h : s.dev = .init (.scan kept)) :
      CommandEffect w s c
        { s.scan kept with dev := .stopped, acause := AlertCause.resetDone.bit }
  | spanStarts (c : Instr) (setup : Setup) (raw : BitVec 16) (h : s.dev = .stopped) :
      CommandEffect w s c (s.startSpan setup raw)
  | spanStops (c : Instr) (h : s.dev = .running) : CommandEffect w s c s.stopSpan
  | flushes (c : Instr) (h : s.inInit = false) :
      CommandEffect w s c ((s.closeIfRecords .flush s.timebase).readBack 4 .taken)
  | ages (c : Instr) :
      CommandEffect w s c
        ((s.closeIfRecords .aged s.timebase).mapReport fun r => { r with deadline := none })
  | slotWritten (c : Instr) (k : Slot) (v : Word) (h : s.inInit = false)
      (hw : w = some (slotStateWord k)) : CommandEffect w s c (s.slotStateWrite k v).settled
  | stores (c : Instr) (addr : Addr) (v : Word) (h : s.inInit = false) (hw : w = some addr) :
      CommandEffect w s c (s.write addr v)
  | rearms (c : Instr) (j : Point) (v : Word) (h : s.dev = .running)
      (hw : w = some (joinWord j 2)) :
      CommandEffect w s c
        ((((s.write (joinWord j 2) v).setPoint j
          { s.point j with state := .opened, arrivals := 0 }).write (joinWord j 4) 0).write
          (joinWord j 3) 0)
  | steps (a : Axis) (h : s.stepStartDue a = true) :
      CommandEffect w s (.stepStart a) (s.setAx a ((s.ax a).startStep s.now))
  | pulseEnds (c : Instr) (a : Axis) (h : s.pulseEndDue a = true) :
      CommandEffect w s c (s.setAx a ((s.ax a).endPulse s.dirlead s.now))
  | ticks (c : Instr) (raw : BitVec 16) : CommandEffect w s c (s.tick raw)
  | works (c : Instr) {v u : State} {as : List Axis} (stored : HostStores w s v)
      (opened : Opens v as u) (running : s.dev = .running ∨ u = v) : CommandEffect w s c u.settled

theorem CommandEffect.stays (w : Option Addr) (c : Instr) (s : State) : CommandEffect w s c s :=
  .registers c s ⟨rfl⟩

/-! ### Commands of CMD and registers -/

section Registers

variable {w : Option Addr} {c : Instr}

theorem CommandEffect.readBack (code : BitVec 4) (r : CmdResult) :
    CommandEffect w s c (s.readBack code r) := .registers c _ ⟨rfl⟩

theorem CommandEffect.runStart (raw : BitVec 16) : CommandEffect w s c (s.runStartCommand raw) := by
  simp only [State.runStartCommand]
  split
  · exact .stays w c s
  · exact .readBack _ _
  · exact .readBack _ _
  · rename_i hdev
    split
    · exact .registers c _ ⟨rfl⟩
    · exact .spanStarts c _ raw hdev

theorem CommandEffect.runStop : CommandEffect w s c s.runStopCommand := by
  simp only [State.runStopCommand]
  split
  · exact .stays w c s
  · exact .readBack _ _
  · exact .readBack _ _
  · rename_i hdev
    exact .spanStops c hdev

theorem CommandEffect.softResetCommand : CommandEffect w s c s.softResetCommand := by
  simp only [State.softResetCommand]
  split
  · exact .stays w c s
  · rename_i h
    exact .softReset c (Bool.eq_false_iff.mpr h)

theorem CommandEffect.flush : CommandEffect w s c s.flushCommand := by
  simp only [State.flushCommand]
  split
  · exact .stays w c s
  · rename_i h
    exact .flushes c (Bool.eq_false_iff.mpr h)

theorem CommandEffect.snap : CommandEffect w s c s.snapCommand := by
  simp only [State.snapCommand]
  split
  · exact .stays w c s
  · exact .registers c _ ⟨rfl⟩

theorem CommandEffect.cmdWrite (value : Word) : CommandEffect w s c (s.cmdWrite value) := by
  simp only [State.cmdWrite]
  split
  · exact .runStart _
  · exact .runStop
  · exact .softResetCommand
  · exact .flush
  · exact .snap
  · split
    · exact .stays w c s
    · exact .readBack _ _

theorem CommandEffect.acauseWrite (value : Word) : CommandEffect w s c (s.acauseWrite value) := by
  simp only [State.acauseWrite]
  split
  · exact .stays w c s
  · exact .registers c _ ⟨rfl⟩

theorem CommandEffect.amaskWrite (value : Word) : CommandEffect w s c (s.amaskWrite value) := by
  simp only [State.amaskWrite]
  split
  · exact .stays w c s
  · exact .registers c _ ⟨rfl⟩

theorem CommandEffect.registerWrite (reg : Reg) (value : Word) :
    CommandEffect w s c (s.registerWrite reg value) := by
  cases reg with
  | cmd => exact .cmdWrite value
  | acause => exact .acauseWrite value
  | amask => exact .amaskWrite value
  | _ => exact .stays w c s

end Registers

/-! ### Axis commands -/

section AxisCommands

variable {c : Instr}

/-- A command that settles a quiet agenda. -/
theorem CommandEffect.settles (w : Option Addr) (c : Instr) (s : State) :
    CommandEffect w s c s.settled := .works c .nothing .nil (.inr rfl)

theorem CommandEffect.chain {w : Option Addr} {v u : State} (stored : HostStores w s v)
    (h : Chain a v u) (hdev : s.dev = .running) : CommandEffect w s c u.settled :=
  .works c stored h.opens (.inl hdev)

/-- The effect of an accepted command is chain work at its axis. -/
theorem CommandEffect.commandWrite (v : Word) (check : State → AnswerResult)
    (effect : State → State)
    (heffect : ∀ tag, (s.ax a).state ≠ .off → check (s.write (axisWord a 0) v) = .accepted →
      Chain a ((s.write (axisWord a 0) v).answer a tag .accepted)
        (effect ((s.write (axisWord a 0) v).answer a tag .accepted))) :
    CommandEffect (some (axisWord a 0)) s c (s.commandWrite a v check effect).settled := by
  simp only [State.commandWrite]
  split
  · exact .settles _ c s
  · split
    · rename_i haccepted
      rw [haccepted]
      simp only [State.commandResult] at haccepted
      split at haccepted
      · cases haccepted
      · rename_i hdev
        split at haccepted
        · cases haccepted
        · split at haccepted
          · cases haccepted
          · rename_i hoff
            exact .chain (.answered a v _ _ rfl) (heffect _ hoff haccepted)
              (Decidable.not_not.mp hdev)
    · exact .works c (.answered a v _ _ rfl) .nil (.inr rfl)

theorem state_of_startCheck (h : startCheck a s = .accepted) : (s.ax a).state = .idle := by
  by_contra hidle
  simp [startCheck, hidle] at h

theorem state_of_clearCheck (h : clearCheck a s = .accepted) : (s.ax a).state = .halted := by
  by_contra hhalted
  simp [clearCheck, hhalted] at h

theorem state_of_interjectCheck {v : Word} (h : interjectCheck a v s = .accepted) :
    (s.ax a).state ≠ .halted := fun hhalted => by
  simp [interjectCheck, hhalted] at h

theorem CommandEffect.start (v : Word) :
    CommandEffect (some (axisWord a 0)) s c
      (s.commandWrite a v (startCheck a) (startEffect a)).settled :=
  .commandWrite v _ _ fun _ _ hcheck =>
    have hidle := state_of_startCheck hcheck
    .startEffect hidle

theorem CommandEffect.pause (v : Word) :
    CommandEffect (some (axisWord a 0)) s c
      (s.commandWrite a v (pauseCheck a) (State.pauseAxis a)).settled :=
  .commandWrite v _ _ fun _ _ _ => .stops (.pauseAxis _)

theorem CommandEffect.resume (v : Word) :
    CommandEffect (some (axisWord a 0)) s c
      (s.commandWrite a v (resumeCheck a) (resumeEffect a)).settled :=
  .commandWrite v _ _ fun _ _ _ => .resumeEffect _

theorem CommandEffect.abort (v : Word) :
    CommandEffect (some (axisWord a 0)) s c
      (s.commandWrite a v (abortCheck a) (State.halt a .aborted 0)).settled :=
  .commandWrite v _ _ fun _ _ _ => .stops (.halt _ _ _)

theorem CommandEffect.clear (v : Word) :
    CommandEffect (some (axisWord a 0)) s c
      (s.commandWrite a v (clearCheck a) (clearEffect a)).settled :=
  .commandWrite v _ _ fun tag _ hcheck =>
    have hhalted := state_of_clearCheck hcheck
    (Move.clearEffect (s := (s.write (axisWord a 0) v).answer a tag .accepted) hhalted).chain

theorem CommandEffect.interject (v : Word) :
    CommandEffect (some (axisWord a 0)) s c
      (s.commandWrite a v (interjectCheck a v) (interjectEffect a v)).settled :=
  .commandWrite v _ _ fun _ hoff hcheck =>
    have hhalted := state_of_interjectCheck hcheck
    .placeRequest _ _ hoff hhalted

theorem CommandEffect.withdraw (v : Word) :
    CommandEffect (some (axisWord a 0)) s c
      (s.commandWrite a v (withdrawCheck a v) (withdrawEffect a v)).settled :=
  .commandWrite v _ _ fun _ _ _ => (Move.withdrawEffect v).chain

theorem CommandEffect.setpos (v : Word) :
    CommandEffect (some (axisWord a 0)) s c
      (s.commandWrite a v (setposCheck a) (setposEffect a)).settled :=
  .commandWrite v _ _ fun _ _ _ => Move.setposEffect.chain

theorem CommandEffect.noneWrite (v : Word) :
    CommandEffect (some (axisWord a 0)) s c (s.noneWrite a v) := by
  simp only [State.noneWrite]
  split
  · exact .stays _ c s
  · rename_i h
    exact .stores c _ v (Bool.eq_false_iff.mpr h) rfl

theorem CommandEffect.axisCommandWrite (v : Word) :
    CommandEffect (some (axisWord a 0)) s c (s.axisCommandWrite a v).settled := by
  simp only [State.axisCommandWrite]
  split
  · simp only [State.noneWrite]
    split
    · exact .settles _ c s
    · exact .works c (.word _ v rfl) .nil (.inr rfl)
  · exact .start v
  · exact .pause v
  · exact .resume v
  · exact .abort v
  · exact .clear v
  · exact .interject v
  · exact .withdraw v
  · exact .setpos v
  · exact .commandWrite v _ _ fun _ _ h => by cases h

end AxisCommands

/-! ### Host writes to the other words -/

section HostWrites

variable {c : Instr}

theorem CommandEffect.joinControlWrite (j : Point) (v : Word) :
    CommandEffect (some (joinWord j 2)) s c (s.joinControlWrite j v) := by
  simp only [State.joinControlWrite]
  split
  · exact .stays _ c s
  · rename_i h
    split
    · rename_i hopens
      exact .rearms c j v hopens.1 rfl
    · exact .stores c _ v (Bool.eq_false_iff.mpr h) rfl

/-- Opening a BROKEN point is work of the join unit. -/
theorem Moves.rearm (j : Point) (s : State) :
    Moves a s
      (((s.setPoint j { s.point j with state := .opened, arrivals := 0 }).write (joinWord j 4) 0).write
        (joinWord j 3) 0) := by
  have hpoint : Move a s (s.setPoint j { s.point j with state := .opened, arrivals := 0 }) :=
    .point j _ (.clears rfl)
  exact .tail (.tail hpoint.moves (.joinEntry j 4 _ (by decide))) (.joinEntry j 3 _ (by decide))

theorem CommandEffect.joinControlWrite_settled (j : Point) (v : Word) :
    CommandEffect (some (joinWord j 2)) s c (s.joinControlWrite j v).settled := by
  simp only [State.joinControlWrite]
  split
  · exact .settles _ c s
  · split
    · rename_i hopens
      exact .chain (a := 0) (.word _ v rfl) (.stops (.rearm j _)) hopens.1
    · exact .works c (.word _ v rfl) .nil (.inr rfl)

theorem CommandEffect.slotStateWrite (k : Slot) (v : Word) :
    CommandEffect (some (slotStateWord k)) s c (s.slotStateWrite k v).settled := by
  by_cases h : s.inInit = true
  · rw [State.slotStateWrite, if_pos h]
    exact .settles _ c s
  · exact .slotWritten c k v (Bool.eq_false_iff.mpr h) rfl

theorem CommandEffect.linkWordEvent {w : Option Addr} {u : State} (q : Page) (v : Word)
    (stored : HostStores w s u) (hdev : u.dev = s.dev) :
    CommandEffect w s c (u.linkWordEvent q v).settled := by
  simp only [State.linkWordEvent]
  split
  · exact .works c stored .nil (.inr rfl)
  · rename_i h
    obtain ⟨as, hopens⟩ := Opens.enterEach v none (.link q) u
    exact .works c stored hopens (.inl (hdev ▸ Decidable.not_not.mp (not_or.mp h).2))

theorem CommandEffect.stateWordEvent {w : Option Addr} {u : State} (p : Page) (v : Word)
    (stored : HostStores w s u) (hdev : u.dev = s.dev) :
    CommandEffect w s c (u.stateWordEvent p v).settled := by
  simp only [State.stateWordEvent]
  split
  · exact .works c stored .nil (.inr rfl)
  · rename_i h
    obtain ⟨as, hopens⟩ := Opens.enterEach (pageNumber p) (some v) (.state p) u
    exact .works c stored hopens (.inl (hdev ▸ Decidable.not_not.mp (not_or.mp h).2))

theorem CommandEffect.plainWrite (addr : Addr) (v : Word) :
    CommandEffect (some addr) s c (s.plainWrite addr v).settled := by
  simp only [State.plainWrite]
  split
  · exact .settles _ c s
  · have hstored : HostStores (some addr) s (s.write addr v) := .word addr v rfl
    split
    · exact .stateWordEvent _ v hstored rfl
    · split
      · exact .linkWordEvent _ v hstored rfl
      · exact .works c hstored .nil (.inr rfl)

theorem CommandEffect.hostWrite (addr : Addr) (v : Word) :
    CommandEffect (some addr) s c (s.hostWrite addr v).settled := by
  simp only [State.hostWrite]
  split
  · rename_i b howner
    rw [eq_of_watchOwner_axis howner]
    exact .axisCommandWrite v
  · rename_i j howner
    rw [eq_of_watchOwner_join howner]
    exact .joinControlWrite_settled j v
  · rename_i k howner
    rw [eq_of_watchOwner_slot howner]
    exact .slotStateWrite k v
  · exact .plainWrite addr v

end HostWrites

/-! ### Lines and join points -/

theorem Moves.sendAction (n : Line) (s : State) : Moves a s (s.sendAction n) := by
  simp only [State.sendAction]
  split
  · exact .refl
  · exact .pushEach _ (fun _ => rfl) _ s
  · exact .pushEach _ (fun _ => rfl) _ s
  · exact .pushEach _ (fun _ => rfl) _ s

theorem Moves.edge (n : Line) (level : Bool) (s : State) : Moves a s (s.edge n level) := by
  simp only [State.edge]
  split
  · exact .trans (Move.event _ rfl).moves (.sendAction n _)
  · exact .sendAction n s

theorem Moves.edge_if (n : Line) (level b : Bool) (s : State) :
    Moves a s (if b = true then s.edge n level else s) := by
  cases b
  · exact .refl
  · exact .edge n level s

theorem Moves.qualifiedChange (n : Line) (s : State) : Moves a s (s.qualifiedChange n) := by
  have hseen (l : List Axis) (u : State) : Moves a u (u.pushEach (fun b => .levelSeen b n) l) :=
    .pushEach _ (fun _ => rfl) l u
  exact .trans (.trans (.tail (Move.line n _).moves (.mirror n _)) (hseen _ _)) (.edge_if n _ _ _)

/-! ### Every command -/

/-- An event that is due does chain work at one axis; an event that is not due changes nothing. -/
theorem CommandEffect.of_due {w : Option Addr} {c : Instr} {due : Bool} {u : State}
    (hdev : due = true → s.dev = .running) (h : Chain a s u)
    (hexec : (if due = true then .next u.settled else .next s : Host.Outcome State Fault Refusal) =
      .next t) : CommandEffect w s c t := by
  split at hexec
  · rename_i hdue
    cases hexec
    exact .chain .nothing h (hdev hdue)
  · cases hexec
    exact .stays w c s

theorem State.dev_of_stepping (h : s.stepping a = true) : s.dev = .running :=
  ((s.stepping_iff a).mp h).1

theorem CommandEffect.of_next {w : Option Addr} {c : Instr} {u : State} (h : CommandEffect w s c u)
    (hexec : (.next u : Host.Outcome State Fault Refusal) = .next t) : CommandEffect w s c t :=
  Host.Outcome.next.inj hexec ▸ h

/-- What a command can do. -/
theorem exec_effect {c : Instr} (h : exec c s = .next t) : CommandEffect (wordWritten c) s c t := by
  cases c with
  | hardReset kind => exact .of_next (.hardReset kind) h
  | zeroFillEnd =>
    simp only [exec, execZeroFillEnd] at h
    split at h
    · rename_i hdev
      exact .of_next (.fillEnds hdev.1) h
    · exact .of_next (.stays _ _ s) h
  | softReset => exact .of_next (.softResetCommand) h
  | softResetScanEnd =>
    simp only [exec, execSoftResetScanEnd] at h
    split at h
    · rename_i kept hdev
      split at h
      · exact .of_next (.stays _ _ s) h
      · exact .of_next (.scanEnds _ kept hdev) h
    all_goals
      exact .of_next (.stays _ _ s) h
  | runStart raw => exact .of_next (.runStart raw) h
  | runStop => exact .of_next (.runStop) h
  | flush => exact .of_next (.flush) h
  | snap => exact .of_next (.snap) h
  | cmdNoneCode value => exact .of_next (.cmdWrite value) h
  | acauseWrite value => exact .of_next (.acauseWrite value) h
  | amaskWrite value => exact .of_next (.amaskWrite value) h
  | time0Read => exact .of_next (.registers _ _ ⟨rfl⟩) h
  | registerWriteIgnored offset value => exact .of_next (.registerWrite _ value) h
  | hostRamWrite addr value => exact .of_next (.hostWrite addr value) h
  | axisNone a arg => exact .of_next (.noneWrite _) h
  | start a arg => exact .of_next (.start _) h
  | pause a arg => exact .of_next (.pause _) h
  | resume a arg => exact .of_next (.resume _) h
  | abort a arg => exact .of_next (.abort _) h
  | clear a arg => exact .of_next (.clear _) h
  | interject a arg => exact .of_next (.interject _) h
  | withdraw a arg => exact .of_next (.withdraw _) h
  | setpos a arg => exact .of_next (.setpos _) h
  | unknownCommand a code arg => exact .of_next (.axisCommandWrite _) h
  | rearm j value => exact .of_next (.joinControlWrite j value) h
  | slotStateWrite k value => exact .of_next (.slotStateWrite k value) h
  | linkWordEvent p value =>
    simp only [exec, execLinkWordEvent] at h
    split at h
    · exact .of_next (.stays _ _ s) h
    · exact .of_next (.linkWordEvent p value (.word _ value rfl) rfl) h
  | stateWordEvent p value =>
    simp only [exec, execStateWordEvent] at h
    split at h
    · exact .of_next (.stays _ _ s) h
    · exact .of_next (.stateWordEvent p value (.word _ value rfl) rfl) h
  | stepBoundary a =>
    refine .of_due (fun hdue => ?_) (.stepBoundary (a := a) s) h
    exact State.dev_of_stepping (Bool.and_eq_true_iff.mp hdue).1
  | leadGapEnd a =>
    refine .of_due (fun hdue => ?_) (.boundary (a := a) s) h
    exact State.dev_of_stepping (Bool.and_eq_true_iff.mp hdue).1
  | stepStart a =>
    simp only [exec, execStepStart] at h
    split at h
    · rename_i hdue
      exact .of_next (.steps a hdue) h
    · exact .of_next (.stays _ _ s) h
  | pulseEnd a =>
    simp only [exec, execPulseEnd] at h
    split at h
    · rename_i hdue
      exact .of_next (.pulseEnds _ a hdue) h
    · exact .of_next (.stays _ _ s) h
  | dwellExpiry a =>
    refine .of_due (fun hdue => ?_) (.dwellExpiry (a := a) s) h
    exact eq_of_beq (Bool.and_eq_true_iff.mp (Bool.and_eq_true_iff.mp hdue).1).1
  | waitInputTimeout a =>
    refine .of_due (fun hdue => ?_) (.waitTimeout (a := a) s) h
    exact eq_of_beq (Bool.and_eq_true_iff.mp (Bool.and_eq_true_iff.mp hdue).1).1
  | joinTimeout j =>
    refine .of_due (fun hdue => ?_) (.stops (a := 0) (.breakPoint j .timeout s)) h
    exact eq_of_beq (Bool.and_eq_true_iff.mp (Bool.and_eq_true_iff.mp hdue).1).1
  | agingExpiry =>
    simp only [exec, execAgingExpiry] at h
    split at h
    · exact .of_next (.ages _) h
    · exact .of_next (.stays _ _ s) h
  | qualifiedChange n =>
    refine .of_due (fun hdue => ?_) (.stops (a := 0) (.qualifiedChange n s)) h
    exact eq_of_beq (Bool.and_eq_true_iff.mp hdue).1
  | tickBoundary raw =>
    simp only [exec, execTickBoundary] at h
    split at h
    · exact .of_next (.stays _ _ s) h
    · exact .of_next (.ticks _ raw) h
  | resetNRelease =>
    simp only [exec, execResetNRelease] at h
    split at h
    · rename_i hdev
      exact .of_next (.fillStarts _ hdev) h
    · exact .of_next (.stays _ _ s) h

end Sys2Proof.Machine
end

