-- ==== Sys2Proof/Proofs/Writes.lean ====
section
/-!
PROOF. The exchange RAM changes by writes alone, so that every command but the zero fill keeps its canonical
form (log 1, log 2).
-/
namespace Sys2Proof.Machine

variable {a b : Axis} {s t : State} {m m' m'' : Memory}

/-! ### Writes -/

/-- Memory `m'` is `m` after writes of words. -/
inductive Written (m : Memory) : Memory → Prop
  | refl : Written m m
  | write {m' : Memory} (h : Written m m') (addr : Addr) (v : Word) : Written m (m'.write addr v)

theorem Written.trans (h : Written m m') (k : Written m' m'') : Written m m'' := by
  induction k with
  | refl => exact h
  | write _ addr v ih => exact ih.write addr v

theorem Written.writeWords (h : Written m m') (addr : Addr) (ws : List Word) :
    Written m (m'.writeWords addr ws) := by
  induction ws generalizing m' addr with
  | nil => exact h
  | cons w ws ih => exact ih (h.write addr w) (addr + 1)

theorem Written.writeChanged (h : Written m m') (addr : Addr) (old : List Word)
    (fs : List (List Word)) : Written m (m'.writeChanged addr old fs) := by
  induction fs generalizing m' addr old with
  | nil => exact h
  | cons f fs ih =>
    rw [Memory.writeChanged]
    refine ih ?_ _ _
    split
    · exact h
    · exact h.writeWords addr f

theorem Written.wf (h : Written m m') (hm : Memory.wf m = true) : Memory.wf m' = true := by
  induction h with
  | refl => exact hm
  | write _ addr v ih => exact Memory.wf_write ih addr v

/-! ### The report unit -/

@[simp] theorem State.writeSlot_ram (k : Slot) (v : SlotState) (s : State) :
    (s.writeSlot k v).ram = Memory.write s.ram (slotStateWord k) v.code := rfl

/-- A state word written after writes. -/
theorem Written.to_write (h : Written m s.ram) (addr : Addr) (v : Word) :
    Written m (s.write addr v).ram := h.write addr v

theorem Written.to_writeWords (h : Written m s.ram) (addr : Addr) (ws : List Word) :
    Written m (s.writeWords addr ws).ram := h.writeWords addr ws

theorem Written.to_writeSlot (h : Written m s.ram) (k : Slot) (v : SlotState) :
    Written m (s.writeSlot k v).ram := h.write (slotStateWord k) v.code

theorem Written.to_mapReport (h : Written m s.ram) (f : ReportUnit → ReportUnit) :
    Written m (s.mapReport f).ram := h

theorem Written.to_setCause (h : Written m s.ram) (c : AlertCause) :
    Written m (s.setCause c).ram := h

theorem State.searchSlots_written (ks : List Slot) (s : State) :
    Written s.ram (s.searchSlots ks).2.ram := by
  induction ks generalizing s with
  | nil => exact .refl
  | cons k ks ih =>
    simp only [State.searchSlots]
    split
    · split
      · have hbad := (Written.refl (m := s.ram)).to_writeSlot k .bad
        exact (hbad.to_setCause .slotFault).trans (ih _)
      · exact (Written.to_writeWords .refl _ _).to_writeSlot k _
    · exact ih s

theorem State.takeSlot_written (s : State) : Written s.ram s.takeSlot.2.ram :=
  State.searchSlots_written _ s

theorem State.closePage_written (reason : CloseReason) (time : Time) (s : State) :
    Written s.ram (s.closePage reason time).ram := by
  simp only [State.closePage]
  split
  · exact .refl
  · split <;>
    · simp only [State.setCause_ram, State.write_ram, State.mapReport_ram, State.writeSlot_ram,
        State.writeWords_ram]
      exact .write (.write (.writeWords .refl _ _) _ _) _ _

theorem State.closeIfRecords_written (reason : CloseReason) (time : Time) (s : State) :
    Written s.ram (s.closeIfRecords reason time).ram := by
  simp only [State.closeIfRecords]
  split
  · exact .refl
  · split
    · exact .refl
    · exact s.closePage_written reason time

theorem State.placeIn_written (k : Slot) (p : Page) (records used : Nat) (rec : Record) (s : State) :
    Written s.ram (s.placeIn k p records used rec).ram := by
  simp only [State.placeIn]
  split <;>
  · simp only [State.mapReport_ram, State.write_ram, State.setSlot, State.writeWords_ram]
    exact .write (.write (.write (.write (.writeWords .refl _ _) _ _) _ _) _ _) _ _

theorem State.placeFresh_written (rec : Record) (s : State) :
    Written s.ram (s.placeFresh rec).ram := by
  simp only [State.placeFresh]
  split
  · exact .refl
  · exact s.placeIn_written _ _ _ _ rec

theorem State.takeAndPlace_written (rec : Record) (s : State) :
    Written s.ram (s.takeAndPlace rec).2.ram := by
  have htake := s.takeSlot_written
  simp only [State.takeAndPlace]
  split
  · rename_i u hu
    rw [hu] at htake
    exact htake
  · rename_i u hu
    rw [hu] at htake
    exact htake.trans (u.placeFresh_written rec)

theorem State.tryPlace_written (rec : Record) (s : State) :
    Written s.ram (s.tryPlace rec).2.ram := by
  simp only [State.tryPlace]
  split
  · split
    · exact s.placeIn_written _ _ _ _ rec
    · exact (s.closePage_written .full _).trans (State.takeAndPlace_written rec _)
  · exact s.takeAndPlace_written rec

theorem State.countDrop_written (s : State) : Written s.ram s.countDrop.ram :=
  Written.write .refl _ _

theorem State.oweRecord_written (b : Axis) (rec : Record) (s : State) :
    Written s.ram (s.oweRecord b rec).ram := by
  simp only [State.oweRecord]
  split
  · exact State.countDrop_written (s.setOwed b _)
  · split <;> exact .refl

theorem State.noRoom_written (rec : Record) (s : State) : Written s.ram (s.noRoom rec).ram := by
  simp only [State.noRoom]
  split
  · split
    · exact State.oweRecord_written _ rec (s.setCause .roomExhausted)
    · exact State.countDrop_written (s.setCause .roomExhausted)
  · split
    · exact Written.write .refl _ _
    · split
      · exact State.oweRecord_written _ rec (s.setCause .roomExhausted)
      · exact State.countDrop_written (s.setCause .roomExhausted)

theorem State.handRecord_written (body : RecordBody) (s : State) :
    Written s.ram (s.handRecord body).ram := by
  have hplace := s.tryPlace_written { time := s.timebase, body := body }
  simp only [State.handRecord]
  split
  · rename_i u hu
    rw [hu] at hplace
    exact hplace
  · rename_i u hu
    rw [hu] at hplace
    exact hplace.trans (u.noRoom_written _)

theorem State.drainQueue_written (n : Nat) (s : State) : Written s.ram (s.drainQueue n).2.ram := by
  induction n generalizing s with
  | zero => exact .refl
  | succ n ih =>
    simp only [State.drainQueue]
    split
    · exact .refl
    · rename_i rec rest _
      have hplace := s.tryPlace_written rec
      split
      · rename_i u hu
        rw [hu] at hplace
        exact hplace
      · rename_i u hu
        rw [hu] at hplace
        exact ((hplace.to_mapReport _).to_write _ _).trans (ih _)

theorem State.drainDrops_written (s : State) : Written s.ram s.drainDrops.2.ram := by
  simp only [State.drainDrops]
  split
  · exact .refl
  · have hplace := s.tryPlace_written { time := s.timebase, body := .drops s.report.drops }
    split
    · rename_i u hu
      rw [hu] at hplace
      exact hplace
    · rename_i u hu
      rw [hu] at hplace
      exact (hplace.to_mapReport _).to_write _ _

theorem State.owedPlaced_ram (b : Axis) (rest : List Record) (s : State) :
    (s.owedPlaced b rest).ram = s.ram := by
  simp only [State.owedPlaced]
  split <;> rfl

theorem State.drainOwed_written (n : Nat) (s : State) : Written s.ram (s.drainOwed n).2.ram := by
  induction n generalizing s with
  | zero => exact .refl
  | succ n ih =>
    simp only [State.drainOwed]
    split
    · exact .refl
    · split
      · exact .refl
      · rename_i b _ _ _ rec rest _
        have hplace := s.tryPlace_written rec
        split
        · rename_i u hu
          rw [hu] at hplace
          exact hplace
        · rename_i u hu
          rw [hu] at hplace
          have hrest := ih (u.owedPlaced b rest)
          rw [State.owedPlaced_ram] at hrest
          exact hplace.trans hrest

theorem State.drainSteps_written (s : State) : Written s.ram s.drainSteps.ram := by
  have hqueue := s.drainQueue_written s.report.queue.length
  simp only [State.drainSteps]
  split
  · rename_i u hu
    rw [hu] at hqueue
    exact hqueue
  · rename_i u hu
    rw [hu] at hqueue
    have hdrops := u.drainDrops_written
    split
    · rename_i v hv
      rw [hv] at hdrops
      exact hqueue.trans hdrops
    · rename_i v hv
      rw [hv] at hdrops
      exact (hqueue.trans hdrops).trans (v.drainOwed_written _)

theorem State.drain_written (s : State) : Written s.ram s.drain.ram := by
  simp only [State.drain]
  split
  · exact s.drainSteps_written
  · have htake := s.takeSlot_written
    split
    · rename_i u hu
      rw [hu] at htake
      exact htake
    · rename_i u hu
      rw [hu] at htake
      exact htake.trans u.drainSteps_written

theorem State.enterStopped_written (s : State) : Written s.ram s.enterStopped.ram :=
  State.closeIfRecords_written .stop s.timebase { s with dev := .stopped }

theorem State.checkStopped_written (s : State) : Written s.ram s.checkStopped.ram := by
  simp only [State.checkStopped]
  split
  · exact s.enterStopped_written
  · exact .refl

theorem State.slotStateWrite_written (k : Slot) (v : Word) (s : State) :
    Written s.ram (s.slotStateWrite k v).ram := by
  have hstored : Written s.ram (s.write (slotStateWord k) v).ram := .write .refl _ _
  simp only [State.slotStateWrite]
  split
  · exact .refl
  · split
    · exact hstored.write (slotStateWord k) 2
    · split
      · have hset : Written s.ram ((s.write (slotStateWord k) v).setSlot k
            (((s.write (slotStateWord k) v).slot k).hostWritten v)).ram := hstored
        exact (hset.trans (State.drain_written _)).trans (State.checkStopped_written _)
      · exact hstored

/-! ### Acts -/

theorem State.releasePage_written (p : Page) (c : Claimant) (time : Time) (s : State) :
    Written s.ram (s.releasePage p c time).ram := by
  simp only [State.releasePage]
  exact (Written.to_writeWords .refl _ _).to_write _ _

theorem State.releaseList_written (time : Time) (l : List (Nat × Claimant)) (s : State) :
    Written s.ram (s.releaseList time l).ram := by
  induction l generalizing s with
  | nil => exact .refl
  | cons e l ih => exact (s.releasePage_written _ _ _).trans (ih _)

theorem Move.written (h : Move a s t) : Written s.ram t.ram := by
  cases h with
  | joinEntry j n v _ => exact .write .refl _ v
  | mirror n v => exact .write .refl _ v
  | record body _ => exact s.handRecord_written body
  | halts cause detail _ => exact s.releaseList_written _ _
  | leaves c q _ _ => exact s.releasePage_written q _ _
  | starves c q x _ _ _ _ => exact s.releasePage_written q _ _
  | drops c x _ _ _ _ => exact s.releasePage_written c.pageOr0 _ _
  | _ => exact .refl

theorem Act.written (h : Act s t) : Written s.ram t.ram := by
  cases h with
  | move a h => exact h.written
  | entry a value h =>
    cases h with
    | granted c p count r _ _ _ => exact .write .refl (pageWord p 1) 2
    | starves c p st _ _ _ _ => exact .refl
  | agenda tasks n => exact .refl

theorem Acts.written (h : Acts s t) : Written s.ram t.ram :=
  h.keeps (P := fun u => Written s.ram u.ram) (fun _ _ hact hs => hs.trans hact.written) .refl

theorem HostStores.written {w : Option Addr} (h : HostStores w s t) : Written s.ram t.ram := by
  cases h with
  | nothing => exact .refl
  | word addr v _ => exact .write .refl addr v
  | answered a v tag r _ => exact .write (.write .refl _ v) _ _

/-! ### Run control and the end of a tick -/

theorem State.flushSnap_written (s : State) : Written s.ram s.flushSnap.ram := by
  simp only [State.flushSnap]
  split
  · exact .refl
  · exact Written.write (.writeWords .refl _ _) _ _

theorem State.rewriteStatus_written (a : Axis) (s : State) :
    Written s.ram (s.rewriteStatus a).ram := by
  rw [State.rewriteStatus_ram]
  exact .write (.writeChanged (.write .refl _ _) _ _ _) _ _

theorem State.flushAll_written (s : State) : Written s.ram s.flushAll.ram := by
  have hlist (l : List Axis) (u : State) :
      Written u.ram (l.foldl (fun s a => s.flushStatus a) u).ram := by
    induction l generalizing u with
    | nil => exact .refl
    | cons a l ih =>
      refine .trans ?_ (ih (u.flushStatus a))
      simp only [State.flushStatus]
      split
      · exact u.rewriteStatus_written a
      · exact .refl
  exact hlist allAxes s

theorem State.endTick_written (s : State) : Written s.ram s.endTick.ram :=
  s.flushSnap_written.trans (State.flushAll_written _)

theorem State.writeJoinEntries_written (l : List Point) (s : State) :
    Written s.ram (s.writeJoinEntries l).ram := by
  induction l generalizing s with
  | nil => exact .refl
  | cons j l ih =>
    simp only [State.writeJoinEntries]
    exact (Written.to_writeWords .refl _ _).trans (ih _)

theorem State.writeMirrors_written (l : List Line) (s : State) :
    Written s.ram (s.writeMirrors l).ram := by
  induction l generalizing s with
  | nil => exact .refl
  | cons n l ih =>
    simp only [State.writeMirrors]
    exact (Written.to_write .refl _ _).trans (ih _)

/-- Restarting the aging deadline changes the deadline alone. -/
theorem State.restartAging_frame (s : State) :
    s.restartAging =
      { s with report := { s.report with deadline := s.restartAging.report.deadline } } := by
  simp only [State.restartAging]
  split
  · rfl
  · split <;> rfl

/-- RUN_START up to the join entries: the new setup, the timebase, the axes and the points. -/
def State.spanReset (c : Setup) (s : State) : State :=
  { ({ s.flushSnap with setup := c, timebase := 0 }.mapAxes fun a x =>
      x.atRunStart (inMask c.enabled a) s.flushSnap.now) with
    points := table16 fun _ => JoinPoint.reset }

/-- RUN_START up to the mirrors: the lines take their raw levels. -/
def State.spanLines (c : Setup) (raw : BitVec 16) (s : State) : State :=
  { (s.spanReset c).writeJoinEntries allSixteen with
    lines := table16 fun n => InputLine.loaded (raw.getLsbD n.val) }

/-- RUN_START up to the aging deadline: the device is RUNNING. -/
def State.spanOpened (c : Setup) (raw : BitVec 16) (s : State) : State :=
  { (s.spanLines c raw).writeMirrors allSixteen with
    dev := .running, faultCode := .ok, faultIndex := 0 }

theorem State.startSpan_eq (c : Setup) (raw : BitVec 16) (s : State) :
    s.startSpan c raw = ((s.spanOpened c raw).restartAging.readBack 1 .taken).flushAll := rfl

theorem State.spanReset_written (c : Setup) (s : State) : Written s.ram (s.spanReset c).ram := by
  simp only [State.spanReset, State.mapAxes_ram]
  exact s.flushSnap_written

theorem State.spanLines_written (c : Setup) (raw : BitVec 16) (s : State) :
    Written s.ram (s.spanLines c raw).ram := by
  simp only [State.spanLines]
  exact (s.spanReset_written c).trans (State.writeJoinEntries_written allSixteen (s.spanReset c))

theorem State.spanOpened_written (c : Setup) (raw : BitVec 16) (s : State) :
    Written s.ram (s.spanOpened c raw).ram := by
  simp only [State.spanOpened]
  exact (s.spanLines_written c raw).trans
    (State.writeMirrors_written allSixteen (s.spanLines c raw))

theorem State.startSpan_written (c : Setup) (raw : BitVec 16) (s : State) :
    Written s.ram (s.startSpan c raw).ram := by
  rw [State.startSpan_eq]
  refine .trans ?_ (State.flushAll_written _)
  rw [State.readBack_ram, State.restartAging_frame]
  exact s.spanOpened_written c raw

theorem State.inFreeOrder_keeps {P : State → Prop} (f : Axis → State → State)
    (hf : ∀ a s, P s → P (f a s)) (hfree : ∀ (s : State) (n : Nat), P s → P { s with freeCount := n })
    (n : Nat) (as : List Axis) (hs : P s) : P (s.inFreeOrder f n as) := by
  induction n generalizing s as with
  | zero => exact hs
  | succ n ih =>
    cases as with
    | nil => exact hs
    | cons a rest =>
      simp only [State.inFreeOrder, State.choose]
      split
      · exact ih _ (hf _ _ hs)
      · exact ih _ (hf _ _ (hfree _ _ hs))

/-- The halts of RUN_STOP, with the breaks that follow still to be taken. -/
def State.haltsActive (s : State) : State :=
  s.inFreeOrder (fun a u => u.halt a .runStopped 0)
    (allAxes.filter fun a => (s.ax a).state.active).length
    (allAxes.filter fun a => (s.ax a).state.active)

/-- RUN_STOP: the halts, what follows them, and the end of the span. -/
theorem State.stopSpan_eq (s : State) :
    s.stopSpan =
      State.readBack 2 .taken
        (if s.haltsActive.settled.report.waitList = [] then s.haltsActive.settled.enterStopped
        else { s.haltsActive.settled with dev := .stopping }) := rfl

theorem Acts.haltsActive (s : State) : Acts s s.haltsActive :=
  State.inFreeOrder_keeps (P := Acts s) _
    (fun a u hu => hu.trans (.of_moves (Moves.halt (a := a) .runStopped 0 u)))
    (fun u n hu => hu.trans (Act.agenda u.agenda n).acts) _ _ .refl

/-- The halts of RUN_STOP and the breaks that follow are acts. -/
theorem Acts.stopSpan (s : State) : Acts s s.haltsActive.settled :=
  (Acts.haltsActive s).trans (.settled _)

theorem State.stopSpan_written (s : State) : Written s.ram s.stopSpan.ram := by
  rw [State.stopSpan_eq, State.readBack_ram]
  split
  · exact (Acts.stopSpan s).written.trans (State.enterStopped_written _)
  · exact (Acts.stopSpan s).written

theorem State.scanFilling_written (kept : Time) (s : State) :
    Written s.ram (s.scanFilling kept).ram := by
  simp only [State.scanFilling]
  split
  · exact .refl
  · split
    · exact Written.to_writeSlot .refl _ _
    · exact s.closePage_written .reset kept

theorem State.scan_written (kept : Time) (s : State) : Written s.ram (s.scan kept).ram := by
  simp only [State.scan, State.mapReport_ram]
  have hclose := State.scanFilling_written kept { s.releaseList kept s.claims with claims := [] }
  exact (s.releaseList_written kept s.claims).trans hclose

@[simp] theorem State.advanceTimebase_ram (s : State) : s.advanceTimebase.ram = s.ram := by
  simp only [State.advanceTimebase]
  split <;> rfl

@[simp] theorem State.sampleAndCount_ram (raw : BitVec 16) (s : State) :
    (s.sampleAndCount raw).ram = s.ram := by
  simp only [State.sampleAndCount]
  split <;> rfl

theorem State.tick_written (raw : BitVec 16) (s : State) : Written s.ram (s.tick raw).ram := by
  simp only [State.tick, State.sampleAndCount_ram, State.advanceTimebase_ram]
  exact s.endTick_written

/-! ### Every command -/

/-- Every command but the end of the zero fill changes the exchange RAM by writes alone. -/
theorem CommandEffect.written {w : Option Addr} {c : Instr} (h : CommandEffect w s c t)
    (hc : c ≠ .zeroFillEnd) : Written s.ram t.ram := by
  cases h with
  | registers c t hframe => rw [hframe.frame]; exact .refl
  | hardReset kind => exact .refl
  | fillStarts c _ => exact .refl
  | fillEnds _ => exact absurd rfl hc
  | softReset c _ => simp only [State.softReset]; exact s.endTick_written
  | scanEnds c kept _ => exact s.scan_written kept
  | spanStarts c setup raw _ => exact s.startSpan_written setup raw
  | spanStops c _ => exact s.stopSpan_written
  | flushes c _ => exact s.closeIfRecords_written .flush _
  | ages c => exact s.closeIfRecords_written .aged _
  | slotWritten c k v _ _ => exact (s.slotStateWrite_written k v).trans (Acts.settled _).written
  | stores c addr v _ _ => exact .write .refl addr v
  | rearms c j v _ _ =>
    exact (Written.write .refl (joinWord j 2) v).trans
      (Acts.of_moves (Moves.rearm (a := 0) j (s.write (joinWord j 2) v))).written
  | steps a _ => exact .refl
  | pulseEnds c a _ => exact .refl
  | ticks c raw => exact s.tick_written raw
  | works c stored opened _ =>
    exact (stored.written.trans opened.acts.written).trans (Acts.settled _).written

/-- Every command keeps the canonical form of the exchange RAM. -/
theorem exec_memoryLaw {c : Instr} (hexec : exec c s = .next t) (h : MemoryLaw s) : MemoryLaw t := by
  by_cases hc : c = .zeroFillEnd
  · subst hc
    simp only [exec, execZeroFillEnd] at hexec
    split at hexec
    · exact Host.Outcome.next.inj hexec ▸ Memory.wf_nil
    · exact Host.Outcome.next.inj hexec ▸ h
  · exact ((exec_effect hexec).written hc).wf h

end Sys2Proof.Machine
end

