-- ==== Sys2Proof/Proofs/Outputs.lean ====
section
/-!
PROOF. What the commands do to the update counts and the outputs: chain work and reports leave STEP and the
update count, and change DIR only while STEP is low (R63, R65); an end of a tick closes every bracket it
opens (R18).
-/
namespace Sys2Proof.Machine

variable {a b : Axis} {s t : State}

/-! ### Chain work -/

theorem OutputsKept.trans {x y z : AxisEngine} (h : OutputsKept x y) (k : OutputsKept y z) :
    OutputsKept x z := by
  refine ⟨k.updateCount.trans h.updateCount, k.step.trans h.step, fun hdir => ?_⟩
  by_cases hy : z.dir = y.dir
  · rw [k.step]
    exact h.dir (hy ▸ hdir)
  · exact k.dir hy

/-- Every axis engine keeps its update count and STEP, and changes DIR only while STEP is low. -/
def OutputsStand (s t : State) : Prop := ∀ b, OutputsKept (s.ax b) (t.ax b)

theorem OutputsStand.refl : OutputsStand s s := fun _ => .refl _

theorem OutputsStand.trans {u : State} (h : OutputsStand s t) (k : OutputsStand t u) :
    OutputsStand s u := fun b => (h b).trans (k b)

theorem OutputsStand.of_axes (h : t.axes = s.axes) : OutputsStand s t := fun b => by
  rw [State.ax_of_axes h]
  exact .refl _

theorem OutputsStand.setAx {x : AxisEngine} (h : OutputsKept (s.ax a) x) :
    OutputsStand s (s.setAx a x) := fun b => by
  rw [State.ax_setAx]
  split
  · rename_i hb
    subst hb
    exact h
  · exact .refl _

theorem OutputsStand.dirty (h : ∀ b, t.ax b = s.ax b ∨ t.ax b = { s.ax b with dirty := true }) :
    OutputsStand s t := fun b => by
  rcases h b with hb | hb
  · rw [hb]
    exact .refl _
  · rw [hb]
    exact .of_eq rfl rfl rfl

theorem Move.outputs (h : Move a s t) : OutputsStand s t := by
  cases h with
  | record body _ => exact .dirty (State.handRecord_frame body s).axes
  | engine x outputs _ => exact .setAx outputs
  | released b j g => exact .setAx (.of_eq rfl rfl rfl)
  | halts cause detail _ =>
    have hclaims : OutputsStand s (s.releaseAxisClaims a) := .of_axes (State.releaseAxisClaims_axes a s)
    refine hclaims.trans (.setAx ?_)
    rw [State.ax_of_axes (State.releaseAxisClaims_axes a s)]
    exact .of_eq rfl rfl rfl
  | starves c q x _ _ outputs _ =>
    exact OutputsStand.setAx (s := s.releasePage q { axis := a, level := c.level } s.timebase) outputs
  | drops c x _ _ outputs _ =>
    exact OutputsStand.setAx (s := s.releasePage c.pageOr0 { axis := a, level := c.level } s.timebase)
      outputs
  | _ => exact .of_axes rfl

theorem EntryMove.outputs {value : Word} (h : EntryMove a value s t) : OutputsStand s t := by
  cases h with
  | granted c p count r _ _ _ =>
    exact OutputsStand.setAx
      (s := ({ s with claims := Sparse.insert s.claims p.toNat { axis := a, level := c.level } } :
        State).write (pageWord p 1) 2) (.of_eq rfl rfl rfl)
  | starves c p st _ _ _ _ => exact .setAx (.of_eq rfl rfl rfl)

theorem Act.outputs (h : Act s t) : OutputsStand s t := by
  cases h with
  | move a h => exact h.outputs
  | entry a value h => exact h.outputs
  | agenda tasks n => exact .of_axes rfl

theorem Acts.outputs (h : Acts s t) : OutputsStand s t :=
  h.keeps (P := OutputsStand s) (fun _ _ hact hs => hs.trans hact.outputs) .refl

theorem HostStores.axes {w : Option Addr} (h : HostStores w s t) : t.axes = s.axes := by
  cases h <;> rfl

theorem HostStores.outputs {w : Option Addr} (h : HostStores w s t) : OutputsStand s t :=
  .of_axes h.axes

/-! ### Reports -/

/-- The axis engines stand, but that a rewrite of some status blocks is now owed. -/
def AxesTouched (s t : State) : Prop :=
  ∀ b, t.ax b = s.ax b ∨ t.ax b = { s.ax b with dirty := true }

theorem AxesTouched.of_axes (h : t.axes = s.axes) : AxesTouched s t := fun b =>
  .inl (State.ax_of_axes h b)

theorem AxesTouched.refl : AxesTouched s s := .of_axes rfl

theorem AxesTouched.trans {u : State} (h : AxesTouched s t) (k : AxesTouched t u) :
    AxesTouched s u := fun b => by
  rcases k b with hk | hk <;> rcases h b with hh | hh
  · exact .inl (hk.trans hh)
  · exact .inr (hk.trans hh)
  · exact .inr (by rw [hk, hh])
  · exact .inr (by rw [hk, hh])

theorem AxesTouched.closeIfRecords (reason : CloseReason) (time : Time) (s : State) :
    AxesTouched s (s.closeIfRecords reason time) := (State.closeIfRecords_frame reason time s).axes

theorem AxesTouched.enterStopped (s : State) : AxesTouched s s.enterStopped :=
  AxesTouched.closeIfRecords .stop s.timebase { s with dev := .stopped }

theorem AxesTouched.drain (s : State) : AxesTouched s s.drain := s.drain_frame.axes

theorem AxesTouched.checkStopped (s : State) : AxesTouched s s.checkStopped := by
  simp only [State.checkStopped]
  split
  · exact .enterStopped s
  · exact .refl

theorem AxesTouched.slotStateWrite (k : Slot) (v : Word) (s : State) :
    AxesTouched s (s.slotStateWrite k v) := by
  simp only [State.slotStateWrite]
  split
  · exact .refl
  · split
    · exact .of_axes rfl
    · split
      · refine .trans (.of_axes ?_) ((AxesTouched.drain _).trans (.checkStopped _))
        rfl
      · exact .of_axes rfl

theorem AxesTouched.scanFilling (kept : Time) (s : State) : AxesTouched s (s.scanFilling kept) := by
  simp only [State.scanFilling]
  split
  · exact .refl
  · split
    · exact .of_axes rfl
    · exact (State.closePage_frame .reset kept s).axes

theorem AxesTouched.scan (kept : Time) (s : State) : AxesTouched s (s.scan kept) := by
  have hlist : AxesTouched s { s.releaseList kept s.claims with claims := [] } :=
    .of_axes (by rw [State.releaseList_fields])
  exact (hlist.trans (.scanFilling kept _)).trans (.of_axes rfl)

/-- RUN_STOP after its halts and breaks. -/
theorem AxesTouched.stopSpan (s : State) : AxesTouched s.haltsActive.settled s.stopSpan := by
  rw [State.stopSpan_eq]
  refine .trans ?_ (.of_axes (State.readBack_axes _ _ _))
  split
  · exact .enterStopped _
  · exact .of_axes rfl

theorem AxesTouched.outputs (h : AxesTouched s t) : OutputsStand s t := .dirty h

/-! ### The end of a tick -/

/-- The axis engine after the end of a tick: rewritten where a rewrite was owed. -/
theorem State.flushStatus_ax (a : Axis) (s : State) :
    (s.flushStatus a).ax a =
      if (s.ax a).dirty then
        { s.ax a with
          copy := s.statusWords a, updateCount := (s.ax a).updateCount + 2, dirty := false
          beganCount := none }
      else s.ax a := by
  simp only [State.flushStatus]
  split
  · exact State.rewriteStatus_ax s a
  · rfl

/-- `y` is `x`, or `x` after a rewrite of its status block. -/
structure Rewritten (x y : AxisEngine) : Prop where
  fields :
    y = { x with copy := y.copy, updateCount := y.updateCount, dirty := y.dirty, beganCount := y.beganCount }
  even : x.updateCount.getLsbD 0 = false → y.updateCount.getLsbD 0 = false

theorem Rewritten.refl (x : AxisEngine) : Rewritten x x := ⟨rfl, id⟩

theorem Rewritten.trans {x y z : AxisEngine} (h : Rewritten x y) (k : Rewritten y z) :
    Rewritten x z := ⟨by rw [k.fields, h.fields], fun hx => k.even (h.even hx)⟩

theorem getLsbD_zero_add_two (v : Word) : (v + 2).getLsbD 0 = v.getLsbD 0 := by
  simp only [BitVec.getLsbD, BitVec.toNat_add, Nat.testBit_zero]
  have h : (v.toNat + (2 : Word).toNat) % 2 ^ 16 % 2 = v.toNat % 2 := by
    show (v.toNat + 2) % 65536 % 2 = v.toNat % 2
    omega
  rw [h]

theorem State.flushStatus_rewritten (a b : Axis) (s : State) :
    Rewritten (s.ax b) ((s.flushStatus a).ax b) := by
  by_cases hb : b = a
  · subst hb
    rw [State.flushStatus_ax]
    split
    · exact ⟨rfl, fun h => (getLsbD_zero_add_two _).trans h⟩
    · exact .refl _
  · rw [State.flushStatus_ax_ne s hb]
    exact .refl _

theorem State.flushAll_rewritten (b : Axis) (s : State) :
    Rewritten (s.ax b) (s.flushAll.ax b) := by
  have hlist (l : List Axis) (u : State) :
      Rewritten (u.ax b) ((l.foldl (fun s a => s.flushStatus a) u).ax b) := by
    induction l generalizing u with
    | nil => exact .refl _
    | cons a l ih => exact (State.flushStatus_rewritten a b u).trans (ih _)
  exact hlist allAxes s

theorem State.flushSnap_axes (s : State) : s.flushSnap.axes = s.axes := by
  rw [State.flushSnap_frame]

theorem State.endTick_rewritten (b : Axis) (s : State) : Rewritten (s.ax b) (s.endTick.ax b) := by
  rw [← State.ax_of_axes s.flushSnap_axes b]
  exact State.flushAll_rewritten b s.flushSnap

/-! ### RUN_START -/

theorem State.writeJoinEntries_frame (l : List Point) (s : State) :
    s.writeJoinEntries l = { s with ram := (s.writeJoinEntries l).ram } := by
  induction l generalizing s with
  | nil => rfl
  | cons j l ih =>
    simp only [State.writeJoinEntries]
    rw [ih]
    rfl

theorem State.writeMirrors_frame (l : List Line) (s : State) :
    s.writeMirrors l = { s with ram := (s.writeMirrors l).ram } := by
  induction l generalizing s with
  | nil => rfl
  | cons n l ih =>
    simp only [State.writeMirrors]
    rw [ih]
    rfl

/-- RUN_START up to the join entries, field by field. -/
theorem State.spanReset_frame (c : Setup) (s : State) :
    s.spanReset c =
      { s with
        ram := s.flushSnap.ram, setup := c, timebase := 0
        axes := table8 fun a => (s.ax a).atRunStart (inMask c.enabled a) s.now
        points := table16 fun _ => JoinPoint.reset
        snapCount := s.snapCount + BitVec.ofNat 16 s.snapsOwed, snapsOwed := 0 } := by
  have hframe := s.flushSnap_frame
  rw [State.spanReset]
  generalize s.flushSnap = u at hframe ⊢
  rw [hframe]
  rfl

/-- RUN_START up to the aging deadline, field by field. -/
theorem State.spanOpened_frame (c : Setup) (raw : BitVec 16) (s : State) :
    s.spanOpened c raw =
      { s with
        ram := (s.spanOpened c raw).ram, setup := c, timebase := 0
        axes := table8 fun a => (s.ax a).atRunStart (inMask c.enabled a) s.now
        points := table16 fun _ => JoinPoint.reset
        lines := table16 fun n => InputLine.loaded (raw.getLsbD n.val)
        snapCount := s.snapCount + BitVec.ofNat 16 s.snapsOwed, snapsOwed := 0
        dev := .running, faultCode := .ok, faultIndex := 0 } := by
  have hentries := State.writeJoinEntries_frame allSixteen (s.spanReset c)
  have hmirrors := State.writeMirrors_frame allSixteen (s.spanLines c raw)
  rw [State.spanReset_frame] at hentries
  rw [State.spanOpened]
  generalize (s.spanLines c raw).writeMirrors allSixteen = v at hmirrors ⊢
  rw [State.spanLines] at hmirrors
  rw [State.spanReset_frame] at hmirrors
  generalize State.writeJoinEntries allSixteen _ = u at hentries hmirrors
  rw [hentries] at hmirrors
  rw [hmirrors]

theorem State.spanOpened_ax (c : Setup) (raw : BitVec 16) (s : State) (b : Axis) :
    (s.spanOpened c raw).ax b = (s.ax b).atRunStart (inMask c.enabled b) s.now := by
  rw [State.spanOpened_frame]
  exact table8_get (fun a => (s.ax a).atRunStart (inMask c.enabled a) s.now) b

/-- After RUN_START an axis engine is as at the start of a span, its status block rewritten. -/
theorem State.startSpan_rewritten (c : Setup) (raw : BitVec 16) (s : State) (b : Axis) :
    Rewritten ((s.ax b).atRunStart (inMask c.enabled b) s.now) ((s.startSpan c raw).ax b) := by
  have haxes : (((s.spanOpened c raw).restartAging.readBack 1 .taken)).ax b =
      (s.ax b).atRunStart (inMask c.enabled b) s.now := by
    rw [State.restartAging_frame]
    exact s.spanOpened_ax c raw b
  rw [State.startSpan_eq, ← haxes]
  exact State.flushAll_rewritten b _

theorem AxisEngine.atRunStart_updateCount (x : AxisEngine) (enabled : Bool) (now : Nat) :
    (x.atRunStart enabled now).updateCount = x.updateCount := by
  simp only [AxisEngine.atRunStart, AxisEngine.zeroDirAtRunStart]
  split <;> rfl

theorem AxisEngine.atRunStart_step (x : AxisEngine) (enabled : Bool) (now : Nat) :
    (x.atRunStart enabled now).step = x.step := by
  simp only [AxisEngine.atRunStart, AxisEngine.zeroDirAtRunStart]
  split <;> rfl

theorem AxisEngine.atRunStart_dir (x : AxisEngine) (enabled : Bool) (now : Nat)
    (h : x.step.isHigh = true) : (x.atRunStart enabled now).dir = x.dir := by
  simp [AxisEngine.atRunStart, AxisEngine.zeroDirAtRunStart, h]

/-! ### Resets and ticks -/

theorem State.softReset_ax (s : State) (b : Axis) : s.softReset.ax b = (s.endTick.ax b).softReset :=
  table8_get (fun a => (s.endTick.ax a).softReset) b

theorem State.hardReset_ax (kind : ResetKind) (s : State) (b : Axis) :
    (s.hardReset kind).ax b = (s.ax b).hardReset kind :=
  table8_get (fun a => (s.ax a).hardReset kind) b

theorem AxisEngine.resetKeepingPulse_step (x : AxisEngine) : x.resetKeepingPulse.step = x.step := by
  simp only [AxisEngine.resetKeepingPulse]
  split <;> rfl

theorem AxisEngine.resetKeepingPulse_dir (x : AxisEngine) (h : x.step.isHigh = true) :
    x.resetKeepingPulse.dir = x.dir := by
  simp [AxisEngine.resetKeepingPulse, h]

theorem AxisEngine.resetKeepingPulse_updateCount (x : AxisEngine) :
    x.resetKeepingPulse.updateCount = 0 := by
  simp only [AxisEngine.resetKeepingPulse]
  split <;> rfl

/-- The counts of an axis engine fall with a tick; its outputs and its update count stand. -/
theorem AxisEngine.countDown_outputs (x : AxisEngine) : OutputsKept x x.countDown := by
  simp only [AxisEngine.countDown]
  split
  · exact .refl x
  · split
    · exact .of_eq rfl rfl rfl
    · exact .of_eq rfl rfl rfl
    · exact .refl x

theorem State.sampleAndCount_outputs (raw : BitVec 16) (s : State) :
    OutputsStand s (s.sampleAndCount raw) := fun b => by
  simp only [State.sampleAndCount]
  split
  · rw [State.ax_mapAxes]
    exact (s.ax b).countDown_outputs
  · exact .refl _

@[simp] theorem State.advanceTimebase_axes (s : State) : s.advanceTimebase.axes = s.axes := by
  simp only [State.advanceTimebase]
  split <;> rfl

/-- A tick boundary rewrites the status block where that is owed, and counts. -/
theorem State.tick_outputs (raw : BitVec 16) (s : State) (b : Axis) :
    OutputsKept (s.endTick.ax b) ((s.tick raw).ax b) := by
  rw [State.tick]
  generalize s.endTick = u
  have hax : ({ u with now := u.now + 1, rawLevels := raw } : State).advanceTimebase.ax b = u.ax b :=
    State.ax_of_axes (State.advanceTimebase_axes _) b
  rw [← hax]
  exact State.sampleAndCount_outputs raw _ b

/-! ### Every command -/

theorem RegisterFrame.ax (h : RegisterFrame s t) (b : Axis) : t.ax b = s.ax b := by
  rw [h.frame]
  rfl

theorem AxisEngine.startStep_updateCount (x : AxisEngine) (now : Nat) :
    (x.startStep now).updateCount = x.updateCount := by
  unfold AxisEngine.startStep
  split
  · rfl
  · split <;> rfl

theorem AxisEngine.gateStep_updateCount (x : AxisEngine) (dirlead now : Nat) (forward : Bool) :
    (x.gateStep dirlead now forward).updateCount = x.updateCount :=
  (x.gateStep_outputs dirlead now forward).updateCount

theorem AxisEngine.applyDirZero_updateCount (x : AxisEngine) (now : Nat) :
    (x.applyDirZero now).updateCount = x.updateCount := by
  simp only [AxisEngine.applyDirZero]
  split <;> rfl

theorem AxisEngine.applyDirZero_step (x : AxisEngine) (now : Nat) :
    (x.applyDirZero now).step = x.step := by
  simp only [AxisEngine.applyDirZero]
  split <;> rfl

/-- The end of a pulse leaves the update count, and STEP low. -/
theorem AxisEngine.endPulse_fields (x : AxisEngine) (dirlead now : Nat) :
    (x.endPulse dirlead now).updateCount = x.updateCount ∧
      (x.endPulse dirlead now).step.isHigh = false := by
  have hcount := AxisEngine.applyDirZero_updateCount { x with step := .low (some now) } now
  have hstep := AxisEngine.applyDirZero_step { x with step := .low (some now) } now
  simp only [AxisEngine.endPulse]
  split
  · obtain ⟨hgate, hout, -⟩ := AxisEngine.gateStep_outputs
      (({ x with step := .low (some now) } : AxisEngine).applyDirZero now) dirlead now _
    rw [hgate, hout, hcount, hstep]
    exact ⟨rfl, rfl⟩
  · rw [hcount, hstep]
    exact ⟨rfl, rfl⟩

/-- A change of one axis engine that leaves every update count even. -/
theorem BracketLaw.setAx {x : AxisEngine} (h : BracketLaw s)
    (hx : x.updateCount = (s.ax a).updateCount) : BracketLaw (s.setAx a x) := fun b => by
  rw [State.ax_setAx]
  split
  · rw [hx]
    exact h a
  · exact h b

theorem OutputsStand.bracketLaw (h : OutputsStand s t) (hs : BracketLaw s) : BracketLaw t :=
  fun b => by
    rw [(h b).updateCount]
    exact hs b

theorem CommandEffect.bracketLaw {w : Option Addr} {c : Instr} (h : CommandEffect w s c t)
    (hs : BracketLaw s) : BracketLaw t := by
  cases h with
  | registers c t hframe => exact fun b => hframe.ax b ▸ hs b
  | hardReset kind =>
    intro b
    rw [State.hardReset_ax]
    cases kind with
    | pin =>
      show (s.ax b).resetKeepingPulse.updateCount.getLsbD 0 = false
      rw [AxisEngine.resetKeepingPulse_updateCount]
      rfl
    | powerOn =>
      show AxisEngine.reset.updateCount.getLsbD 0 = false
      decide
  | fillStarts c _ => exact hs
  | fillEnds _ => exact hs
  | softReset c _ =>
    intro b
    rw [State.softReset_ax]
    have heven := (s.endTick_rewritten b).even (hs b)
    generalize s.endTick.ax b = x at heven ⊢
    exact heven
  | scanEnds c kept _ => exact (AxesTouched.scan kept s).outputs.bracketLaw hs
  | spanStarts c setup raw _ =>
    intro b
    refine (s.startSpan_rewritten setup raw b).even ?_
    rw [AxisEngine.atRunStart_updateCount]
    exact hs b
  | spanStops c _ =>
    exact ((Acts.stopSpan s).outputs.trans (AxesTouched.stopSpan s).outputs).bracketLaw hs
  | flushes c _ => exact (AxesTouched.closeIfRecords .flush s.timebase s).outputs.bracketLaw hs
  | ages c => exact (AxesTouched.closeIfRecords .aged s.timebase s).outputs.bracketLaw hs
  | slotWritten c k v _ _ =>
    exact ((AxesTouched.slotStateWrite k v s).outputs.trans (Acts.settled _).outputs).bracketLaw hs
  | stores c addr v _ _ => exact hs
  | rearms c j v _ _ => exact hs
  | steps a _ => exact hs.setAx (AxisEngine.startStep_updateCount _ _)
  | pulseEnds c a _ => exact hs.setAx (AxisEngine.endPulse_fields _ _ _).1
  | ticks c raw =>
    intro b
    rw [(s.tick_outputs raw b).updateCount]
    exact (s.endTick_rewritten b).even (hs b)
  | works c stored opened _ =>
    exact ((stored.outputs.trans opened.acts.outputs).trans (Acts.settled _).outputs).bracketLaw hs

end Sys2Proof.Machine
end

