-- ==== Sys2Proof/Proofs/Brackets.lean ====
section
/-!
PROOF. Nothing is left over between commands, the brackets are closed, the exchange RAM is canonical; and
the pulse law (R18, R63, log 1, log 9).
-/
namespace Sys2Proof.Machine

variable {a b : Axis} {s t : State}

/-! ### Step -/

/-- What every command keeps, whatever waits behind it, a step keeps. -/
theorem step_keeps {P : State → Prop} (hpending : ∀ (s : State) (l : List Instr), P s → P { s with pending := l })
    (hexec : ∀ c s t, exec c s = .next t → P s → P t) (h : step s = .next t) (hs : P s) : P t := by
  rw [step] at h
  split at h
  · exact Host.Outcome.next.inj h ▸ hs
  · exact hexec _ _ _ h (hpending s _ hs)

/-! ### Quiet -/

theorem Quiet.of_report (h : ReportFrame s t) (hq : Quiet s) : Quiet t := by
  rw [Quiet, h.fields]
  exact hq

theorem State.closeIfRecords_quiet (reason : CloseReason) (time : Time) (hq : Quiet s) :
    Quiet (s.closeIfRecords reason time) :=
  hq.of_report (State.closeIfRecords_frame reason time s)

theorem State.enterStopped_quiet (hq : Quiet s) : Quiet s.enterStopped :=
  State.closeIfRecords_quiet (s := { s with dev := .stopped }) .stop s.timebase hq

theorem State.stopSpan_quiet (s : State) : Quiet s.stopSpan := by
  rw [State.stopSpan_eq]
  show Quiet (if _ then _ else _)
  split
  · exact State.enterStopped_quiet rfl
  · rfl

theorem State.startSpan_quiet (c : Setup) (raw : BitVec 16) (hq : Quiet s) :
    Quiet (s.startSpan c raw) := by
  have hopened : Quiet (s.spanOpened c raw) := by
    rw [Quiet, State.spanOpened_frame]
    exact hq
  rw [Quiet, State.startSpan_eq, State.flushAll_frame, State.restartAging_frame]
  exact hopened

theorem State.scan_quiet (kept : Time) (hq : Quiet s) : Quiet (s.scan kept) := by
  have hfilling (u : State) (hu : Quiet u) : Quiet (u.scanFilling kept) := by
    simp only [State.scanFilling]
    split
    · exact hu
    · split
      · exact hu
      · exact hu.of_report (State.closePage_frame .reset kept u)
  refine hfilling _ ?_
  rw [Quiet, State.releaseList_fields]
  exact hq

theorem State.endTick_quiet (hq : Quiet s) : Quiet s.endTick := by
  rw [Quiet, State.endTick_frame]
  exact hq

theorem State.tick_quiet (raw : BitVec 16) (hq : Quiet s) : Quiet (s.tick raw) := by
  have hend := State.endTick_quiet hq
  have hcount (u : State) (hu : Quiet u) : Quiet (u.sampleAndCount raw) := by
    simp only [State.sampleAndCount]
    split <;> exact hu
  have htime (u : State) (hu : Quiet u) : Quiet u.advanceTimebase := by
    simp only [State.advanceTimebase]
    split <;> exact hu
  rw [State.tick]
  generalize s.endTick = u at hend ⊢
  exact hcount _ (htime _ hend)

theorem CommandEffect.quiet {w : Option Addr} {c : Instr} (h : CommandEffect w s c t)
    (hq : Quiet s) : Quiet t := by
  cases h with
  | registers c t hframe =>
    rw [Quiet, hframe.frame]
    exact hq
  | softReset c _ => rfl
  | scanEnds c kept _ => exact State.scan_quiet kept hq
  | spanStarts c setup raw _ => exact State.startSpan_quiet setup raw hq
  | spanStops c _ => exact s.stopSpan_quiet
  | flushes c _ => exact State.closeIfRecords_quiet .flush s.timebase hq
  | ages c => exact State.closeIfRecords_quiet .aged s.timebase hq
  | ticks c raw => exact State.tick_quiet raw hq
  | hardReset | slotWritten | works => rfl
  | fillStarts | fillEnds | stores | rearms | steps | pulseEnds => exact hq

/-- Settles O54: chain work changes the exchange RAM by writes, leaves every update count, and ends with
its agenda settled; the ends of ticks add 2 to an update count. -/
theorem memoryQuietAndBracketsKept : Obligations.MemoryQuietAndBracketsKept := fun _ _ h =>
  ⟨step_keeps (P := Quiet) (fun _ _ hs => hs) (fun _ _ _ hexec => (exec_effect hexec).quiet) h,
    step_keeps (P := BracketLaw) (fun _ _ hs => hs)
      (fun _ _ _ hexec => (exec_effect hexec).bracketLaw) h,
    step_keeps (P := MemoryLaw) (fun _ _ hs => hs) (fun _ _ _ hexec => exec_memoryLaw hexec) h⟩

/-! ### The pulse law -/

/-- The pulse law from `x` to `y`, where command `c` is done in state `s`. -/
structure PulseLaw (c : Instr) (s : State) (a : Axis) (x y : AxisEngine) : Prop where
  rises : x.step.isHigh = false → y.step.isHigh = true →
    c = .stepStart a ∧ x.step.quiet s.now = true ∧ x.leadPassed s.dirlead s.now = true ∧ y.dir = x.dir
  low : y.dir ≠ x.dir → y.step.isHigh = false
  falls : x.step.isHigh = true → y.step.isHigh = false →
    s.pulseEndDue a = true ∨ c = .hardReset .powerOn
  stays : x.step.isHigh = true → y.step.isHigh = true → y.step = x.step

/-- The pulse law where STEP stands and DIR changes only while STEP is low. -/
theorem PulseLaw.of_step {c : Instr} {x y : AxisEngine} (hstep : y.step = x.step)
    (hdir : x.step.isHigh = true → y.dir = x.dir) : PulseLaw c s a x y where
  rises hx hy := by rw [hstep, hx] at hy; cases hy
  low h := by
    rw [hstep]
    by_contra hhigh
    exact h (hdir (Bool.eq_true_of_not_eq_false hhigh))
  falls hx hy := by rw [hstep, hx] at hy; cases hy
  stays _ _ := hstep

theorem PulseLaw.of_outputs {c : Instr} {x y : AxisEngine} (h : OutputsKept x y) :
    PulseLaw c s a x y :=
  .of_step h.step fun hx => by
    by_contra hdir
    have hlow := h.dir hdir
    rw [h.step, hx] at hlow
    cases hlow

theorem OutputsStand.pulseLaw {c : Instr} (h : OutputsStand s t) (a : Axis) :
    PulseLaw c s a (s.ax a) (t.ax a) := .of_outputs (h a)

theorem Rewritten.outputs {x y : AxisEngine} (h : Rewritten x y) : y.step = x.step ∧ y.dir = x.dir := by
  rw [h.fields]
  exact ⟨rfl, rfl⟩

theorem PulseLaw.hardReset (kind : ResetKind) (s : State) (a : Axis) :
    PulseLaw (.hardReset kind) s a (s.ax a) ((s.hardReset kind).ax a) := by
  rw [State.hardReset_ax]
  cases kind with
  | pin =>
    exact .of_step (AxisEngine.resetKeepingPulse_step _) (AxisEngine.resetKeepingPulse_dir _)
  | powerOn =>
    exact
      { rises := fun _ h => by cases h
        low := fun _ => rfl
        falls := fun _ _ => .inr rfl
        stays := fun _ h => by cases h }

theorem PulseLaw.softReset {c : Instr} (s : State) (a : Axis) :
    PulseLaw c s a (s.ax a) (s.softReset.ax a) := by
  obtain ⟨hstep, hdir⟩ := (s.endTick_rewritten a).outputs
  rw [State.softReset_ax]
  generalize s.endTick.ax a = x at hstep hdir ⊢
  refine .of_step ?_ fun hhigh => ?_
  · rw [← hstep]
    exact x.resetKeepingPulse_step
  · rw [← hdir]
    exact x.resetKeepingPulse_dir (hstep ▸ hhigh)

theorem PulseLaw.startSpan {c : Instr} (setup : Setup) (raw : BitVec 16) (s : State) (a : Axis) :
    PulseLaw c s a (s.ax a) ((s.startSpan setup raw).ax a) := by
  obtain ⟨hstep, hdir⟩ := (s.startSpan_rewritten setup raw a).outputs
  refine .of_step ?_ fun hhigh => ?_
  · rw [hstep, AxisEngine.atRunStart_step]
  · rw [hdir, AxisEngine.atRunStart_dir _ _ _ hhigh]

theorem PulseLaw.tick {c : Instr} (raw : BitVec 16) (s : State) (a : Axis) :
    PulseLaw c s a (s.ax a) ((s.tick raw).ax a) := by
  obtain ⟨hstep, hdir⟩ := (s.endTick_rewritten a).outputs
  have hkept := s.tick_outputs raw a
  generalize s.endTick.ax a = x at hstep hdir hkept
  generalize (s.tick raw).ax a = y at hkept ⊢
  refine .of_step (hkept.step.trans hstep) fun hhigh => ?_
  by_contra hne
  have hlow := hkept.dir (hdir ▸ hne)
  rw [hkept.step, hstep, hhigh] at hlow
  cases hlow

/-- The start of a due step raises STEP; DIR stands. -/
theorem PulseLaw.startStep (h : s.stepStartDue b = true) (a : Axis) :
    PulseLaw (.stepStart b) s a (s.ax a) ((s.setAx b ((s.ax b).startStep s.now)).ax a) := by
  rw [State.ax_setAx]
  split
  · rename_i hab
    subst hab
    simp only [State.stepStartDue, AxisEngine.mayStart, Bool.and_eq_true] at h
    obtain ⟨⟨-, -⟩, ⟨⟨-, hlead⟩, hquiet⟩⟩ := h
    have hlow : (s.ax a).step.isHigh = false := by
      cases hstep : (s.ax a).step with
      | high n => simp [StepOut.quiet, hstep] at hquiet
      | low since => rfl
    have hdir : ((s.ax a).startStep s.now).dir = (s.ax a).dir := by
      unfold AxisEngine.startStep
      split
      · rfl
      · split <;> rfl
    refine ⟨fun _ _ => ⟨rfl, hquiet, hlead, hdir⟩, fun hne => absurd hdir hne, fun hhigh => ?_,
      fun hhigh => ?_⟩ <;>
    · rw [hlow] at hhigh
      cases hhigh
  · exact .of_outputs (.refl _)

/-- The end of a pulse lowers STEP, its width having run out. -/
theorem PulseLaw.endPulse {c : Instr} (h : s.pulseEndDue b = true) (a : Axis) :
    PulseLaw c s a (s.ax a) ((s.setAx b ((s.ax b).endPulse s.dirlead s.now)).ax a) := by
  rw [State.ax_setAx]
  split
  · rename_i hab
    subst hab
    have hlow := ((s.ax a).endPulse_fields s.dirlead s.now).2
    have hnot : ¬ ((s.ax a).endPulse s.dirlead s.now).step.isHigh = true := Bool.eq_false_iff.mp hlow
    exact
      { rises := fun _ hhigh => absurd hhigh hnot
        low := fun _ => hlow
        falls := fun _ _ => .inl h
        stays := fun _ hhigh => absurd hhigh hnot }
  · exact .of_outputs (.refl _)

theorem CommandEffect.pulseLaw {w : Option Addr} {c : Instr} (h : CommandEffect w s c t) (a : Axis) :
    PulseLaw c s a (s.ax a) (t.ax a) := by
  cases h with
  | registers c t hframe => exact hframe.ax a ▸ .of_outputs (.refl _)
  | hardReset kind => exact .hardReset kind s a
  | softReset c _ => exact .softReset s a
  | scanEnds c kept _ => exact (AxesTouched.scan kept s).outputs.pulseLaw a
  | spanStarts c setup raw _ => exact .startSpan setup raw s a
  | spanStops c _ =>
    exact ((Acts.stopSpan s).outputs.trans (AxesTouched.stopSpan s).outputs).pulseLaw a
  | flushes c _ => exact (AxesTouched.closeIfRecords .flush s.timebase s).outputs.pulseLaw a
  | ages c => exact (AxesTouched.closeIfRecords .aged s.timebase s).outputs.pulseLaw a
  | slotWritten c k v _ _ =>
    exact ((AxesTouched.slotStateWrite k v s).outputs.trans (Acts.settled _).outputs).pulseLaw a
  | steps b hdue => exact .startStep hdue a
  | pulseEnds c b hdue => exact .endPulse hdue a
  | ticks c raw => exact .tick raw s a
  | works c stored opened _ =>
    exact ((stored.outputs.trans opened.acts.outputs).trans (Acts.settled _).outputs).pulseLaw a
  | fillStarts | fillEnds | stores | rearms => exact .of_outputs (.refl _)

/-- Settles O60: only the start of a step raises STEP, only the end of a pulse and the power-on reset lower
it, and all that changes DIR changes it while STEP is low. -/
theorem pulseLawKept : Obligations.PulseLawKept := fun _ _ _ a _ hexec =>
  have hlaw := (exec_effect hexec).pulseLaw a
  ⟨hlaw.rises, hlaw.low, hlaw.falls, hlaw.stays⟩

end Sys2Proof.Machine
end

