-- ==== Sys2Proof/Proofs/Contexts.lean ====
section
/-!
PROOF. The second and third law (R103, R104, R109): whatever an update of an axis engine does, the levels of
its contexts rise and a HALTED or OFF axis holds no request.
-/
namespace Sys2Proof.Machine

variable {a b : Axis} {s t : State} {x y : AxisEngine}

/-! ### One axis engine -/

/-- The second and third law for one axis engine. -/
structure AxisEngine.ContextLaw (x : AxisEngine) : Prop where
  stack : x.stackLaw = true
  pending : x.state = .off ∨ x.state = .halted → x.requests = .empty

theorem AxisEngine.stackLaw_iff (x : AxisEngine) :
    x.stackLaw = true ↔
      x.stack.length ≤ 2 ∧
        ((x.ctx = none ∧ x.stack = []) ∨
          ∃ c, x.ctx = some c ∧ x.state.active = true ∧ (c.idleBase = true → c.level = 0) ∧
            levelsBelow c.level x.stack = true) := by
  cases hctx : x.ctx with
  | none => simp [AxisEngine.stackLaw, hctx]
  | some c => cases hidle : c.idleBase <;> simp [AxisEngine.stackLaw, hctx, hidle, and_assoc]

theorem levelsBelow_cons (l : Level) (c : Context) (cs : List Context) :
    levelsBelow l (c :: cs) = true ↔
      c.level < l ∧ (c.idleBase = true → c.level = 0) ∧ levelsBelow c.level cs = true := by
  cases hidle : c.idleBase <;> simp [levelsBelow, hidle, and_assoc]

/-- Below level 0 there is no context. -/
theorem eq_nil_of_levelsBelow_zero {cs : List Context} (h : levelsBelow 0 cs = true) : cs = [] := by
  cases cs with
  | nil => rfl
  | cons c cs => exact absurd ((levelsBelow_cons _ _ _).mp h).1 (Fin.not_lt_zero _)

theorem AxisState.pending_of_active {st : AxisState} (h : st.active = true) :
    ¬ (st = .off ∨ st = .halted) := by
  rintro (rfl | rfl) <;> cases h

namespace AxisEngine.ContextLaw

/-- An engine without contexts and requests. -/
theorem of_empty (hctx : x.ctx = none) (hstack : x.stack = []) (hrequests : x.requests = .empty) :
    x.ContextLaw :=
  ⟨(x.stackLaw_iff).mpr ⟨by simp [hstack], .inl ⟨hctx, hstack⟩⟩, fun _ => hrequests⟩

/-- An engine with a running context, while its axis is active. -/
theorem of_ctx {c : Context} (hlen : x.stack.length ≤ 2) (hctx : x.ctx = some c)
    (hactive : x.state.active = true) (hidle : c.idleBase = true → c.level = 0)
    (hlevels : levelsBelow c.level x.stack = true) : x.ContextLaw :=
  ⟨(x.stackLaw_iff).mpr ⟨hlen, .inr ⟨c, hctx, hactive, hidle, hlevels⟩⟩,
    fun h => absurd h (AxisState.pending_of_active hactive)⟩

theorem length_le (h : x.ContextLaw) : x.stack.length ≤ 2 := ((x.stackLaw_iff).mp h.stack).1

theorem stack_eq_nil (h : x.ContextLaw) (hctx : x.ctx = none) : x.stack = [] := by
  obtain ⟨-, ⟨-, hstack⟩ | ⟨c, hc, -⟩⟩ := (x.stackLaw_iff).mp h.stack
  · exact hstack
  · rw [hctx] at hc
    cases hc

theorem of_some {c : Context} (h : x.ContextLaw) (hctx : x.ctx = some c) :
    x.state.active = true ∧ (c.idleBase = true → c.level = 0) ∧ levelsBelow c.level x.stack = true := by
  obtain ⟨-, ⟨hnone, -⟩ | ⟨d, hd, hrest⟩⟩ := (x.stackLaw_iff).mp h.stack
  · rw [hctx] at hnone
    cases hnone
  · rw [hctx] at hd
    cases hd
    exact hrest

/-- An axis that is not active runs no context. -/
theorem ctx_eq_none (h : x.ContextLaw) (hinactive : x.state.active = false) : x.ctx = none := by
  cases hctx : x.ctx with
  | none => rfl
  | some c =>
    have hactive := (h.of_some hctx).1
    rw [hinactive] at hactive
    cases hactive

/-- Another running context at the same level, with the same saved contexts. -/
theorem same_level {c d : Context} (h : x.ContextLaw) (hx : x.ctx = some c) (hy : y.ctx = some d)
    (hlevel : d.level = c.level) (hidle : d.idleBase = c.idleBase) (hstack : y.stack = x.stack)
    (hactive : y.state.active = true) : y.ContextLaw := by
  obtain ⟨-, hbase, hlevels⟩ := h.of_some hx
  refine .of_ctx (hstack ▸ h.length_le) hy hactive (fun hd => ?_) ?_
  · rw [hlevel]
    exact hbase (hidle ▸ hd)
  · rw [hlevel, hstack]
    exact hlevels

/-- The saved context on top becomes the running one. -/
theorem drops (h : x.ContextLaw) (hwork : DropsContext x y) {c : Context} (hx : x.ctx = some c) :
    y.ContextLaw := by
  obtain ⟨hctx, hstack, hrequests, hstate⟩ := hwork
  obtain ⟨-, -, hlevels⟩ := h.of_some hx
  have hlen := h.length_le
  cases hsaved : x.stack with
  | nil =>
    simp only [hsaved, List.head?_nil, List.tail_nil, if_true] at hctx hstack hstate
    refine ⟨(y.stackLaw_iff).mpr ⟨by simp [hstack], .inl ⟨hctx, hstack⟩⟩, fun hoff => ?_⟩
    rw [hstate] at hoff
    rcases hoff with hoff | hoff <;> cases hoff
  | cons top rest =>
    rw [hsaved] at hlevels hlen
    simp only [hsaved, List.head?_cons, List.tail_cons] at hctx hstack hstate
    obtain ⟨-, hbase, hbelow⟩ := (levelsBelow_cons _ _ _).mp hlevels
    refine .of_ctx ?_ hctx (by simp [hstate, AxisState.active]) hbase (hstack ▸ hbelow)
    rw [hstack]
    exact (Nat.le_succ _).trans hlen

end AxisEngine.ContextLaw

theorem PendingSet.level_of_top {p : PendingSet} {l : Level} {r : Request} (h : p.top = some (l, r)) :
    (0 : Level) < l := by
  simp only [PendingSet.top] at h
  split at h
  · cases h; decide
  · split at h
    · cases h; decide
    · split at h <;> cases h
      decide

theorem PendingSet.set_empty_none (l : Level) : PendingSet.empty.set l none = .empty := by
  revert l
  decide

/-- The push of an accepted request keeps the law. -/
theorem AxisEngine.ContextLaw.takes (h : x.ContextLaw) {l : Level} {r : Request}
    (htop : x.requests.top = some (l, r)) (haccepted : x.acceptable = true)
    (hctx : y.ctx = some (Context.fresh l r.head))
    (hstack : y.stack = x.ctx.getD Context.idleBaseContext :: x.stack)
    (hstate : y.state = .running) : y.ContextLaw := by
  simp only [AxisEngine.acceptable, htop, Bool.and_eq_true, decide_eq_true_eq] at haccepted
  obtain ⟨hlevel, hlen⟩ := haccepted
  refine .of_ctx ?_ hctx (hstate ▸ rfl) (fun hidle => by cases hidle) ?_
  · rw [hstack]
    exact Nat.succ_le_succ hlen
  · rw [hstack, levelsBelow_cons]
    cases hx : x.ctx with
    | none =>
      rw [h.stack_eq_nil hx]
      exact ⟨PendingSet.level_of_top htop, fun _ => rfl, rfl⟩
    | some c =>
      obtain ⟨-, hbase, hlevels⟩ := h.of_some hx
      rw [AxisEngine.level, hx] at hlevel
      exact ⟨hlevel, hbase, hlevels⟩

/-- Every update of an axis engine keeps the second and third law. -/
theorem AxisEngine.ContextLaw.of_work (h : x.ContextLaw) (hwork : ContextsWork x y) :
    y.ContextLaw := by
  cases hwork with
  | keeps hctx hstack hrequests hstate =>
    cases hx : x.ctx with
    | none =>
      refine ⟨(y.stackLaw_iff).mpr ⟨hstack ▸ h.length_le,
        .inl ⟨hctx.trans hx, hstack.trans (h.stack_eq_nil hx)⟩⟩, fun hoff => ?_⟩
      rcases hstate with hsame | ⟨hactive, -⟩
      · rw [hrequests]
        exact h.pending (hsame ▸ hoff)
      · exact absurd hoff (AxisState.pending_of_active hactive)
    | some c =>
      have hactive : y.state.active = true := by
        rcases hstate with hsame | ⟨hactive, -⟩
        · rw [hsame]
          exact (h.of_some hx).1
        · exact hactive
      exact h.same_level hx (hctx.trans hx) rfl rfl hstack hactive
  | works c d hx hy place _ hstack hrequests hstate =>
    have hactive : y.state.active = true :=
      hstate.elim (fun hsame => hsame ▸ (h.of_some hx).1) id
    exact h.same_level hx hy place.level place.idleBase hstack hactive
  | takes l r htop haccepted hctx hstack hrequests hstate =>
    exact h.takes htop haccepted hctx hstack hstate
  | asks l r may hctx hstack hrequests hstate =>
    refine ⟨?_, fun hoff => ?_⟩
    · rw [AxisEngine.stackLaw, hctx, hstack, hstate]
      exact h.stack
    · rw [hstate] at hoff
      rcases may with rfl | ⟨hnoff, hnhalt⟩
      · rw [hrequests, h.pending hoff]
        exact PendingSet.set_empty_none l
      · exact absurd hoff (not_or.mpr ⟨hnoff, hnhalt⟩)
  | idles c hx hbase hy hstack hrequests hstate =>
    obtain ⟨-, hlevel, hlevels⟩ := h.of_some hx
    rw [hlevel hbase] at hlevels
    have hnil := hstack.trans (eq_nil_of_levelsBelow_zero hlevels)
    exact ⟨(y.stackLaw_iff).mpr ⟨by simp [hnil], .inl ⟨hy, hnil⟩⟩, fun hoff => by simp [hstate] at hoff⟩
  | starts head hidle hctx hstack hrequests hstate =>
    have hnil := hstack.trans (h.stack_eq_nil (h.ctx_eq_none (hidle ▸ rfl)))
    refine .of_ctx (by simp [hnil]) hctx (hstate ▸ rfl) (fun hbase => by cases hbase) ?_
    rw [hnil]
    rfl
  | clears hhalted hctx hstack hrequests hstate =>
    have hnone := h.ctx_eq_none (hhalted ▸ rfl)
    have hnil := hstack.trans (h.stack_eq_nil hnone)
    exact ⟨(y.stackLaw_iff).mpr ⟨by simp [hnil], .inl ⟨hctx.trans hnone, hnil⟩⟩,
      fun hoff => by simp [hstate] at hoff⟩

/-- The released flag changes no level. -/
theorem levelsBelow_flagReleased (j : Point) (g : Word) (l : Level) (cs : List Context) :
    levelsBelow l (cs.map (Context.flagReleased j g)) = levelsBelow l cs := by
  induction cs generalizing l with
  | nil => rfl
  | cons c cs ih =>
    obtain ⟨hlevel, hidle, -, -⟩ := c.flagReleased_fields j g
    rw [List.map_cons, levelsBelow, levelsBelow, hlevel, hidle, ih]

theorem AxisEngine.ContextLaw.released (h : x.ContextLaw) (j : Point) (g : Word) :
    ({ x with
      ctx := x.ctx.map (Context.flagReleased j g)
      stack := x.stack.map (Context.flagReleased j g) } : AxisEngine).ContextLaw := by
  cases hctx : x.ctx with
  | none =>
    have hnil := h.stack_eq_nil hctx
    exact ⟨(AxisEngine.stackLaw_iff _).mpr ⟨by simp [hnil], .inl ⟨rfl, by simp [hnil]⟩⟩, h.pending⟩
  | some c =>
    obtain ⟨hactive, hbase, hlevels⟩ := h.of_some hctx
    obtain ⟨hlevel, hidle, -, -⟩ := c.flagReleased_fields j g
    refine .of_ctx ?_ rfl hactive (fun hd => ?_) ?_
    · rw [List.length_map]
      exact h.length_le
    · rw [hlevel]
      exact hbase (hidle ▸ hd)
    · rw [levelsBelow_flagReleased, hlevel]
      exact hlevels

theorem AxisEngine.ContextLaw.halted (cause : HaltCause) (detail : BitVec 8) :
    (x.halted cause detail).ContextLaw := .of_empty rfl rfl rfl

theorem Context.starve_level (c : Context) (w : Wait) : (c.starve w).level = c.level := by
  cases w <;> rfl

theorem Context.starve_idleBase (c : Context) (w : Wait) : (c.starve w).idleBase = c.idleBase := by
  cases w <;> rfl

/-! ### Chain work -/

/-- The second and third law for every axis. -/
def ContextLaws (s : State) : Prop := ∀ a, (s.ax a).ContextLaw

theorem contextLaws_iff (s : State) : ContextLaws s ↔ StackLaw s ∧ PendingLaw s :=
  ⟨fun h => ⟨fun a => (h a).stack, fun a => (h a).pending⟩, fun h a => ⟨h.1 a, h.2 a⟩⟩

theorem ContextLaws.of_axes (h : ContextLaws s) (haxes : t.axes = s.axes) : ContextLaws t :=
  fun a => by
    rw [State.ax_of_axes haxes]
    exact h a

theorem ContextLaws.setAx (h : ContextLaws s) (hx : x.ContextLaw) : ContextLaws (s.setAx a x) :=
  fun b => by
    rw [State.ax_setAx]
    split
    · exact hx
    · exact h b

theorem ContextLaws.touched (h : ContextLaws s) (htouched : AxesTouched s t) : ContextLaws t :=
  fun b => by
    rcases htouched b with hb | hb
    · rw [hb]
      exact h b
    · rw [hb]
      exact (h b).of_work (.same rfl rfl rfl rfl)

theorem ContextLaws.move (h : ContextLaws s) (hmove : Move a s t) : ContextLaws t := by
  cases hmove with
  | record body _ => exact h.touched (State.handRecord_frame body s).axes
  | engine x _ contexts => exact h.setAx ((h a).of_work contexts)
  | released b j g => exact h.setAx ((h b).released j g)
  | halts cause detail _ =>
    exact (h.of_axes (State.releaseAxisClaims_axes a s)).setAx (.halted cause detail)
  | starves c q x hc _ _ contexts =>
    have hlaw : x.ContextLaw :=
      (h a).same_level hc contexts.ctx (c.starve_level _) (c.starve_idleBase _) contexts.stack
        contexts.state
    exact ContextLaws.setAx (s := s.releasePage q _ _) h hlaw
  | drops c x hc _ _ contexts =>
    exact ContextLaws.setAx (s := s.releasePage c.pageOr0 _ _) h ((h a).drops contexts hc)
  | cause | event | joinEntry | line | mirror | point | leaves => exact h

theorem ContextLaws.entryMove {value : Word} (h : ContextLaws s) (hmove : EntryMove a value s t) :
    ContextLaws t := by
  cases hmove with
  | granted c p count r hc _ _ =>
    refine ContextLaws.setAx
      (s := ({ s with claims := Sparse.insert s.claims p.toNat { axis := a, level := c.level } } :
        State).write (pageWord p 1) 2) h ?_
    exact (h a).same_level hc rfl rfl rfl rfl ((h a).of_some hc).1
  | starves c p st hc _ _ hst =>
    exact h.setAx ((h a).same_level hc rfl (c.starve_level _) (c.starve_idleBase _) rfl hst)

theorem ContextLaws.acts (h : ContextLaws s) (hacts : Acts s t) : ContextLaws t :=
  hacts.keeps (P := ContextLaws) (fun _ _ hact hs => by
    cases hact with
    | move a hmove => exact hs.move hmove
    | entry a value hmove => exact hs.entryMove hmove
    | agenda tasks n => exact hs) h

/-! ### Every command -/

theorem ContextLaws.rewritten (h : x.ContextLaw) (hy : Rewritten x y) : y.ContextLaw :=
  h.of_work (by rw [hy.fields]; exact .same rfl rfl rfl rfl)

theorem AxisEngine.ContextLaw.resetKeepingPulse (x : AxisEngine) : x.resetKeepingPulse.ContextLaw := by
  simp only [AxisEngine.resetKeepingPulse]
  split <;> exact .of_empty rfl rfl rfl

theorem AxisEngine.ContextLaw.softReset (x : AxisEngine) : x.softReset.ContextLaw :=
  (resetKeepingPulse x).of_work (.same rfl rfl rfl rfl)

theorem AxisEngine.ContextLaw.hardReset (kind : ResetKind) (x : AxisEngine) :
    (x.hardReset kind).ContextLaw := by
  cases kind with
  | pin => exact .resetKeepingPulse x
  | powerOn => exact .of_empty rfl rfl rfl

theorem AxisEngine.ContextLaw.atRunStart (enabled : Bool) (now : Nat) (x : AxisEngine) :
    (x.atRunStart enabled now).ContextLaw := by
  simp only [AxisEngine.atRunStart, AxisEngine.zeroDirAtRunStart]
  split <;> exact .of_empty rfl rfl rfl

theorem AxisEngine.startStep_contexts (x : AxisEngine) (now : Nat) : ContextsWork x (x.startStep now) := by
  unfold AxisEngine.startStep
  split
  · exact .same rfl rfl rfl rfl
  · rename_i c hc
    split
    · rename_i hphase
      exact .works c _ hc rfl ⟨Context.busy_of_inSegment hphase, rfl, rfl, rfl⟩ rfl rfl rfl (.inl rfl)
    all_goals exact .same rfl rfl rfl rfl

theorem AxisEngine.countDown_contexts (x : AxisEngine) : ContextsWork x x.countDown := by
  simp only [AxisEngine.countDown]
  split
  · exact .same rfl rfl rfl rfl
  · rename_i c hc
    split
    · rename_i hphase
      exact .works c _ hc rfl ⟨Context.busy_of_inSegment hphase, rfl, rfl, rfl⟩ rfl rfl rfl (.inl rfl)
    · rename_i hphase
      exact .works c _ hc rfl ⟨Context.busy_of_inSegment hphase, rfl, rfl, rfl⟩ rfl rfl rfl (.inl rfl)
    · exact .same rfl rfl rfl rfl

theorem AxisEngine.applyDirZero_frame (x : AxisEngine) (now : Nat) :
    x.applyDirZero now =
      { x with
        dir := (x.applyDirZero now).dir, dirChange := (x.applyDirZero now).dirChange
        dirZero := (x.applyDirZero now).dirZero } := by
  simp only [AxisEngine.applyDirZero]
  split <;> rfl

theorem AxisEngine.gateStep_frame (x : AxisEngine) (dirlead now : Nat) (forward : Bool) :
    x.gateStep dirlead now forward =
      { x with
        dir := (x.gateStep dirlead now forward).dir
        dirChange := (x.gateStep dirlead now forward).dirChange
        gate := (x.gateStep dirlead now forward).gate } := by
  simp only [AxisEngine.gateStep]
  split
  · rfl
  · split <;> rfl

/-- The end of a pulse changes outputs and the gate, and nothing else. -/
theorem AxisEngine.endPulse_frame (x : AxisEngine) (dirlead now : Nat) :
    x.endPulse dirlead now =
      { x with
        step := (x.endPulse dirlead now).step, dir := (x.endPulse dirlead now).dir
        dirChange := (x.endPulse dirlead now).dirChange, dirZero := (x.endPulse dirlead now).dirZero
        gate := (x.endPulse dirlead now).gate } := by
  simp only [AxisEngine.endPulse]
  split
  · rw [AxisEngine.gateStep_frame, AxisEngine.applyDirZero_frame]
  · rw [AxisEngine.applyDirZero_frame]

theorem AxisEngine.endPulse_contexts (x : AxisEngine) (dirlead now : Nat) :
    ContextsWork x (x.endPulse dirlead now) := by
  rw [AxisEngine.endPulse_frame]
  exact .same rfl rfl rfl rfl

theorem State.tick_ax (raw : BitVec 16) (s : State) (b : Axis) :
    (s.tick raw).ax b = s.endTick.ax b ∨ (s.tick raw).ax b = (s.endTick.ax b).countDown := by
  rw [State.tick]
  generalize s.endTick = u
  have hax : ({ u with now := u.now + 1, rawLevels := raw } : State).advanceTimebase.ax b = u.ax b :=
    State.ax_of_axes (State.advanceTimebase_axes _) b
  rw [← hax]
  generalize State.advanceTimebase _ = v
  simp only [State.sampleAndCount]
  split
  · exact .inr (State.ax_mapAxes _ _ _)
  · exact .inl rfl

theorem CommandEffect.contextLaws {w : Option Addr} {c : Instr} (h : CommandEffect w s c t)
    (hs : ContextLaws s) : ContextLaws t := by
  cases h with
  | registers c t hframe => exact fun b => hframe.ax b ▸ hs b
  | hardReset kind => exact fun b => s.hardReset_ax kind b ▸ .hardReset kind _
  | softReset c _ => exact fun b => s.softReset_ax b ▸ .softReset _
  | scanEnds c kept _ => exact hs.touched (AxesTouched.scan kept s)
  | spanStarts c setup raw _ =>
    exact fun b => ContextLaws.rewritten (.atRunStart _ _ _) (s.startSpan_rewritten setup raw b)
  | spanStops c _ => exact (hs.acts (Acts.stopSpan s)).touched (.stopSpan s)
  | flushes c _ => exact hs.touched (AxesTouched.closeIfRecords .flush s.timebase s)
  | ages c => exact hs.touched (AxesTouched.closeIfRecords .aged s.timebase s)
  | slotWritten c k v _ _ => exact (hs.touched (.slotStateWrite k v s)).acts (.settled _)
  | steps a _ => exact hs.setAx ((hs a).of_work ((s.ax a).startStep_contexts s.now))
  | pulseEnds c a _ => exact hs.setAx ((hs a).of_work ((s.ax a).endPulse_contexts s.dirlead s.now))
  | ticks c raw =>
    intro b
    have hend := ContextLaws.rewritten (hs b) (s.endTick_rewritten b)
    rcases s.tick_ax raw b with hb | hb
    · rw [hb]
      exact hend
    · rw [hb]
      exact hend.of_work (AxisEngine.countDown_contexts _)
  | works c stored opened _ =>
    have hstored : ContextLaws _ := hs.of_axes stored.axes
    exact (hstored.acts opened.acts).acts (.settled _)
  | fillStarts | fillEnds | stores | rearms => exact hs

/-- Settles O55: whatever an update of an axis engine does to its contexts keeps both laws, and every
command is a sequence of such updates. -/
theorem contextLawsKept : Obligations.ContextLawsKept := fun s t _ hstack hpending h =>
  (contextLaws_iff t).mp <|
    step_keeps (P := ContextLaws) (fun _ _ hs => hs)
      (fun _ _ _ hexec => (exec_effect hexec).contextLaws) h
      ((contextLaws_iff s).mpr ⟨hstack, hpending⟩)

end Sys2Proof.Machine
end

