-- ==== Sys2Proof/Proofs/Joins.lean ====
section
/-!
PROOF. What the report unit, run control and the ticks change of the state, field by field; and the ninth law
(R120): the arrivals at a join point are members, and at an OPEN point not all of them.
-/
namespace Sys2Proof.Machine

variable {a b : Axis} {s t : State}

/-! ### Fields that run control and the report unit leave -/

/-- `t` differs from `s` only in what a command to the report unit or the end of a span may change. -/
structure ServiceFrame (s t : State) : Prop where
  fields :
    t =
      { s with
        ram := t.ram, axes := t.axes, report := t.report, acause := t.acause, agenda := t.agenda
        dev := t.dev, cmdBack := t.cmdBack }

theorem ServiceFrame.refl (s : State) : ServiceFrame s s := ⟨rfl⟩

theorem ServiceFrame.trans {u : State} (h : ServiceFrame s t) (k : ServiceFrame t u) :
    ServiceFrame s u := ⟨by rw [k.fields, h.fields]⟩

theorem ReportFrame.service (h : ReportFrame s t) : ServiceFrame s t := ⟨by rw [h.fields]⟩

theorem DrainFrame.service (h : DrainFrame s t) : ServiceFrame s t := ⟨by rw [h.fields]⟩

theorem ServiceFrame.closeIfRecords (reason : CloseReason) (time : Time) (s : State) :
    ServiceFrame s (s.closeIfRecords reason time) :=
  (State.closeIfRecords_frame reason time s).service

theorem ServiceFrame.enterStopped (s : State) : ServiceFrame s s.enterStopped := by
  have hdev : ServiceFrame s { s with dev := .stopped } := ⟨rfl⟩
  have hcause (u : State) : ServiceFrame u (u.setCause .runStopped) := ⟨rfl⟩
  exact (hdev.trans (.closeIfRecords .stop s.timebase _)).trans (hcause _)

theorem ServiceFrame.checkStopped (s : State) : ServiceFrame s s.checkStopped := by
  simp only [State.checkStopped]
  split
  · exact .enterStopped s
  · exact .refl s

theorem ServiceFrame.slotStateWrite (k : Slot) (v : Word) (s : State) :
    ServiceFrame s (s.slotStateWrite k v) := by
  simp only [State.slotStateWrite]
  split
  · exact .refl s
  · split
    · exact ⟨rfl⟩
    · split
      · have hstored (x : SlotState) :
            ServiceFrame s ((s.write (slotStateWord k) v).setSlot k x) := ⟨rfl⟩
        exact (hstored _).trans ((State.drain_frame _).service.trans (.checkStopped _))
      · exact ⟨rfl⟩

theorem ServiceFrame.scanFilling (kept : Time) (s : State) : ServiceFrame s (s.scanFilling kept) := by
  simp only [State.scanFilling]
  split
  · exact .refl s
  · split
    · exact ⟨rfl⟩
    · exact (State.closePage_frame .reset kept s).service

/-- The scan after it has released the claims. -/
theorem ServiceFrame.scan (kept : Time) (s : State) :
    ServiceFrame { s.releaseList kept s.claims with claims := [] } (s.scan kept) :=
  .trans (.scanFilling kept _) ⟨rfl⟩

theorem ServiceFrame.stopSpan (s : State) : ServiceFrame s.haltsActive.settled s.stopSpan := by
  have hread (u : State) : ServiceFrame u (u.readBack 2 .taken) := ⟨rfl⟩
  rw [State.stopSpan_eq]
  refine .trans ?_ (hread _)
  split
  · exact .enterStopped _
  · exact ⟨rfl⟩

/-- RUN_START after the new setup: the aging deadline, the read-back, the status blocks. -/
theorem ServiceFrame.startSpan (c : Setup) (raw : BitVec 16) (s : State) :
    ServiceFrame (s.spanOpened c raw) (s.startSpan c raw) := by
  have haging (u : State) : ServiceFrame u u.restartAging := ⟨by rw [State.restartAging_frame]⟩
  have hread (u : State) : ServiceFrame u (u.readBack 1 .taken) := ⟨rfl⟩
  have hflush (u : State) : ServiceFrame u u.flushAll := ⟨by rw [State.flushAll_frame]⟩
  rw [State.startSpan_eq]
  exact ((haging _).trans (hread _)).trans (hflush _)

/-- The fields that a tick boundary may change. -/
theorem State.tick_frame (raw : BitVec 16) (s : State) :
    s.tick raw =
      { s with
        ram := (s.tick raw).ram, axes := (s.tick raw).axes, snapCount := (s.tick raw).snapCount
        snapsOwed := (s.tick raw).snapsOwed, now := (s.tick raw).now
        rawLevels := (s.tick raw).rawLevels, timebase := (s.tick raw).timebase
        lines := (s.tick raw).lines } := by
  have hframe := s.endTick_frame
  rw [State.tick]
  generalize s.endTick = u at hframe ⊢
  have htime (v : State) : v.advanceTimebase = { v with timebase := v.advanceTimebase.timebase } := by
    simp only [State.advanceTimebase]
    split <;> rfl
  have hcount (v : State) : v.sampleAndCount raw =
      { v with axes := (v.sampleAndCount raw).axes, lines := (v.sampleAndCount raw).lines } := by
    simp only [State.sampleAndCount]
    split <;> rfl
  rw [hcount, htime, hframe]

/-! ### One join point -/

/-- The ninth law at a point with members `m`. -/
def JoinPoint.LawAt (m : AxisMask) (p : JoinPoint) : Prop :=
  p.arrivals &&& ~~~m = 0 ∧ (p.state = .opened → m ≠ 0 → p.arrivals ≠ m)

theorem JoinPoint.lawAt_of_none {m : AxisMask} {p : JoinPoint} (h : p.arrivals = 0) : p.LawAt m :=
  ⟨by simp [h], fun _ hm => h ▸ hm.symm⟩

theorem maskBit_and_not {m : AxisMask} (h : inMask m b = true) : maskBit b &&& ~~~m = 0 := by
  refine BitVec.eq_of_getLsbD_eq fun i hi => ?_
  have hbit : (maskBit b).getLsbD i = true → i = b.val := fun hset => by
    have hdiff : i - b.val = 0 ∧ b.val ≤ i := by
      simpa [maskBit, BitVec.getLsbD_shiftLeft, hi, BitVec.getLsbD_one, and_comm] using hset
    omega
  by_cases hset : (maskBit b).getLsbD i = true
  · have hm : m.getLsbD i = true := hbit hset ▸ h
    simp [BitVec.getLsbD_and, BitVec.getLsbD_not, hm]
  · simp [BitVec.getLsbD_and, Bool.eq_false_iff.mpr hset]

/-- Whatever the join unit does to a point keeps the ninth law. -/
theorem PointWork.lawAt {m : AxisMask} {p q : JoinPoint} (h : PointWork m p q) (hp : p.LawAt m) :
    q.LawAt m := by
  cases h with
  | breaks harrivals hstate => exact ⟨harrivals ▸ hp.1, fun hopen => absurd hopen hstate⟩
  | clears harrivals => exact JoinPoint.lawAt_of_none harrivals
  | arrives b hmember harrivals hmissing =>
    refine ⟨?_, fun _ _ => hmissing⟩
    rw [harrivals, BitVec.and_or_distrib_right, hp.1, maskBit_and_not hmember]
    rfl

/-! ### Every command -/

theorem JoinLaw.of_points (h : JoinLaw s) (hpoints : t.points = s.points) (hsetup : t.setup = s.setup) :
    JoinLaw t := by
  intro j
  rw [State.point, State.members, hpoints, hsetup]
  exact h j

theorem JoinLaw.of_service (h : JoinLaw s) (hframe : ServiceFrame s t) : JoinLaw t :=
  h.of_points (by rw [hframe.fields]) (by rw [hframe.fields])

theorem JoinLaw.setPoint {j : Point} {p : JoinPoint} (h : JoinLaw s) (hp : p.LawAt (s.members j)) :
    JoinLaw (s.setPoint j p) := by
  intro i
  by_cases hij : i = j
  · subst hij
    rw [State.point_setPoint_same]
    exact hp
  · rw [State.point_setPoint_ne s hij]
    exact h i

theorem JoinLaw.act (h : JoinLaw s) (hact : Act s t) : JoinLaw t := by
  cases hact with
  | agenda tasks n => exact h
  | entry a value hmove => cases hmove <;> exact h
  | move a hmove =>
    cases hmove with
    | record body _ => exact h.of_service (State.handRecord_frame body s).service
    | point j p hwork => exact h.setPoint (hwork.lawAt (h j))
    | halts cause detail _ =>
      refine h.of_points ?_ ?_ <;>
      · rw [State.releaseAxisClaims, State.releaseList_fields]
        rfl
    | _ => exact h

theorem JoinLaw.acts (h : JoinLaw s) (hacts : Acts s t) : JoinLaw t :=
  hacts.keeps (P := JoinLaw) (fun _ _ hact hs => hs.act hact) h

/-- Where every point stands at its reset value the ninth law holds. -/
theorem JoinLaw.of_reset (h : ∀ j, (s.point j).arrivals = 0) : JoinLaw s := fun j =>
  JoinPoint.lawAt_of_none (h j)

theorem State.reset_arrivals (j : Point) : (State.reset.point j).arrivals = 0 := by
  revert j
  decide

theorem JoinLaw.startSpan (c : Setup) (raw : BitVec 16) (s : State) : JoinLaw (s.startSpan c raw) := by
  have hopened : JoinLaw (s.spanOpened c raw) := .of_reset fun j => by
    rw [State.spanOpened_frame]
    show (table16 fun _ => JoinPoint.reset)[j].arrivals = 0
    rw [table16_get]
    rfl
  exact hopened.of_service (.startSpan c raw s)

theorem JoinLaw.scan (h : JoinLaw s) (kept : Time) : JoinLaw (s.scan kept) := by
  have hclaims : JoinLaw { s.releaseList kept s.claims with claims := [] } := by
    refine h.of_points ?_ ?_ <;> rw [State.releaseList_fields]
  exact hclaims.of_service (.scan kept s)

theorem CommandEffect.joinLaw {w : Option Addr} {c : Instr} (h : CommandEffect w s c t)
    (hs : JoinLaw s) : JoinLaw t := by
  cases h with
  | registers c t hframe => exact hs.of_points (by rw [hframe.frame]) (by rw [hframe.frame])
  | hardReset kind => exact .of_reset State.reset_arrivals
  | softReset c _ =>
    have hpoints : s.softReset.points = State.reset.points := by simp only [State.softReset]
    refine .of_reset fun j => ?_
    rw [State.point, hpoints]
    exact State.reset_arrivals j
  | scanEnds c kept _ => exact hs.scan kept
  | spanStarts c setup raw _ => exact .startSpan setup raw s
  | spanStops c _ => exact (hs.acts (Acts.stopSpan s)).of_service (.stopSpan s)
  | flushes c _ =>
    have hclose := hs.of_service (.closeIfRecords .flush s.timebase s)
    exact hclose
  | ages c =>
    have hclose := hs.of_service (.closeIfRecords .aged s.timebase s)
    exact hclose
  | slotWritten c k v _ _ => exact (hs.of_service (.slotStateWrite k v s)).acts (.settled _)
  | rearms c j v _ _ =>
    have hstored : JoinLaw (s.write (joinWord j 2) v) := hs
    exact hstored.acts (Acts.of_moves (Moves.rearm (a := 0) j _))
  | ticks c raw => exact hs.of_points (by rw [State.tick_frame]) (by rw [State.tick_frame])
  | @works c v u as stored opened _ =>
    have hstored : JoinLaw v := hs.of_points (by cases stored <;> rfl) (by cases stored <;> rfl)
    exact (hstored.acts opened.acts).acts (.settled _)
  | fillStarts | fillEnds | stores | steps | pulseEnds => exact hs

/-- Settles O58: an arrival is of a member and is not the last one missing, a break and a release leave no
new arrivals, and only RUN_START and the resets change the members. -/
theorem joinLawKept : Obligations.JoinLawKept := fun _ _ _ hs h =>
  step_keeps (P := JoinLaw) (fun _ _ hs => hs) (fun _ _ _ hexec => (exec_effect hexec).joinLaw) h hs

end Sys2Proof.Machine
end

