-- ==== Sys2Proof/Proofs/Placing.lean ====
section
/-!
PROOF. The report unit step by step (R152 to R160): what placing a record does to the slots, when it finds
room, and what a shortage and a drain do to the records kept.
-/
namespace Sys2Proof.Machine

variable {a b : Axis} {s t u : State} {rec : Record}

/-! ### The slots -/

/-- No slot is FILLING. -/
abbrev State.NoFilling (s : State) : Prop := ∀ k : Slot, (s.slot k).isFilling = false

/-- No slot is FILLING and none is EMPTY: no record finds room. -/
abbrev State.NoRoom (s : State) : Prop := ∀ k : Slot, (s.slot k).isFilling = false ∧ s.slot k ≠ .empty

theorem SlotState.isFilling_iff (v : SlotState) :
    v.isFilling = true ↔ ∃ p records used, v = .filling p records used := by
  cases v <;> simp [SlotState.isFilling]

theorem State.fillingSlot_eq_none_iff (s : State) : s.fillingSlot = none ↔ s.NoFilling := by
  simp [State.fillingSlot, List.find?_eq_none, mem_allAxes]

theorem State.fillingSlot_isFilling {k : Slot} (h : s.fillingSlot = some k) :
    (s.slot k).isFilling = true :=
  List.find?_some (p := fun k => (s.slot k).isFilling) h

theorem State.filling_eq_none_iff (s : State) : s.filling = none ↔ s.NoFilling := by
  rw [← State.fillingSlot_eq_none_iff]
  cases hslot : s.fillingSlot with
  | none => simp [State.filling, hslot]
  | some k =>
    obtain ⟨p, records, used, hk⟩ := (SlotState.isFilling_iff _).mp (State.fillingSlot_isFilling hslot)
    simp [State.filling, hslot, hk]

theorem State.slot_of_filling {k : Slot} {p : Page} {records used : Nat}
    (h : s.filling = some (k, p, records, used)) : s.slot k = .filling p records used := by
  cases hslot : s.fillingSlot with
  | none => simp [State.filling, hslot] at h
  | some j =>
    obtain ⟨q, r, v, hj⟩ := (SlotState.isFilling_iff _).mp (State.fillingSlot_isFilling hslot)
    simp only [State.filling, hslot, hj, Option.some.injEq, Prod.mk.injEq] at h
    obtain ⟨rfl, rfl, rfl, rfl⟩ := h
    exact hj

/-- Under the fifth law the FILLING slot is the one that State.filling finds. -/
theorem State.filling_of_slot {k : Slot} {p : Page} {records used : Nat} (hlaw : FillingLaw s)
    (h : s.slot k = .filling p records used) : s.filling = some (k, p, records, used) := by
  have hk : (s.slot k).isFilling = true := h ▸ rfl
  cases hslot : s.fillingSlot with
  | none =>
    have hnone := (State.fillingSlot_eq_none_iff s).mp hslot k
    rw [hk] at hnone
    cases hnone
  | some j =>
    have hjk := hlaw j k (State.fillingSlot_isFilling hslot) hk
    subst hjk
    simp [State.filling, hslot, h]

theorem FillingLaw.of_none (h : s.NoFilling) : FillingLaw s := fun j _ hj => by
  rw [h j] at hj
  cases hj

/-- Where slot `k` alone may be FILLING, the fifth law holds. -/
theorem FillingLaw.of_only {k : Slot} (h : ∀ j, j ≠ k → (s.slot j).isFilling = false) :
    FillingLaw s := by
  have hk (j : Slot) (hj : (s.slot j).isFilling = true) : j = k := by
    by_contra hne
    rw [h j hne] at hj
    cases hj
  exact fun i j hi hj => (hk i hi).trans (hk j hj).symm

/-- Under the fifth law no slot but the FILLING one is FILLING. -/
theorem FillingLaw.others {k : Slot} (h : FillingLaw s) (hk : (s.slot k).isFilling = true) {j : Slot}
    (hj : j ≠ k) : (s.slot j).isFilling = false :=
  Bool.eq_false_iff.mpr fun hfill => hj (h j k hfill hk)

theorem State.slot_setSlot (k j : Slot) (v : SlotState) (s : State) :
    (s.setSlot k v).slot j = if j = k then v else s.slot j := by
  by_cases h : j = k
  · subst h
    simp
  · rw [State.slot_setSlot_ne s h, if_neg h]

/-! ### Placing a record -/

/-- One step of placing record `rec`: an EMPTY slot fails its tests, an EMPTY slot is taken, the FILLING
page closes, or the record goes into the FILLING page, in which it fits or which is empty. -/
inductive PlaceStep (rec : Record) (s : State) : State → Prop
  | bad (k : Slot) (empty : s.slot k = .empty) (none : s.NoFilling) :
      PlaceStep rec s ((s.writeSlot k .bad).setCause .slotFault)
  | take (k : Slot) (p : Page) (empty : s.slot k = .empty) (none : s.NoFilling)
      (general : isGeneralPage p = true) :
      PlaceStep rec s
        ((s.writeWords (pageWord p 0) [2, 0, s.report.seq, s.report.seq - 1, 0, 0, 0, 0]).writeSlot k
          (.filling p 0 0))
  | close (k : Slot) (p : Page) (records used : Nat) (h : s.filling = some (k, p, records, used)) :
      PlaceStep rec s (s.closePage .full s.timebase)
  | place (k : Slot) (p : Page) (records used : Nat) (h : s.filling = some (k, p, records, used))
      (fits : used + rec.length ≤ 248 ∨ used = 0) :
      PlaceStep rec s (s.placeIn k p records used rec)

/-- Steps of placing record `rec`. -/
def Placing (rec : Record) : State → State → Prop := Relation.ReflTransGen (PlaceStep rec)

theorem Placing.refl : Placing rec s s := Relation.ReflTransGen.refl

theorem Placing.trans (h : Placing rec s t) (k : Placing rec t u) : Placing rec s u :=
  Relation.ReflTransGen.trans h k

theorem PlaceStep.placing (h : PlaceStep rec s t) : Placing rec s t := Relation.ReflTransGen.single h

theorem Placing.keeps {P : State → Prop} (hstep : ∀ s t, PlaceStep rec s t → P s → P t)
    (h : Placing rec s t) (hs : P s) : P t := by
  induction h with
  | refl => exact hs
  | tail _ hlast ih => exact hstep _ _ hlast ih

/-- The state after the FILLING page has closed. -/
theorem State.closePage_eq {k : Slot} {p : Page} {records used : Nat}
    (h : s.filling = some (k, p, records, used)) (reason : CloseReason) (time : Time) :
    s.closePage reason time =
      { s with
        ram := (s.closePage reason time).ram, acause := (s.closePage reason time).acause
        report :=
          { s.report with
            slots := s.report.slots.set k (.full (some p))
            lastClosed := k, pagesClosed := s.report.pagesClosed + 1, deadline := none } } := by
  simp only [State.closePage, h]
  split <;> rfl

theorem State.slot_closePage {k : Slot} {p : Page} {records used : Nat}
    (h : s.filling = some (k, p, records, used)) (reason : CloseReason) (time : Time) (j : Slot) :
    (s.closePage reason time).slot j = if j = k then .full (some p) else s.slot j := by
  rw [State.closePage_eq h]
  exact State.slot_setSlot k j _ s

/-- The state after a record has been placed. -/
theorem State.placeIn_eq (k : Slot) (p : Page) (records used : Nat) (rec : Record) (s : State) :
    s.placeIn k p records used rec =
      { s with
        ram := (s.placeIn k p records used rec).ram
        report :=
          { s.report with
            slots := s.report.slots.set k (.filling p (records + 1) (used + rec.length))
            seq := s.report.seq + 1
            deadline := (s.placeIn k p records used rec).report.deadline } } := by
  simp only [State.placeIn]
  split <;> rfl

theorem State.slot_placeIn (k : Slot) (p : Page) (records used : Nat) (rec : Record) (s : State)
    (j : Slot) :
    (s.placeIn k p records used rec).slot j =
      if j = k then .filling p (records + 1) (used + rec.length) else s.slot j := by
  rw [State.placeIn_eq]
  exact State.slot_setSlot k j _ s

theorem State.slot_writeSlot (k j : Slot) (v : SlotState) (s : State) :
    (s.writeSlot k v).slot j = if j = k then v else s.slot j := State.slot_setSlot k j v s

/-- Placing a record keeps the fifth law. -/
theorem PlaceStep.fillingLaw (h : PlaceStep rec s t) (hs : FillingLaw s) : FillingLaw t := by
  cases h with
  | bad k _ hnone =>
    refine .of_none fun j => ?_
    show ((s.writeSlot k .bad).slot j).isFilling = false
    rw [State.slot_writeSlot]
    split
    · rfl
    · exact hnone j
  | take k p _ hnone _ =>
    refine .of_only (k := k) fun j hj => ?_
    rw [State.slot_writeSlot, if_neg hj]
    exact hnone j
  | close k p records used h =>
    have hk : (s.slot k).isFilling = true := State.slot_of_filling h ▸ rfl
    refine .of_none fun j => ?_
    rw [State.slot_closePage h]
    split
    · rfl
    · rename_i hj
      exact hs.others hk hj
  | place k p records used h _ =>
    have hk : (s.slot k).isFilling = true := State.slot_of_filling h ▸ rfl
    refine .of_only (k := k) fun j hj => ?_
    rw [State.slot_placeIn, if_neg hj]
    exact hs.others hk hj

theorem Placing.fillingLaw (h : Placing rec s t) (hs : FillingLaw s) : FillingLaw t :=
  h.keeps (P := FillingLaw) (fun _ _ hstep => hstep.fillingLaw) hs

/-- The page of every FILLING slot is a general page. -/
def SlotsGeneral (s : State) : Prop := ∀ k : Slot, (s.slot k).pageGeneral = true

theorem SlotsGeneral.of_slot {k : Slot} {v : SlotState} (h : SlotsGeneral s)
    (hv : v.pageGeneral = true) (ht : ∀ j, t.slot j = if j = k then v else s.slot j) :
    SlotsGeneral t := fun j => by
  rw [ht]
  split
  · exact hv
  · exact h j

/-- `t` differs from `s` only in what taking a slot, placing and closing may change, and the page of a
FILLING slot is a general page still. -/
structure PlaceFrame (s t : State) : Prop where
  general : SlotsGeneral s → SlotsGeneral t
  fields :
    t =
      { s with
        ram := t.ram, acause := t.acause
        report :=
          { s.report with
            slots := t.report.slots, lastClosed := t.report.lastClosed, seq := t.report.seq
            pagesClosed := t.report.pagesClosed, deadline := t.report.deadline } }

theorem PlaceFrame.refl (s : State) : PlaceFrame s s := ⟨id, rfl⟩

theorem PlaceFrame.trans (h : PlaceFrame s t) (k : PlaceFrame t u) : PlaceFrame s u :=
  ⟨fun hs => k.general (h.general hs), by rw [k.fields, h.fields]⟩

theorem PlaceFrame.bad (k : Slot) (s : State) :
    PlaceFrame s ((s.writeSlot k .bad).setCause .slotFault) :=
  ⟨fun hs => hs.of_slot rfl fun j => State.slot_writeSlot k j .bad s, rfl⟩

theorem PlaceFrame.take (k : Slot) {p : Page} (hp : isGeneralPage p = true) (ws : List Word)
    (s : State) : PlaceFrame s ((s.writeWords (pageWord p 0) ws).writeSlot k (.filling p 0 0)) :=
  ⟨fun hs => hs.of_slot (v := .filling p 0 0) hp
    fun j => State.slot_writeSlot k j _ (s.writeWords (pageWord p 0) ws), rfl⟩

theorem State.closePage_placeFrame (reason : CloseReason) (time : Time) (s : State) :
    PlaceFrame s (s.closePage reason time) := by
  cases hfill : s.filling with
  | none =>
    simp only [State.closePage, hfill]
    exact .refl s
  | some f =>
    obtain ⟨k, p, records, used⟩ := f
    exact ⟨fun hs => hs.of_slot rfl (State.slot_closePage hfill reason time),
      by rw [State.closePage_eq hfill]⟩

theorem State.placeIn_placeFrame {k : Slot} {p : Page} {records used : Nat} (rec : Record)
    (h : s.filling = some (k, p, records, used)) : PlaceFrame s (s.placeIn k p records used rec) := by
  refine ⟨fun hs => hs.of_slot ?_ (State.slot_placeIn k p records used rec s),
    by rw [State.placeIn_eq]⟩
  have hk := hs k
  rw [State.slot_of_filling h] at hk
  exact hk

theorem PlaceStep.frame (h : PlaceStep rec s t) : PlaceFrame s t := by
  cases h with
  | bad k _ _ => exact .bad k s
  | take k p _ _ hp => exact .take k hp _ s
  | close k p records used h => exact s.closePage_placeFrame _ _
  | place k p records used h _ => exact State.placeIn_placeFrame rec h

theorem Placing.frame (h : Placing rec s t) : PlaceFrame s t :=
  h.keeps (P := PlaceFrame s) (fun _ _ hstep hs => hs.trans hstep.frame) (.refl s)

/-! ### Finding room -/

/-- A page that is a general page passes the tests of a slot take. -/
theorem State.general_of_poolPage {k : Slot} {p : Page} (h : s.poolPage k = some p) :
    isGeneralPage p = true := by
  simp only [State.poolPage] at h
  split at h
  · cases h
  · rename_i q hq
    split at h
    · cases h
    · split at h
      · cases h
      · cases h
        simp only [generalPage?] at hq
        split at hq
        · rename_i hrange
          cases hq
          simp only [isGeneralPage, decide_eq_true_eq, BitVec.extractLsb'_toNat, Nat.shiftRight_zero]
          omega
        · cases hq

/-- What a search through the slots does where none is FILLING. -/
structure Searched (ks : List Slot) (s : State) (b : Bool) (t : State) : Prop where
  placing : ∀ rec, Placing rec s t
  found : b = true → (∃ k, s.slot k = .empty) ∧ ∃ k p, t.slot k = .filling p 0 0
  missed : b = false → t.NoFilling ∧ ∀ k, k ∈ ks ∨ s.slot k ≠ .empty → t.slot k ≠ .empty

theorem State.searchSlots_searched (ks : List Slot) (s : State) (h : s.NoFilling) :
    Searched ks s (s.searchSlots ks).1 (s.searchSlots ks).2 := by
  induction ks generalizing s with
  | nil => exact ⟨fun _ => .refl, fun h => (by cases h), fun _ => ⟨h, fun k hk => hk.resolve_left (List.not_mem_nil)⟩⟩
  | cons k ks ih =>
    simp only [State.searchSlots]
    split
    · rename_i hempty
      split
      · have hbad (rec : Record) : PlaceStep rec s ((s.writeSlot k .bad).setCause .slotFault) :=
          .bad k hempty h
        have hslot (j : Slot) : ((s.writeSlot k .bad).setCause .slotFault).slot j =
            if j = k then .bad else s.slot j := State.slot_writeSlot k j .bad s
        have hnone : ((s.writeSlot k .bad).setCause .slotFault).NoFilling := fun j => by
          rw [hslot]
          split
          · rfl
          · exact h j
        obtain ⟨hplacing, hfound, hmissed⟩ := ih _ hnone
        refine ⟨fun rec => (hbad rec).placing.trans (hplacing rec),
          fun hb => ⟨⟨k, hempty⟩, (hfound hb).2⟩, fun hb => ⟨(hmissed hb).1, fun j hj => ?_⟩⟩
        refine (hmissed hb).2 j ?_
        rw [hslot]
        by_cases hjk : j = k
        · exact .inr (by simp [hjk])
        · rw [if_neg hjk]
          exact hj.imp_left fun hmem => (List.mem_cons.mp hmem).resolve_left hjk
      · rename_i p hp
        refine ⟨fun rec => PlaceStep.placing (.take k p hempty h (State.general_of_poolPage hp)),
          fun _ => ⟨⟨k, hempty⟩, k, p, ?_⟩, fun hb => by cases hb⟩
        rw [State.slot_writeSlot, if_pos rfl]
    · rename_i hempty
      obtain ⟨hplacing, hfound, hmissed⟩ := ih s h
      refine ⟨hplacing, hfound, fun hb => ⟨(hmissed hb).1, fun j hj => (hmissed hb).2 j ?_⟩⟩
      by_cases hjk : j = k
      · exact .inr (hjk ▸ hempty)
      · exact hj.imp_left fun hmem => (List.mem_cons.mp hmem).resolve_left hjk

theorem mem_searchOrder (last k : Slot) : k ∈ searchOrder last := by
  revert last k
  decide

/-- What trying to place a record does. -/
structure Tried (rec : Record) (s : State) (b : Bool) (t : State) : Prop where
  placing : Placing rec s t
  placed : b = true → ¬ s.NoRoom
  missed : b = false → t.NoRoom

theorem State.takeSlot_searched (s : State) (h : s.NoFilling) :
    Searched (searchOrder s.report.lastClosed) s s.takeSlot.1 s.takeSlot.2 :=
  s.searchSlots_searched _ h

/-- A search of all slots that finds none leaves no room. -/
theorem Searched.noRoom {last : Slot} (h : Searched (searchOrder last) s false t) : t.NoRoom := fun k =>
  ⟨(h.missed rfl).1 k, (h.missed rfl).2 k (.inl (mem_searchOrder last k))⟩

theorem State.not_noRoom_of_empty {k : Slot} (h : s.slot k = .empty) : ¬ s.NoRoom :=
  fun hno => (hno k).2 h

theorem State.takeAndPlace_tried (rec : Record) (s : State) (h : s.NoFilling) :
    Tried rec s (s.takeAndPlace rec).1 (s.takeAndPlace rec).2 := by
  have htake := s.takeSlot_searched h
  simp only [State.takeAndPlace]
  split
  · rename_i u hu
    rw [hu] at htake
    exact ⟨htake.placing rec, fun hb => (by cases hb), fun _ => htake.noRoom⟩
  · rename_i u hu
    rw [hu] at htake
    obtain ⟨⟨j, hj⟩, k, p, hk⟩ := htake.found rfl
    have hlaw := (htake.placing rec).fillingLaw (.of_none h)
    have hfill := State.filling_of_slot hlaw hk
    refine ⟨(htake.placing rec).trans ?_, fun _ => State.not_noRoom_of_empty hj, fun hb => by cases hb⟩
    simp only [State.placeFresh]
    rw [hfill]
    exact PlaceStep.placing (.place k p 0 0 hfill (.inr rfl))

theorem State.not_noRoom_of_filling {k : Slot} {p : Page} {records used : Nat}
    (h : s.filling = some (k, p, records, used)) : ¬ s.NoRoom := fun hno => by
  have hk := (hno k).1
  rw [State.slot_of_filling h] at hk
  cases hk

theorem State.tryPlace_tried (rec : Record) (s : State) (h : FillingLaw s) :
    Tried rec s (s.tryPlace rec).1 (s.tryPlace rec).2 := by
  simp only [State.tryPlace]
  split
  · rename_i k p records used hfill
    have hroom := State.not_noRoom_of_filling hfill
    split
    · rename_i hfits
      exact ⟨PlaceStep.placing (.place k p records used hfill (.inl hfits)), fun _ => hroom,
        fun hb => by cases hb⟩
    · have hclose : PlaceStep rec s (s.closePage .full s.timebase) := .close k p records used hfill
      have hnone : (s.closePage .full s.timebase).NoFilling := fun j => by
        rw [State.slot_closePage hfill]
        split
        · rfl
        · rename_i hj
          exact h.others (State.slot_of_filling hfill ▸ rfl) hj
      have htried := State.takeAndPlace_tried rec _ hnone
      exact ⟨hclose.placing.trans htried.placing, fun _ => hroom, htried.missed⟩
  · rename_i hfill
    exact State.takeAndPlace_tried rec s ((State.filling_eq_none_iff s).mp hfill)

/-! ### A record without room -/

/-- What happens to a record that finds no room (R155): it is held, owed to an axis, or dropped. -/
inductive Shortage (rec : Record) (s : State) : State → Prop
  | holds (room : s.report.queue.length < 8) :
      Shortage rec s ((s.setCause .roomExhausted).holdRecord rec)
  | owes (b : Axis) (h : rec.body.axis? = some b) :
      Shortage rec s ((s.setCause .roomExhausted).oweRecord b rec)
  | drops : Shortage rec s ((s.setCause .roomExhausted).countDrop)

theorem State.noRoom_shortage (rec : Record) (s : State) : Shortage rec s (s.noRoom rec) := by
  have hkeeps : Shortage rec s
      (match rec.body.essential, rec.body.axis? with
        | true, some a => (s.setCause .roomExhausted).oweRecord a rec
        | _, _ => (s.setCause .roomExhausted).countDrop) := by
    split
    · rename_i b _ haxis
      exact .owes b haxis
    · exact .drops
  simp only [State.noRoom]
  split
  · exact hkeeps
  · split
    · rename_i hroom
      exact .holds hroom
    · exact hkeeps

/-- A record that is handed over is placed, or finds no room. -/
theorem State.handRecord_cases (body : RecordBody) (h : FillingLaw s) :
    (¬ s.NoRoom ∧ Placing { time := s.timebase, body := body } s (s.handRecord body)) ∨
      ∃ u, Placing { time := s.timebase, body := body } s u ∧ u.NoRoom ∧
        Shortage { time := s.timebase, body := body } u (s.handRecord body) := by
  have htried := s.tryPlace_tried { time := s.timebase, body := body } h
  simp only [State.handRecord]
  split
  · rename_i u hu
    rw [hu] at htried
    exact .inl ⟨htried.placed rfl, htried.placing⟩
  · rename_i u hu
    rw [hu] at htried
    exact .inr ⟨u, htried.placing, htried.missed rfl, u.noRoom_shortage _⟩

end Sys2Proof.Machine
end

