-- ==== Sys2Proof/Proofs/Pool.lean ====
section
/-!
PROOF. The fifth and sixth law (R150, R156): a shortage holds a record only where there is no room, and a
drain ends with an empty queue or without room.
-/
namespace Sys2Proof.Machine

variable {a b : Axis} {s t u : State} {rec : Record}

/-! ### The drain, step by step -/

/-- One step of a drain (R160): a record that is kept is placed, or the store it came from is put right. -/
inductive DrainStep (s : State) : State → Prop
  | placing {t : State} (rec : Record)
      (h : rec.length ≤ 23 ∨ rec ∈ s.report.queue ∨ ∃ b, rec ∈ s.owedOf b) (hp : Placing rec s t) :
      DrainStep s t
  | unqueue (rec : Record) (rest : List Record) (h : s.report.queue = rec :: rest) :
      DrainStep s
        ((s.mapReport fun r => { r with queue := rest }).write 0x0012 (BitVec.ofNat 16 rest.length))
  | forget : DrainStep s ((s.mapReport fun r => { r with drops := 0 }).write 0x0013 0)
  | owed (b : Axis) (rec : Record) (rest : List Record) (h : s.owedOf b = rec :: rest) :
      DrainStep s (s.owedPlaced b rest)
  | full : DrainStep s (s.setCause .roomExhausted)

/-- Steps of a drain. -/
def Drains : State → State → Prop := Relation.ReflTransGen DrainStep

theorem Drains.refl : Drains s s := Relation.ReflTransGen.refl

theorem Drains.trans (h : Drains s t) (k : Drains t u) : Drains s u :=
  Relation.ReflTransGen.trans h k

theorem DrainStep.drains (h : DrainStep s t) : Drains s t := Relation.ReflTransGen.single h

theorem Drains.keeps {P : State → Prop} (hstep : ∀ s t, DrainStep s t → P s → P t)
    (h : Drains s t) (hs : P s) : P t := by
  induction h with
  | refl => exact hs
  | tail _ hlast ih => exact hstep _ _ hlast ih

theorem FillingLaw.of_slots (h : FillingLaw s) (hslots : t.report.slots = s.report.slots) :
    FillingLaw t := by
  intro j k
  rw [State.slot, State.slot, hslots]
  exact h j k

theorem State.owedPlaced_report (b : Axis) (rest : List Record) (s : State) :
    (s.owedPlaced b rest).report =
      { s.report with
        owed := s.report.owed.set b rest
        waitList := if rest.isEmpty then s.report.waitList.erase b else s.report.waitList } := by
  simp only [State.owedPlaced]
  split <;> rfl

theorem DrainStep.fillingLaw (h : DrainStep s t) (hs : FillingLaw s) : FillingLaw t := by
  cases h with
  | placing rec _ hp => exact hp.fillingLaw hs
  | unqueue rec rest _ => exact hs
  | forget => exact hs
  | owed b rec rest _ => exact hs.of_slots (by rw [State.owedPlaced_report])
  | full => exact hs

theorem Drains.fillingLaw (h : Drains s t) (hs : FillingLaw s) : FillingLaw t :=
  h.keeps (P := FillingLaw) (fun _ _ hstep => hstep.fillingLaw) hs

/-- What a stage of a drain does: it is done and the queue is empty, or there is no room. -/
structure Stage (s : State) (b : Bool) (t : State) : Prop where
  drains : Drains s t
  done : b = true → t.report.queue = []
  missed : b = false → t.NoRoom ∨ t.report.queue = []
  length : t.report.queue.length ≤ s.report.queue.length

theorem Stage.after {s t u : State} {b : Bool} (h : Drains s t)
    (hlen : t.report.queue.length ≤ s.report.queue.length) (k : Stage t b u) : Stage s b u :=
  ⟨h.trans k.drains, k.done, k.missed, k.length.trans hlen⟩

theorem PlaceFrame.queue (h : PlaceFrame s t) : t.report.queue = s.report.queue := by rw [h.fields]

theorem PlaceFrame.owedOf (h : PlaceFrame s t) (b : Axis) : t.owedOf b = s.owedOf b := by
  rw [h.fields]
  rfl

theorem PlaceFrame.waitList (h : PlaceFrame s t) : t.report.waitList = s.report.waitList := by
  rw [h.fields]

theorem State.drainQueue_stage (n : Nat) (s : State) (hlaw : FillingLaw s)
    (hn : s.report.queue.length ≤ n) : Stage s (s.drainQueue n).1 (s.drainQueue n).2 := by
  induction n generalizing s with
  | zero =>
    have hnil := List.eq_nil_of_length_eq_zero (Nat.le_zero.mp hn)
    exact ⟨.refl, fun _ => hnil, fun _ => .inr hnil, le_refl _⟩
  | succ n ih =>
    simp only [State.drainQueue]
    split
    · rename_i hnil
      exact ⟨.refl, fun _ => hnil, fun _ => .inr hnil, le_refl _⟩
    · rename_i rec rest hqueue
      have htried := s.tryPlace_tried rec hlaw
      have hplace (t : State) (hp : Placing rec s t) : Drains s t :=
        DrainStep.drains (.placing rec (.inr (.inl (by rw [hqueue]; exact .head _))) hp)
      split
      · rename_i u hu
        rw [hu] at htried
        have hfull : DrainStep u (u.setCause .roomExhausted) := .full
        exact ⟨(hplace u htried.placing).trans hfull.drains, fun hb => (by cases hb),
          fun _ => .inl (htried.missed rfl), le_of_eq (congrArg List.length htried.placing.frame.queue)⟩
      · rename_i u hu
        rw [hu] at htried
        have hsame := htried.placing.frame.queue.trans hqueue
        have hrest := (hplace u htried.placing).trans (DrainStep.drains (.unqueue rec rest hsame))
        rw [hqueue, List.length_cons] at hn
        refine Stage.after hrest ?_ (ih _ (hrest.fillingLaw hlaw) (Nat.le_of_succ_le_succ hn))
        rw [hqueue]
        exact Nat.le_succ _

/-- With an empty queue, a stage that leaves it empty. -/
theorem Stage.of_empty {b : Bool} (h : Drains s t) (hqueue : t.report.queue = []) : Stage s b t :=
  ⟨h, fun _ => hqueue, fun _ => .inr hqueue, by simp [hqueue]⟩

theorem State.drainDrops_stage (s : State) (hlaw : FillingLaw s) (hqueue : s.report.queue = []) :
    Stage s s.drainDrops.1 s.drainDrops.2 := by
  simp only [State.drainDrops]
  split
  · exact .of_empty .refl hqueue
  · have htried := s.tryPlace_tried { time := s.timebase, body := .drops s.report.drops } hlaw
    have hplace (t : State) (hp : Placing { time := s.timebase, body := .drops s.report.drops } s t) :
        Drains s t := DrainStep.drains (.placing _ (.inl (by simp [Record.length, RecordBody.words])) hp)
    split
    · rename_i u hu
      rw [hu] at htried
      exact .of_empty (hplace u htried.placing) (htried.placing.frame.queue.trans hqueue)
    · rename_i u hu
      rw [hu] at htried
      exact .of_empty ((hplace u htried.placing).trans (DrainStep.drains .forget))
        (htried.placing.frame.queue.trans hqueue)

theorem State.drainOwed_stage (n : Nat) (s : State) (hlaw : FillingLaw s)
    (hqueue : s.report.queue = []) : Stage s (s.drainOwed n).1 (s.drainOwed n).2 := by
  induction n generalizing s with
  | zero => exact .of_empty .refl hqueue
  | succ n ih =>
    simp only [State.drainOwed]
    split
    · exact .of_empty .refl hqueue
    · rename_i b _ _
      split
      · exact .of_empty .refl hqueue
      · rename_i rec rest howed
        have htried := s.tryPlace_tried rec hlaw
        have hplace (t : State) (hp : Placing rec s t) : Drains s t :=
          DrainStep.drains (.placing rec (.inr (.inr ⟨b, by rw [howed]; exact .head _⟩)) hp)
        split
        · rename_i u hu
          rw [hu] at htried
          have hfull : DrainStep u (u.setCause .roomExhausted) := .full
          exact .of_empty ((hplace u htried.placing).trans hfull.drains)
            (htried.placing.frame.queue.trans hqueue)
        · rename_i u hu
          rw [hu] at htried
          have hsame := (htried.placing.frame.owedOf b).trans howed
          have hrest := (hplace u htried.placing).trans (DrainStep.drains (.owed b rec rest hsame))
          have hempty : (u.owedPlaced b rest).report.queue = [] := by
            rw [State.owedPlaced_report]
            exact htried.placing.frame.queue.trans hqueue
          refine Stage.after hrest ?_ (ih _ (hrest.fillingLaw hlaw) hempty)
          rw [hempty]
          exact Nat.zero_le _

theorem State.drainSteps_stage (s : State) (hlaw : FillingLaw s) :
    ∃ b, Stage s b s.drainSteps := by
  have hqueue := s.drainQueue_stage s.report.queue.length hlaw (le_refl _)
  simp only [State.drainSteps]
  split
  · rename_i u hu
    rw [hu] at hqueue
    exact ⟨_, hqueue⟩
  · rename_i u hu
    rw [hu] at hqueue
    have hdrops := u.drainDrops_stage (hqueue.drains.fillingLaw hlaw) (hqueue.done rfl)
    split
    · rename_i v hv
      rw [hv] at hdrops
      exact ⟨_, .after hqueue.drains hqueue.length hdrops⟩
    · rename_i v hv
      rw [hv] at hdrops
      have hboth := hqueue.drains.trans hdrops.drains
      exact ⟨_, .after hboth (hdrops.length.trans hqueue.length)
        (v.drainOwed_stage _ (hboth.fillingLaw hlaw) (hdrops.done rfl))⟩

theorem State.drain_stage (s : State) (hlaw : FillingLaw s) : ∃ b, Stage s b s.drain := by
  simp only [State.drain]
  split
  · exact s.drainSteps_stage hlaw
  · rename_i hnone
    have hnone : s.NoFilling := by
      rw [← State.fillingSlot_eq_none_iff]
      simpa using hnone
    have htake := s.takeSlot_searched hnone
    have hplace (t : State) (hp : ∀ rec, Placing rec s t) : Drains s t :=
      DrainStep.drains (.placing { time := 0, body := .drops 0 } (.inl (by decide)) (hp _))
    have hlen (t : State) (hp : ∀ rec, Placing rec s t) :
        t.report.queue.length ≤ s.report.queue.length :=
      le_of_eq (congrArg List.length (hp { time := 0, body := .drops 0 }).frame.queue)
    split
    · rename_i u hu
      rw [hu] at htake
      exact ⟨false, hplace u htake.placing, fun hb => (by cases hb), fun _ => .inl htake.noRoom,
        hlen u htake.placing⟩
    · rename_i u hu
      rw [hu] at htake
      have hdrains := hplace u htake.placing
      obtain ⟨b, hstage⟩ := u.drainSteps_stage (hdrains.fillingLaw hlaw)
      exact ⟨b, .after hdrains (hlen u htake.placing) hstage⟩

/-! ### The laws -/

/-- The fifth and the sixth law. -/
structure PoolLaws (s : State) : Prop where
  filling : FillingLaw s
  length : s.report.queue.length ≤ 8
  room : s.report.queue = [] ∨ s.NoRoom

theorem poolLaws_iff (s : State) : PoolLaws s ↔ FillingLaw s ∧ QueueLaw s := by
  refine ⟨fun ⟨hfilling, hlen, hroom⟩ => ⟨hfilling, hlen, fun hne => hroom.resolve_left hne⟩,
    fun ⟨hfilling, hlen, hroom⟩ => ⟨hfilling, hlen, ?_⟩⟩
  by_cases hqueue : s.report.queue = []
  · exact .inl hqueue
  · exact .inr (hroom hqueue)

theorem State.NoRoom.of_slots (h : s.NoRoom) (hslots : t.report.slots = s.report.slots) : t.NoRoom := by
  intro k
  rw [State.slot, hslots]
  exact h k

theorem PoolLaws.of_report (h : PoolLaws s) (hslots : t.report.slots = s.report.slots)
    (hqueue : t.report.queue = s.report.queue) : PoolLaws t :=
  ⟨h.filling.of_slots hslots, hqueue ▸ h.length,
    h.room.imp (fun hnil => hqueue.trans hnil) fun hroom => hroom.of_slots hslots⟩

/-- A shortage leaves the slots, and adds to the queue only while it has room. -/
theorem Shortage.pool (h : Shortage rec s t) :
    t.report.slots = s.report.slots ∧
      (t.report.queue = s.report.queue ∨ t.report.queue.length ≤ 8) := by
  cases h with
  | holds room => exact ⟨rfl, .inr (by simpa [State.holdRecord] using room)⟩
  | owes b _ =>
    simp only [State.oweRecord]
    split
    · exact ⟨rfl, .inl rfl⟩
    · split <;> exact ⟨rfl, .inl rfl⟩
  | drops => exact ⟨rfl, .inl rfl⟩

theorem PoolLaws.handRecord (h : PoolLaws s) (body : RecordBody) : PoolLaws (s.handRecord body) := by
  rcases State.handRecord_cases body h.filling with ⟨hroom, hp⟩ | ⟨u, hp, hno, hshort⟩
  · have hnil := hp.frame.queue.trans (h.room.resolve_right hroom)
    exact ⟨hp.fillingLaw h.filling, by simp [hnil], .inl hnil⟩
  · obtain ⟨hslots, hqueue⟩ := hshort.pool
    refine ⟨(hp.fillingLaw h.filling).of_slots hslots, ?_, .inr (hno.of_slots hslots)⟩
    rcases hqueue with hsame | hlen
    · rw [hsame, hp.frame.queue]
      exact h.length
    · exact hlen

/-- An act that hands over no record leaves the report unit. -/
theorem Act.report (h : Act s t) :
    t.report = s.report ∨ ∃ body, body.words.length ≤ 18 ∧ t = s.handRecord body := by
  cases h with
  | agenda tasks n => exact .inl rfl
  | entry a value hmove => cases hmove <;> exact .inl rfl
  | move a hmove =>
    cases hmove with
    | record body hlen => exact .inr ⟨body, hlen, rfl⟩
    | halts cause detail _ =>
      refine .inl ?_
      rw [State.releaseAxisClaims, State.releaseList_fields]
      rfl
    | _ => exact .inl rfl

theorem PoolLaws.act (h : PoolLaws s) (hact : Act s t) : PoolLaws t := by
  rcases hact.report with hreport | ⟨body, -, rfl⟩
  · exact h.of_report (by rw [hreport]) (by rw [hreport])
  · exact h.handRecord body

theorem PoolLaws.acts (h : PoolLaws s) (hacts : Acts s t) : PoolLaws t :=
  hacts.keeps (P := PoolLaws) (fun _ _ hact hs => hs.act hact) h

/-! ### Commands to the report unit -/

theorem FillingLaw.closePage (h : FillingLaw s) (reason : CloseReason) (time : Time) :
    FillingLaw (s.closePage reason time) := by
  cases hfill : s.filling with
  | none =>
    simp only [State.closePage, hfill]
    exact h
  | some f =>
    obtain ⟨k, p, records, used⟩ := f
    refine .of_none fun j => ?_
    rw [State.slot_closePage hfill]
    split
    · rfl
    · rename_i hj
      exact h.others (State.slot_of_filling hfill ▸ rfl) hj

/-- Closing a page empties no slot; the queue was empty, since the page was FILLING. -/
theorem PoolLaws.closePage (h : PoolLaws s) (reason : CloseReason) (time : Time) :
    PoolLaws (s.closePage reason time) := by
  cases hfill : s.filling with
  | none =>
    simp only [State.closePage, hfill]
    exact h
  | some f =>
    obtain ⟨k, p, records, used⟩ := f
    have hnil := h.room.resolve_right (State.not_noRoom_of_filling hfill)
    have hqueue : (s.closePage reason time).report.queue = [] := by
      rw [State.closePage_eq hfill]
      exact hnil
    exact ⟨h.filling.closePage reason time, by simp [hqueue], .inl hqueue⟩

theorem PoolLaws.closeIfRecords (h : PoolLaws s) (reason : CloseReason) (time : Time) :
    PoolLaws (s.closeIfRecords reason time) := by
  simp only [State.closeIfRecords]
  split
  · exact h
  · split
    · exact h
    · exact h.closePage reason time

theorem PoolLaws.enterStopped (h : PoolLaws s) : PoolLaws s.enterStopped := by
  have hdev : PoolLaws { s with dev := .stopped } := h.of_report rfl rfl
  exact (hdev.closeIfRecords .stop s.timebase).of_report rfl rfl

theorem PoolLaws.drain (hlaw : FillingLaw s) (hlen : s.report.queue.length ≤ 8) : PoolLaws s.drain := by
  obtain ⟨b, hstage⟩ := s.drain_stage hlaw
  refine ⟨hstage.drains.fillingLaw hlaw, hstage.length.trans hlen, ?_⟩
  cases b with
  | true => exact .inl (hstage.done rfl)
  | false => exact (hstage.missed rfl).symm

theorem PoolLaws.checkStopped (h : PoolLaws s) : PoolLaws s.checkStopped := by
  simp only [State.checkStopped]
  split
  · exact h.enterStopped
  · exact h

theorem SlotState.hostWritten_isFilling (old : SlotState) (v : Word) :
    (old.hostWritten v).isFilling = false := by
  simp only [SlotState.hostWritten]
  split
  · rfl
  · split <;> rfl
  · rfl
  · rfl

theorem SlotState.hostWritten_ne_empty (old : SlotState) {v : Word} (h : v ≠ 1) :
    old.hostWritten v ≠ .empty := by
  simp only [SlotState.hostWritten]
  split
  · rename_i hv
    exact absurd (BitVec.eq_of_toNat_eq hv) h
  · split <;> simp
  · simp
  · simp

/-- A host write to a slot that is not FILLING makes no slot FILLING. -/
theorem FillingLaw.hostWritten (h : FillingLaw s) (k : Slot) (v : Word) (old : SlotState) :
    FillingLaw ((s.write (slotStateWord k) v).setSlot k (old.hostWritten v)) := by
  have hold (j : Slot)
      (hj : (((s.write (slotStateWord k) v).setSlot k (old.hostWritten v)).slot j).isFilling = true) :
      (s.slot j).isFilling = true := by
    rw [State.slot_setSlot] at hj
    split at hj
    · rw [SlotState.hostWritten_isFilling] at hj
      cases hj
    · exact hj
  exact fun i j hi hj => h i j (hold i hi) (hold j hj)

theorem FillingLaw.checkStopped (h : FillingLaw s) : FillingLaw s.checkStopped := by
  simp only [State.checkStopped]
  split
  · have hdev : FillingLaw { s with dev := .stopped } := h
    have hclose : FillingLaw (({ s with dev := .stopped } : State).closeIfRecords .stop s.timebase) := by
      simp only [State.closeIfRecords]
      split
      · exact hdev
      · split
        · exact hdev
        · exact hdev.closePage .stop s.timebase
    exact hclose
  · exact h

theorem FillingLaw.slotStateWrite (h : FillingLaw s) (k : Slot) (v : Word) :
    FillingLaw (s.slotStateWrite k v) := by
  simp only [State.slotStateWrite]
  split
  · exact h
  · split
    · exact h
    · have hlaw := h.hostWritten k v ((s.write (slotStateWord k) v).slot k)
      split
      · obtain ⟨b, hstage⟩ := State.drain_stage _ hlaw
        exact (hstage.drains.fillingLaw hlaw).checkStopped
      · exact hlaw

/-- A host write to a slot: the state it makes is not FILLING, and EMPTY starts a drain of what is kept. -/
theorem PoolLaws.slotStateWrite (h : PoolLaws s) (k : Slot) (v : Word) :
    PoolLaws (s.slotStateWrite k v) := by
  simp only [State.slotStateWrite]
  split
  · exact h
  · split
    · exact h.of_report rfl rfl
    · have hlaw := h.filling.hostWritten k v ((s.write (slotStateWord k) v).slot k)
      split
      · exact (PoolLaws.drain hlaw h.length).checkStopped
      · rename_i hkeeps
        refine ⟨hlaw, h.length, ?_⟩
        by_cases hv : v = 1
        · have hnot := fun hk => hkeeps ⟨hv, hk⟩
          refine .inl (by_contra fun hne => hnot ?_)
          simp only [State.keepsRecords, Bool.or_eq_true]
          exact .inl (.inl (by simpa using hne))
        · refine h.room.imp id fun hroom j => ?_
          rw [State.slot_setSlot]
          split
          · exact ⟨SlotState.hostWritten_isFilling _ v, SlotState.hostWritten_ne_empty _ hv⟩
          · exact hroom j

theorem PoolLaws.scanFilling (h : PoolLaws s) (kept : Time) : PoolLaws (s.scanFilling kept) := by
  simp only [State.scanFilling]
  split
  · exact h
  · rename_i k p records used hfill
    have hnil := h.room.resolve_right (State.not_noRoom_of_filling hfill)
    split
    · refine ⟨.of_none fun j => ?_, h.length, .inl hnil⟩
      rw [State.slot_writeSlot]
      split
      · rfl
      · rename_i hj
        exact h.filling.others (State.slot_of_filling hfill ▸ rfl) hj
    · exact h.closePage .reset kept

theorem PoolLaws.of_reset (h : t.report = ReportUnit.reset) : PoolLaws t := by
  have hslot (k : Slot) : t.slot k = .unused := by
    rw [State.slot, h]
    revert k
    decide
  refine ⟨.of_none fun k => ?_, by rw [h]; decide, .inl (by rw [h]; rfl)⟩
  rw [hslot]
  rfl

theorem CommandEffect.poolLaws {w : Option Addr} {c : Instr} (h : CommandEffect w s c t)
    (hs : PoolLaws s) : PoolLaws t := by
  cases h with
  | registers c t hframe => exact hs.of_report (by rw [hframe.frame]) (by rw [hframe.frame])
  | hardReset kind => exact .of_reset rfl
  | softReset c _ =>
    have hreport : s.softReset.report = s.report.softReset := by
      simp only [State.softReset]
      rw [State.endTick_frame]
    exact ⟨hs.filling.of_slots (by rw [hreport]; rfl), by rw [hreport]; exact Nat.zero_le _,
      .inl (by rw [hreport]; rfl)⟩
  | scanEnds c kept _ =>
    have hclaims : PoolLaws { s.releaseList kept s.claims with claims := [] } := by
      refine hs.of_report ?_ ?_ <;> rw [State.releaseList_fields]
    have hscan := hclaims.scanFilling kept
    exact hscan.of_report rfl rfl
  | spanStarts c setup raw _ =>
    have hopened : PoolLaws (s.spanOpened setup raw) :=
      hs.of_report (by rw [State.spanOpened_frame]) (by rw [State.spanOpened_frame])
    refine hopened.of_report ?_ ?_ <;>
    · rw [State.startSpan_eq, State.flushAll_frame, State.restartAging_frame]
      rfl
  | spanStops c _ =>
    have hacts := hs.acts (Acts.stopSpan s)
    rw [State.stopSpan_eq]
    refine PoolLaws.of_report (s := if _ then _ else _) ?_ rfl rfl
    split
    · exact hacts.enterStopped
    · exact hacts.of_report rfl rfl
  | flushes c _ => exact (hs.closeIfRecords .flush s.timebase).of_report rfl rfl
  | ages c => exact (hs.closeIfRecords .aged s.timebase).of_report rfl rfl
  | slotWritten c k v _ _ => exact (hs.slotStateWrite k v).acts (.settled _)
  | ticks c raw => exact hs.of_report (by rw [State.tick_frame]) (by rw [State.tick_frame])
  | @works c v u as stored opened _ =>
    have hstored : PoolLaws v := hs.of_report (by cases stored <;> rfl) (by cases stored <;> rfl)
    exact (hstored.acts opened.acts).acts (.settled _)
  | fillStarts | fillEnds | stores | rearms | steps | pulseEnds => exact hs.of_report rfl rfl

/-- Settles O56: a record is held only where no slot is left to place it, and a slot becomes EMPTY only
where nothing is held or a drain follows. -/
theorem poolLawsKept : Obligations.PoolLawsKept := fun s t hfilling hqueue h =>
  (poolLaws_iff t).mp <|
    step_keeps (P := PoolLaws) (fun _ _ hs => hs.of_report rfl rfl)
      (fun _ _ _ hexec => (exec_effect hexec).poolLaws) h ((poolLaws_iff s).mpr ⟨hfilling, hqueue⟩)

end Sys2Proof.Machine
end

