-- ==== Sys2Proof/Proofs/Owing.lean ====
section
/-!
PROOF. The owed records (R157, R158): the stores and the wait list stay in step, and no axis owes while the
device is STOPPED or in INIT (R23, R31).
-/
namespace Sys2Proof.Machine

variable {a b : Axis} {s t u : State} {rec : Record}

/-! ### Placing leaves what is owed -/

theorem State.searchSlots_placeFrame (ks : List Slot) (s : State) :
    PlaceFrame s (s.searchSlots ks).2 := by
  induction ks generalizing s with
  | nil => exact .refl s
  | cons k ks ih =>
    simp only [State.searchSlots]
    split
    · split
      · exact (PlaceFrame.bad k s).trans (ih _)
      · rename_i p hp
        exact .take k (State.general_of_poolPage hp) _ s
    · exact ih s

theorem State.closeIfRecords_placeFrame (reason : CloseReason) (time : Time) (s : State) :
    PlaceFrame s (s.closeIfRecords reason time) := by
  simp only [State.closeIfRecords]
  split
  · exact .refl s
  · split
    · exact .refl s
    · exact s.closePage_placeFrame reason time

theorem State.takeAndPlace_placeFrame (rec : Record) (s : State) :
    PlaceFrame s (s.takeAndPlace rec).2 := by
  have htake : PlaceFrame s s.takeSlot.2 := s.searchSlots_placeFrame _
  simp only [State.takeAndPlace]
  split
  · rename_i u hu
    rw [hu] at htake
    exact htake
  · rename_i u hu
    rw [hu] at htake
    refine htake.trans ?_
    simp only [State.placeFresh]
    split
    · exact .refl u
    · rename_i hfill
      exact State.placeIn_placeFrame rec hfill

theorem State.tryPlace_placeFrame (rec : Record) (s : State) : PlaceFrame s (s.tryPlace rec).2 := by
  simp only [State.tryPlace]
  split
  · rename_i hfill
    split
    · exact State.placeIn_placeFrame rec hfill
    · exact (s.closePage_placeFrame .full _).trans (State.takeAndPlace_placeFrame rec _)
  · exact s.takeAndPlace_placeFrame rec

/-! ### The stores and the wait list -/

theorem State.owedOf_set (s : State) (b c : Axis) (rs : List Record) :
    (s.report.owed.set b rs)[c] = if c = b then rs else s.owedOf c := by
  by_cases h : c = b
  · subst h
    simp
  · have h' : b.val ≠ c.val := fun e => h (Fin.ext e.symm)
    rw [if_neg h]
    simp [State.owedOf, h']

/-- The seventh and the eighth law, as far as stores and wait list go. -/
theorem OweLaw.of_report (h : OweLaw s) (howed : t.report.owed = s.report.owed)
    (hwait : t.report.waitList = s.report.waitList) : OweLaw t := by
  have hof (c : Axis) : t.owedOf c = s.owedOf c := by rw [State.owedOf, howed]; rfl
  refine ⟨fun c => ?_, hwait ▸ h.2.1, fun c => ?_⟩
  · rw [hof]
    exact h.1 c
  · rw [hwait, hof]
    exact h.2.2 c

/-- Another store of axis `b`, with the wait list put in step. -/
theorem OweLaw.of_store (h : OweLaw s) {rs : List Record} (hlen : rs.length ≤ 3)
    (howed : t.report.owed = s.report.owed.set b rs) (hnodup : t.report.waitList.Nodup)
    (hmem : b ∈ t.report.waitList ↔ rs ≠ [])
    (hothers : ∀ c, c ≠ b → (c ∈ t.report.waitList ↔ c ∈ s.report.waitList)) : OweLaw t := by
  have hof (c : Axis) : t.owedOf c = if c = b then rs else s.owedOf c := by
    rw [State.owedOf, howed]
    exact s.owedOf_set b c rs
  refine ⟨fun c => ?_, hnodup, fun c => ?_⟩
  · rw [hof]
    split
    · exact hlen
    · exact h.1 c
  · rw [hof]
    split
    · rename_i hc
      exact hc ▸ hmem
    · rename_i hc
      exact (hothers c hc).trans (h.2.2 c)

theorem PlaceFrame.oweLaw (h : PlaceFrame s t) (hs : OweLaw s) : OweLaw t :=
  hs.of_report (by rw [h.fields]) (by rw [h.fields])

theorem OweLaw.oweRecord (h : OweLaw s) (b : Axis) (rec : Record) : OweLaw (s.oweRecord b rec) := by
  have hlen := h.1 b
  have hnodup := h.2.1
  have hmem := h.2.2 b
  simp only [State.oweRecord]
  split
  · rename_i hfull
    have hne : s.owedOf b ≠ [] := fun hnil => by simp [hnil] at hfull
    refine h.of_store (b := b) (rs := (s.owedOf b).dropLast ++ [rec]) ?_ rfl hnodup
      (iff_of_true (hmem.mpr hne) (by simp)) fun c _ => Iff.rfl
    simp only [List.length_append, List.length_dropLast, List.length_singleton]
    omega
  · rename_i hroom
    split
    · rename_i hempty
      have hnil : s.owedOf b = [] := List.isEmpty_iff.mp hempty
      have hnot : b ∉ s.report.waitList := fun hb => hmem.mp hb hnil
      refine h.of_store (b := b) (rs := [rec]) (by simp) rfl ?_ ?_ fun c hc => ?_
      · show (s.report.waitList ++ [b]).Nodup
        exact List.Nodup.append hnodup (by simp) (by simpa using hnot)
      · show b ∈ s.report.waitList ++ [b] ↔ _
        simp
      · show c ∈ s.report.waitList ++ [b] ↔ _
        simp [hc]
    · rename_i hempty
      have hne : s.owedOf b ≠ [] := fun hnil => hempty (by simp [hnil])
      refine h.of_store (b := b) (rs := s.owedOf b ++ [rec]) ?_ rfl hnodup
        (iff_of_true (hmem.mpr hne) (by simp)) fun c _ => Iff.rfl
      simp only [List.length_append, List.length_singleton]
      omega

theorem OweLaw.noRoom (h : OweLaw s) (rec : Record) : OweLaw (s.noRoom rec) := by
  have hcause : OweLaw (s.setCause .roomExhausted) := h
  have hshort := s.noRoom_shortage rec
  generalize s.noRoom rec = t at hshort ⊢
  cases hshort with
  | holds _ => exact hcause
  | owes b _ => exact hcause.oweRecord b rec
  | drops => exact hcause

theorem OweLaw.handRecord (h : OweLaw s) (body : RecordBody) : OweLaw (s.handRecord body) := by
  have hplace := s.tryPlace_placeFrame { time := s.timebase, body := body }
  simp only [State.handRecord]
  split
  · rename_i u hu
    rw [hu] at hplace
    exact hplace.oweLaw h
  · rename_i u hu
    rw [hu] at hplace
    exact (hplace.oweLaw h).noRoom _

/-- One owed record of axis `b` has been placed. -/
theorem OweLaw.owedPlaced (h : OweLaw s) {rest : List Record} (howed : s.owedOf b = rec :: rest) :
    OweLaw (s.owedPlaced b rest) := by
  have hlen := h.1 b
  rw [howed, List.length_cons] at hlen
  have hmem : b ∈ s.report.waitList := (h.2.2 b).mpr (by simp [howed])
  have howed' : (s.owedPlaced b rest).report.owed = s.report.owed.set b rest := by
    rw [State.owedPlaced_report]
  have hwait : (s.owedPlaced b rest).report.waitList =
      if rest.isEmpty then s.report.waitList.erase b else s.report.waitList := by
    rw [State.owedPlaced_report]
  refine h.of_store (b := b) (rs := rest) (by omega) howed' ?_ ?_ fun c hc => ?_ <;> rw [hwait] <;>
    split
  · exact h.2.1.erase b
  · exact h.2.1
  · rename_i hempty
    exact iff_of_false h.2.1.not_mem_erase (fun hne => hne (List.isEmpty_iff.mp hempty))
  · rename_i hempty
    exact iff_of_true hmem fun hnil => hempty (by simp [hnil])
  · exact List.mem_erase_of_ne hc
  · exact Iff.rfl

/-! ### The drain -/

/-- A drain keeps stores and wait list in step, no axis begins to owe and no record is kept anew; the tasks
it adds tell axes that they owe nothing any more. -/
structure Pays (s t : State) : Prop where
  oweLaw : OweLaw s → OweLaw t
  waitList : ∀ b ∈ t.report.waitList, b ∈ s.report.waitList
  queue : ∀ r ∈ t.report.queue, r ∈ s.report.queue
  owed : ∀ b, ∀ r ∈ t.owedOf b, r ∈ s.owedOf b
  general : SlotsGeneral s → SlotsGeneral t
  agenda : ∀ k ∈ t.agenda, k ∈ s.agenda ∨ ∃ b, k = .owingEnded b

theorem Pays.trans (h : Pays s t) (k : Pays t u) : Pays s u :=
  ⟨fun hs => k.oweLaw (h.oweLaw hs), fun b hb => h.waitList b (k.waitList b hb),
    fun r hr => h.queue r (k.queue r hr), fun b r hr => h.owed b r (k.owed b r hr),
    fun hs => k.general (h.general hs), fun task htask =>
      (k.agenda task htask).elim (h.agenda task) fun howing => .inr howing⟩

theorem PlaceFrame.agenda (h : PlaceFrame s t) : t.agenda = s.agenda := by rw [h.fields]

theorem PlaceFrame.pays (h : PlaceFrame s t) : Pays s t :=
  ⟨h.oweLaw, fun b hb => by rwa [h.waitList] at hb, fun r hr => by rwa [h.queue] at hr,
    fun b r hr => by rwa [h.owedOf] at hr, h.general, fun k hk => .inl (by rwa [h.agenda] at hk)⟩

theorem Pays.setCause (c : AlertCause) (s : State) : Pays s (s.setCause c) :=
  ⟨id, fun _ => id, fun _ => id, fun _ _ => id, id, fun _ => .inl⟩

theorem Pays.refl (s : State) : Pays s s := (PlaceFrame.refl s).pays

theorem Pays.unqueue {rest : List Record} (hqueue : s.report.queue = rec :: rest) (v : Word) :
    Pays s ((s.mapReport fun r => { r with queue := rest }).write 0x0012 v) :=
  ⟨id, fun _ => id, fun r hr => by rw [hqueue]; exact .tail _ hr, fun _ _ => id, id, fun _ => .inl⟩

theorem Pays.forget (s : State) :
    Pays s ((s.mapReport fun r => { r with drops := 0 }).write 0x0013 0) :=
  ⟨id, fun _ => id, fun _ => id, fun _ _ => id, id, fun _ => .inl⟩

theorem State.owedPlaced_agenda (b : Axis) (rest : List Record) (s : State) :
    (s.owedPlaced b rest).agenda = s.agenda ∨
      (s.owedPlaced b rest).agenda = s.agenda ++ [.owingEnded b] := by
  simp only [State.owedPlaced]
  split
  · exact .inr rfl
  · exact .inl rfl

theorem Pays.owedPlaced {rest : List Record} (howed : s.owedOf b = rec :: rest) :
    Pays s (s.owedPlaced b rest) where
  oweLaw h := h.owedPlaced howed
  waitList c hc := by
    rw [State.owedPlaced_report] at hc
    dsimp only at hc
    split at hc
    · exact List.mem_of_mem_erase hc
    · exact hc
  queue r hr := by rwa [State.owedPlaced_report] at hr
  owed c r hr := by
    rw [State.owedOf, State.owedPlaced_report] at hr
    change r ∈ (s.report.owed.set b rest)[c] at hr
    rw [State.owedOf_set] at hr
    split at hr
    · rename_i hc
      rw [hc, howed]
      exact .tail _ hr
    · exact hr
  general h k := by
    rw [State.slot, State.owedPlaced_report]
    exact h k
  agenda k hk := by
    rcases s.owedPlaced_agenda b rest with hsame | hpush
    · exact .inl (hsame ▸ hk)
    · rw [hpush] at hk
      exact (List.mem_append.mp hk).imp id fun hb => ⟨b, List.mem_singleton.mp hb⟩

theorem State.drainQueue_pays (n : Nat) (s : State) : Pays s (s.drainQueue n).2 := by
  induction n generalizing s with
  | zero => exact .refl s
  | succ n ih =>
    simp only [State.drainQueue]
    split
    · exact .refl s
    · rename_i rec rest hqueue
      have hplace := s.tryPlace_placeFrame rec
      split
      · rename_i u hu
        rw [hu] at hplace
        exact hplace.pays.trans (.setCause _ u)
      · rename_i u hu
        rw [hu] at hplace
        have hsame := hplace.queue.trans hqueue
        exact (hplace.pays.trans (.unqueue hsame _)).trans (ih _)

theorem State.drainDrops_pays (s : State) : Pays s s.drainDrops.2 := by
  simp only [State.drainDrops]
  split
  · exact .refl s
  · have hplace := s.tryPlace_placeFrame { time := s.timebase, body := .drops s.report.drops }
    split
    · rename_i u hu
      rw [hu] at hplace
      exact hplace.pays
    · rename_i u hu
      rw [hu] at hplace
      exact hplace.pays.trans (.forget u)

theorem State.drainOwed_pays (n : Nat) (s : State) : Pays s (s.drainOwed n).2 := by
  induction n generalizing s with
  | zero => exact .refl s
  | succ n ih =>
    simp only [State.drainOwed]
    split
    · exact .refl s
    · rename_i b _ _
      split
      · exact .refl s
      · rename_i rec rest howed
        have hplace := s.tryPlace_placeFrame rec
        split
        · rename_i u hu
          rw [hu] at hplace
          exact hplace.pays.trans (.setCause _ u)
        · rename_i u hu
          rw [hu] at hplace
          exact (hplace.pays.trans (.owedPlaced ((hplace.owedOf b).trans howed))).trans (ih _)

theorem State.drain_pays (s : State) : Pays s s.drain := by
  have hsteps (s : State) : Pays s s.drainSteps := by
    have hqueue := s.drainQueue_pays s.report.queue.length
    simp only [State.drainSteps]
    split
    · rename_i u hu
      rw [hu] at hqueue
      exact hqueue
    · rename_i u hu
      rw [hu] at hqueue
      have hdrops := u.drainDrops_pays
      split
      · rename_i v hv
        rw [hv] at hdrops
        exact hqueue.trans hdrops
      · rename_i v hv
        rw [hv] at hdrops
        exact (hqueue.trans hdrops).trans (v.drainOwed_pays _)
  simp only [State.drain]
  split
  · exact hsteps s
  · have htake : PlaceFrame s s.takeSlot.2 := s.searchSlots_placeFrame _
    split
    · rename_i u hu
      rw [hu] at htake
      exact htake.pays
    · rename_i u hu
      rw [hu] at htake
      exact htake.pays.trans (hsteps u)

/-! ### Commands while the device is not RUNNING -/

/-- An agenda of tasks that do nothing leaves the state as it is. -/
theorem State.settle_of_idle (n : Nat) (s : State)
    (h : ∀ k ∈ s.agenda, ∀ tasks m, ({ s with agenda := tasks, freeCount := m } : State).runTask k =
      { s with agenda := tasks, freeCount := m }) :
    ∃ tasks m, s.settle n = { s with agenda := tasks, freeCount := m } := by
  induction n generalizing s with
  | zero => exact ⟨s.agenda, s.freeCount, rfl⟩
  | succ n ih =>
    simp only [State.settle]
    split
    · exact ⟨s.agenda, s.freeCount, rfl⟩
    · rename_i k u hnext
      obtain ⟨hmem, -, m, rfl⟩ := State.nextTask_eq_some hnext
      rw [h k hmem]
      obtain ⟨tasks, m', hrest⟩ := ih { s with agenda := s.agenda.erase k, freeCount := m }
        fun k' hk' => h k' (List.mem_of_mem_erase hk')
      exact ⟨tasks, m', hrest⟩

/-- Outside RUNNING no task does anything (R24). -/
theorem State.runTask_of_not_running (k : Task) (h : s.dev ≠ .running) : s.runTask k = s := by
  unfold State.runTask
  exact if_neg h

theorem State.settled_of_not_running (h : s.dev ≠ .running) :
    ∃ m, s.settled = { s with agenda := [], freeCount := m } := by
  obtain ⟨tasks, m, hsettle⟩ := State.settle_of_idle settleBound s fun k _ tasks m =>
    State.runTask_of_not_running k h
  exact ⟨m, by rw [State.settled, hsettle]⟩

/-- No act changes the device state. -/
theorem Act.dev (h : Act s t) : t.dev = s.dev := by
  cases h with
  | agenda tasks n => rfl
  | entry a value hmove => cases hmove <;> rfl
  | move a hmove =>
    cases hmove with
    | record body _ => rw [(State.handRecord_frame body s).fields]
    | halts cause detail _ =>
      rw [State.releaseAxisClaims, State.releaseList_fields]
      rfl
    | _ => rfl

theorem Acts.dev (h : Acts s t) : t.dev = s.dev :=
  h.keeps (P := fun u => u.dev = s.dev) (fun _ _ hact hs => hact.dev.trans hs) rfl

/-! ### The laws -/

/-- The seventh law, the eighth law and the law of STOPPED. -/
structure OweLaws (s : State) : Prop where
  owe : OweLaw s
  stopped : StoppedLaw s

theorem OweLaws.of_report (h : OweLaws s) (howed : t.report.owed = s.report.owed)
    (hwait : t.report.waitList = s.report.waitList)
    (hdev : t.inInit = true ∨ t.dev = .stopped → s.inInit = true ∨ s.dev = .stopped) : OweLaws t :=
  ⟨h.owe.of_report howed hwait, fun ht => hwait.trans (h.stopped (hdev ht))⟩

theorem State.inInit_of_dev (h : t.dev = s.dev) : t.inInit = s.inInit := by
  simp only [State.inInit, h]

theorem OweLaws.of_placing (h : OweLaws s) (hframe : PlaceFrame s t) : OweLaws t := by
  have hdev : t.dev = s.dev := by rw [hframe.fields]
  refine h.of_report (by rw [hframe.fields]) (by rw [hframe.fields]) fun ht => ?_
  rwa [State.inInit_of_dev hdev, hdev] at ht

/-- In RUNNING the law of STOPPED says nothing. -/
theorem OweLaws.of_running (h : OweLaw s) (hdev : s.dev = .running) : OweLaws s :=
  ⟨h, fun ht => by simp [State.inInit_of_running hdev, hdev] at ht⟩

theorem OweLaw.act (h : OweLaw s) (hact : Act s t) : OweLaw t := by
  rcases hact.report with hreport | ⟨body, -, rfl⟩
  · exact h.of_report (by rw [hreport]) (by rw [hreport])
  · exact h.handRecord body

theorem OweLaw.acts (h : OweLaw s) (hacts : Acts s t) : OweLaw t :=
  hacts.keeps (P := OweLaw) (fun _ _ hact hs => hs.act hact) h

theorem OweLaws.settled (h : OweLaws s) : OweLaws s.settled := by
  by_cases hdev : s.dev = .running
  · exact .of_running (h.owe.acts (.settled s)) ((Acts.settled s).dev.trans hdev)
  · obtain ⟨m, hsettled⟩ := State.settled_of_not_running hdev
    rw [hsettled]
    exact h.of_report rfl rfl id

theorem State.enterStopped_dev (s : State) : s.enterStopped.dev = .stopped := by
  show (({ s with dev := .stopped } : State).closeIfRecords .stop s.timebase).dev = .stopped
  rw [(State.closeIfRecords_frame .stop s.timebase _).fields]

/-- The device stops once no axis owes any more. -/
theorem OweLaws.enterStopped (h : OweLaw s) (hwait : s.report.waitList = []) :
    OweLaws s.enterStopped := by
  have hframe := State.closeIfRecords_placeFrame .stop s.timebase { s with dev := .stopped }
  refine ⟨hframe.oweLaw h, fun _ => hframe.waitList.trans hwait⟩

theorem OweLaws.checkStopped (h : OweLaws s) : OweLaws s.checkStopped := by
  simp only [State.checkStopped]
  split
  · rename_i hstops
    exact .enterStopped h.owe hstops.2
  · exact h

theorem OweLaws.slotStateWrite (h : OweLaws s) (k : Slot) (v : Word) :
    OweLaws (s.slotStateWrite k v) := by
  simp only [State.slotStateWrite]
  split
  · exact h
  · split
    · exact h.of_report rfl rfl id
    · have hset (x : SlotState) : OweLaws ((s.write (slotStateWord k) v).setSlot k x) :=
        h.of_report rfl rfl id
      split
      · have hdrain (u : State) (hu : OweLaws u) : OweLaws u.drain := by
          have hpays := u.drain_pays
          refine ⟨hpays.oweLaw hu.owe, fun ht => ?_⟩
          have hdev : u.drain.dev = u.dev := by rw [u.drain_frame.fields]
          rw [State.inInit_of_dev hdev, hdev] at ht
          refine List.eq_nil_iff_forall_not_mem.mpr fun b hb => ?_
          have hold := hpays.waitList b hb
          rw [hu.stopped ht] at hold
          cases hold
        exact (hdrain _ (hset _)).checkStopped
      · exact hset _

theorem OweLaws.of_none (howed : t.report.owed = ReportUnit.reset.owed) (hwait : t.report.waitList = []) :
    OweLaws t := by
  have hof (c : Axis) : t.owedOf c = [] := by
    rw [State.owedOf, howed]
    revert c
    decide
  exact ⟨⟨fun c => by simp [hof], by simp [hwait], fun c => by simp [hwait, hof]⟩, fun _ => hwait⟩

theorem State.scanFilling_report (kept : Time) (s : State) :
    (s.scanFilling kept).report.owed = s.report.owed ∧
      (s.scanFilling kept).report.waitList = s.report.waitList := by
  simp only [State.scanFilling]
  split
  · exact ⟨rfl, rfl⟩
  · split
    · exact ⟨rfl, rfl⟩
    · rw [(s.closePage_placeFrame .reset kept).fields]
      exact ⟨rfl, rfl⟩

theorem OweLaws.stopSpan (h : OweLaws s) : OweLaws s.stopSpan := by
  have hacts := h.owe.acts (Acts.stopSpan s)
  rw [State.stopSpan_eq]
  refine OweLaws.of_report (s := if _ then _ else _) ?_ rfl rfl id
  split
  · rename_i hwait
    exact .enterStopped hacts hwait
  · exact ⟨hacts, fun ht => by simp [State.inInit] at ht⟩

theorem OweLaws.scan (h : OweLaws s) (kept : Time) (hinit : s.inInit = true) :
    OweLaws { s.scan kept with dev := .stopped, acause := AlertCause.resetDone.bit } := by
  obtain ⟨howed, hwait⟩ :=
    State.scanFilling_report kept { s.releaseList kept s.claims with claims := [] }
  refine h.of_report (howed.trans ?_) (hwait.trans ?_) fun _ => .inl hinit <;>
    rw [State.releaseList_fields]

theorem CommandEffect.oweLaws {w : Option Addr} {c : Instr} (h : CommandEffect w s c t)
    (hs : OweLaws s) : OweLaws t := by
  cases h with
  | registers c t hframe =>
    have hdev : t.dev = s.dev := by rw [hframe.frame]
    refine hs.of_report (by rw [hframe.frame]) (by rw [hframe.frame]) fun ht => ?_
    rwa [State.inInit_of_dev hdev, hdev] at ht
  | hardReset kind => exact .of_none rfl rfl
  | fillStarts c h => exact hs.of_report rfl rfl fun _ => .inl (by simp [State.inInit, h])
  | fillEnds h => exact hs.of_report rfl rfl fun _ => .inl (by simp [State.inInit, h])
  | softReset c _ =>
    have hreport : s.softReset.report = s.report.softReset := by
      simp only [State.softReset]
      rw [State.endTick_frame]
    exact .of_none (by rw [hreport]; rfl) (by rw [hreport]; rfl)
  | scanEnds c kept h => exact hs.scan kept (by simp [State.inInit, h])
  | spanStarts c setup raw h =>
    refine hs.of_report ?_ ?_ fun _ => .inr h <;>
    · rw [State.startSpan_eq, State.flushAll_frame, State.restartAging_frame, State.spanOpened_frame]
      rfl
  | spanStops c _ => exact hs.stopSpan
  | flushes c _ =>
    have hclose : OweLaws (s.closeIfRecords .flush s.timebase) :=
      hs.of_placing (s.closeIfRecords_placeFrame .flush s.timebase)
    exact hclose.of_report rfl rfl id
  | ages c =>
    have hclose : OweLaws (s.closeIfRecords .aged s.timebase) :=
      hs.of_placing (s.closeIfRecords_placeFrame .aged s.timebase)
    exact hclose.of_report rfl rfl id
  | slotWritten c k v _ _ => exact (hs.slotStateWrite k v).settled
  | ticks c raw =>
    have hdev : (s.tick raw).dev = s.dev := by rw [State.tick_frame]
    refine hs.of_report (by rw [State.tick_frame]) (by rw [State.tick_frame]) fun ht => ?_
    rwa [State.inInit_of_dev hdev, hdev] at ht
  | @works c v u as stored opened running =>
    have hstored : OweLaws v := hs.of_report (by cases stored <;> rfl) (by cases stored <;> rfl)
      (by cases stored <;> exact id)
    rcases running with hdev | rfl
    · have hacts := opened.acts
      refine OweLaws.settled (.of_running (hstored.owe.acts hacts) ?_)
      rw [hacts.dev, ← hdev]
      cases stored <;> rfl
    · exact hstored.settled
  | stores | rearms | steps | pulseEnds => exact hs.of_report rfl rfl id

/-- Settles O57: a record is owed with its axis on the wait list, a drain takes the axis off with its last
record, and the device stops only with an empty wait list. -/
theorem oweLawsKept : Obligations.OweLawsKept := fun _ t howe hstopped h =>
  have hlaws : OweLaws t :=
    step_keeps (P := OweLaws) (fun _ _ hs => hs.of_report rfl rfl id)
      (fun _ _ _ hexec => (exec_effect hexec).oweLaws) h ⟨howe, hstopped⟩
  ⟨hlaws.owe, hlaws.stopped⟩

end Sys2Proof.Machine
end

