-- ==== Sys2Proof/Proofs/Claims.lean ====
section
/-!
PROOF. The first law and the laws of pages and records (R8, R147): only an entry into a general page makes a
claim, contexts and FILLING slots stand on general pages, and every record that is kept has the length of a
record.
-/
namespace Sys2Proof.Machine

variable {a b : Axis} {s t u : State} {x y : AxisEngine}

/-! ### Claims -/

theorem Sparse.isSome_find?_of_mem {α : Type} {m : List (Nat × α)} {e : Nat × α} (h : e ∈ m) :
    (Sparse.find? m e.1).isSome = true := by
  induction m with
  | nil => cases h
  | cons f m ih =>
    simp only [Sparse.find?]
    split
    · rfl
    · rename_i hne
      rcases List.mem_cons.mp h with rfl | h
      · exact absurd rfl hne
      · exact ih h

theorem State.not_mem_of_not_claimed {p : Page} (h : s.claimed p = false) {e : Nat × Claimant}
    (he : e ∈ s.claims) : e.1 ≠ p.toNat := fun heq => by
  have hsome := Sparse.isSome_find?_of_mem he
  rw [heq] at hsome
  simp only [State.claimed] at h
  rw [h] at hsome
  cases hsome

theorem generalPage?_range {v : Word} {p : Page} (h : generalPage? v = some p) :
    3 ≤ p.toNat ∧ p.toNat ≤ 127 := by
  simp only [generalPage?] at h
  split at h
  · cases h
    simp only [BitVec.extractLsb'_toNat, Nat.shiftRight_zero]
    omega
  · cases h

theorem isGeneralPage_of_generalPage? {v : Word} {p : Page} (h : generalPage? v = some p) :
    isGeneralPage p = true := decide_eq_true (generalPage?_range h).1

theorem ClaimLaw.erase (h : ClaimLaw s) (k : Nat) (hclaims : t.claims = Sparse.erase s.claims k) :
    ClaimLaw t := by
  rw [ClaimLaw, hclaims]
  exact ⟨Sparse.rising_erase h.1 k, fun e he => h.2 e (Sparse.mem_erase he).1⟩

theorem ClaimLaw.of_claims (h : ClaimLaw s) (hclaims : t.claims = s.claims) : ClaimLaw t := by
  rw [ClaimLaw, hclaims]
  exact h

theorem ClaimLaw.of_nil (h : t.claims = []) : ClaimLaw t := by
  rw [ClaimLaw, h]
  exact ⟨rfl, fun e he => by cases he⟩

theorem ClaimLaw.releaseList (h : ClaimLaw s) (time : Time) (l : List (Nat × Claimant)) :
    ClaimLaw (s.releaseList time l) := by
  induction l generalizing s with
  | nil => exact h
  | cons e l ih => exact ih (h.erase (BitVec.ofNat 7 e.1).toNat rfl)

theorem ClaimLaw.act (h : ClaimLaw s) (hact : Act s t) : ClaimLaw t := by
  cases hact with
  | agenda tasks n => exact h
  | entry a value hmove =>
    cases hmove with
    | granted c p count r _ hp _ =>
      refine ⟨Sparse.rising_insert h.1 _ _, fun e he => ?_⟩
      rcases Sparse.mem_insert he with rfl | he
      · exact generalPage?_range hp
      · exact h.2 e he
    | starves c p st _ _ _ _ => exact h
  | move a hmove =>
    cases hmove with
    | record body _ => exact h.of_claims (by simp)
    | halts cause detail _ => exact h.releaseList s.timebase _
    | leaves c q _ _ => exact h.erase q.toNat rfl
    | starves c q x _ _ _ _ => exact h.erase q.toNat rfl
    | drops c x _ _ _ _ => exact h.erase c.pageOr0.toNat rfl
    | _ => exact h

theorem ClaimLaw.acts (h : ClaimLaw s) (hacts : Acts s t) : ClaimLaw t :=
  hacts.keeps (P := ClaimLaw) (fun _ _ hact hs => hs.act hact) h

theorem ServiceFrame.claims (h : ServiceFrame s t) : t.claims = s.claims := by rw [h.fields]

theorem HostStores.claims {w : Option Addr} (h : HostStores w s t) : t.claims = s.claims := by
  cases h <;> rfl

theorem State.scan_claims (kept : Time) (s : State) : (s.scan kept).claims = [] :=
  (ServiceFrame.scan kept s).claims

theorem State.softReset_claims (s : State) : s.softReset.claims = s.claims := by
  simp only [State.softReset]
  rw [State.endTick_frame]

theorem State.startSpan_claims (c : Setup) (raw : BitVec 16) (s : State) :
    (s.startSpan c raw).claims = s.claims := by
  rw [(ServiceFrame.startSpan c raw s).claims, State.spanOpened_frame]

theorem CommandEffect.claimLaw {w : Option Addr} {c : Instr} (h : CommandEffect w s c t)
    (hs : ClaimLaw s) : ClaimLaw t := by
  cases h with
  | registers c t hframe => exact hs.of_claims (by rw [hframe.frame])
  | hardReset kind => exact .of_nil rfl
  | softReset c _ => exact hs.of_claims s.softReset_claims
  | scanEnds c kept _ => exact .of_nil (s.scan_claims kept)
  | spanStarts c setup raw _ => exact hs.of_claims (s.startSpan_claims setup raw)
  | spanStops c _ =>
    exact (hs.acts (Acts.stopSpan s)).of_claims (ServiceFrame.stopSpan s).claims
  | flushes c _ => exact hs.of_claims (ServiceFrame.closeIfRecords .flush s.timebase s).claims
  | ages c => exact hs.of_claims (ServiceFrame.closeIfRecords .aged s.timebase s).claims
  | slotWritten c k v _ _ =>
    exact (hs.of_claims (ServiceFrame.slotStateWrite k v s).claims).acts (.settled _)
  | ticks c raw => exact hs.of_claims (by rw [State.tick_frame])
  | @works c v u as stored opened _ =>
    exact ((hs.of_claims stored.claims).acts opened.acts).acts (.settled u)
  | fillStarts | fillEnds | stores | rearms | steps | pulseEnds => exact hs

/-! ### Contexts on general pages -/

/-- Every context of an axis engine, running or saved. -/
def AxisEngine.contexts (x : AxisEngine) : List Context := x.ctx.toList ++ x.stack

theorem AxisEngine.mem_contexts (x : AxisEngine) (c : Context) :
    c ∈ x.contexts ↔ x.ctx = some c ∨ c ∈ x.stack := by
  simp [AxisEngine.contexts]

/-- A busy context on general pages stands on a page. -/
theorem Context.general_of_busy {c : Context} (h : c.pageGeneral = true) (hbusy : c.Busy) :
    ∃ q, c.page = some q ∧ isGeneralPage q = true := by
  cases hpage : c.page with
  | none =>
    simp only [Context.pageGeneral, hpage, Bool.and_eq_true, Option.isNone_iff_eq_none,
      beq_iff_eq] at h
    rcases hbusy with hphase | hfollowing
    · exact absurd h.2 hphase
    · exact absurd h.1 hfollowing
  | some q =>
    simp only [Context.pageGeneral, hpage] at h
    exact ⟨q, rfl, h⟩

theorem Context.pageGeneral_of_page {c : Context} {q : Page} (h : c.page = some q)
    (hq : isGeneralPage q = true) : c.pageGeneral = true := by
  simp only [Context.pageGeneral, h]
  exact hq

theorem Context.pageGeneral_fresh (l : Level) (head : Word) :
    (Context.fresh l head).pageGeneral = true := by
  cases hpage : generalPage? head with
  | none => simp [Context.pageGeneral, Context.fresh, hpage]
  | some q =>
    exact Context.pageGeneral_of_page (q := q) hpage (isGeneralPage_of_generalPage? hpage)

theorem Context.pageGeneral_flagReleased {c : Context} (j : Point) (g : Word)
    (h : c.pageGeneral = true) : (c.flagReleased j g).pageGeneral = true := by
  simp only [Context.flagReleased]
  split
  · rename_i hphase
    split
    · obtain ⟨q, hq, hgeneral⟩ := c.general_of_busy h (Context.busy_of_inSegment hphase)
      exact Context.pageGeneral_of_page (q := q) hq hgeneral
    · exact h
  · exact h

/-! ### What holds of every context -/

/-- What chain work keeps of `Q` at one context, an entry apart. -/
structure ContextRule (Q : Context → Prop) : Prop where
  works : ∀ c d, Q c → c.SamePlace d → Q d
  fresh : ∀ l head, Q (Context.fresh l head)
  base : Q Context.idleBaseContext
  starve : ∀ c q, Q c → c.page = some q → Q (c.starve (.link q))
  released : ∀ c j g, Q c → Q (c.flagReleased j g)

/-- `Q` holds of every context of an axis engine. -/
def AxisEngine.All (Q : Context → Prop) (x : AxisEngine) : Prop := ∀ c ∈ x.contexts, Q c

section All

variable {Q : Context → Prop}

namespace AxisEngine.All

theorem of_fields (h : x.All Q) (hctx : y.ctx = x.ctx) (hstack : y.stack = x.stack) : y.All Q := by
  rw [All, contexts, hctx, hstack]
  exact h

theorem of_ctx (h : x.All Q) {c : Context} (hctx : y.ctx = some c) (hc : Q c)
    (hstack : y.stack = x.stack) : y.All Q := fun d hd => by
  rw [mem_contexts, hctx, hstack] at hd
  rcases hd with hd | hd
  · cases hd
    exact hc
  · exact h d ((mem_contexts x d).mpr (.inr hd))

theorem of_none (hctx : x.ctx = none) (hstack : x.stack = []) : x.All Q := fun d hd => by
  rw [mem_contexts, hctx, hstack] at hd
  rcases hd with hd | hd <;> cases hd

theorem ctx (h : x.All Q) {c : Context} (hc : x.ctx = some c) : Q c :=
  h c ((mem_contexts x c).mpr (.inl hc))

theorem of_work (hQ : ContextRule Q) (h : x.All Q) (hwork : ContextsWork x y) : y.All Q := by
  cases hwork with
  | keeps hctx hstack _ _ => exact h.of_fields hctx hstack
  | works c d hx hy place _ hstack _ _ => exact h.of_ctx hy (hQ.works c d (h.ctx hx) place) hstack
  | takes l r _ _ hctx hstack _ _ =>
    intro d hd
    rw [mem_contexts, hctx, hstack] at hd
    rcases hd with hd | hd
    · cases hd
      exact hQ.fresh l r.head
    · rcases List.mem_cons.mp hd with rfl | hd
      · cases hx : x.ctx with
        | none => exact hQ.base
        | some c => exact h.ctx hx
      · exact h d ((mem_contexts x d).mpr (.inr hd))
  | asks l r _ hctx hstack _ _ => exact h.of_fields hctx hstack
  | idles c _ _ hy hstack _ _ =>
    intro d hd
    rw [mem_contexts, hy, hstack] at hd
    exact h d ((mem_contexts x d).mpr (.inr (hd.resolve_left (by simp))))
  | starts head _ hctx hstack _ _ => exact h.of_ctx hctx (hQ.fresh 0 head) hstack
  | clears _ hctx hstack _ _ => exact h.of_fields hctx hstack

theorem drops (h : x.All Q) (hwork : DropsContext x y) : y.All Q := fun d hd => by
  rw [mem_contexts, hwork.ctx, hwork.stack] at hd
  refine h d ((mem_contexts x d).mpr (.inr ?_))
  exact hd.elim List.mem_of_mem_head? List.mem_of_mem_tail

theorem released (hQ : ContextRule Q) (h : x.All Q) (j : Point) (g : Word) :
    ({ x with
      ctx := x.ctx.map (Context.flagReleased j g)
      stack := x.stack.map (Context.flagReleased j g) } : AxisEngine).All Q := fun d hd => by
  rw [mem_contexts] at hd
  have hold : ∃ c ∈ x.contexts, c.flagReleased j g = d := by
    rcases hd with hd | hd
    · obtain ⟨c, hc, rfl⟩ := Option.map_eq_some_iff.mp hd
      exact ⟨c, (mem_contexts x c).mpr (.inl hc), rfl⟩
    · obtain ⟨c, hc, rfl⟩ := List.mem_map.mp hd
      exact ⟨c, (mem_contexts x c).mpr (.inr hc), rfl⟩
  obtain ⟨c, hc, rfl⟩ := hold
  exact hQ.released c j g (h c hc)

theorem resetKeepingPulse (x : AxisEngine) : x.resetKeepingPulse.All Q := by
  simp only [AxisEngine.resetKeepingPulse]
  split <;> exact .of_none rfl rfl

theorem softReset (x : AxisEngine) : x.softReset.All Q := (resetKeepingPulse x).of_fields rfl rfl

theorem hardReset (kind : ResetKind) (x : AxisEngine) : (x.hardReset kind).All Q := by
  cases kind with
  | pin => exact .resetKeepingPulse x
  | powerOn => exact .of_none rfl rfl

theorem atRunStart (enabled : Bool) (now : Nat) (x : AxisEngine) :
    (x.atRunStart enabled now).All Q := by
  simp only [AxisEngine.atRunStart, AxisEngine.zeroDirAtRunStart]
  split <;> exact .of_none rfl rfl

theorem rewritten (h : x.All Q) (hy : Rewritten x y) : y.All Q := by
  rw [hy.fields]
  exact h.of_fields rfl rfl

end AxisEngine.All

/-- `Q` holds of every context of every axis. -/
def AllContexts (Q : Context → Prop) (s : State) : Prop := ∀ a, (s.ax a).All Q

namespace AllContexts

theorem of_axes (h : AllContexts Q s) (haxes : t.axes = s.axes) : AllContexts Q t := fun a => by
  rw [State.ax_of_axes haxes]
  exact h a

theorem touched (h : AllContexts Q s) (htouched : AxesTouched s t) : AllContexts Q t := fun a => by
  rcases htouched a with ha | ha <;> rw [ha]
  · exact h a
  · exact (h a).of_fields rfl rfl

theorem setAx (h : AllContexts Q s) (hx : x.All Q) : AllContexts Q (s.setAx a x) := fun b => by
  rw [State.ax_setAx]
  split
  · exact hx
  · exact h b

theorem move (hQ : ContextRule Q) (h : AllContexts Q s) (hmove : Move a s t) : AllContexts Q t := by
  cases hmove with
  | record body hlen => exact h.touched (State.handRecord_frame body s).axes
  | engine x _ contexts => exact h.setAx ((h a).of_work hQ contexts)
  | released b j g => exact h.setAx ((h b).released hQ j g)
  | halts cause detail _ =>
    exact (h.of_axes (State.releaseAxisClaims_axes a s)).setAx (.of_none rfl rfl)
  | starves c q x hc hq _ contexts =>
    have hx : x.All Q := (h a).of_ctx contexts.ctx (hQ.starve c q ((h a).ctx hc) hq) contexts.stack
    exact AllContexts.setAx (s := s.releasePage q _ _) h hx
  | drops c x _ _ _ contexts =>
    exact AllContexts.setAx (s := s.releasePage c.pageOr0 _ _) h ((h a).drops contexts)
  | cause | event | joinEntry | line | mirror | point | leaves => exact h

theorem hardReset (kind : ResetKind) (s : State) : AllContexts Q (s.hardReset kind) := fun a => by
  rw [State.hardReset_ax]
  exact .hardReset kind _

theorem softReset (s : State) : AllContexts Q s.softReset := fun a => by
  rw [State.softReset_ax]
  exact .softReset _

theorem startSpan (c : Setup) (raw : BitVec 16) (s : State) : AllContexts Q (s.startSpan c raw) :=
  fun a => (AxisEngine.All.atRunStart _ _ _).rewritten (s.startSpan_rewritten c raw a)

theorem tick (hQ : ContextRule Q) (h : AllContexts Q s) (raw : BitVec 16) :
    AllContexts Q (s.tick raw) := fun a => by
  have hend := (h a).rewritten (s.endTick_rewritten a)
  rcases s.tick_ax raw a with ha | ha <;> rw [ha]
  · exact hend
  · exact hend.of_work hQ (AxisEngine.countDown_contexts _)

theorem startStep (hQ : ContextRule Q) (h : AllContexts Q s) (a : Axis) :
    AllContexts Q (s.setAx a ((s.ax a).startStep s.now)) :=
  h.setAx ((h a).of_work hQ (AxisEngine.startStep_contexts _ _))

theorem endPulse (hQ : ContextRule Q) (h : AllContexts Q s) (a : Axis) :
    AllContexts Q (s.setAx a ((s.ax a).endPulse s.dirlead s.now)) :=
  h.setAx ((h a).of_work hQ (AxisEngine.endPulse_contexts _ _ _))

end AllContexts

end All

/-- Chain work keeps contexts on general pages. -/
theorem pageGeneral_rule : ContextRule fun c => c.pageGeneral = true where
  works c d h place := by
    obtain ⟨q, hq, hgeneral⟩ := c.general_of_busy h place.busy
    exact Context.pageGeneral_of_page (place.page.trans hq) hgeneral
  fresh := Context.pageGeneral_fresh
  base := rfl
  starve c q h hq := by
    simp only [Context.pageGeneral, hq] at h
    exact Context.pageGeneral_of_page (q := q) hq h
  released _ j g h := Context.pageGeneral_flagReleased j g h

/-! ### The law of pages -/

/-- The law of pages, apart from the claims. -/
structure PageLaws (s : State) : Prop where
  contexts : AllContexts (fun c => c.pageGeneral = true) s
  slots : SlotsGeneral s
  claims : ∀ e ∈ s.claims, 3 ≤ e.1 ∧ e.1 ≤ 127
  records : RecordLaw s

theorem pageLaws_iff (s : State) : PageLaws s ↔ PageLaw s ∧ RecordLaw s :=
  ⟨fun h => ⟨⟨h.claims, h.contexts, h.slots⟩, h.records⟩, fun h => ⟨h.1.2.1, h.1.2.2, h.1.1, h.2⟩⟩

theorem SlotsGeneral.of_slots (h : SlotsGeneral s) (hslots : t.report.slots = s.report.slots) :
    SlotsGeneral t := fun k => by
  rw [State.slot, hslots]
  exact h k

theorem RecordLaw.of_report (h : RecordLaw s) (hqueue : t.report.queue = s.report.queue)
    (howed : t.report.owed = s.report.owed) : RecordLaw t := by
  refine ⟨by rw [hqueue]; exact h.1, fun c r hr => h.2 c r ?_⟩
  rw [State.owedOf, howed] at hr
  exact hr

theorem RecordLaw.of_pays (h : RecordLaw s) (hpays : Pays s t) : RecordLaw t :=
  ⟨fun r hr => h.1 r (hpays.queue r hr), fun c r hr => h.2 c r (hpays.owed c r hr)⟩

theorem RecordLaw.oweRecord (h : RecordLaw s) (b : Axis) {rec : Record} (hrec : rec.length ≤ 23) :
    RecordLaw (s.oweRecord b rec) := by
  have hstore (rs : List Record) (hrs : ∀ r ∈ rs, r.length ≤ 23) (t : State)
      (howed : t.report.owed = s.report.owed.set b rs) (hqueue : t.report.queue = s.report.queue) :
      RecordLaw t := by
    refine ⟨by rw [hqueue]; exact h.1, fun c r hr => ?_⟩
    rw [State.owedOf, howed, State.owedOf_set] at hr
    split at hr
    · exact hrs r hr
    · exact h.2 c r hr
  simp only [State.oweRecord]
  split
  · refine hstore ((s.owedOf b).dropLast ++ [rec]) (fun r hr => ?_) _ rfl rfl
    rcases List.mem_append.mp hr with hr | hr
    · exact h.2 b r (List.mem_of_mem_dropLast hr)
    · exact List.mem_singleton.mp hr ▸ hrec
  · split
    · exact hstore [rec] (fun r hr => List.mem_singleton.mp hr ▸ hrec) _ rfl rfl
    · refine hstore (s.owedOf b ++ [rec]) (fun r hr => ?_) _ rfl rfl
      rcases List.mem_append.mp hr with hr | hr
      · exact h.2 b r hr
      · exact List.mem_singleton.mp hr ▸ hrec

theorem Shortage.recordLaw {rec : Record} (h : Shortage rec s t) (hrec : rec.length ≤ 23)
    (hs : RecordLaw s) : RecordLaw t := by
  have hcause : RecordLaw (s.setCause .roomExhausted) := hs
  cases h with
  | holds _ =>
    refine ⟨fun r hr => ?_, hs.2⟩
    rcases List.mem_append.mp hr with hr | hr
    · exact hs.1 r hr
    · exact List.mem_singleton.mp hr ▸ hrec
  | owes b _ => exact hcause.oweRecord b hrec
  | drops => exact hcause

theorem Shortage.slots {rec : Record} (h : Shortage rec s t) :
    t.report.slots = s.report.slots := h.pool.1

/-- A record handed over is placed, or finds no room. -/
theorem State.handRecord_placed (body : RecordBody) (s : State) :
    PlaceFrame s (s.handRecord body) ∨
      ∃ u, PlaceFrame s u ∧ Shortage { time := s.timebase, body := body } u (s.handRecord body) := by
  have hplace := s.tryPlace_placeFrame { time := s.timebase, body := body }
  simp only [State.handRecord]
  split
  · rename_i u hu
    rw [hu] at hplace
    exact .inl hplace
  · rename_i u hu
    rw [hu] at hplace
    exact .inr ⟨u, hplace, u.noRoom_shortage _⟩

theorem PageLaws.of_axes (h : PageLaws s) (haxes : AllContexts (fun c => c.pageGeneral = true) t)
    (hclaims : ∀ e ∈ t.claims, e ∈ s.claims) (hreport : t.report = s.report) : PageLaws t where
  contexts := haxes
  slots := h.slots.of_slots (by rw [hreport])
  claims e he := h.claims e (hclaims e he)
  records := h.records.of_report (by rw [hreport]) (by rw [hreport])

theorem PageLaws.handRecord (h : PageLaws s) (body : RecordBody) (hlen : body.words.length ≤ 18) :
    PageLaws (s.handRecord body) := by
  have hrec : ({ time := s.timebase, body := body } : Record).length ≤ 23 := by
    show 5 + body.words.length ≤ 23
    omega
  refine ⟨h.contexts.touched (State.handRecord_frame body s).axes, ?_, ?_, ?_⟩
  · rcases State.handRecord_placed body s with hplaced | ⟨u, hplaced, hshort⟩
    · exact hplaced.general h.slots
    · exact (hplaced.general h.slots).of_slots hshort.slots
  · rw [State.handRecord_claims]
    exact h.claims
  · rcases State.handRecord_placed body s with hplaced | ⟨u, hplaced, hshort⟩
    · exact h.records.of_pays hplaced.pays
    · exact hshort.recordLaw hrec (h.records.of_pays hplaced.pays)

theorem PageLaws.move (h : PageLaws s) (hmove : Move a s t) : PageLaws t := by
  have hcontexts := h.contexts.move pageGeneral_rule hmove
  have herase (k : Nat) : ∀ e ∈ Sparse.erase s.claims k, e ∈ s.claims :=
    fun _ he => (Sparse.mem_erase he).1
  cases hmove with
  | record body hlen => exact h.handRecord body hlen
  | halts cause detail _ =>
    refine h.of_axes hcontexts (fun e => State.releaseAxisClaims_claims_subset a s e) ?_
    rw [State.releaseAxisClaims, State.releaseList_fields]
    rfl
  | leaves c q _ _ => exact h.of_axes hcontexts (herase q.toNat) rfl
  | starves c q x _ _ _ _ => exact h.of_axes hcontexts (herase q.toNat) rfl
  | drops c x _ _ _ _ => exact h.of_axes hcontexts (herase c.pageOr0.toNat) rfl
  | _ => exact h.of_axes hcontexts (fun _ => id) rfl

theorem PageLaws.entryMove {value : Word} (h : PageLaws s) (hmove : EntryMove a value s t) :
    PageLaws t := by
  cases hmove with
  | granted c p count r hc hp _ =>
    have hgeneral := isGeneralPage_of_generalPage? hp
    refine ⟨?_, h.slots, fun e he => ?_, h.records⟩
    · refine AllContexts.setAx
        (s := ({ s with claims := Sparse.insert s.claims p.toNat { axis := a, level := c.level } } :
          State).write (pageWord p 1) 2) h.contexts ?_
      exact (h.contexts a).of_ctx rfl (Context.pageGeneral_of_page (q := p) rfl hgeneral) rfl
    · rcases Sparse.mem_insert he with rfl | he
      · exact generalPage?_range hp
      · exact h.claims e he
  | starves c p st hc hp _ _ =>
    refine h.of_axes (.setAx h.contexts ?_) (fun _ => id) rfl
    exact (h.contexts a).of_ctx rfl
      (Context.pageGeneral_of_page (q := p) rfl (isGeneralPage_of_generalPage? hp)) rfl

theorem PageLaws.act (h : PageLaws s) (hact : Act s t) : PageLaws t := by
  cases hact with
  | move a hmove => exact h.move hmove
  | entry a value hmove => exact h.entryMove hmove
  | agenda tasks n => exact h.of_axes h.contexts (fun _ => id) rfl

theorem PageLaws.acts (h : PageLaws s) (hacts : Acts s t) : PageLaws t :=
  hacts.keeps (P := PageLaws) (fun _ _ hact hs => hs.act hact) h

/-- What a command to the report unit keeps of the law of pages. -/
theorem PageLaws.of_pays (h : PageLaws s) (htouched : AxesTouched s t) (hclaims : t.claims = s.claims)
    (hpays : Pays s t) : PageLaws t where
  contexts := h.contexts.touched htouched
  slots := hpays.general h.slots
  claims := by rw [hclaims]; exact h.claims
  records := h.records.of_pays hpays

theorem PageLaws.closeIfRecords (h : PageLaws s) (reason : CloseReason) (time : Time) :
    PageLaws (s.closeIfRecords reason time) :=
  h.of_pays (.closeIfRecords reason time s) (ServiceFrame.closeIfRecords reason time s).claims
    (s.closeIfRecords_placeFrame reason time).pays

theorem PageLaws.enterStopped (h : PageLaws s) : PageLaws s.enterStopped := by
  have hdev : PageLaws { s with dev := .stopped } := h.of_axes h.contexts (fun _ => id) rfl
  have hclose := hdev.closeIfRecords .stop s.timebase
  exact hclose.of_axes hclose.contexts (fun _ => id) rfl

theorem SlotState.hostWritten_pageGeneral (old : SlotState) (v : Word) :
    (old.hostWritten v).pageGeneral = true := by
  simp only [SlotState.hostWritten]
  split
  · rfl
  · split <;> rfl
  · rfl
  · rfl

theorem PageLaws.slotStateWrite (h : PageLaws s) (k : Slot) (v : Word) :
    PageLaws (s.slotStateWrite k v) := by
  have hset (x : SlotState) (hx : x.pageGeneral = true) :
      PageLaws ((s.write (slotStateWord k) v).setSlot k x) :=
    ⟨h.contexts, h.slots.of_slot hx fun j => State.slot_setSlot k j x s, h.claims, h.records⟩
  have hdrain (u : State) (hu : PageLaws u) : PageLaws u.drain :=
    hu.of_pays (.drain u) (by rw [u.drain_frame.fields]) u.drain_pays
  have hcheck (u : State) (hu : PageLaws u) : PageLaws u.checkStopped := by
    simp only [State.checkStopped]
    split
    · exact hu.enterStopped
    · exact hu
  simp only [State.slotStateWrite]
  split
  · exact h
  · split
    · exact h.of_axes h.contexts (fun _ => id) rfl
    · have hwritten := hset _
        (SlotState.hostWritten_pageGeneral ((s.write (slotStateWord k) v).slot k) v)
      split
      · exact hcheck _ (hdrain _ hwritten)
      · exact hwritten

theorem PageLaws.scanFilling (h : PageLaws s) (kept : Time) : PageLaws (s.scanFilling kept) := by
  simp only [State.scanFilling]
  split
  · exact h
  · split
    · exact ⟨h.contexts, h.slots.of_slot rfl fun j => State.slot_writeSlot _ j _ s, h.claims, h.records⟩
    · exact h.of_pays (State.closePage_frame .reset kept s).axes
        (State.closePage_frame .reset kept s).service.claims (s.closePage_placeFrame .reset kept).pays

theorem PageLaws.of_emptied (h : PageLaws s) (haxes : AllContexts (fun c => c.pageGeneral = true) t)
    (hclaims : ∀ e ∈ t.claims, e ∈ s.claims) (hslots : t.report.slots = s.report.slots)
    (hqueue : t.report.queue = []) (howed : ∀ b, t.owedOf b = []) : PageLaws t where
  contexts := haxes
  slots := h.slots.of_slots hslots
  claims e he := h.claims e (hclaims e he)
  records := ⟨by simp [hqueue], fun b => by simp [howed]⟩

theorem State.owedOf_of_reset (h : t.report.owed = ReportUnit.reset.owed) (b : Axis) :
    t.owedOf b = [] := by
  rw [State.owedOf, h]
  revert b
  decide

theorem PageLaws.hardReset (kind : ResetKind) (s : State) : PageLaws (s.hardReset kind) := by
  refine ⟨.hardReset kind s, fun k => ?_, fun e he => (by cases he), ?_⟩
  · have hslot : (s.hardReset kind).slot k = .unused := by
      show ReportUnit.reset.slots[k] = .unused
      revert k
      decide
    rw [hslot]
    rfl
  · refine ⟨fun r hr => (by cases hr), fun b r hr => ?_⟩
    rw [State.owedOf_of_reset (t := s.hardReset kind) rfl b] at hr
    cases hr

theorem PageLaws.softReset (h : PageLaws s) : PageLaws s.softReset := by
  have hreport : s.softReset.report = s.report.softReset := by
    simp only [State.softReset]
    rw [State.endTick_frame]
  refine h.of_emptied (.softReset s) ?_ ?_ ?_ ?_
  · rw [State.softReset_claims]
    exact fun _ => id
  · rw [hreport]; rfl
  · rw [hreport]; rfl
  · exact State.owedOf_of_reset (by rw [hreport]; rfl)

theorem PageLaws.startSpan (h : PageLaws s) (c : Setup) (raw : BitVec 16) :
    PageLaws (s.startSpan c raw) := by
  have hreport : (s.startSpan c raw).report.slots = s.report.slots ∧
      (s.startSpan c raw).report.queue = s.report.queue ∧
      (s.startSpan c raw).report.owed = s.report.owed := by
    rw [State.startSpan_eq, State.flushAll_frame, State.restartAging_frame, State.spanOpened_frame]
    exact ⟨rfl, rfl, rfl⟩
  obtain ⟨hslots, hqueue, howed⟩ := hreport
  refine ⟨.startSpan c raw s, h.slots.of_slots hslots, ?_, h.records.of_report hqueue howed⟩
  rw [State.startSpan_claims]
  exact h.claims

theorem PageLaws.tick (h : PageLaws s) (raw : BitVec 16) : PageLaws (s.tick raw) := by
  refine h.of_axes (h.contexts.tick pageGeneral_rule raw) (fun e he => ?_) (by rw [State.tick_frame])
  rw [State.tick_frame] at he
  exact he

theorem PageLaws.scan (h : PageLaws s) (kept : Time) : PageLaws (s.scan kept) := by
  have hclaims : PageLaws { s.releaseList kept s.claims with claims := [] } := by
    refine h.of_axes (h.contexts.of_axes ?_) (fun e he => by cases he) ?_ <;>
      rw [State.releaseList_fields]
  have hfilling := hclaims.scanFilling kept
  exact ⟨hfilling.contexts, hfilling.slots, hfilling.claims, hfilling.records⟩

theorem CommandEffect.pageLaws {w : Option Addr} {c : Instr} (h : CommandEffect w s c t)
    (hs : PageLaws s) : PageLaws t := by
  have hsame (t : State) (hframe : t = { s with ram := t.ram, points := t.points, dev := t.dev, acause := t.acause }) :
      PageLaws t := by
    rw [hframe]
    exact hs.of_axes hs.contexts (fun _ => id) rfl
  cases h with
  | registers c t hframe =>
    refine hs.of_axes (hs.contexts.of_axes (by rw [hframe.frame])) (fun e he => ?_)
      (by rw [hframe.frame])
    rw [hframe.frame] at he
    exact he
  | hardReset kind => exact .hardReset kind s
  | softReset c _ => exact hs.softReset
  | scanEnds c kept _ =>
    have hscan := hs.scan kept
    exact hscan.of_axes hscan.contexts (fun _ => id) rfl
  | spanStarts c setup raw _ => exact hs.startSpan setup raw
  | spanStops c _ =>
    have hacts := hs.acts (Acts.stopSpan s)
    have hends : PageLaws (if s.haltsActive.settled.report.waitList = [] then
        s.haltsActive.settled.enterStopped else { s.haltsActive.settled with dev := .stopping }) := by
      split
      · exact hacts.enterStopped
      · exact hacts.of_axes hacts.contexts (fun _ => id) rfl
    rw [State.stopSpan_eq]
    exact hends.of_axes hends.contexts (fun _ => id) rfl
  | flushes c _ =>
    have hclose := hs.closeIfRecords .flush s.timebase
    exact hclose.of_axes hclose.contexts (fun _ => id) rfl
  | ages c =>
    have hclose := hs.closeIfRecords .aged s.timebase
    exact ⟨hclose.contexts, hclose.slots, hclose.claims, hclose.records⟩
  | slotWritten c k v _ _ => exact (hs.slotStateWrite k v).acts (.settled _)
  | steps a _ =>
    exact hs.of_axes (hs.contexts.startStep pageGeneral_rule a) (fun _ => id) rfl
  | pulseEnds c a _ =>
    exact hs.of_axes (hs.contexts.endPulse pageGeneral_rule a) (fun _ => id) rfl
  | ticks c raw => exact hs.tick raw
  | @works c v u as stored opened _ =>
    have hstored : PageLaws v := by
      refine hs.of_axes (hs.contexts.of_axes stored.axes) (fun e he => ?_) (by cases stored <;> rfl)
      rw [stored.claims] at he
      exact he
    exact (hstored.acts opened.acts).acts (.settled u)
  | fillStarts | fillEnds | stores | rearms => exact hsame _ rfl

end Sys2Proof.Machine
end

