-- ==== Sys2Proof/Proofs/Holders.lean ====
section
/-!
PROOF. Every claim belongs to a context that stands on its page (R8, R9, R93): a context leaves a page only
with the release of its claim, and enters one only where it holds no other.
-/
namespace Sys2Proof.Machine

variable {a b : Axis} {s t u : State} {x y : AxisEngine}

/-! ### Idle bases (R103) -/

/-- An idle base is the context that a push on an IDLE axis saves. -/
def Context.IdleBaseRule (c : Context) : Prop := c.idleBase = true → c = Context.idleBaseContext

theorem Context.idleBaseRule : ContextRule Context.IdleBaseRule where
  works c d h place hd := by
    have hc := h (place.idleBase ▸ hd)
    have hbusy := place.busy
    rw [hc] at hbusy
    rcases hbusy with hphase | hfollowing
    · exact absurd rfl hphase
    · exact absurd rfl hfollowing
  fresh l head h := by cases h
  base _ := rfl
  starve c q h hq hidle := by
    rw [h (c.starve_idleBase (.link q) ▸ hidle)] at hq
    cases hq
  released c j g h hidle := by
    obtain ⟨-, hbase, -, -⟩ := c.flagReleased_fields j g
    rw [h (hbase ▸ hidle)]
    rfl

/-- A ready context that enters a page is no idle base. -/
theorem Context.not_idleBase_of_ready {c : Context} {value : Word} (h : c.IdleBaseRule)
    (hready : Ready a value s) (hc : (s.ax a).ctx = some c) : ¬ c.idleBase = true := fun hidle =>
  (hready c hc).1 (h hidle)

theorem AllContexts.idleBase_entry {value : Word} (h : AllContexts Context.IdleBaseRule s)
    (hmove : EntryMove a value s t) (hready : Ready a value s) :
    AllContexts Context.IdleBaseRule t := by
  cases hmove with
  | granted c p count r hc _ _ =>
    have hnot := Context.not_idleBase_of_ready ((h a).ctx hc) hready hc
    exact AllContexts.setAx
      (s := ({ s with claims := Sparse.insert s.claims p.toNat { axis := a, level := c.level } } :
        State).write (pageWord p 1) 2) h
      ((h a).of_ctx rfl (fun hidle => absurd hidle hnot) rfl)
  | starves c p st hc _ _ _ =>
    have hnot := Context.not_idleBase_of_ready ((h a).ctx hc) hready hc
    exact h.setAx ((h a).of_ctx rfl (fun hidle => absurd hidle hnot) rfl)

theorem AllContexts.idleBase_kept : KeptByWork (AllContexts Context.IdleBaseRule) where
  move _ _ _ hmove h := h.move Context.idleBaseRule hmove
  entry _ _ _ _ hmove hready h := h.idleBase_entry hmove hready
  agenda _ _ _ h := h

/-! ### Agendas of events -/

/-- An agenda of events alone. -/
def EventsOnly (s : State) : Prop := ∀ k ∈ s.agenda, k.movesChain = false

theorem EventsOnly.agendaLaw (h : EventsOnly s) : AgendaLaw s where
  one b := by
    have hnone : s.steps b = [] := List.filter_eq_nil_iff.mpr fun k hk hmove => by
      simp [Task.movesAt, h k hk] at hmove
    simp [hnone]
  ready b value header boundary hmem := by
    have hevent := h _ hmem
    cases hevent

theorem Pays.eventsOnly (h : Pays s t) (hs : EventsOnly s) : EventsOnly t := fun k hk => by
  rcases h.agenda k hk with hold | ⟨b, rfl⟩
  · exact hs k hold
  · rfl

theorem EventsOnly.of_quiet (h : Quiet s) : EventsOnly s := fun k hk => by
  rw [h] at hk
  cases hk

theorem EventsOnly.of_agenda (h : EventsOnly s) (hagenda : t.agenda = s.agenda) : EventsOnly t := by
  rw [EventsOnly, hagenda]
  exact h

theorem EventsOnly.slotStateWrite (h : EventsOnly s) (k : Slot) (v : Word) :
    EventsOnly (s.slotStateWrite k v) := by
  have hcheck (u : State) (hu : EventsOnly u) : EventsOnly u.checkStopped := by
    simp only [State.checkStopped]
    split
    · have hframe := State.closeIfRecords_placeFrame .stop u.timebase { u with dev := .stopped }
      exact hu.of_agenda hframe.agenda
    · exact hu
  simp only [State.slotStateWrite]
  split
  · exact h
  · split
    · exact h
    · split
      · exact hcheck _ ((State.drain_pays _).eventsOnly h)
      · exact h

/-- A move puts events on the agenda, and nothing else. -/
theorem Move.eventsOnly (hmove : Move a s t) (h : EventsOnly s) : EventsOnly t := by
  cases hmove with
  | event k hk =>
    intro k' hk'
    rcases List.mem_append.mp hk' with hold | hnew
    · exact h k' hold
    · exact List.mem_singleton.mp hnew ▸ hk
  | record body _ => exact h.of_agenda (by simp)
  | halts cause detail _ =>
    refine h.of_agenda ?_
    rw [State.releaseAxisClaims, State.releaseList_fields]
    rfl
  | _ => exact h

theorem State.haltsActive_keeps {P : State → Prop} (hmove : ∀ a s t, Move a s t → P s → P t)
    (hfree : ∀ (s : State) (n : Nat), P s → P { s with freeCount := n }) (h : P s) :
    P s.haltsActive :=
  State.inFreeOrder_keeps _ (fun a u hu => (Moves.halt (a := a) .runStopped 0 u).keeps (hmove a) hu)
    hfree _ _ h

theorem State.haltsActive_eventsOnly (h : EventsOnly s) : EventsOnly s.haltsActive :=
  State.haltsActive_keeps (fun _ _ _ hmove => hmove.eventsOnly) (fun _ _ h => h) h

/-- What work keeps, RUN_STOP keeps up to the end of its breaks. -/
theorem KeptByWork.stopSpan {P : State → Prop} (hP : KeptByWork P) (hq : Quiet s) (hs : P s) :
    P s.haltsActive.settled :=
  hP.settled (State.haltsActive_eventsOnly (.of_quiet hq)).agendaLaw
    (State.haltsActive_keeps hP.move (fun u n hu => hP.agenda u u.agenda n hu) hs)

/-- What work keeps, the work of a command keeps. -/
theorem KeptByWork.works {P : State → Prop} (hP : KeptByWork P) {as : List Axis}
    (opened : Opens s as t) (hq : Quiet s) (hs : P s) : P t.settled := by
  obtain ⟨ht, hlaw, -⟩ := hP.opens opened hq hs
  exact hP.settled hlaw ht

theorem HostStores.quiet {w : Option Addr} (h : HostStores w s t) (hq : Quiet s) : Quiet t := by
  cases h <;> exact hq

theorem CommandEffect.idleBase {w : Option Addr} {c : Instr} (h : CommandEffect w s c t)
    (hq : Quiet s) (hs : AllContexts Context.IdleBaseRule s) :
    AllContexts Context.IdleBaseRule t := by
  cases h with
  | registers c t hframe => exact hs.of_axes (by rw [hframe.frame])
  | hardReset kind => exact .hardReset kind s
  | softReset c _ => exact .softReset s
  | scanEnds c kept _ => exact hs.touched (.scan kept s)
  | spanStarts c setup raw _ => exact .startSpan setup raw s
  | spanStops c _ => exact (AllContexts.idleBase_kept.stopSpan hq hs).touched (.stopSpan s)
  | flushes c _ => exact hs.touched (AxesTouched.closeIfRecords .flush s.timebase s)
  | ages c => exact hs.touched (AxesTouched.closeIfRecords .aged s.timebase s)
  | slotWritten c k v _ _ =>
    exact AllContexts.idleBase_kept.settled ((EventsOnly.of_quiet hq).slotStateWrite k v).agendaLaw
      (hs.touched (.slotStateWrite k v s))
  | steps a _ => exact hs.startStep Context.idleBaseRule a
  | pulseEnds c a _ => exact hs.endPulse Context.idleBaseRule a
  | ticks c raw => exact hs.tick Context.idleBaseRule raw
  | @works c v u as stored opened _ =>
    exact AllContexts.idleBase_kept.works opened (stored.quiet hq) (hs.of_axes stored.axes)
  | fillStarts | fillEnds | stores | rearms => exact hs

/-! ### The holder of a claim -/

/-- A context of the axis engine stands on the page of claim `e`, at its level. -/
def AxisEngine.Holds (x : AxisEngine) (e : Nat × Claimant) : Prop :=
  ∃ c ∈ x.contexts, c.holdsPage e.2.level (BitVec.ofNat 7 e.1) = true

/-- Every claim has a holder. -/
def Holders (s : State) : Prop := ∀ e ∈ s.claims, (s.ax e.2.axis).Holds e

theorem Context.holdsPage_iff (c : Context) (l : Level) (p : Page) :
    c.holdsPage l p = true ↔ c.level = l ∧ c.page = some p ∧ c.isStarved = false := by
  simp [Context.holdsPage, and_assoc]

/-- A context further on in the same place, not starved, holds what it held. -/
theorem Context.SamePlace.holdsPage {c d : Context} (h : c.SamePlace d) (hd : d.isStarved = false)
    {l : Level} {p : Page} (hc : c.holdsPage l p = true) : d.holdsPage l p = true := by
  obtain ⟨hlevel, hpage, -⟩ := (c.holdsPage_iff l p).mp hc
  exact (d.holdsPage_iff l p).mpr ⟨h.level.trans hlevel, h.page.trans hpage, hd⟩

namespace AxisEngine.Holds

variable {e : Nat × Claimant}

theorem of_subset (h : x.Holds e) (hsub : ∀ c ∈ x.contexts, c ∈ y.contexts) : y.Holds e := by
  obtain ⟨c, hc, hholds⟩ := h
  exact ⟨c, hsub c hc, hholds⟩

theorem of_fields (h : x.Holds e) (hctx : y.ctx = x.ctx) (hstack : y.stack = x.stack) : y.Holds e :=
  h.of_subset fun c hc => by rwa [contexts, hctx, hstack]

/-- The running context may change, where it is not the holder or its successor holds. -/
theorem of_stack {c : Context} (h : x.Holds e) (hx : x.ctx = some c)
    (hsub : ∀ d ∈ x.stack, d ∈ y.contexts)
    (hc : c.holdsPage e.2.level (BitVec.ofNat 7 e.1) = true → y.Holds e) : y.Holds e := by
  obtain ⟨d, hd, hholds⟩ := h
  rcases (mem_contexts x d).mp hd with hd | hd
  · rw [hx] at hd
    cases hd
    exact hc hholds
  · exact ⟨d, hsub d hd, hholds⟩

theorem of_work (h : x.Holds e) (hidle : x.All Context.IdleBaseRule) (hlaw : x.ContextLaw)
    (hwork : ContextsWork x y) : y.Holds e := by
  have hstackSub (hstack : y.stack = x.stack) : ∀ d ∈ x.stack, d ∈ y.contexts := fun d hd =>
    (mem_contexts y d).mpr (.inr (hstack ▸ hd))
  cases hwork with
  | keeps hctx hstack _ _ => exact h.of_fields hctx hstack
  | works c d hx hy place hgoing hstack _ _ =>
    exact h.of_stack hx (hstackSub hstack) fun hc =>
      ⟨d, (mem_contexts y d).mpr (.inl hy), place.holdsPage hgoing hc⟩
  | takes l r _ _ _ hstack _ _ =>
    refine h.of_subset fun d hd => (mem_contexts y d).mpr (.inr ?_)
    rw [hstack]
    rcases (mem_contexts x d).mp hd with hd | hd
    · rw [hd]
      exact .head _
    · exact .tail _ hd
  | asks l r _ hctx hstack _ _ => exact h.of_fields hctx hstack
  | idles c hx hbase _ hstack _ _ =>
    refine h.of_stack hx (hstackSub hstack) fun hc => ?_
    rw [hidle.ctx hx hbase] at hc
    obtain ⟨-, hpage, -⟩ := (Context.holdsPage_iff _ _ _).mp hc
    cases hpage
  | starts head hstate _ hstack _ _ =>
    have hnone := hlaw.ctx_eq_none (hstate ▸ rfl)
    refine h.of_subset fun d hd => hstackSub hstack d ?_
    exact ((mem_contexts x d).mp hd).resolve_left (by simp [hnone])
  | clears _ hctx hstack _ _ => exact h.of_fields hctx hstack

theorem released (h : x.Holds e) (j : Point) (g : Word) :
    ({ x with
      ctx := x.ctx.map (Context.flagReleased j g)
      stack := x.stack.map (Context.flagReleased j g) } : AxisEngine).Holds e := by
  obtain ⟨c, hc, hholds⟩ := h
  obtain ⟨hlevel, hpage, hstarved⟩ := (c.holdsPage_iff _ _).mp hholds
  obtain ⟨hlevel', -, hpage', hstarved'⟩ := c.flagReleased_fields j g
  refine ⟨c.flagReleased j g, (mem_contexts _ _).mpr ?_, (Context.holdsPage_iff _ _ _).mpr
    ⟨hlevel'.trans hlevel, hpage'.trans hpage, hstarved'.trans hstarved⟩⟩
  rcases (mem_contexts x c).mp hc with hc | hc
  · exact .inl (by simp [hc])
  · exact .inr (List.mem_map_of_mem hc)

/-- The running context goes; it holds nothing. -/
theorem drops {c : Context} (h : x.Holds e) (hx : x.ctx = some c) (hwork : DropsContext x y)
    (hc : ¬ c.holdsPage e.2.level (BitVec.ofNat 7 e.1) = true) : y.Holds e := by
  refine h.of_stack hx (fun d hd => ?_) fun hholds => absurd hholds hc
  rw [mem_contexts, hwork.ctx, hwork.stack]
  cases hstack : x.stack with
  | nil =>
    rw [hstack] at hd
    cases hd
  | cons top rest =>
    rw [hstack] at hd
    rcases List.mem_cons.mp hd with rfl | hd
    · exact .inl rfl
    · exact .inr hd

end AxisEngine.Holds

/-! ### Releases -/

theorem State.mem_claims_of_releaseList {time : Time} {l : List (Nat × Claimant)}
    {e : Nat × Claimant} (h : e ∈ (s.releaseList time l).claims) :
    e ∈ s.claims ∧ ∀ f ∈ l, e.1 ≠ (BitVec.ofNat 7 f.1).toNat := by
  induction l generalizing s with
  | nil => exact ⟨h, fun f hf => by cases hf⟩
  | cons f l ih =>
    obtain ⟨herased, hrest⟩ := ih (s := s.releasePage (BitVec.ofNat 7 f.1) f.2 time) h
    obtain ⟨hmem, hne⟩ := Sparse.mem_erase herased
    refine ⟨hmem, fun g hg => ?_⟩
    rcases List.mem_cons.mp hg with rfl | hg
    · exact hne
    · exact hrest g hg

theorem ClaimLaw.toNat_ofNat (h : ClaimLaw s) {e : Nat × Claimant} (he : e ∈ s.claims) :
    (BitVec.ofNat 7 e.1).toNat = e.1 := by
  have hrange := h.2 e he
  rw [BitVec.toNat_ofNat]
  omega

/-- After a halt no claim of the axis is left. -/
theorem ClaimLaw.releaseAxisClaims (h : ClaimLaw s) {e : Nat × Claimant}
    (he : e ∈ (s.releaseAxisClaims a).claims) : e ∈ s.claims ∧ e.2.axis ≠ a := by
  obtain ⟨hmem, hne⟩ := State.mem_claims_of_releaseList he
  refine ⟨hmem, fun haxis => ?_⟩
  exact hne e (List.mem_filter.mpr ⟨hmem, by simpa using haxis⟩) (h.toNat_ofNat hmem).symm

/-- A claim that is left after the page of `c` has been released is not held by `c`. -/
theorem ClaimLaw.not_holds_of_erase (h : ClaimLaw s) {c : Context} {q : Page} {e : Nat × Claimant}
    (he : e ∈ Sparse.erase s.claims q.toNat) (hq : ∀ p, c.page = some p → p = q) (l : Level) :
    e ∈ s.claims ∧ ¬ c.holdsPage l (BitVec.ofNat 7 e.1) = true := by
  obtain ⟨hmem, hne⟩ := Sparse.mem_erase he
  refine ⟨hmem, fun hholds => hne ?_⟩
  obtain ⟨-, hpage, -⟩ := (c.holdsPage_iff _ _).mp hholds
  rw [← hq _ hpage]
  exact (h.toNat_ofNat hmem).symm

/-! ### Chain work -/

theorem Holders.of_axes (h : Holders s) (haxes : t.axes = s.axes)
    (hclaims : ∀ e ∈ t.claims, e ∈ s.claims) : Holders t := fun e he => by
  rw [State.ax_of_axes haxes]
  exact h e (hclaims e he)

theorem Holders.touched (h : Holders s) (htouched : AxesTouched s t) (hclaims : t.claims = s.claims) :
    Holders t := fun e he => by
  rw [hclaims] at he
  rcases htouched e.2.axis with ha | ha <;> rw [ha]
  · exact h e he
  · exact (h e he).of_fields rfl rfl

/-- Another engine for axis `a`, which holds what is left of the claims of `a`. -/
theorem Holders.setAx (h : Holders s) (hx : ∀ e ∈ s.claims, e.2.axis = a → x.Holds e) :
    Holders (s.setAx a x) := fun e he => by
  rw [State.ax_setAx]
  split
  · rename_i ha
    exact hx e he ha
  · exact h e he

/-- What stands before a move: the laws that the proof for the holders needs. -/
structure HoldLaws (s : State) : Prop where
  claims : ClaimLaw s
  contexts : ContextLaws s
  idleBase : AllContexts Context.IdleBaseRule s
  holders : Holders s

theorem HoldLaws.move (h : HoldLaws s) (hmove : Move a s t) : Holders t := by
  have herase (k : Nat) (u : State) (hu : u.axes = s.axes) (hc : u.claims = Sparse.erase s.claims k) :
      Holders u := h.holders.of_axes hu fun e he => (Sparse.mem_erase (hc ▸ he)).1
  cases hmove with
  | record body _ => exact h.holders.touched (State.handRecord_frame body s).axes (by simp)
  | engine x _ contexts =>
    refine h.holders.setAx fun e he ha => ?_
    subst ha
    exact (h.holders e he).of_work (h.idleBase _) (h.contexts _) contexts
  | released b j g =>
    refine h.holders.setAx fun e he ha => ?_
    subst ha
    exact (h.holders e he).released j g
  | halts cause detail _ =>
    have hclaims : Holders (s.releaseAxisClaims a) :=
      h.holders.of_axes (State.releaseAxisClaims_axes a s) fun e he =>
        (h.claims.releaseAxisClaims he).1
    exact hclaims.setAx fun e he ha => absurd ha (h.claims.releaseAxisClaims he).2
  | leaves c q _ _ => exact herase q.toNat _ rfl rfl
  | starves c q x hc hq _ contexts =>
    refine Holders.setAx (s := s.releasePage q _ _) (herase q.toNat _ rfl rfl) fun e he ha => ?_
    obtain ⟨hmem, hnot⟩ := h.claims.not_holds_of_erase (c := c) he
      (fun p hp => Option.some.inj (hp.symm.trans hq)) e.2.level
    have hold := h.holders e hmem
    rw [ha] at hold
    exact hold.of_stack hc
      (fun d hd => (AxisEngine.mem_contexts x d).mpr (.inr (contexts.stack ▸ hd)))
      fun hholds => absurd hholds hnot
  | drops c x hc _ _ contexts =>
    refine Holders.setAx (s := s.releasePage c.pageOr0 _ _) (herase _ _ rfl rfl) fun e he ha => ?_
    obtain ⟨hmem, hnot⟩ := h.claims.not_holds_of_erase (c := c) he
      (fun p hp => by rw [Context.pageOr0, hp]; rfl) e.2.level
    have hold := h.holders e hmem
    rw [ha] at hold
    exact hold.drops hc contexts hnot
  | cause | event | joinEntry | line | mirror | point => exact h.holders

/-- A ready context that enters page `p` holds no claim. -/
theorem HoldLaws.not_holds_of_ready (h : HoldLaws s) {value : Word} {p : Page} {c : Context}
    (hready : Ready a value s) (hc : (s.ax a).ctx = some c) (hp : generalPage? value = some p)
    (hfree : s.claimed p = false) {e : Nat × Claimant} (he : e ∈ s.claims) (ha : e.2.axis = a) :
    ¬ c.holdsPage e.2.level (BitVec.ofNat 7 e.1) = true := fun hholds => by
  obtain ⟨-, hpage, hstarved⟩ := (c.holdsPage_iff _ _).mp hholds
  have hkey := h.claims.toNat_ofNat he
  rcases (hready c hc).2 with hwait | hpages
  · rw [hstarved] at hwait
    cases hwait
  · rcases hpages _ hpage with hsame | hnone
    · have hq : BitVec.ofNat 7 e.1 = p := Option.some.inj (hsame.symm.trans hp)
      exact State.not_mem_of_not_claimed hfree he (hq ▸ hkey.symm)
    · refine hnone e.2.level ?_
      rw [hkey, ← ha]
      exact he

theorem HoldLaws.entry (h : HoldLaws s) {value : Word} (hmove : EntryMove a value s t)
    (hready : Ready a value s) : Holders t := by
  have hold {y : AxisEngine} {c : Context} {p : Page} (hc : (s.ax a).ctx = some c) (hp : generalPage? value = some p)
      (hfree : s.claimed p = false) {e : Nat × Claimant} (he : e ∈ s.claims) (ha : e.2.axis = a)
      (hstack : y.stack = (s.ax a).stack) : y.Holds e := by
    have hholds := h.holders e he
    rw [ha] at hholds
    exact hholds.of_stack hc
      (fun d hd => (AxisEngine.mem_contexts y d).mpr (.inr (hstack ▸ hd)))
      fun hc' => absurd hc' (h.not_holds_of_ready hready hc hp hfree he ha)
  cases hmove with
  | granted c p count r hc hp hfree =>
    intro e he
    rw [State.ax_setAx]
    rcases Sparse.mem_insert he with rfl | he
    · rw [if_pos rfl]
      refine ⟨_, (AxisEngine.mem_contexts _ _).mpr (.inl rfl), (Context.holdsPage_iff _ _ _).mpr
        ⟨rfl, ?_, rfl⟩⟩
      show some p = some (BitVec.ofNat 7 p.toNat)
      rw [BitVec.ofNat_toNat, BitVec.setWidth_eq]
    · split
      · rename_i ha
        exact hold hc hp hfree he ha rfl
      · exact h.holders e he
  | starves c p st hc hp hfree _ =>
    exact h.holders.setAx fun e he ha => hold hc hp hfree he ha rfl

theorem HoldLaws.kept : KeptByWork HoldLaws where
  move _ _ _ hmove h :=
    ⟨h.claims.act (.move _ hmove), h.contexts.move hmove, h.idleBase.move Context.idleBaseRule hmove,
      h.move hmove⟩
  entry _ _ _ _ hmove hready h :=
    ⟨h.claims.act (.entry _ _ hmove), h.contexts.entryMove hmove, h.idleBase.idleBase_entry hmove hready,
      h.entry hmove hready⟩
  agenda _ _ _ h := ⟨h.claims, h.contexts, h.idleBase, h.holders⟩

end Sys2Proof.Machine
end

