-- ==== Sys2Proof/Proofs/Rest.lean ====
section
/-!
PROOF. Outside RUNNING no axis is active (R24, R30), so that no page is claimed in STOPPED and STOPPING (R8);
and the first law with the laws of pages, records and idle bases.
-/
namespace Sys2Proof.Machine

variable {a b : Axis} {s t u : State} {x y : AxisEngine}

/-! ### RUN_STOP leaves no axis active -/

/-- No axis is active. -/
def Inactive (s : State) : Prop := ∀ a, (s.ax a).state.active = false

theorem Inactive.touched (h : Inactive s) (htouched : AxesTouched s t) : Inactive t := fun a => by
  rcases htouched a with ha | ha <;> rw [ha] <;> exact h a

theorem Inactive.of_axes (h : Inactive s) (haxes : t.axes = s.axes) : Inactive t :=
  h.touched (.of_axes haxes)

/-- An axis that has been halted is not active. -/
theorem State.halt_inactive_after (a : Axis) (cause : HaltCause) (detail : BitVec 8) (s : State) :
    ((s.halt a cause detail).ax a).state.active = false := by
  cases h : (s.ax a).state.active with
  | false =>
    rw [State.halt_inactive a cause detail s h]
    exact h
  | true =>
    rw [State.halt_ax a cause detail s h]
    rfl

/-- Halts of every axis that may be active, in any order. -/
theorem Inactive.inFreeOrder_halt (n : Nat) (as : List Axis) (s : State) (hlen : as.length ≤ n)
    (hnodup : as.Nodup) (h : ∀ b, b ∉ as → (s.ax b).state.active = false) :
    Inactive (s.inFreeOrder (fun a u => u.halt a .runStopped 0) n as) := by
  induction n generalizing as s with
  | zero =>
    have hnil := List.eq_nil_of_length_eq_zero (Nat.le_zero.mp hlen)
    exact fun b => h b (by simp [hnil])
  | succ n ih =>
    cases as with
    | nil => exact fun b => h b List.not_mem_nil
    | cons c rest =>
      simp only [State.inFreeOrder]
      have hchoose : ∃ i m, s.choose (rest.length + 1) = (i, { s with freeCount := m }) := by
        simp only [State.choose]
        split
        · exact ⟨0, s.freeCount, rfl⟩
        · exact ⟨_, _, rfl⟩
      obtain ⟨i, m, hchoose⟩ := hchoose
      rw [hchoose]
      dsimp only
      have hmem : (c :: rest).getD i c ∈ c :: rest := getD_mem_cons i c rest
      generalize (c :: rest).getD i c = d at hmem ⊢
      refine ih _ _ ?_ (hnodup.erase d) fun b hb => ?_
      · rw [List.length_erase_of_mem hmem]
        exact Nat.le_of_succ_le_succ hlen
      · by_cases hbd : b = d
        · subst hbd
          exact State.halt_inactive_after b .runStopped 0 _
        · rw [State.halt_ax_ne d .runStopped 0 _ hbd]
          exact h b fun hin => hb ((List.mem_erase_of_ne hbd).mpr hin)

theorem State.haltsActive_inactive (s : State) : Inactive s.haltsActive :=
  .inFreeOrder_halt _ _ s (le_refl _) (nodup_allAxes.filter _) fun b hb => by
    simpa [mem_allAxes] using hb

/-- An agenda of breaks alone. -/
def BreaksOnly (s : State) : Prop := ∀ k ∈ s.agenda, ∃ a j, k = .breakAt a j

theorem BreaksOnly.of_agenda (h : BreaksOnly s) (hagenda : t.agenda = s.agenda) : BreaksOnly t := by
  rw [BreaksOnly, hagenda]
  exact h

theorem BreaksOnly.breakPoint (h : BreaksOnly s) (j : Point) (cause : BreakCause) :
    BreaksOnly (s.breakPoint j cause) := by
  intro k hk
  simp only [State.breakPoint] at hk
  rw [State.pushEach_fields] at hk
  rcases List.mem_append.mp hk with hold | hnew
  · exact h k hold
  · obtain ⟨b, -, rfl⟩ := List.mem_map.mp hnew
    exact ⟨b, j, rfl⟩

theorem BreaksOnly.tellHalted (h : BreaksOnly s) (a : Axis) : BreaksOnly (s.tellHalted a) := by
  have hlist (l : List Point) (u : State) (hu : BreaksOnly u) :
      BreaksOnly (l.foldl (State.breakIfMember a) u) := by
    induction l generalizing u with
    | nil => exact hu
    | cons j l ih =>
      refine ih _ ?_
      simp only [State.breakIfMember]
      split
      · exact hu.breakPoint j .memberHalted
      · exact hu
  exact hlist allSixteen s h

theorem BreaksOnly.halt (h : BreaksOnly s) (a : Axis) (cause : HaltCause) (detail : BitVec 8) :
    BreaksOnly (s.halt a cause detail) := by
  simp only [State.halt]
  split
  · have hclaims : BreaksOnly ((s.releaseAxisClaims a).setAx a ((s.ax a).halted cause detail)) := by
      refine h.of_agenda ?_
      rw [State.releaseAxisClaims, State.releaseList_fields]
      rfl
    have hrecord (body : RecordBody) := hclaims.of_agenda (State.handRecord_agenda body _)
    exact (hrecord _).tellHalted a
  · exact h

theorem State.haltsActive_breaksOnly (h : Quiet s) : BreaksOnly s.haltsActive :=
  State.inFreeOrder_keeps (P := BreaksOnly) _ (fun a u hu => hu.halt a .runStopped 0)
    (fun _ _ hu => hu) _ _ fun k hk => by
      rw [h] at hk
      cases hk

/-- Where no axis holds a context, a break changes nothing. -/
theorem State.runTask_breakAt (a : Axis) (j : Point) (hinactive : Inactive s) (hlaws : ContextLaws s) :
    s.runTask (.breakAt a j) = s := by
  have hnone := (hlaws a).ctx_eq_none (hinactive a)
  have hbreak : s.breakAt a j = s := by
    simp [State.breakAt, hnone, (hlaws a).stack_eq_nil hnone]
  unfold State.runTask
  split
  · exact hbreak
  · rfl

/-- The breaks that follow the halts of RUN_STOP reach axes without contexts. -/
theorem State.haltsActive_settled_inactive (hq : Quiet s) (hlaws : ContextLaws s) :
    Inactive s.haltsActive.settled := by
  have hinactive := s.haltsActive_inactive
  have hcontexts : ContextLaws s.haltsActive := hlaws.acts (.haltsActive s)
  obtain ⟨tasks, m, hsettle⟩ := State.settle_of_idle settleBound s.haltsActive fun k hk tasks m => by
    obtain ⟨a, j, rfl⟩ := State.haltsActive_breaksOnly hq k hk
    exact State.runTask_breakAt a j hinactive hcontexts
  have haxes : s.haltsActive.settled.axes = s.haltsActive.axes := by
    rw [State.settled, hsettle]
  exact hinactive.of_axes haxes

/-! ### The law of rest and the holders -/

theorem State.scanning_of_dev (h : t.dev = s.dev) : t.scanning = s.scanning := by
  simp only [State.scanning, h]

theorem holderLaw_iff (s : State) : HolderLaw s ↔ (s.scanning = false → Holders s) := by
  simp only [HolderLaw, Holders, AxisEngine.Holds, AxisEngine.contexts, List.any_eq_true]

/-- The law of rest and the holders of the claims. -/
structure RestHold (s : State) : Prop where
  rest : s.dev ≠ .running → Inactive s
  holders : s.scanning = false → Holders s

theorem restHold_iff (s : State) : RestHold s ↔ RestLaw s ∧ HolderLaw s :=
  ⟨fun h => ⟨h.rest, (holderLaw_iff s).mpr h.holders⟩, fun h => ⟨h.1, (holderLaw_iff s).mp h.2⟩⟩

theorem RestHold.touched (h : RestHold s) (htouched : AxesTouched s t) (hclaims : t.claims = s.claims)
    (hdev : t.dev = s.dev) : RestHold t :=
  ⟨fun ht => (h.rest (hdev ▸ ht)).touched htouched, fun ht =>
    (h.holders (State.scanning_of_dev hdev ▸ ht)).touched htouched hclaims⟩

/-- In RUNNING the law of rest says nothing. -/
theorem RestHold.of_running (hdev : s.dev = .running) (h : Holders s) : RestHold s :=
  ⟨fun ht => absurd hdev ht, fun _ => h⟩

theorem Holders.of_nil (h : s.claims = []) : Holders s := fun e he => by
  rw [h] at he
  cases he

/-- Where every axis is at rest and every claim has a holder, there is no claim. -/
theorem State.claims_eq_nil (hcontexts : ContextLaws s) (hinactive : Inactive s) (h : Holders s) :
    s.claims = [] := by
  refine List.eq_nil_iff_forall_not_mem.mpr fun e he => ?_
  obtain ⟨c, hc, -⟩ := h e he
  have hnone := (hcontexts e.2.axis).ctx_eq_none (hinactive _)
  rw [AxisEngine.mem_contexts, hnone, (hcontexts e.2.axis).stack_eq_nil hnone] at hc
  rcases hc with hc | hc <;> cases hc

theorem AxisEngine.resetKeepingPulse_state (x : AxisEngine) : x.resetKeepingPulse.state = .off := by
  simp only [AxisEngine.resetKeepingPulse]
  split <;> rfl

theorem Inactive.hardReset (kind : ResetKind) (s : State) : Inactive (s.hardReset kind) := fun a => by
  rw [State.hardReset_ax]
  cases kind with
  | pin =>
    show (s.ax a).resetKeepingPulse.state.active = false
    rw [AxisEngine.resetKeepingPulse_state]
    rfl
  | powerOn => rfl

theorem AxisEngine.softReset_inactive (x : AxisEngine) : x.softReset.state.active = false := by
  show x.resetKeepingPulse.state.active = false
  rw [AxisEngine.resetKeepingPulse_state]
  rfl

theorem Inactive.softReset (s : State) : Inactive s.softReset := fun a => by
  rw [State.softReset_ax]
  exact AxisEngine.softReset_inactive _

theorem AxisEngine.countDown_state (x : AxisEngine) : x.countDown.state = x.state := by
  simp only [AxisEngine.countDown]
  split
  · rfl
  · split <;> rfl

theorem RestHold.tick (h : RestHold s) (hlaws : HoldLaws s ∨ s.scanning = true) (raw : BitVec 16) :
    RestHold (s.tick raw) := by
  have hdev : (s.tick raw).dev = s.dev := by rw [State.tick_frame]
  have hend (a : Axis) := s.endTick_rewritten a
  refine ⟨fun ht a => ?_, fun ht e he => ?_⟩
  · have hstate : (s.endTick.ax a).state = (s.ax a).state := by rw [(hend a).fields]
    have hinactive := h.rest (hdev ▸ ht) a
    rcases s.tick_ax raw a with ha | ha <;> rw [ha]
    · rw [hstate]
      exact hinactive
    · rw [AxisEngine.countDown_state, hstate]
      exact hinactive
  · rw [State.scanning_of_dev hdev] at ht
    rw [State.tick_frame] at he
    rcases hlaws with hlaws | hscan
    · have hctx : (s.endTick.ax e.2.axis).ctx = (s.ax e.2.axis).ctx ∧
          (s.endTick.ax e.2.axis).stack = (s.ax e.2.axis).stack := by
        rw [(hend e.2.axis).fields]
        exact ⟨rfl, rfl⟩
      have hholds := (h.holders ht e he).of_fields hctx.1 hctx.2
      rcases s.tick_ax raw e.2.axis with ha | ha <;> rw [ha]
      · exact hholds
      · exact hholds.of_work ((hlaws.idleBase _).rewritten (hend _))
          (ContextLaws.rewritten (hlaws.contexts _) (hend _)) (AxisEngine.countDown_contexts _)
    · rw [hscan] at ht
      cases ht

theorem State.slotStateWrite_dev (k : Slot) (v : Word) (s : State) :
    (s.slotStateWrite k v).dev = s.dev ∨
      s.dev = .stopping ∧ (s.slotStateWrite k v).dev = .stopped := by
  have hcheck (u : State) : u.checkStopped.dev = u.dev ∨ u.dev = .stopping ∧ u.checkStopped.dev = .stopped := by
    simp only [State.checkStopped]
    split
    · rename_i hstops
      exact .inr ⟨hstops.1, u.enterStopped_dev⟩
    · exact .inl rfl
  simp only [State.slotStateWrite]
  split
  · exact .inl rfl
  · split
    · exact .inl rfl
    · split
      · have hdrain (u : State) : u.drain.dev = u.dev := by rw [u.drain_frame.fields]
        rcases hcheck (((s.write (slotStateWord k) v).setSlot k
          (((s.write (slotStateWord k) v).slot k).hostWritten v)).drain) with h | ⟨h, h'⟩
        · exact .inl (h.trans (hdrain _))
        · exact .inr ⟨(hdrain ((s.write (slotStateWord k) v).setSlot k _)).symm.trans h, h'⟩
      · exact .inl rfl

/-- The premises of the law of rest and the holders. -/
structure RestPremises (s : State) : Prop where
  quiet : Quiet s
  claims : ClaimLaw s
  contexts : ContextLaws s
  idleBase : AllContexts Context.IdleBaseRule s
  restHold : RestHold s

theorem RestPremises.holdLaws (h : RestPremises s) (hscan : s.scanning = false) : HoldLaws s :=
  ⟨h.claims, h.contexts, h.idleBase, h.restHold.holders hscan⟩

theorem HoldLaws.touched (h : HoldLaws s) (htouched : AxesTouched s t) (hclaims : t.claims = s.claims) :
    HoldLaws t :=
  ⟨h.claims.of_claims hclaims, h.contexts.touched htouched, h.idleBase.touched htouched,
    h.holders.touched htouched hclaims⟩

theorem State.scanning_of_inInit (h : s.inInit = false) : s.scanning = false := by
  cases hdev : s.dev with
  | init p => simp [State.inInit, hdev] at h
  | _ => simp [State.scanning, hdev]

/-- Outside RUNNING, settling changes nothing that the law speaks of. -/
theorem RestHold.settled_of_not_running (h : RestHold s) (hdev : s.dev ≠ .running) :
    RestHold s.settled := by
  obtain ⟨m, hsettled⟩ := State.settled_of_not_running hdev
  rw [hsettled]
  exact h.touched (.of_axes rfl) rfl rfl

theorem RestPremises.slotStateWrite (h : RestPremises s) (hinit : s.inInit = false) (k : Slot)
    (v : Word) : RestHold (s.slotStateWrite k v).settled := by
  have htouched := AxesTouched.slotStateWrite k v s
  have hclaims := (ServiceFrame.slotStateWrite k v s).claims
  have hlaws := (h.holdLaws (State.scanning_of_inInit hinit)).touched htouched hclaims
  by_cases hdev : (s.slotStateWrite k v).dev = .running
  · have hsettled := HoldLaws.kept.settled ((EventsOnly.of_quiet h.quiet).slotStateWrite k v).agendaLaw hlaws
    exact .of_running ((Acts.settled _).dev.trans hdev) hsettled.holders
  · have hold : s.dev ≠ .running := by
      rcases s.slotStateWrite_dev k v with hsame | ⟨hstopping, -⟩
      · exact hsame ▸ hdev
      · simp [hstopping]
    have hwritten : RestHold (s.slotStateWrite k v) :=
      ⟨fun _ => (h.restHold.rest hold).touched htouched, fun _ => hlaws.holders⟩
    exact hwritten.settled_of_not_running hdev

theorem RestPremises.stopSpan (h : RestPremises s) (hdev : s.dev = .running) : RestHold s.stopSpan := by
  have hlaws := HoldLaws.kept.stopSpan h.quiet (h.holdLaws (by simp [State.scanning, hdev]))
  have hinactive := State.haltsActive_settled_inactive h.quiet h.contexts
  exact ⟨fun _ => hinactive.touched (.stopSpan s), fun _ =>
    hlaws.holders.touched (.stopSpan s) (ServiceFrame.stopSpan s).claims⟩

theorem RestPremises.works (h : RestPremises s) {v : State} {as : List Axis} {w : Option Addr}
    (stored : HostStores w s v) (opened : Opens v as u) (running : s.dev = .running ∨ u = v) :
    RestHold u.settled := by
  have hdev : v.dev = s.dev := by cases stored <;> rfl
  by_cases hrun : s.dev = .running
  · have hlaws := (h.holdLaws (by simp [State.scanning, hrun])).touched (.of_axes stored.axes)
      stored.claims
    have hsettled := HoldLaws.kept.works opened (stored.quiet h.quiet) hlaws
    exact .of_running ((Acts.settled u).dev.trans (opened.acts.dev.trans (hdev.trans hrun)))
      hsettled.holders
  · have hsame := running.resolve_left hrun
    subst hsame
    have hstored := h.restHold.touched (.of_axes stored.axes) stored.claims hdev
    exact hstored.settled_of_not_running (hdev ▸ hrun)

/-- A change of one engine that does no more than work on its running context. -/
theorem RestPremises.setAx (h : RestPremises s) (hwork : ContextsWork (s.ax a) x)
    (hstate : x.state = (s.ax a).state) : RestHold (s.setAx a x) := by
  refine ⟨fun ht b => ?_, fun ht => ?_⟩
  · have hinactive := h.restHold.rest ht
    rw [State.ax_setAx]
    split
    · rw [hstate]
      exact hinactive a
    · exact hinactive b
  · have hlaws := h.holdLaws ht
    refine hlaws.holders.setAx fun e he ha => ?_
    subst ha
    exact (hlaws.holders e he).of_work (hlaws.idleBase _) (hlaws.contexts _) hwork

theorem RestPremises.claims_of_stopped (h : RestPremises s) (hdev : s.dev = .stopped) : s.claims = [] :=
  State.claims_eq_nil h.contexts (h.restHold.rest (by simp [hdev]))
    (h.restHold.holders (by simp [State.scanning, hdev]))

theorem AxisEngine.startStep_state (x : AxisEngine) (now : Nat) : (x.startStep now).state = x.state := by
  unfold AxisEngine.startStep
  split
  · rfl
  · split <;> rfl

theorem AxisEngine.endPulse_state (x : AxisEngine) (dirlead now : Nat) :
    (x.endPulse dirlead now).state = x.state := by
  rw [AxisEngine.endPulse_frame]

theorem CommandEffect.restHold {w : Option Addr} {c : Instr} (h : CommandEffect w s c t)
    (hs : RestPremises s) : RestHold t := by
  have hr := hs.restHold
  cases h with
  | registers c t hframe =>
    exact hr.touched (.of_axes (by rw [hframe.frame])) (by rw [hframe.frame]) (by rw [hframe.frame])
  | hardReset kind => exact ⟨fun _ => .hardReset kind s, fun _ => .of_nil rfl⟩
  | fillStarts c h =>
    exact ⟨fun _ => hr.rest (by simp [h]), fun _ => hr.holders (by simp [State.scanning, h])⟩
  | fillEnds h =>
    exact ⟨fun _ => hr.rest (by simp [h]), fun _ => hr.holders (by simp [State.scanning, h])⟩
  | softReset c _ =>
    refine ⟨fun _ => .softReset s, fun ht => ?_⟩
    simp [State.softReset, State.scanning] at ht
  | scanEnds c kept h =>
    exact ⟨fun _ => (hr.rest (by simp [h])).touched (.scan kept s), fun _ => .of_nil (s.scan_claims kept)⟩
  | spanStarts c setup raw h =>
    have hnil := (s.startSpan_claims setup raw).trans (hs.claims_of_stopped h)
    have hdev : (s.startSpan setup raw).dev = .running := by
      rw [State.startSpan_eq, State.flushAll_frame, State.restartAging_frame, State.spanOpened_frame]
      rfl
    exact .of_running hdev (.of_nil hnil)
  | spanStops c h => exact hs.stopSpan h
  | flushes c _ =>
    have hframe := State.closeIfRecords_frame .flush s.timebase s
    exact hr.touched (AxesTouched.closeIfRecords .flush s.timebase s) hframe.service.claims
      (by rw [hframe.fields]; rfl)
  | ages c =>
    have hframe := State.closeIfRecords_frame .aged s.timebase s
    exact hr.touched (AxesTouched.closeIfRecords .aged s.timebase s) hframe.service.claims
      (by rw [hframe.fields]; rfl)
  | slotWritten c k v hinit _ => exact hs.slotStateWrite hinit k v
  | steps a _ => exact hs.setAx (AxisEngine.startStep_contexts _ _) (AxisEngine.startStep_state _ _)
  | pulseEnds c a _ =>
    exact hs.setAx (AxisEngine.endPulse_contexts _ _ _) (AxisEngine.endPulse_state _ _ _)
  | ticks c raw =>
    refine hr.tick ?_ raw
    cases hscan : s.scanning with
    | false => exact .inl (hs.holdLaws hscan)
    | true => exact .inr rfl
  | works c stored opened running => exact hs.works stored opened running
  | stores | rearms => exact hr.touched (.of_axes rfl) rfl rfl

/-! ### Every step -/

/-- What every command keeps of a quiet state, a step keeps. -/
theorem step_keeps_quiet {P : State → Prop} (hpending : ∀ (s : State) (l : List Instr), P s → P { s with pending := l })
    (heffect : ∀ w c s t, CommandEffect w s c t → Quiet s → P s → P t) (hq : Quiet s)
    (h : step s = .next t) (hs : P s) : P t :=
  have hboth : Quiet t ∧ P t :=
    step_keeps (P := fun u => Quiet u ∧ P u) (fun u l hu => ⟨hu.1, hpending u l hu.2⟩)
      (fun c u v hexec hu => ⟨(exec_effect hexec).quiet hu.1, heffect _ c u v (exec_effect hexec) hu.1 hu.2⟩)
      h ⟨hq, hs⟩
  hboth.2

theorem RestPremises.step (hs : RestPremises s) (h : step s = .next t) : RestHold t := by
  rw [Machine.step] at h
  split at h
  · exact Host.Outcome.next.inj h ▸ hs.restHold
  · exact (exec_effect h).restHold
      ⟨hs.quiet, hs.claims, hs.contexts, hs.idleBase, hs.restHold.touched (.of_axes rfl) rfl rfl⟩

/-- Settles O59: an entry is the only thing that makes a claim, into a general page and for a context that
holds no other; a claim goes before its context leaves the page; RUN_STOP halts every active axis. -/
theorem claimPageAndRecordLawsKept : Obligations.ClaimPageAndRecordLawsKept := by
  refine ⟨fun s t h => ⟨?_, fun hq hpage hrecord => ?_, fun hq hidle => ?_, ?_⟩, ?_⟩
  · exact step_keeps (P := ClaimLaw) (fun _ _ hs => hs)
      (fun _ _ _ hexec => (exec_effect hexec).claimLaw) h
  · exact (pageLaws_iff t).mp <|
      step_keeps_quiet (P := PageLaws) (fun _ _ hs => hs.of_axes hs.contexts (fun _ => id) rfl)
        (fun _ _ _ _ heffect _ => heffect.pageLaws) hq h ((pageLaws_iff s).mpr ⟨hpage, hrecord⟩)
  · exact step_keeps_quiet (P := AllContexts Context.IdleBaseRule) (fun _ _ hs => hs)
      (fun _ _ _ _ heffect hq hs => heffect.idleBase hq hs) hq h hidle
  · intro hq hclaims hstack hpending hrest hidle hholder
    exact (restHold_iff t).mp <| RestPremises.step
      ⟨hq, hclaims, (contextLaws_iff s).mpr ⟨hstack, hpending⟩, hidle,
        (restHold_iff s).mpr ⟨hrest, hholder⟩⟩ h
  · intro s hstack hrest hholder hdev
    have hscan : s.scanning = false := by rcases hdev with hdev | hdev <;> simp [State.scanning, hdev]
    have hinactive := hrest (by rcases hdev with hdev | hdev <;> simp [hdev])
    refine List.eq_nil_iff_forall_not_mem.mpr fun e he => ?_
    obtain ⟨c, hc, -⟩ := (holderLaw_iff s).mp hholder hscan e he
    have hnone (a : Axis) : (s.ax a).ctx = none ∧ (s.ax a).stack = [] := by
      obtain ⟨-, hempty | ⟨d, -, hactive, -⟩⟩ := (AxisEngine.stackLaw_iff _).mp (hstack a)
      · exact hempty
      · rw [hinactive a] at hactive
        cases hactive
    rw [AxisEngine.mem_contexts, (hnone _).1, (hnone _).2] at hc
    rcases hc with hc | hc <;> cases hc

end Sys2Proof.Machine
end

