-- ==== Sys2Proof/Proofs/HostWords.lean ====
section
/-!
PROOF. Whose words are whose (the directory, R1 to R3): every word that the part writes is a word of a general
page, of the status blocks, of the report block, of the snapshot, or one of its own words in a table entry.
-/
namespace Sys2Proof.Machine

variable {a b : Axis} {s t u : State} {w : Option Addr} {rec : Record}

/-! ### Words of the part -/

/-- The host-written words of the directory stand, except word `w`. -/
def HostStands (w : Option Addr) (s t : State) : Prop :=
  ∀ addr, isHostWord addr = true → w ≠ some addr → t.read addr = s.read addr

namespace HostStands

theorem of_ram (h : t.ram = s.ram) : HostStands w s t := fun addr _ _ => by
  rw [State.read, State.read, h]

theorem refl (s : State) : HostStands w s s := .of_ram rfl

theorem trans (h : HostStands w s t) (k : HostStands w t u) : HostStands w s u := fun addr ha hw =>
  (k addr ha hw).trans (h addr ha hw)

theorem write {addr : Addr} (h : HostStands w s t) (v : Word)
    (ha : isHostWord addr = false ∨ w = some addr) : HostStands w s (t.write addr v) := fun b hb hw => by
  have hne : addr ≠ b := by
    rintro rfl
    rcases ha with ha | ha
    · rw [ha] at hb
      cases hb
    · exact hw ha
  rw [State.read_write_ne _ hne]
  exact h b hb hw

theorem writeWords {addr : Addr} {ws : List Word} (h : HostStands w s t)
    (ha : ∀ i, i < ws.length → isHostWord (addr + BitVec.ofNat 15 i) = false) :
    HostStands w s (t.writeWords addr ws) := fun b hb hw => by
  rw [State.read_writeWords_outside]
  · exact h b hb hw
  · rintro i hi rfl
    rw [ha i hi] at hb
    cases hb

theorem setCause (h : HostStands w s t) (c : AlertCause) : HostStands w s (t.setCause c) :=
  h.trans (.of_ram rfl)

theorem mapReport (h : HostStands w s t) (f : ReportUnit → ReportUnit) :
    HostStands w s (t.mapReport f) := h.trans (.of_ram rfl)

end HostStands

theorem isHostWord_eq_false_of_le {addr : Addr} (h : 0x0300 ≤ addr.toNat) : isHostWord addr = false := by
  simp only [isHostWord, Bool.or_eq_false_iff, Bool.and_eq_false_iff, decide_eq_false_iff_not]
  omega

theorem pageWord_toNat (p : Page) (off : BitVec 8) :
    (pageWord p off).toNat = 256 * p.toNat + off.toNat := by
  rw [pageWord, BitVec.toNat_append, Nat.shiftLeft_eq, ← Nat.mul_comm (2 ^ 8), Nat.two_pow_add_eq_or_of_lt off.isLt]

theorem pageWord_add_toNat {p : Page} {off : BitVec 8} {i : Nat} (h : off.toNat + i < 256) :
    (pageWord p off + BitVec.ofNat 15 i).toNat = 256 * p.toNat + off.toNat + i := by
  have hp := p.isLt
  rw [BitVec.toNat_add, pageWord_toNat, BitVec.toNat_ofNat]
  omega

theorem isHostWord_pageWord {p : Page} (hp : isGeneralPage p = true) (off : BitVec 8) :
    isHostWord (pageWord p off) = false := by
  refine isHostWord_eq_false_of_le ?_
  have hp : 3 ≤ p.toNat := of_decide_eq_true hp
  rw [pageWord_toNat]
  omega

theorem HostStands.writePage {p : Page} (hp : isGeneralPage p = true) {off : BitVec 8} {ws : List Word}
    (hlen : off.toNat + ws.length ≤ 256) (h : HostStands w s t) :
    HostStands w s (t.writeWords (pageWord p off) ws) := by
  refine h.writeWords fun i hi => isHostWord_eq_false_of_le ?_
  have hp : 3 ≤ p.toNat := of_decide_eq_true hp
  rw [pageWord_add_toNat (by omega)]
  omega

theorem isHostWord_slotStateWord (k : Slot) : isHostWord (slotStateWord k) = false := by
  revert k
  decide

theorem isHostWord_joinWord (j : Point) {n : Nat} (h : 3 ≤ n ∧ n ≤ 5) :
    isHostWord (joinWord j n) = false := by
  have hj := j.isLt
  simp only [isHostWord, joinWord, BitVec.toNat_ofNat, Bool.or_eq_false_iff, Bool.and_eq_false_iff,
    decide_eq_false_iff_not, beq_eq_false_iff_ne]
  omega

theorem isHostWord_lineMirror (n : Line) : isHostWord (lineWord n 7) = false := by
  revert n
  decide

theorem isHostWord_status (a : Axis) {n : Nat} (h : 16 ≤ n ∧ n ≤ 31) :
    isHostWord (axisWord a n) = false := by
  have ha := a.isLt
  simp only [isHostWord, axisWord, BitVec.toNat_ofNat, Bool.or_eq_false_iff, Bool.and_eq_false_iff,
    decide_eq_false_iff_not, beq_eq_false_iff_ne]
  omega

theorem axisWord_add (a : Axis) (n i : Nat) : axisWord a n + BitVec.ofNat 15 i = axisWord a (n + i) := by
  rw [axisWord, axisWord, ← BitVec.ofNat_add, Nat.add_assoc]

/-! ### The report unit -/

theorem State.writeSlot_hostStands (k : Slot) (v : SlotState) (s : State) :
    HostStands w s (s.writeSlot k v) :=
  HostStands.write (t := s.setSlot k v) (.of_ram rfl) v.code (.inl (isHostWord_slotStateWord k))

/-- Closing a page writes words of a general page, the slot and the count. -/
theorem State.closePage_hostStands (h : SlotsGeneral s) (reason : CloseReason) (time : Time) :
    HostStands w s (s.closePage reason time) := by
  cases hfill : s.filling with
  | none =>
    simp only [State.closePage, hfill]
    exact .refl s
  | some f =>
    obtain ⟨k, p, records, used⟩ := f
    have hp : isGeneralPage p = true := by
      have hk := h k
      rw [State.slot_of_filling hfill] at hk
      exact hk
    have hclosed : HostStands w s
        ((((s.writeWords (pageWord p 5) [reason.code, time.extractLsb' 0 16, time.extractLsb' 16 16]).writeSlot
          k (.full (some p))).mapReport fun r =>
            { r with lastClosed := k, pagesClosed := s.report.pagesClosed + 1, deadline := none }).write
              0x0010 (s.report.pagesClosed + 1)) :=
      (((HostStands.refl s).writePage hp (by simp)).trans (State.writeSlot_hostStands k _ _)
        |>.mapReport _).write _ (.inl (by decide))
    simp only [State.closePage, hfill]
    split
    · exact hclosed
    · exact hclosed.setCause .pageClosed

theorem Record.words_length (r : Record) (seq : Word) : (r.words seq).length = r.length := by
  simp only [Record.words, Record.length, timeWords, List.length_cons, List.length_append,
    List.length_nil]
  omega

theorem State.placeIn_hostStands (k : Slot) {p : Page} (records : Nat) {used : Nat}
    (hp : isGeneralPage p = true) (hfits : 8 + used + rec.length ≤ 256) (s : State) :
    HostStands w s (s.placeIn k p records used rec) := by
  have hwords : HostStands w s
      (s.writeWords (pageWord p (BitVec.ofNat 8 (8 + used))) (rec.words s.report.seq)) := by
    refine (HostStands.refl s).writePage hp ?_
    have hmod : (BitVec.ofNat 8 (8 + used)).toNat ≤ 8 + used := by
      rw [BitVec.toNat_ofNat]
      exact Nat.mod_le _ _
    rw [Record.words_length]
    omega
  have hheader (off : BitVec 8) : isHostWord (pageWord p off) = false ∨ w = some (pageWord p off) :=
    .inl (isHostWord_pageWord hp off)
  simp only [State.placeIn]
  split
  · exact (((((((hwords.write _ (hheader 1)).write _ (hheader 3)).write _ (hheader 4)).mapReport
      _).mapReport _).write _ (.inl (by decide))).mapReport _)
  · exact ((((((hwords.write _ (hheader 1)).write _ (hheader 3)).write _ (hheader 4)).mapReport
      _).mapReport _).write _ (.inl (by decide)))

theorem PlaceStep.hostStands (h : PlaceStep rec s t) (hrec : rec.length ≤ 23) (hs : SlotsGeneral s) :
    HostStands w s t := by
  cases h with
  | bad k _ _ => exact (State.writeSlot_hostStands k _ s).setCause _
  | take k p _ _ hp =>
    exact ((HostStands.refl s).writePage hp (by simp)).trans (State.writeSlot_hostStands k _ _)
  | close k p records used _ => exact State.closePage_hostStands hs .full s.timebase
  | place k p records used h hfits =>
    have hp : isGeneralPage p = true := by
      have hk := hs k
      rw [State.slot_of_filling h] at hk
      exact hk
    exact State.placeIn_hostStands k records hp (by omega) s

/-- The slots are on general pages, and the host words stand as in `s`. -/
structure HostFrame (w : Option Addr) (s t : State) : Prop where
  general : SlotsGeneral t
  stands : HostStands w s t

theorem Placing.hostStands (h : Placing rec s t) (hrec : rec.length ≤ 23) (hs : SlotsGeneral s) :
    HostStands w s t :=
  (h.keeps (P := HostFrame w s)
    (fun _ _ hstep hu => ⟨hstep.frame.general hu.general,
      hu.stands.trans (hstep.hostStands hrec hu.general)⟩) ⟨hs, .refl s⟩).stands

theorem State.countDrop_hostStands (s : State) : HostStands w s s.countDrop :=
  ((HostStands.refl s).mapReport _ |>.write _ (.inl (by decide))).setCause .recordsDropped

theorem State.setOwed_hostStands (b : Axis) (rs : List Record) (s : State) :
    HostStands w s (s.setOwed b rs) := .of_ram rfl

theorem Shortage.hostStands (h : Shortage rec s t) : HostStands w s t := by
  have hcause := (HostStands.refl (w := w) s).setCause .roomExhausted
  cases h with
  | holds _ => exact (hcause.mapReport _).write _ (.inl (by decide))
  | owes b _ =>
    refine hcause.trans ?_
    simp only [State.oweRecord]
    split
    · exact (State.setOwed_hostStands b _ _).trans (State.countDrop_hostStands _)
    · split <;> exact .of_ram rfl
  | drops => exact hcause.trans (State.countDrop_hostStands _)

theorem State.handRecord_hostStands {body : RecordBody} (hlen : body.words.length ≤ 18)
    (hfilling : FillingLaw s) (hs : SlotsGeneral s) : HostStands w s (s.handRecord body) := by
  have hrec : ({ time := s.timebase, body := body } : Record).length ≤ 23 := by
    show 5 + body.words.length ≤ 23
    omega
  rcases State.handRecord_cases body hfilling with ⟨-, hp⟩ | ⟨u, hp, -, hshort⟩
  · exact hp.hostStands hrec hs
  · exact (hp.hostStands hrec hs).trans hshort.hostStands

theorem State.handRecord_fillingLaw (body : RecordBody) (h : FillingLaw s) :
    FillingLaw (s.handRecord body) := by
  rcases State.handRecord_cases body h with ⟨-, hp⟩ | ⟨u, hp, -, hshort⟩
  · exact hp.fillingLaw h
  · exact (hp.fillingLaw h).of_slots hshort.slots

/-! ### The drain -/

theorem DrainStep.pays (h : DrainStep s t) : Pays s t := by
  cases h with
  | placing rec _ hp => exact hp.frame.pays
  | unqueue rec rest hqueue => exact .unqueue hqueue _
  | forget => exact .forget s
  | owed b rec rest howed => exact .owedPlaced howed
  | full => exact .setCause _ s

theorem DrainStep.hostStands (h : DrainStep s t) (hrecords : RecordLaw s) (hs : SlotsGeneral s) :
    HostStands w s t := by
  cases h with
  | placing rec hrec hp =>
    refine hp.hostStands ?_ hs
    rcases hrec with hlen | hqueue | ⟨b, howed⟩
    · exact hlen
    · exact hrecords.1 rec hqueue
    · exact hrecords.2 b rec howed
  | unqueue rec rest _ => exact ((HostStands.refl s).mapReport _).write _ (.inl (by decide))
  | forget => exact ((HostStands.refl s).mapReport _).write _ (.inl (by decide))
  | owed b rec rest _ =>
    simp only [State.owedPlaced]
    split <;> exact .of_ram rfl
  | full => exact .of_ram rfl

theorem State.drain_hostStands (hfilling : FillingLaw s) (hrecords : RecordLaw s)
    (hs : SlotsGeneral s) : HostStands w s s.drain := by
  obtain ⟨b, hstage⟩ := s.drain_stage hfilling
  exact (hstage.drains.keeps (P := fun u => RecordLaw u ∧ HostFrame w s u)
    (fun _ _ hstep hu =>
      ⟨hu.1.of_pays hstep.pays, hstep.pays.general hu.2.general,
        hu.2.stands.trans (hstep.hostStands hu.1 hu.2.general)⟩)
    ⟨hrecords, hs, .refl s⟩).2.stands

theorem State.closeIfRecords_hostStands (h : SlotsGeneral s) (reason : CloseReason) (time : Time) :
    HostStands w s (s.closeIfRecords reason time) := by
  simp only [State.closeIfRecords]
  split
  · exact .refl s
  · split
    · exact .refl s
    · exact State.closePage_hostStands h reason time

theorem State.enterStopped_hostStands (h : SlotsGeneral s) : HostStands w s s.enterStopped := by
  have hdev : HostStands w s { s with dev := .stopped } := .of_ram rfl
  have hclose := State.closeIfRecords_hostStands (w := w) (s := { s with dev := .stopped }) h .stop
    s.timebase
  exact (hdev.trans hclose).setCause .runStopped

theorem State.slotStateWrite_hostStands (h : PageLaws s) (hfilling : FillingLaw s) (k : Slot)
    (v : Word) : HostStands w s (s.slotStateWrite k v) := by
  have hstored : HostStands w s (s.write (slotStateWord k) v) :=
    (HostStands.refl s).write v (.inl (isHostWord_slotStateWord k))
  simp only [State.slotStateWrite]
  split
  · exact .refl s
  · split
    · exact (hstored.write 2 (.inl (isHostWord_slotStateWord k))).setCause _
    · have hset := hstored.mapReport fun r =>
        { r with slots := r.slots.set k (((s.write (slotStateWord k) v).slot k).hostWritten v) }
      split
      · have hslots : SlotsGeneral ((s.write (slotStateWord k) v).setSlot k
            (((s.write (slotStateWord k) v).slot k).hostWritten v)) :=
          h.slots.of_slot (SlotState.hostWritten_pageGeneral _ v) fun j => State.slot_setSlot k j _ s
        have hlaw := FillingLaw.hostWritten hfilling k v ((s.write (slotStateWord k) v).slot k)
        have hdrain := hset.trans (State.drain_hostStands hlaw h.records hslots)
        refine hdrain.trans ?_
        simp only [State.checkStopped]
        split
        · exact State.enterStopped_hostStands ((State.drain_pays _).general hslots)
        · exact .refl _
      · exact hset

/-! ### Acts -/

theorem State.releasePage_hostStands {p : Page} (hp : isGeneralPage p = true) (c : Claimant)
    (time : Time) (s : State) : HostStands w s (s.releasePage p c time) := by
  have hwords : HostStands w s
      (s.writeWords (pageWord p 4) (timeWords time ++ [axisLevelWord c.axis c.level])) :=
    (HostStands.refl s).writePage hp (by simp [timeWords])
  exact (hwords.write 3 (.inl (isHostWord_pageWord hp 1))).trans (.of_ram rfl)

theorem State.releaseList_hostStands (time : Time) (l : List (Nat × Claimant)) (s : State)
    (hl : ∀ e ∈ l, 3 ≤ e.1 ∧ e.1 ≤ 127) : HostStands w s (s.releaseList time l) := by
  induction l generalizing s with
  | nil => exact .refl s
  | cons e l ih =>
    have hgeneral : isGeneralPage (BitVec.ofNat 7 e.1) = true := by
      have hrange := hl e (.head _)
      rw [isGeneralPage, decide_eq_true_eq, BitVec.toNat_ofNat]
      omega
    exact (State.releasePage_hostStands hgeneral e.2 time s).trans (ih _ fun f hf => hl f (.tail _ hf))

theorem PageLaws.general_of_ctx (h : PageLaws s) {c : Context} {q : Page}
    (hc : (s.ax a).ctx = some c) (hq : c.page = some q) : isGeneralPage q = true := by
  have hgeneral := (h.contexts a).ctx hc
  simp only [Context.pageGeneral, hq] at hgeneral
  exact hgeneral

theorem Move.hostStands (hmove : Move a s t) (h : PageLaws s) (hfilling : FillingLaw s) :
    HostStands w s t := by
  cases hmove with
  | record body hlen => exact State.handRecord_hostStands hlen hfilling h.slots
  | joinEntry j n v hn => exact (HostStands.refl s).write v (.inl (isHostWord_joinWord j hn))
  | mirror n v => exact (HostStands.refl s).write v (.inl (isHostWord_lineMirror n))
  | halts cause detail _ =>
    refine (State.releaseList_hostStands s.timebase _ s fun e he => ?_).trans (.of_ram rfl)
    exact h.claims e (List.mem_filter.mp he).1
  | leaves c q hc hq => exact State.releasePage_hostStands (h.general_of_ctx hc hq) _ _ s
  | starves c q x hc hq _ _ =>
    exact (State.releasePage_hostStands (h.general_of_ctx hc hq) _ _ s).trans (.of_ram rfl)
  | drops c x hc hbusy _ _ =>
    obtain ⟨q, hq, hgeneral⟩ := c.general_of_busy ((h.contexts a).ctx hc) hbusy
    have hpage : c.pageOr0 = q := by rw [Context.pageOr0, hq]; rfl
    exact (State.releasePage_hostStands (hpage ▸ hgeneral) _ _ s).trans (.of_ram rfl)
  | _ => exact .of_ram rfl

theorem Act.hostStands (hact : Act s t) (h : PageLaws s) (hfilling : FillingLaw s) :
    HostStands w s t := by
  cases hact with
  | move a hmove => exact hmove.hostStands h hfilling
  | entry a value hmove =>
    cases hmove with
    | granted c p count r _ hp _ =>
      have hclaim : HostStands w s
          { s with claims := Sparse.insert s.claims p.toNat { axis := a, level := c.level } } :=
        .of_ram rfl
      exact (hclaim.write 2 (.inl (isHostWord_pageWord (isGeneralPage_of_generalPage? hp) 1))).trans
        (.of_ram rfl)
    | starves c p st _ _ _ _ => exact .of_ram rfl
  | agenda tasks n => exact .of_ram rfl

theorem Act.fillingLaw (hact : Act s t) (h : FillingLaw s) : FillingLaw t := by
  rcases hact.report with hreport | ⟨body, -, rfl⟩
  · exact h.of_slots (by rw [hreport])
  · exact State.handRecord_fillingLaw body h

/-- The laws that keep the part to its own words. -/
structure HostPremises (s : State) : Prop where
  pages : PageLaws s
  filling : FillingLaw s

/-- The laws stand, and the host words as in `s`. -/
structure HostKept (w : Option Addr) (s t : State) : Prop where
  premises : HostPremises t
  stands : HostStands w s t

theorem HostPremises.acts (h : HostPremises s) (hacts : Acts s t) : HostKept w s t :=
  hacts.keeps (P := HostKept w s)
    (fun _ _ hact hu =>
      ⟨⟨hu.premises.pages.act hact, hact.fillingLaw hu.premises.filling⟩,
        hu.stands.trans (hact.hostStands hu.premises.pages hu.premises.filling)⟩)
    ⟨h, .refl s⟩

/-! ### Ticks and run control -/

theorem State.flushSnap_hostStands (s : State) : HostStands w s s.flushSnap := by
  simp only [State.flushSnap]
  split
  · exact .refl s
  · have hwords : HostStands w s (s.writeWords 0x0021 s.snapWords) := by
      refine (HostStands.refl s).writeWords fun i hi => ?_
      have hlen : s.snapWords.length = 19 := rfl
      rw [hlen] at hi
      revert i
      decide
    exact (hwords.write _ (.inl (by decide))).trans (.of_ram rfl)

theorem State.rewriteStatus_hostStands (a : Axis) (s : State) :
    HostStands w s (s.rewriteStatus a) := fun addr haddr _ => by
  have hstatus (n : Nat) (hn : 16 ≤ n ∧ n ≤ 31) : axisWord a n ≠ addr := fun heq => by
    rw [← heq, isHostWord_status a hn] at haddr
    cases haddr
  have hlen : (s.statusFields a).flatten.length = 14 := rfl
  rw [State.read, State.rewriteStatus_ram, Memory.read_write_ne _ (hstatus 17 (by decide)),
    Memory.read_writeChanged_outside, Memory.read_write_ne _ (hstatus 17 (by decide))]
  · rfl
  · intro i hi
    rw [axisWord_add]
    exact hstatus (18 + i) (by omega)

theorem State.flushAll_hostStands (s : State) : HostStands w s s.flushAll := by
  have hlist (l : List Axis) (u : State) :
      HostStands w u (l.foldl (fun s a => s.flushStatus a) u) := by
    induction l generalizing u with
    | nil => exact .refl u
    | cons a l ih =>
      refine .trans ?_ (ih (u.flushStatus a))
      simp only [State.flushStatus]
      split
      · exact u.rewriteStatus_hostStands a
      · exact .refl u
  exact hlist allAxes s

theorem State.endTick_hostStands (s : State) : HostStands w s s.endTick :=
  s.flushSnap_hostStands.trans (State.flushAll_hostStands _)

theorem State.writeJoinEntries_hostStands (l : List Point) (s : State) :
    HostStands w s (s.writeJoinEntries l) := by
  induction l generalizing s with
  | nil => exact .refl s
  | cons j l ih =>
    simp only [State.writeJoinEntries]
    refine ((HostStands.refl s).writeWords fun i hi => ?_).trans (ih _)
    have hadd : joinWord j 3 + BitVec.ofNat 15 i = joinWord j (3 + i) := by
      rw [joinWord, joinWord, ← BitVec.ofNat_add, Nat.add_assoc]
    rw [hadd]
    refine isHostWord_joinWord j ?_
    simp only [List.length_cons, List.length_nil] at hi
    omega

theorem State.writeMirrors_hostStands (l : List Line) (s : State) :
    HostStands w s (s.writeMirrors l) := by
  induction l generalizing s with
  | nil => exact .refl s
  | cons n l ih =>
    simp only [State.writeMirrors]
    exact ((HostStands.refl s).write _ (.inl (isHostWord_lineMirror n))).trans (ih _)

theorem State.spanReset_hostStands (c : Setup) (s : State) : HostStands w s (s.spanReset c) :=
  s.flushSnap_hostStands.trans (.of_ram (by simp only [State.spanReset, State.mapAxes_ram]))

theorem State.spanLines_hostStands (c : Setup) (raw : BitVec 16) (s : State) :
    HostStands w s (s.spanLines c raw) :=
  ((s.spanReset_hostStands c).trans (State.writeJoinEntries_hostStands allSixteen _)).trans
    (.of_ram (by simp only [State.spanLines]))

theorem State.spanOpened_hostStands (c : Setup) (raw : BitVec 16) (s : State) :
    HostStands w s (s.spanOpened c raw) :=
  ((s.spanLines_hostStands c raw).trans (State.writeMirrors_hostStands allSixteen _)).trans
    (.of_ram (by simp only [State.spanOpened]))

theorem State.startSpan_hostStands (c : Setup) (raw : BitVec 16) (s : State) :
    HostStands w s (s.startSpan c raw) := by
  have haging : HostStands w (s.spanOpened c raw)
      ((s.spanOpened c raw).restartAging.readBack 1 .taken) := .of_ram (by
    rw [State.readBack_ram, State.restartAging_frame])
  rw [State.startSpan_eq]
  exact ((s.spanOpened_hostStands c raw).trans haging).trans (State.flushAll_hostStands _)

theorem State.stopSpan_hostStands (h : HostPremises s) : HostStands w s s.stopSpan := by
  have hacts := h.acts (w := w) (Acts.stopSpan s)
  have hends : HostStands w s.haltsActive.settled
      (if s.haltsActive.settled.report.waitList = [] then s.haltsActive.settled.enterStopped
      else { s.haltsActive.settled with dev := .stopping }) := by
    split
    · exact State.enterStopped_hostStands hacts.premises.pages.slots
    · exact .of_ram rfl
  rw [State.stopSpan_eq]
  exact (hacts.stands.trans hends).trans (.of_ram rfl)

theorem State.scan_hostStands (h : PageLaws s) (kept : Time) : HostStands w s (s.scan kept) := by
  have hlist : HostStands w s { s.releaseList kept s.claims with claims := [] } :=
    (State.releaseList_hostStands kept s.claims s h.claims).trans (.of_ram rfl)
  have hslots : SlotsGeneral { s.releaseList kept s.claims with claims := [] } :=
    h.slots.of_slots (by rw [State.releaseList_fields])
  have hfilling (u : State) (hu : SlotsGeneral u) : HostStands w u (u.scanFilling kept) := by
    simp only [State.scanFilling]
    split
    · exact .refl u
    · split
      · exact State.writeSlot_hostStands _ _ u
      · exact State.closePage_hostStands hu .reset kept
  exact (hlist.trans (hfilling _ hslots)).trans (.of_ram rfl)

theorem State.tick_hostStands (raw : BitVec 16) (s : State) : HostStands w s (s.tick raw) := by
  refine s.endTick_hostStands.trans (.of_ram ?_)
  simp only [State.tick, State.sampleAndCount_ram, State.advanceTimebase_ram]

theorem HostStores.hostStands (h : HostStores w s t) : HostStands w s t := by
  cases h with
  | nothing => exact .refl s
  | word addr v hw => exact (HostStands.refl s).write v (.inr hw)
  | answered a v tag r hw =>
    exact ((HostStands.refl s).write v (.inr hw)).write _
      (.inl (isHostWord_status a (n := 16) (by decide)))

theorem HostStores.premises (h : HostStores w s t) (hs : HostPremises s) : HostPremises t := by
  have hreport : t.report = s.report := by cases h <;> rfl
  refine ⟨hs.pages.of_axes (hs.pages.contexts.of_axes h.axes) (fun e he => ?_) hreport,
    hs.filling.of_slots (by rw [hreport])⟩
  rw [h.claims] at he
  exact he

theorem CommandEffect.hostStands {c : Instr} (h : CommandEffect w s c t) (hs : HostPremises s)
    (hc : c ≠ .zeroFillEnd) : HostStands w s t := by
  cases h with
  | registers c t hframe => exact .of_ram (by rw [hframe.frame])
  | hardReset kind => exact .of_ram rfl
  | fillStarts c _ => exact .of_ram rfl
  | fillEnds _ => exact absurd rfl hc
  | softReset c _ =>
    refine s.endTick_hostStands.trans (.of_ram ?_)
    simp only [State.softReset]
  | scanEnds c kept _ => exact (State.scan_hostStands hs.pages kept).trans (.of_ram rfl)
  | spanStarts c setup raw _ => exact s.startSpan_hostStands setup raw
  | spanStops c _ => exact State.stopSpan_hostStands hs
  | flushes c _ =>
    exact (State.closeIfRecords_hostStands hs.pages.slots .flush s.timebase).trans (.of_ram rfl)
  | ages c =>
    exact (State.closeIfRecords_hostStands hs.pages.slots .aged s.timebase).trans (.of_ram rfl)
  | slotWritten c k v _ _ =>
    have hwritten : HostPremises (s.slotStateWrite k v) :=
      ⟨hs.pages.slotStateWrite k v, FillingLaw.slotStateWrite hs.filling k v⟩
    exact (State.slotStateWrite_hostStands hs.pages hs.filling k v).trans
      (hwritten.acts (Acts.settled _)).stands
  | stores c addr v _ hw => exact (HostStands.refl s).write v (.inr hw)
  | rearms c j v _ hw =>
    have hstored : HostStands w s (s.write (joinWord j 2) v) := (HostStands.refl s).write v (.inr hw)
    have hpremises : HostPremises (s.write (joinWord j 2) v) :=
      ⟨hs.pages.of_axes hs.pages.contexts (fun _ => id) rfl, hs.filling⟩
    exact hstored.trans (hpremises.acts (Acts.of_moves (Moves.rearm (a := 0) j _))).stands
  | steps a _ => exact .of_ram rfl
  | pulseEnds c a _ => exact .of_ram rfl
  | ticks c raw => exact s.tick_hostStands raw
  | @works c v u as stored opened _ =>
    have hopened := (stored.premises hs).acts (w := w) opened.acts
    exact (stored.hostStands.trans hopened.stands).trans (hopened.premises.acts (.settled u)).stands

/-- Settles O22: each kind of write of the part is to a word of its own. -/
theorem hostWordsKept : Obligations.HostWordsKept := fun _ s _ addr hpage hrecord hfilling _ hexec hc haddr hw =>
  (exec_effect hexec).hostStands ⟨(pageLaws_iff s).mpr ⟨hpage, hrecord⟩, hfilling⟩ hc addr haddr hw

end Sys2Proof.Machine
end

