-- ==== Sys2Proof/Proofs/Queue.lean ====
section
/-!
PROOF. The queue and the outcomes (log 3, log 4): step takes the front of the queue, every command answers
a next state, and no command touches the queue.
-/
namespace Sys2Proof.Machine

variable {a : Axis} {s t : State}

/-- Settles O1. -/
theorem stepTakesFront : Obligations.StepTakesFront := fun _ _ _ => ⟨rfl, rfl⟩

/-! ### Every command answers a next state -/

theorem next_of_ite (p : Prop) [Decidable p] (u v : State) :
    ∃ t, (if p then .next u else .next v : Host.Outcome State Fault Refusal) = .next t := by
  split
  · exact ⟨u, rfl⟩
  · exact ⟨v, rfl⟩

theorem exec_next (c : Instr) (s : State) : ∃ t, exec c s = .next t := by
  cases c with
  | softResetScanEnd =>
    simp only [exec, execSoftResetScanEnd]
    split
    · exact next_of_ite ..
    all_goals exact ⟨_, rfl⟩
  | zeroFillEnd => exact next_of_ite ..
  | resetNRelease => exact next_of_ite ..
  | linkWordEvent p value => exact next_of_ite ..
  | stateWordEvent p value => exact next_of_ite ..
  | stepBoundary b => exact next_of_ite ..
  | leadGapEnd b => exact next_of_ite ..
  | stepStart b => exact next_of_ite ..
  | pulseEnd b => exact next_of_ite ..
  | dwellExpiry b => exact next_of_ite ..
  | waitInputTimeout b => exact next_of_ite ..
  | joinTimeout j => exact next_of_ite ..
  | agingExpiry => exact next_of_ite ..
  | qualifiedChange n => exact next_of_ite ..
  | tickBoundary raw => exact next_of_ite ..
  | _ => exact ⟨_, rfl⟩

/-! ### The queue stands -/

theorem ReportFrame.pending (h : ReportFrame s t) : t.pending = s.pending := by rw [h.fields]

theorem Move.pending (h : Move a s t) : t.pending = s.pending := by
  cases h with
  | record body _ => exact (State.handRecord_frame body s).pending
  | halts cause detail _ =>
    show (s.releaseAxisClaims a).pending = s.pending
    rw [State.releaseAxisClaims, State.releaseList_fields]
  | _ => rfl

theorem Act.pending (h : Act s t) : t.pending = s.pending := by
  cases h with
  | move a h => exact h.pending
  | entry a value h => cases h <;> rfl
  | agenda tasks n => rfl

theorem Acts.pending (h : Acts s t) : t.pending = s.pending :=
  h.keeps (P := fun u => u.pending = s.pending) (fun _ _ hact hs => hact.pending.trans hs) rfl

theorem HostStores.pending {w : Option Addr} (h : HostStores w s t) : t.pending = s.pending := by
  cases h <;> rfl

theorem State.endTick_pending (s : State) : s.endTick.pending = s.pending := by
  rw [State.endTick_frame]

theorem State.enterStopped_pending (s : State) : s.enterStopped.pending = s.pending :=
  (State.closeIfRecords_frame .stop s.timebase { s with dev := .stopped }).pending

theorem State.startSpan_pending (c : Setup) (raw : BitVec 16) (s : State) :
    (s.startSpan c raw).pending = s.pending := by
  have hopened : (s.spanOpened c raw).pending = s.pending := by rw [State.spanOpened_frame]
  rw [State.startSpan_eq]
  generalize s.spanOpened c raw = u at hopened ⊢
  rw [State.flushAll_frame, State.restartAging_frame]
  exact hopened

theorem State.stopSpan_pending (s : State) : s.stopSpan.pending = s.pending := by
  have hacts := (Acts.stopSpan s).pending
  rw [State.stopSpan_eq]
  generalize s.haltsActive.settled = u at hacts ⊢
  split
  · exact u.enterStopped_pending.trans hacts
  · exact hacts

theorem State.scan_pending (kept : Time) (s : State) : (s.scan kept).pending = s.pending := by
  have hreleased : (s.releaseList kept s.claims).pending = s.pending := by
    rw [State.releaseList_fields]
  have hfilling (u : State) : (u.scanFilling kept).pending = u.pending := by
    simp only [State.scanFilling]
    split
    · rfl
    · split
      · rfl
      · exact (State.closePage_frame .reset kept u).pending
  exact (hfilling _).trans hreleased

theorem State.slotStateWrite_pending (k : Slot) (v : Word) (s : State) :
    (s.slotStateWrite k v).pending = s.pending := by
  have hdrain (u : State) : u.drain.pending = u.pending := by rw [u.drain_frame.fields]
  have hcheck (u : State) : u.checkStopped.pending = u.pending := by
    simp only [State.checkStopped]
    split
    · exact u.enterStopped_pending
    · rfl
  simp only [State.slotStateWrite]
  split
  · rfl
  · split
    · rfl
    · split
      · exact (hcheck _).trans (hdrain _)
      · rfl

theorem State.tick_pending (raw : BitVec 16) (s : State) : (s.tick raw).pending = s.pending := by
  have hend := s.endTick_pending
  have hadvance (u : State) : u.advanceTimebase.pending = u.pending := by
    simp only [State.advanceTimebase]
    split <;> rfl
  have hsample (u : State) : (u.sampleAndCount raw).pending = u.pending := by
    simp only [State.sampleAndCount]
    split <;> rfl
  rw [State.tick]
  generalize s.endTick = u at hend ⊢
  exact (hsample _).trans ((hadvance _).trans hend)

theorem CommandEffect.pending {w : Option Addr} {c : Instr} (h : CommandEffect w s c t) :
    t.pending = s.pending := by
  cases h with
  | registers c t hframe => rw [hframe.frame]
  | softReset c _ =>
    have hend := s.endTick_pending
    rw [State.softReset]
    generalize s.endTick = u at hend ⊢
    exact hend
  | scanEnds c kept _ => exact s.scan_pending kept
  | spanStarts c setup raw _ => exact s.startSpan_pending setup raw
  | spanStops c _ => exact s.stopSpan_pending
  | flushes c _ => exact (State.closeIfRecords_frame .flush s.timebase s).pending
  | ages c => exact (State.closeIfRecords_frame .aged s.timebase s).pending
  | slotWritten c k v _ _ =>
    exact (Acts.settled _).pending.trans (s.slotStateWrite_pending k v)
  | ticks c raw => exact s.tick_pending raw
  | works c stored opened _ =>
    exact (Acts.settled _).pending.trans (opened.acts.pending.trans stored.pending)
  | _ => rfl

/-- Settles O2. -/
theorem everyCommandGivesANextState : Obligations.EveryCommandGivesANextState := fun c s => by
  obtain ⟨t, ht⟩ := exec_next c s
  exact ⟨t, ht, (exec_effect ht).pending⟩

end Sys2Proof.Machine
end

