-- ==== Sys2Proof/Proofs/Registers.lean ====
section
/-!
PROOF. Resets, run control and registers: the commands with a single effect (R19, R25, R33, R166 to R173).
-/
namespace Sys2Proof.Machine

variable {a : Axis} {s t : State}

/-! ### The device in INIT -/

theorem State.inInit_iff (s : State) : s.inInit = true ↔ ∃ p, s.dev = .init p := by
  unfold State.inInit
  cases s.dev <;> simp

theorem State.anyPulse_eq_false (h : ∀ a, (s.ax a).step.isHigh = false) : s.anyPulse = false := by
  simp only [State.anyPulse, List.any_eq_false]
  exact fun a _ => Bool.eq_false_iff.mp (h a)

theorem State.anyPulse_eq_true (h : (s.ax a).step.isHigh = true) : s.anyPulse = true :=
  List.any_eq_true.mpr ⟨a, mem_allAxes a, h⟩

/-! ### Hard reset and zero fill -/

/-- Settles O4: the axis engines are those of resetKeepingPulse, or of power-on. -/
theorem hardResetRestoresEveryBlock : Obligations.HardResetRestoresEveryBlock := by
  intro kind s
  refine ⟨s.hardReset kind, exec_hardReset kind s, rfl, fun a => ?_⟩
  rw [State.hardReset_ax]
  refine ⟨?powerOn, ?low, ?high⟩
  case powerOn =>
    rintro rfl
    rfl
  case low =>
    rintro rfl hlow
    exact if_neg (Bool.eq_false_iff.mp hlow)
  case high =>
    rintro rfl hhigh
    exact if_pos hhigh

/-- Settles O5: a fill that ends leaves no listed word, and a pulse keeps it from ending. -/
theorem zeroFillClearsTheRam : Obligations.ZeroFillClearsTheRam := by
  intro s
  refine ⟨fun hheld => if_pos hheld, fun hfill hlow => ?ends, fun ⟨a, hhigh⟩ => ?goesOn⟩
  case ends =>
    refine ⟨{ s with ram := [], dev := .stopped, acause := AlertCause.resetDone.bit }, ?_, rfl,
      fun _ => rfl⟩
    exact if_pos ⟨hfill, State.anyPulse_eq_false hlow⟩
  case goesOn =>
    refine if_neg ?_
    rintro ⟨-, hnone⟩
    rw [State.anyPulse_eq_true hhigh] at hnone
    cases hnone

/-! ### Run control -/

section CmdWrite

variable (s) (value : Word)

theorem State.runStartCommand_of_inInit (raw : BitVec 16) (h : s.inInit = true) :
    s.runStartCommand raw = s := by
  obtain ⟨p, hp⟩ := s.inInit_iff.mp h
  simp only [State.runStartCommand, hp]

theorem State.runStopCommand_of_inInit (h : s.inInit = true) : s.runStopCommand = s := by
  obtain ⟨p, hp⟩ := s.inInit_iff.mp h
  simp only [State.runStopCommand, hp]

/-- A write to CMD with no command's code. -/
theorem State.cmdWrite_of_noCode
    (h : (value.extractLsb' 0 4).toNat = 0 ∨ 6 ≤ (value.extractLsb' 0 4).toNat) :
    s.cmdWrite value = if s.inInit then s else s.readBack (value.extractLsb' 0 4) .refused := by
  simp only [State.cmdWrite]
  split
  case h_6 => rfl
  all_goals omega

theorem State.cmdWrite_of_inInit (h : s.inInit = true) : s.cmdWrite value = s := by
  simp only [State.cmdWrite]
  split
  · exact s.runStartCommand_of_inInit _ h
  · exact s.runStopCommand_of_inInit h
  all_goals exact if_pos h

theorem State.registerWrite_of_inInit (reg : Reg) (h : s.inInit = true) :
    s.registerWrite reg value = s := by
  cases reg with
  | cmd => exact s.cmdWrite_of_inInit value h
  | acause => exact if_pos h
  | amask => exact if_pos h
  | _ => rfl

/-- The row CMD_NONE_CODE is the command of the code it carries. -/
theorem exec_cmdNoneCode_eq :
    exec (.cmdNoneCode value) s = exec (runControlOf s.rawLevels value) s := by
  unfold runControlOf
  split
  case h_6 => rfl
  all_goals
    rename_i hcode
    refine congrArg Host.Outcome.next ?_
    simp only [State.cmdWrite, hcode]

end CmdWrite

/-- Settles O10. -/
theorem refusedRunControl : Obligations.RefusedRunControl := by
  intro s raw value
  refine ⟨fun hdev => ?start, fun hdev => ?stop, fun hinit hcode => ?noCode, fun hinit => ?ignored⟩
  case start =>
    refine congrArg Host.Outcome.next ?_
    rcases hdev with hdev | hdev <;> simp only [State.runStartCommand, hdev, State.readBack]
  case stop =>
    refine congrArg Host.Outcome.next ?_
    rcases hdev with hdev | hdev <;> simp only [State.runStopCommand, hdev, State.readBack]
  case noCode =>
    refine congrArg Host.Outcome.next ?_
    rw [State.cmdWrite_of_noCode s value hcode, if_neg (Bool.eq_false_iff.mp hinit), State.readBack]
  case ignored =>
    have hnext {u : State} (hu : u = s) : (.next u : Host.Outcome State Fault Refusal) = .next s :=
      congrArg Host.Outcome.next hu
    exact ⟨hnext (s.runStartCommand_of_inInit raw hinit), hnext (s.runStopCommand_of_inInit hinit),
      hnext (if_pos hinit), hnext (if_pos hinit), hnext (if_pos hinit),
      hnext (s.cmdWrite_of_inInit value hinit)⟩

/-! ### The register window -/

/-- Settles O17: the latch's two words are bits 31:16 and 47:32 of the timebase. -/
theorem time0ReadLoadsTheLatch : Obligations.Time0ReadLoadsTheLatch := by
  intro s
  refine ⟨_, rfl, rfl, ?low, ?high⟩ <;>
  · apply BitVec.eq_of_getLsbD_eq
    intro i hi
    simp only [State.readRegister, BitVec.getLsbD_extractLsb', hi, decide_true, Bool.true_and]
    grind

theorem toNat_append_eq {m n : Nat} (x : BitVec m) (y : BitVec n) :
    (x ++ y).toNat = x.toNat * 2 ^ n + y.toNat := by
  rw [BitVec.toNat_append, Nat.shiftLeft_eq, Nat.mul_comm, Nat.two_pow_add_eq_or_of_lt y.isLt]

theorem State.cmdWord_toNat (s : State) :
    s.cmdWord.toNat =
      match s.cmdBack with
      | none => 0
      | some (code, .taken) => code.toNat + 256
      | some (code, .refused) => code.toNat + 512 := by
  unfold State.cmdWord
  rcases s.cmdBack with _ | ⟨code, _ | _⟩
  · rfl
  · show (0#6 ++ 1#2 ++ 0#4 ++ code).toNat = code.toNat + 256
    rw [toNat_append_eq, Nat.add_comm]
    rfl
  · show (0#6 ++ 2#2 ++ 0#4 ++ code).toNat = code.toNat + 512
    rw [toNat_append_eq, Nat.add_comm]
    rfl

theorem DevState.code_toNat (d : DevState) :
    d.code.toNat =
      match d with
      | .init _ => 0
      | .stopped => 1
      | .running => 2
      | .stopping => 3 := by
  cases d <;> rfl

theorem SetupFault.code_toNat (f : SetupFault) :
    f.code.toNat =
      match f with
      | .ok => 0
      | .noAxes => 1
      | .axisLimits => 2
      | .joinMembers => 3
      | .inputAxes => 4
      | .inputHead => 5 := by
  cases f <;> rfl

theorem State.statWord_toNat (s : State) :
    s.statWord.toNat = s.dev.code.toNat + 16 * s.faultCode.code.toNat + 256 * s.faultIndex.toNat := by
  simp only [State.statWord, toNat_append_eq, BitVec.toNat_ofNat]
  omega

/-- A write to ID, STAT or TIME0 to TIME2 changes nothing. -/
theorem State.registerWrite_of_readOnly {offset : BitVec 3} (value : Word) (s : State)
    (h : offset = 0 ∨ offset = 2 ∨ offset = 5 ∨ offset = 6 ∨ offset = 7) :
    s.registerWrite (Reg.ofOffset offset) value = s := by
  rcases h with rfl | rfl | rfl | rfl | rfl <;> rfl

/-- Settles O18. -/
theorem readOnlyRegistersIgnoreWrites : Obligations.ReadOnlyRegistersIgnoreWrites := by
  intro offset value s
  have hwritten (h : offset = 0 ∨ offset = 2 ∨ offset = 5 ∨ offset = 6 ∨ offset = 7 ∨
      s.inInit = true) : s.registerWrite (Reg.ofOffset offset) value = s := by
    simp only [← or_assoc] at h
    rcases h with h | hinit
    · simp only [or_assoc] at h
      exact State.registerWrite_of_readOnly value s h
    · exact s.registerWrite_of_inInit value _ hinit
  refine ⟨fun h => congrArg Host.Outcome.next (hwritten h), rfl, rfl, rfl, exec_cmdNoneCode_eq s value,
    rfl, s.cmdWord_toNat, ?stat, ?acause, ?amask, rfl, rfl, rfl⟩
  case stat =>
    exact s.statWord_toNat.trans
      (congrArg₂ (fun d f => d + 16 * f + 256 * s.faultIndex.toNat) s.dev.code_toNat
        s.faultCode.code_toNat)
  case acause =>
    have hle : 10 ≤ 16 := by decide
    exact BitVec.setWidth_eq_append hle
  case amask => exact s.readRegister_amask

/-! ### Discarded writes -/

/-- Settles O20: the handlers of host writes leave a state in INIT as it is, and a quiet state is settled. -/
theorem initDiscardsHostWrites : Obligations.InitDiscardsHostWrites := by
  intro s hquiet hinit addr value a code arg j k p
  have hsettled {u : State} (hu : u = s) :
      (.next u.settled : Host.Outcome State Fault Refusal) = .next s := by
    rw [hu, State.settled_nil s hquiet]
  have hcommand (b : Axis) (v : Word) (check : State → AnswerResult) (effect : State → State) :
      s.commandWrite b v check effect = s := if_pos hinit
  have haxis (b : Axis) (v : Word) : s.axisCommandWrite b v = s := by
    simp only [State.axisCommandWrite]
    split
    · exact if_pos hinit
    all_goals exact hcommand _ _ _ _
  have hjoin (j : Point) (v : Word) : s.joinControlWrite j v = s := if_pos hinit
  have hslot (k : Slot) (v : Word) : s.slotStateWrite k v = s := if_pos hinit
  have hhost : s.hostWrite addr value = s := by
    simp only [State.hostWrite]
    split
    · exact haxis _ _
    · exact hjoin _ _
    · exact hslot _ _
    · exact if_pos hinit
  exact ⟨if_pos hinit, hsettled hhost, congrArg Host.Outcome.next (if_pos hinit),
    hsettled (hcommand ..), hsettled (hcommand ..), hsettled (hcommand ..), hsettled (hcommand ..),
    hsettled (hcommand ..), hsettled (hcommand ..), hsettled (hcommand ..), hsettled (hcommand ..),
    hsettled (haxis ..), congrArg Host.Outcome.next (hjoin j value), hsettled (hslot k value),
    if_pos hinit, if_pos hinit⟩

end Sys2Proof.Machine
end

