-- ==== Sys2Proof/Proofs/Reset.lean ====
section
/-!
PROOF. The part at power-on (R33): the tables at their reset values, and the laws that every step keeps.
-/
namespace Sys2Proof.Machine

/-! ### The tables at reset -/

@[simp] theorem State.reset_ax (a : Axis) : State.reset.ax a = AxisEngine.reset := by
  revert a; decide

@[simp] theorem State.reset_point (j : Point) : State.reset.point j = JoinPoint.reset := by
  revert j; decide

@[simp] theorem State.reset_members (j : Point) : State.reset.members j = 0 := by
  revert j; decide

@[simp] theorem State.reset_line (n : Line) : State.reset.line n = InputLine.reset := by
  revert n; decide

@[simp] theorem State.reset_lineSetup (n : Line) : State.reset.lineSetup n = LineSetup.reset := by
  revert n; decide

@[simp] theorem State.reset_limits (a : Axis) : State.reset.limits a = AxisLimits.reset := by
  revert a; decide

@[simp] theorem State.reset_slot (k : Slot) : State.reset.slot k = .unused := by
  revert k; decide

@[simp] theorem State.reset_owedOf (a : Axis) : State.reset.owedOf a = [] := by
  revert a; decide

/-! ### The laws at reset -/

/-- An axis engine at reset holds no context. -/
theorem AxisEngine.reset_contexts :
    AxisEngine.reset.ctx.toList ++ AxisEngine.reset.stack = [] := rfl

theorem pageLaw_reset : PageLaw State.reset := by
  refine ⟨fun e he => absurd he List.not_mem_nil, fun a c hc => ?_, fun k => ?_⟩
  · rw [State.reset_ax, AxisEngine.reset_contexts] at hc
    cases hc
  · rw [State.reset_slot]
    rfl

theorem idleBaseLaw_reset : IdleBaseLaw State.reset := fun a c hc => by
  rw [State.reset_ax, AxisEngine.reset_contexts] at hc
  cases hc

theorem fillingLaw_reset : FillingLaw State.reset := fun j _ hj => by
  rw [State.reset_slot] at hj
  cases hj

theorem oweLaw_reset : OweLaw State.reset :=
  ⟨fun a => by simp, .nil, fun a => by rw [State.reset_owedOf]; exact iff_of_false List.not_mem_nil (by simp)⟩

theorem joinLaw_reset : JoinLaw State.reset := fun j => by
  rw [State.reset_point, State.reset_members]
  exact ⟨rfl, fun _ h => absurd rfl h⟩

theorem recordLaw_reset : RecordLaw State.reset :=
  ⟨fun r hr => absurd hr List.not_mem_nil, fun a r hr => by
    rw [State.reset_owedOf] at hr
    cases hr⟩

/-- Settles O3. -/
theorem resetValuesAndLaws : Obligations.ResetValuesAndLaws := by
  have hax (a : Axis) := State.reset_ax a
  refine ⟨rfl, rfl, rfl, rfl, rfl, rfl, rfl, rfl, rfl, rfl, rfl, rfl, rfl, fun a => ?axes,
    fun j => ⟨State.reset_point j, State.reset_members j⟩, fun n => ?lines, State.reset_slot, rfl, rfl,
    rfl, rfl, rfl, rfl, rfl, rfl, rfl, fun _ => rfl, rfl, rfl, fun a => ?bracket,
    ⟨rfl, fun e he => absurd he List.not_mem_nil⟩, fun a => ?stack, fun a _ => ?requests,
    fillingLaw_reset, ⟨Nat.zero_le 8, fun h => absurd rfl h⟩, oweLaw_reset, joinLaw_reset, fun _ => rfl,
    pageLaw_reset, recordLaw_reset, fun _ a => ?rest, fun _ e he => absurd he List.not_mem_nil,
    idleBaseLaw_reset⟩
  case axes =>
    rw [hax, State.reset_owedOf, State.reset_limits]
    exact ⟨rfl, rfl, rfl, rfl, rfl, rfl, rfl, rfl, rfl, rfl⟩
  case lines =>
    rw [State.reset_line, State.reset_lineSetup]
    exact ⟨rfl, rfl, rfl, rfl, rfl⟩
  case bracket => rw [hax]; rfl
  case stack => rw [hax]; rfl
  case requests => rw [hax]; rfl
  case rest => rw [hax]; rfl

end Sys2Proof.Machine
end

