-- ==== Sys2Proof/Proofs/Reads.lean ====
section
/-!
SUPPORT. The addresses of the directory and of the pages as numbers, and what a read returns inside a write
of consecutive words.
-/
namespace Sys2Proof.Machine

variable {s t : State}

/-! ### Addresses as numbers (12.1) -/

theorem addr_ne_of_toNat {x y : Addr} (h : x.toNat ≠ y.toNat) : x ≠ y := fun e => h (congrArg _ e)

theorem axisWord_toNat (a : Axis) {n : Nat} (h : n < 32) :
    (axisWord a n).toNat = 0x0100 + 32 * a.val + n := by
  rw [axisWord, BitVec.toNat_ofNat]
  omega

theorem joinWord_toNat (j : Point) {n : Nat} (h : n < 8) :
    (joinWord j n).toNat = 0x0080 + 8 * j.val + n := by
  rw [joinWord, BitVec.toNat_ofNat]
  omega

theorem lineWord_toNat (n : Line) {i : Nat} (h : i < 8) :
    (lineWord n i).toNat = 0x0200 + 8 * n.val + i := by
  rw [lineWord, BitVec.toNat_ofNat]
  omega

theorem slotStateWord_toNat (k : Slot) : (slotStateWord k).toNat = 0x0041 + 2 * k.val := by
  rw [slotStateWord, BitVec.toNat_ofNat]
  omega

theorem slotPageWord_toNat (k : Slot) : (slotPageWord k).toNat = 0x0040 + 2 * k.val := by
  rw [slotPageWord, BitVec.toNat_ofNat]
  omega

theorem pageWord_add (p : Page) {off : BitVec 8} {i : Nat} (h : off.toNat + i < 256) :
    pageWord p off + BitVec.ofNat 15 i = pageWord p (BitVec.ofNat 8 (off.toNat + i)) := by
  apply BitVec.eq_of_toNat_eq
  rw [pageWord_add_toNat h, pageWord_toNat, BitVec.toNat_ofNat]
  omega

/-- Outside words `lo` to `hi` of a page no word of that range is met. -/
theorem isPageWord_eq_false {p : Page} {lo hi : Nat} {addr : Addr} :
    isPageWord p lo hi addr = false ↔ addr.toNat < 256 * p.toNat + lo ∨ 256 * p.toNat + hi < addr.toNat := by
  simp only [isPageWord, Bool.and_eq_false_iff, decide_eq_false_iff_not, Nat.not_le]

theorem isStatusWord_eq_false {a : Axis} {addr : Addr} :
    isStatusWord a addr = false ↔
      addr.toNat < 0x0111 + 32 * a.val ∨ 0x011F + 32 * a.val < addr.toNat := by
  simp only [isStatusWord, Bool.and_eq_false_iff, decide_eq_false_iff_not, Nat.not_le]
  omega

/-! ### Reads inside a write of consecutive words -/

/-- A write of consecutive words, read where it has written. -/
theorem Memory.read_writeWords_at (ws : List Word) (m : Memory) (a : Addr) {i : Nat}
    (hi : i < ws.length) (hlen : ws.length ≤ 32768) :
    Memory.read (Memory.writeWords m a ws) (a + BitVec.ofNat 15 i) = ws[i] := by
  induction ws generalizing m a i with
  | nil => cases hi
  | cons w ws ih =>
    simp only [List.length_cons] at hi hlen
    rw [Memory.writeWords]
    cases i with
    | zero =>
      rw [Memory.read_writeWords_outside]
      · simp
      · intro k hk he
        have hnum := congrArg BitVec.toNat he
        have hone : BitVec.toNat (1 : Addr) = 1 := rfl
        simp only [BitVec.toNat_add, BitVec.toNat_ofNat, hone] at hnum
        omega
    | succ i =>
      have hnext : a + BitVec.ofNat 15 (i + 1) = a + 1 + BitVec.ofNat 15 i := by
        rw [Nat.add_comm i 1, BitVec.ofNat_add, BitVec.add_assoc]
        rfl
      rw [hnext, ih (m.write a w) (a + 1) (by omega) (by omega)]
      rfl

/-- The same of a page: words from `off` on that stay within the page. -/
theorem Memory.read_writeWords_page (ws : List Word) (m : Memory) (p : Page) (off : BitVec 8) {i : Nat}
    (hi : i < ws.length) (hlen : off.toNat + ws.length ≤ 256) :
    Memory.read (Memory.writeWords m (pageWord p off) ws)
      (pageWord p (BitVec.ofNat 8 (off.toNat + i))) = ws[i] := by
  rw [← pageWord_add p (by omega)]
  exact Memory.read_writeWords_at ws m _ hi (by omega)

/-- A write of consecutive words of a page leaves every other word. -/
theorem Memory.read_writeWords_page_outside (ws : List Word) (m : Memory) (p : Page) (off : BitVec 8)
    {addr : Addr} (hlen : off.toNat + ws.length ≤ 256)
    (h : addr.toNat < 256 * p.toNat + off.toNat ∨ 256 * p.toNat + off.toNat + ws.length ≤ addr.toNat) :
    Memory.read (Memory.writeWords m (pageWord p off) ws) addr = Memory.read m addr := by
  refine Memory.read_writeWords_outside ws m _ addr fun i hi => addr_ne_of_toNat ?_
  rw [pageWord_add_toNat (by omega)]
  omega

/-- A write, read at an address that differs as a number. -/
theorem Memory.read_write_of_toNat (m : Memory) {x y : Addr} (h : x.toNat ≠ y.toNat) (v : Word) :
    Memory.read (Memory.write m x v) y = Memory.read m y :=
  Memory.read_write_ne m (addr_ne_of_toNat h) v

end Sys2Proof.Machine
end

