-- ==== Sys2Proof/Proofs/AxisCommands.lean ====
section
/-!
PROOF. The axis commands (R79, R80): the command word and its answer, what an accepted and a refused
command leaves, and the commands that only answer.
-/
namespace Sys2Proof.Machine

variable {a : Axis} {s t : State}

/-! ### The fields of a command word -/

theorem commandWord_toNat (code : BitVec 4) (arg : BitVec 12) :
    (commandWord code arg).toNat = arg.toNat * 16 + code.toNat := toNat_append_eq arg code

theorem commandCode_commandWord (code : BitVec 4) (arg : BitVec 12) :
    commandCode (commandWord code arg) = code := by
  apply BitVec.eq_of_toNat_eq
  rw [commandCode, BitVec.extractLsb'_toNat, commandWord_toNat, Nat.shiftRight_zero]
  omega

theorem commandTag_commandWord (code : BitVec 4) (arg : BitVec 12) :
    commandTag (commandWord code arg) = arg.extractLsb' 4 8 := by
  apply BitVec.eq_of_toNat_eq
  rw [commandTag, BitVec.extractLsb'_toNat, BitVec.extractLsb'_toNat, commandWord_toNat,
    Nat.shiftRight_eq_div_pow, Nat.shiftRight_eq_div_pow]
  omega

theorem commandLevel_commandWord (code : BitVec 4) (arg : BitVec 12) :
    commandLevel (commandWord code arg) = argLevel arg := by
  have hbits : (commandWord code arg).extractLsb' 4 2 = arg.extractLsb' 0 2 := by
    apply BitVec.eq_of_toNat_eq
    rw [BitVec.extractLsb'_toNat, BitVec.extractLsb'_toNat, commandWord_toNat,
      Nat.shiftRight_eq_div_pow, Nat.shiftRight_zero]
    omega
  rw [commandLevel, hbits, argLevel]

/-! ### The answered state -/

theorem State.answer_eq_answered (a : Axis) (code : BitVec 4) (arg : BitVec 12) (r : AnswerResult)
    (s : State) :
    (s.write (axisWord a 0) (commandWord code arg)).answer a (commandTag (commandWord code arg)) r =
      s.answered a code arg r.code := by
  rw [commandTag_commandWord]
  rfl

section Answered

variable (a : Axis) (code : BitVec 4) (arg : BitVec 12) (r : BitVec 4) (s : State)

theorem State.answered_frame :
    s.answered a code arg r = { s with ram := (s.answered a code arg r).ram } := rfl

@[simp] theorem State.answered_ax (b : Axis) : (s.answered a code arg r).ax b = s.ax b := rfl

@[simp] theorem State.answered_agenda : (s.answered a code arg r).agenda = s.agenda := rfl

@[simp] theorem State.answered_dev : (s.answered a code arg r).dev = s.dev := rfl

/-- Any word but the command word and the answer word stands. -/
theorem State.read_answered {addr : Addr} (h0 : addr ≠ axisWord a 0) (h16 : addr ≠ axisWord a 16) :
    (s.answered a code arg r).read addr = s.read addr := by
  rw [State.answered, State.read_write_ne _ h16.symm, State.read_write_ne _ h0.symm]

theorem axisWord_ne (a b : Axis) {m n : Nat} (hm : m < 32) (hn : n < 32) (h : m ≠ n) :
    axisWord a m ≠ axisWord b n := by
  refine addr_ne_of_toNat ?_
  rw [axisWord_toNat a hm, axisWord_toNat b hn]
  omega

/-- The host's words of an axis block stand. -/
theorem State.read_answered_axisWord (b : Axis) {n : Nat} (h0 : n ≠ 0) (h16 : n < 16) :
    (s.answered a code arg r).read (axisWord b n) = s.read (axisWord b n) :=
  s.read_answered a code arg r (axisWord_ne b a (by omega) (by omega) (by omega))
    (axisWord_ne b a (by omega) (by omega) (by omega))

end Answered

/-! ### Accepted and refused -/

section Write

variable {code : BitVec 4} {arg : BitVec 12} {check : State → AnswerResult} {effect : State → State}

/-- In RUNNING a known command is refused on an OFF axis, else by its own checks. -/
theorem State.commandResult_of_running (hdev : s.dev = .running) (hcode : code.toNat < 9) :
    s.commandResult a (commandWord code arg) check =
      if (s.ax a).state = .off then .refusedState else check s := by
  rw [State.commandResult, if_neg (fun h => h hdev), commandCode_commandWord,
    if_neg (Nat.not_le.mpr hcode)]

/-- A command that is turned away is stored and answered. -/
theorem State.commandWrite_refused {r : AnswerResult} (hinit : s.inInit = false)
    (hresult : (s.write (axisWord a 0) (commandWord code arg)).commandResult a (commandWord code arg)
      check = r) (hr : r ≠ .accepted) :
    s.commandWrite a (commandWord code arg) check effect = s.answered a code arg r.code := by
  rw [State.commandWrite, if_neg (Bool.eq_false_iff.mp hinit)]
  dsimp only
  rw [hresult, if_neg hr, State.answer_eq_answered]

/-- A command that passes every check is stored, answered and carried out. -/
theorem State.commandWrite_accepted (hdev : s.dev = .running) (hcode : code.toNat < 9)
    (hoff : (s.ax a).state ≠ .off)
    (hcheck : check (s.write (axisWord a 0) (commandWord code arg)) = .accepted) :
    s.commandWrite a (commandWord code arg) check effect = effect (s.answered a code arg 1) := by
  have hresult : (s.write (axisWord a 0) (commandWord code arg)).commandResult a
      (commandWord code arg) check = .accepted :=
    (State.commandResult_of_running (s := s.write (axisWord a 0) (commandWord code arg)) hdev hcode).trans
      ((if_neg hoff).trans hcheck)
  rw [State.commandWrite, if_neg (Bool.eq_false_iff.mp (State.inInit_of_running hdev))]
  dsimp only
  rw [hresult, if_pos rfl, State.answer_eq_answered]
  rfl

/-- A command refused by the checks of R80 or by its own. -/
theorem State.commandWrite_of_refusal {own : Option (BitVec 4)} {r : BitVec 4} (hcode : code.toNat < 9)
    (hinit : s.inInit = false) (h : s.refusal a own = some r)
    (hown : s.dev = .running → (s.ax a).state ≠ .off → own = some r →
      ∃ result : AnswerResult, check (s.write (axisWord a 0) (commandWord code arg)) = result ∧
        result ≠ .accepted ∧ result.code = r) :
    s.commandWrite a (commandWord code arg) check effect = s.answered a code arg r := by
  rw [State.refusal] at h
  by_cases hdev : s.dev = .running
  · rw [if_neg (by simp [hdev])] at h
    have hrest : (s.write (axisWord a 0) (commandWord code arg)).commandResult a
        (commandWord code arg) check =
          if (s.ax a).state = .off then .refusedState
          else check (s.write (axisWord a 0) (commandWord code arg)) :=
      State.commandResult_of_running hdev hcode
    by_cases hoff : (s.ax a).state = .off
    · rw [if_pos hoff] at h hrest
      obtain rfl := Option.some.inj h
      exact State.commandWrite_refused hinit hrest AnswerResult.noConfusion
    · rw [if_neg hoff] at h hrest
      obtain ⟨result, hcheck, hne, rfl⟩ := hown hdev hoff h
      exact State.commandWrite_refused hinit (hrest.trans hcheck) hne
  · have hstopped : s.dev = .stopped ∨ s.dev = .stopping := by
      unfold State.inInit at hinit
      cases hcases : s.dev <;> simp [hcases] at hinit hdev ⊢
    rw [if_pos hstopped] at h
    obtain rfl := Option.some.inj h
    exact State.commandWrite_refused (r := .notRunning) hinit (if_pos hdev) AnswerResult.noConfusion

end Write

/-! ### Each command's own checks -/

section Checks

variable {v : Word} {r : BitVec 4}

/-- The stored command word is none of the words that the checks read. -/
theorem State.read_stored (a : Axis) (v : Word) {n : Nat} (hn : n < 32) (h : n ≠ 0) (s : State) :
    (s.write (axisWord a 0) v).read (axisWord a n) = s.read (axisWord a n) :=
  State.read_write_ne s (axisWord_ne a a (by decide) hn h.symm) v

theorem startCheck_of_refusal (h : s.startRefusal a = some r) :
    ∃ result : AnswerResult, startCheck a (s.write (axisWord a 0) v) = result ∧
      result ≠ .accepted ∧ result.code = r := by
  rw [State.startRefusal] at h
  refine ⟨_, rfl, ?_⟩
  have hax : (s.write (axisWord a 0) v).ax a = s.ax a := rfl
  rw [startCheck, State.read_stored a v (by decide) (by decide), hax]
  split at h
  · rename_i hidle
    obtain rfl := Option.some.inj h
    rw [if_pos hidle]
    exact ⟨AnswerResult.noConfusion, rfl⟩
  · rename_i hidle
    rw [if_neg hidle]
    split at h
    · rename_i hpage
      obtain rfl := Option.some.inj h
      rw [if_pos (by rw [(generalPage?_eq_none_iff _).mpr hpage]; rfl)]
      exact ⟨AnswerResult.noConfusion, rfl⟩
    · cases h

theorem pauseCheck_of_refusal (h : s.pauseRefusal a = some r) :
    ∃ result : AnswerResult, pauseCheck a (s.write (axisWord a 0) v) = result ∧
      result ≠ .accepted ∧ result.code = r := by
  refine ⟨_, rfl, ?_⟩
  have hax : (s.write (axisWord a 0) v).ax a = s.ax a := rfl
  rw [State.pauseRefusal] at h
  simp only [pauseCheck, hax]
  cases hst : (s.ax a).state <;>
    simp [hst, AxisState.pausesAtOnce] at h ⊢ <;> simp [← h, AnswerResult.code]

theorem resumeCheck_of_refusal (h : s.resumeRefusal a = some r) :
    ∃ result : AnswerResult, resumeCheck a (s.write (axisWord a 0) v) = result ∧
      result ≠ .accepted ∧ result.code = r := by
  rw [State.resumeRefusal] at h
  split at h
  · cases h
  · rename_i hstate
    obtain rfl := Option.some.inj h
    exact ⟨.refusedState, if_neg hstate, AnswerResult.noConfusion, rfl⟩

theorem abortCheck_of_refusal (h : s.abortRefusal a = some r) :
    ∃ result : AnswerResult, abortCheck a (s.write (axisWord a 0) v) = result ∧
      result ≠ .accepted ∧ result.code = r := by
  rw [State.abortRefusal] at h
  split at h
  · rename_i hstate
    obtain rfl := Option.some.inj h
    have hactive : (s.ax a).state.active = false := by
      rcases hstate with hstate | hstate <;> rw [hstate] <;> rfl
    exact ⟨.refusedState, if_neg (Bool.eq_false_iff.mp hactive), AnswerResult.noConfusion, rfl⟩
  · cases h

theorem State.owes_eq_false_iff (s : State) (a : Axis) : s.owes a = false ↔ s.owedOf a = [] := by
  simp [State.owes]

theorem clearCheck_of_refusal (h : s.clearRefusal a = some r) :
    ∃ result : AnswerResult, clearCheck a (s.write (axisWord a 0) v) = result ∧
      result ≠ .accepted ∧ result.code = r := by
  rw [State.clearRefusal] at h
  split at h
  · rename_i hhalted
    obtain rfl := Option.some.inj h
    exact ⟨.refusedState, if_pos hhalted, AnswerResult.noConfusion, rfl⟩
  · rename_i hhalted
    split at h
    · rename_i howes
      obtain rfl := Option.some.inj h
      have howes' : (s.write (axisWord a 0) v).owes a = true := by
        rw [← Bool.not_eq_false]
        exact fun hnone => howes ((s.owes_eq_false_iff a).mp hnone)
      exact ⟨.refusedBusy, (if_neg hhalted).trans (if_pos howes'), AnswerResult.noConfusion, rfl⟩
    · cases h

theorem interjectCheck_of_refusal {arg : BitVec 12} (h : s.interjectRefusal a arg = some r) :
    ∃ result : AnswerResult,
      interjectCheck a (commandWord 6 arg) (s.write (axisWord a 0) v) = result ∧
        result ≠ .accepted ∧ result.code = r := by
  rw [State.interjectRefusal] at h
  refine ⟨_, rfl, ?_⟩
  have hax : (s.write (axisWord a 0) v).ax a = s.ax a := rfl
  simp only [interjectCheck]
  rw [commandLevel_commandWord, State.read_stored a v (by decide) (by decide), hax]
  split at h
  · rename_i hhalted
    obtain rfl := Option.some.inj h
    rw [if_pos hhalted]
    exact ⟨AnswerResult.noConfusion, rfl⟩
  · rename_i hhalted
    rw [if_neg hhalted]
    split at h
    · rename_i hlevel
      obtain rfl := Option.some.inj h
      rw [if_pos hlevel]
      exact ⟨AnswerResult.noConfusion, rfl⟩
    · rename_i hlevel
      rw [if_neg hlevel]
      split at h
      · rename_i hpage
        obtain rfl := Option.some.inj h
        rw [if_pos (by rw [(generalPage?_eq_none_iff _).mpr hpage]; rfl)]
        exact ⟨AnswerResult.noConfusion, rfl⟩
      · rename_i hpage
        rw [if_neg (by rwa [Option.isNone_iff_eq_none, generalPage?_eq_none_iff])]
        split at h
        · rename_i hbusy
          obtain rfl := Option.some.inj h
          rw [if_pos (Option.isSome_iff_ne_none.mpr hbusy)]
          exact ⟨AnswerResult.noConfusion, rfl⟩
        · cases h

theorem withdrawCheck_of_refusal {arg : BitVec 12} (h : s.withdrawRefusal a arg = some r) :
    ∃ result : AnswerResult,
      withdrawCheck a (commandWord 7 arg) (s.write (axisWord a 0) v) = result ∧
        result ≠ .accepted ∧ result.code = r := by
  rw [State.withdrawRefusal] at h
  split at h
  · rename_i hempty
    obtain rfl := Option.some.inj h
    refine ⟨.refusedState, if_neg ?_, AnswerResult.noConfusion, rfl⟩
    rw [commandLevel_commandWord]
    exact fun hsome => Option.isSome_iff_ne_none.mp hsome hempty
  · cases h

/-- The SETPOS value of the words stored before the command. -/
theorem State.setposValue_stored (a : Axis) (v : Word) (s : State) :
    (s.write (axisWord a 0) v).setposValue a = s.setposValue a :=
  congrArg₂ (· ++ ·) (State.read_stored a v (by decide) (by decide) s)
    (State.read_stored a v (by decide) (by decide) s)

theorem setposCheck_of_refusal (h : s.setposRefusal a = some r) :
    ∃ result : AnswerResult, setposCheck a (s.write (axisWord a 0) v) = result ∧
      result ≠ .accepted ∧ result.code = r := by
  rw [State.setposRefusal] at h
  split at h
  · rename_i hstate
    obtain rfl := Option.some.inj h
    exact ⟨.refusedState, if_pos hstate, AnswerResult.noConfusion, rfl⟩
  · rename_i hstate
    split at h
    · rename_i houtside
      obtain rfl := Option.some.inj h
      refine ⟨.refusedArg, (if_neg hstate).trans (if_pos ?_), AnswerResult.noConfusion, rfl⟩
      rw [State.setposValue_stored]
      exact houtside
    · cases h

end Checks

/-- Settles O24. -/
theorem refusedCommandsOnlyAnswer : Obligations.RefusedCommandsOnlyAnswer := by
  intro a arg r s hquiet hinit
  have hsettled {u : State} {code : BitVec 4} (hu : u = s.answered a code arg r) :
      (.next u.settled : Host.Outcome State Fault Refusal) = .next (s.answered a code arg r) := by
    rw [hu, State.settled_nil (s.answered a code arg r) hquiet]
  exact ⟨fun h => hsettled (State.commandWrite_of_refusal (by decide) hinit h
      fun _ _ => startCheck_of_refusal),
    fun h => hsettled (State.commandWrite_of_refusal (by decide) hinit h
      fun _ _ => pauseCheck_of_refusal),
    fun h => hsettled (State.commandWrite_of_refusal (by decide) hinit h
      fun _ _ => resumeCheck_of_refusal),
    fun h => hsettled (State.commandWrite_of_refusal (by decide) hinit h
      fun _ _ => abortCheck_of_refusal),
    fun h => hsettled (State.commandWrite_of_refusal (by decide) hinit h
      fun _ _ => clearCheck_of_refusal),
    fun h => hsettled (State.commandWrite_of_refusal (by decide) hinit h
      fun _ _ => interjectCheck_of_refusal),
    fun h => hsettled (State.commandWrite_of_refusal (by decide) hinit h
      fun _ _ => withdrawCheck_of_refusal),
    fun h => hsettled (State.commandWrite_of_refusal (by decide) hinit h
      fun _ _ => setposCheck_of_refusal)⟩

/-! ### NONE and the unknown codes -/

/-- Settles O23. -/
theorem commandsWithoutEffect : Obligations.CommandsWithoutEffect := by
  refine ⟨fun a arg s hinit => ?none, fun a code arg s hquiet hcode => ?unknown⟩
  case none =>
    refine ⟨s.write (axisWord a 0) (commandWord 0 arg), ?_, rfl, State.read_write_same .., ?_⟩
    · exact congrArg Host.Outcome.next (if_neg (Bool.eq_false_iff.mp hinit))
    · intro addr haddr
      exact State.read_write_ne s (beq_eq_false_iff_ne.mp haddr).symm _
  case unknown =>
    have hunknown : s.axisCommandWrite a (commandWord code arg) =
        s.commandWrite a (commandWord code arg) (fun _ => .unknownCommand) id := by
      unfold State.axisCommandWrite
      rw [commandCode_commandWord]
      split <;> first | rfl | omega
    have hnext {r : AnswerResult} (hinit : s.inInit = false)
        (hresult : (s.write (axisWord a 0) (commandWord code arg)).commandResult a
          (commandWord code arg) (fun _ => .unknownCommand) = r) (hr : r ≠ .accepted) :
        exec (.unknownCommand a code arg) s = .next (s.answered a code arg r.code) := by
      have hwrite := State.commandWrite_refused (effect := id) hinit hresult hr
      refine congrArg Host.Outcome.next ?_
      rw [hunknown, hwrite, State.settled_nil (s.answered a code arg r.code) hquiet]
    refine ⟨fun hdev => ?running, fun hdev => ?stopped⟩
    case running =>
      refine hnext (r := .unknownCommand) (State.inInit_of_running hdev) ?_ AnswerResult.noConfusion
      rw [State.commandResult, if_neg (fun h => h hdev), commandCode_commandWord, if_pos hcode]
    case stopped =>
      have hinit : s.inInit = false := by
        rcases hdev with hdev | hdev <;> rw [State.inInit, hdev]
      refine hnext (r := .notRunning) hinit (if_pos ?_) AnswerResult.noConfusion
      rcases hdev with hdev | hdev <;> exact fun h => by rw [State.write_dev, hdev] at h; cases h

end Sys2Proof.Machine
end

