-- ==== Sys2Proof/Proofs/Answers.lean ====
section
/-!
PROOF. The accepted commands that move no chain: PAUSE, CLEAR, SETPOS, WITHDRAW, and INTERJECT where no
check is made at once (R83 to R92); a host write to a slot's state word that starts no drain (R151); the
end of a pulse (R63, R66).
-/
namespace Sys2Proof.Machine

variable {a : Axis} {arg : BitVec 12} {s t : State}

/-! ### Commands that leave nothing to settle -/

/-- An accepted command whose effect makes the axis engine `e` ends so. -/
theorem axisBecomes_settled (code : BitVec 4) (r : BitVec 4) (e : AxisEngine) {u : State} (hquiet : Quiet s)
    (hu : u = (s.answered a code arg r).setAx a { e with dirty := true }) :
    ∃ t, (.next u.settled : Host.Outcome State Fault Refusal) = .next t ∧
      AxisBecomes a e (s.answered a code arg r) t := by
  refine ⟨_, rfl, ?_⟩
  have hagenda : ((s.answered a code arg r).setAx a { e with dirty := true }).agenda = [] := hquiet
  rw [hu, State.settled_nil _ hagenda]

theorem State.pauseAxis_of_running (h : (s.ax a).state = .running) :
    s.pauseAxis a = s.setAx a { s.ax a with state := .pausing, dirty := true } := if_pos h

theorem State.pauseAxis_of_pausesAtOnce (h : (s.ax a).state.pausesAtOnce = true) :
    s.pauseAxis a = s.setAx a { s.ax a with state := .paused, dirty := true } := by
  have hrunning : (s.ax a).state ≠ .running := fun e => by
    rw [e] at h
    cases h
  exact (if_neg hrunning).trans (if_pos h)

theorem pauseCheck_of_pausesAtOnce (h : (s.ax a).state.pausesAtOnce = true) :
    pauseCheck a s = .accepted := by
  have hpausing : (s.ax a).state ≠ .pausing := fun e => by
    rw [e] at h
    cases h
  exact (if_neg hpausing).trans (if_pos (.inr h))

theorem pauseCheck_of_running (h : (s.ax a).state = .running) : pauseCheck a s = .accepted := by
  simp [pauseCheck, h]

/-- Settles O27. -/
theorem pauseTakesHold : Obligations.PauseTakesHold := by
  intro a arg s hquiet hdev
  have hpause (hoff : (s.ax a).state ≠ .off) (hcheck : pauseCheck a s = .accepted) :
      s.commandWrite a (commandWord 2 arg) (pauseCheck a) (State.pauseAxis a) =
        (s.answered a 2 arg 1).pauseAxis a :=
    State.commandWrite_accepted hdev (by decide) hoff hcheck
  refine ⟨fun hrunning => ?running, fun hstate => ?waiting⟩
  case running =>
    have hoff : (s.ax a).state ≠ .off := by rw [hrunning]; exact AxisState.noConfusion
    exact axisBecomes_settled 2 1 { s.ax a with state := .pausing } hquiet
      ((hpause hoff (pauseCheck_of_running hrunning)).trans (State.pauseAxis_of_running hrunning))
  case waiting =>
    have hpauses : (s.ax a).state.pausesAtOnce = true := by
      rcases hstate with h | h | h | h | h <;> rw [h] <;> rfl
    have hoff : (s.ax a).state ≠ .off := fun e => by
      rw [e] at hpauses
      cases hpauses
    exact axisBecomes_settled 2 1 { s.ax a with state := .paused } hquiet
      ((hpause hoff (pauseCheck_of_pausesAtOnce hpauses)).trans
        (State.pauseAxis_of_pausesAtOnce hpauses))

theorem setposCheck_of_inside (hstate : (s.ax a).state = .idle ∨ (s.ax a).state = .halted)
    (h : ¬ s.setposOutside a) : setposCheck a s = .accepted := by
  have hrest : ¬((s.ax a).state ≠ .idle ∧ (s.ax a).state ≠ .halted) := by tauto
  exact (if_neg hrest).trans (if_neg h)

/-- Settles O31. -/
theorem clearSetposWithdraw : Obligations.ClearSetposWithdraw := by
  intro a arg s hquiet hdev
  refine ⟨fun hhalted howes => ?clear, fun hstate hinside => ?setpos, fun hoff hslot => ?withdraw⟩
  case clear =>
    have hcheck : clearCheck a (s.write (axisWord a 0) (commandWord 5 arg)) = .accepted := by
      have howes' : ¬ (s.owes a = true) := Bool.eq_false_iff.mp ((s.owes_eq_false_iff a).mpr howes)
      exact (if_neg (not_not.mpr hhalted)).trans (if_neg howes')
    have hoff : (s.ax a).state ≠ .off := by rw [hhalted]; exact AxisState.noConfusion
    exact axisBecomes_settled 5 1 _ hquiet
      (State.commandWrite_accepted (effect := clearEffect a) hdev (by decide) hoff hcheck)
  case setpos =>
    have hvalue : (s.answered a 8 arg 1).setposValue a =
        s.read (axisWord a 4) ++ s.read (axisWord a 3) :=
      congrArg₂ (· ++ ·) (s.read_answered_axisWord a 8 arg 1 a (by decide) (by decide))
        (s.read_answered_axisWord a 8 arg 1 a (by decide) (by decide))
    have hcheck : setposCheck a (s.write (axisWord a 0) (commandWord 8 arg)) = .accepted := by
      refine setposCheck_of_inside hstate fun houtside => hinside ?_
      have hstored := State.setposValue_stored a (commandWord 8 arg) s
      simp only [State.setposOutside, State.setposValue] at hstored houtside ⊢
      rwa [hstored] at houtside
    have hoff : (s.ax a).state ≠ .off := by
      rcases hstate with h | h <;> rw [h] <;> exact AxisState.noConfusion
    refine axisBecomes_settled 8 1 _ hquiet
      ((State.commandWrite_accepted (effect := setposEffect a) hdev (by decide) hoff hcheck).trans ?_)
    rw [setposEffect, hvalue]
    rfl
  case withdraw =>
    have hcheck : withdrawCheck a (commandWord 7 arg) (s.write (axisWord a 0) (commandWord 7 arg)) =
        .accepted := by
      refine if_pos ?_
      rw [commandLevel_commandWord]
      exact Option.isSome_iff_ne_none.mpr hslot
    refine axisBecomes_settled 7 1 _ hquiet
      ((State.commandWrite_accepted (effect := withdrawEffect a (commandWord 7 arg)) hdev (by decide)
        hoff hcheck).trans ?_)
    rw [withdrawEffect, commandLevel_commandWord]
    rfl

/-! ### INTERJECT -/

theorem State.accept_of_not_acceptable (h : (s.ax a).acceptable = false) : s.accept a = s := by
  simp only [State.accept]
  split
  · rfl
  · exact if_neg (Bool.eq_false_iff.mp h)

theorem interjectCheck_of_accepted (h : s.interjectAccepted a arg) :
    interjectCheck a (commandWord 6 arg) (s.write (axisWord a 0) (commandWord 6 arg)) = .accepted := by
  obtain ⟨-, hhalted, hlevel, hlow, hhigh, hslot⟩ := h
  have hax : (s.write (axisWord a 0) (commandWord 6 arg)).ax a = s.ax a := rfl
  have hpage : generalPage? (s.read (axisWord a 2)) ≠ none := by
    rw [Ne, generalPage?_eq_none_iff]
    omega
  simp only [interjectCheck]
  rw [commandLevel_commandWord, State.read_stored a _ (by decide) (by decide), hax, if_neg hhalted,
    if_neg hlevel, if_neg (by rwa [Option.isNone_iff_eq_none]),
    if_neg (by rw [hslot]; exact Bool.false_ne_true)]

/-- An accepted INTERJECT places its request in the answered state. -/
theorem exec_interject_accepted (hdev : s.dev = .running) (h : s.interjectAccepted a arg) :
    exec (.interject a arg) s =
      .next ((s.answered a 6 arg 1).placeRequest a (argLevel arg)
        { head := s.read (axisWord a 2), source := .command }).settled := by
  have hwrite := State.commandWrite_accepted (effect := interjectEffect a (commandWord 6 arg)) hdev
    (by decide) h.1 (interjectCheck_of_accepted h)
  have heffect : interjectEffect a (commandWord 6 arg) (s.answered a 6 arg 1) =
      (s.answered a 6 arg 1).placeRequest a (argLevel arg)
        { head := s.read (axisWord a 2), source := .command } := by
    rw [interjectEffect, commandLevel_commandWord,
      s.read_answered_axisWord a 6 arg 1 a (by decide) (by decide)]
  exact congrArg (fun u : State => Host.Outcome.next u.settled) (hwrite.trans heffect)

theorem State.placeRequest_of_unchecked (l : Level) (r : Request)
    (h : (s.ax a).state.checksAtOnce = false ∨
      ({ s.ax a with requests := (s.ax a).requests.set l (some r) } : AxisEngine).acceptable = false) :
    s.placeRequest a l r =
      s.setAx a { s.ax a with requests := (s.ax a).requests.set l (some r), dirty := true } := by
  simp only [State.placeRequest]
  split
  · rename_i hchecks
    have hnot := h.resolve_left (by rw [hchecks]; exact Bool.noConfusion)
    refine State.accept_of_not_acceptable ?_
    rw [State.ax_setAx_same]
    exact hnot
  · rfl

/-- Settles O32. -/
theorem interjectPlacesTheRequest : Obligations.InterjectPlacesTheRequest := by
  intro a arg s hquiet hdev haccepted hstate
  rw [exec_interject_accepted hdev haccepted]
  refine axisBecomes_settled 6 1 ((s.ax a).withRequest (argLevel arg) (s.read (axisWord a 2))) hquiet
    (State.placeRequest_of_unchecked _ _ ?_)
  rcases hstate with h | h | h | h | h
  · exact .inl (by rw [State.answered_ax, h]; rfl)
  · exact .inl (by rw [State.answered_ax, h]; rfl)
  · exact .inl (by rw [State.answered_ax, h]; rfl)
  · exact .inl (by rw [State.answered_ax, h]; rfl)
  · exact .inr h

/-! ### Slot state words -/

theorem SlotState.hostWritten_eq (old : SlotState) (v : Word) :
    (v = 1 → old.hostWritten v = .empty) ∧ (v = 4 → old.hostWritten v = .bad) ∧
      (v = 3 → (∃ p, old = .full p) → old.hostWritten v = old) ∧
      (v = 3 → (¬ ∃ p, old = .full p) → old.hostWritten v = .full none) ∧
      (v ≠ 1 → v ≠ 3 → v ≠ 4 → old.hostWritten v = .unused) := by
  refine ⟨?_, ?_, ?_, ?_, fun h1 h3 h4 => ?_⟩
  · rintro rfl
    rfl
  · rintro rfl
    rfl
  · rintro rfl ⟨p, rfl⟩
    rfl
  · rintro rfl hfull
    cases old with
    | full p => exact absurd ⟨p, rfl⟩ hfull
    | _ => rfl
  · have hne {n : Nat} (hn : n < 2 ^ 16) (h : v ≠ BitVec.ofNat 16 n) : v.toNat ≠ n := fun e =>
      h (by rw [← e, BitVec.ofNat_toNat, BitVec.setWidth_eq])
    have hv1 := hne (n := 1) (by decide) h1
    have hv3 := hne (n := 3) (by decide) h3
    have hv4 := hne (n := 4) (by decide) h4
    unfold SlotState.hostWritten
    split <;> first | rfl | omega

/-- Settles O36. -/
theorem slotStateWriteSetsTheSlot : Obligations.SlotStateWriteSetsTheSlot := by
  intro k value s hquiet
  have hnext {u : State} (hu : s.slotStateWrite k value = u) (hq : Quiet u) :
      exec (.slotStateWrite k value) s = .next u := by
    refine congrArg Host.Outcome.next ?_
    rw [hu, State.settled_nil u hq]
  refine ⟨fun hinit => ?init, fun hinit hfilling => ?filling, fun hinit hfilling hnothing => ?written⟩
  case init =>
    exact hnext (if_pos hinit) hquiet
  case filling =>
    refine ⟨_, hnext ((if_neg (Bool.eq_false_iff.mp hinit)).trans (if_pos hfilling)) hquiet, rfl,
      State.read_write_same (s.write (slotStateWord k) value) (slotStateWord k) 2, fun addr haddr => ?_⟩
    have hne := (beq_eq_false_iff_ne.mp haddr).symm
    exact (State.read_write_ne _ hne 2).trans (State.read_write_ne s hne value)
  case written =>
    have hdrain : ¬(value = 1 ∧
        ((s.write (slotStateWord k) value).setSlot k ((s.slot k).hostWritten value)).keepsRecords =
          true) := by
      rintro ⟨hone, hkeeps⟩
      obtain ⟨hqueue, hwait, hdrops⟩ := hnothing.resolve_left (not_not.mpr hone)
      have hkeeps' : s.keepsRecords = true := hkeeps
      simp [State.keepsRecords, hqueue, hwait, hdrops] at hkeeps'
    obtain ⟨h1, h4, h3, h3', hother⟩ := (s.slot k).hostWritten_eq value
    have hsame : ((s.write (slotStateWord k) value).setSlot k ((s.slot k).hostWritten value)).slot k =
        (s.slot k).hostWritten value := State.slot_setSlot_same _ k _
    refine ⟨_, hnext ((if_neg (Bool.eq_false_iff.mp hinit)).trans ((if_neg
      (Bool.eq_false_iff.mp hfilling)).trans (if_neg hdrain))) hquiet, rfl,
      fun i hi => State.slot_setSlot_ne (s.write (slotStateWord k) value) hi _,
      fun h => hsame.trans (h1 h), fun h hf => hsame.trans (h3 h hf), fun h hf => hsame.trans (h3' h hf),
      fun h => hsame.trans (h4 h), fun h h' h'' => hsame.trans (hother h h' h''),
      State.read_write_same s (slotStateWord k) value, fun addr haddr =>
        State.read_write_ne s (beq_eq_false_iff_ne.mp haddr).symm value⟩

/-! ### The end of a pulse -/

theorem State.pulseEndDue_iff (s : State) (a : Axis) :
    s.pulseEndDue a = true ↔ ∃ ends, (s.ax a).step = .high ends ∧ ends ≤ s.now := by
  unfold State.pulseEndDue
  cases (s.ax a).step <;> simp

section EndPulse

variable {x : AxisEngine} (dirlead now : Nat)

/-- No step waits for the pulse: STEP goes low and a waiting change of DIR takes place. -/
theorem AxisEngine.endPulse_of_gate (h : x.gate ≠ .dirWait) :
    x.endPulse dirlead now = ({ x with step := .low (some now) } : AxisEngine).applyDirZero now := by
  have hgate : (({ x with step := .low (some now) } : AxisEngine).applyDirZero now).gate ≠ .dirWait := by
    unfold AxisEngine.applyDirZero
    split <;> exact h
  simp only [AxisEngine.endPulse]
  split
  · rename_i hwait _
    exact absurd hwait hgate
  · rfl

/-- A step that waited for the pulse goes through the gate. -/
theorem AxisEngine.endPulse_of_dirWait {f : Bool} (h : x.gate = .dirWait) (hf : x.runForward = some f) :
    x.endPulse dirlead now =
      (({ x with step := .low (some now) } : AxisEngine).applyDirZero now).gateStep dirlead now f := by
  obtain ⟨hgate, hrun⟩ : (({ x with step := .low (some now) } : AxisEngine).applyDirZero now).gate = .dirWait ∧
      (({ x with step := .low (some now) } : AxisEngine).applyDirZero now).runForward = some f := by
    unfold AxisEngine.applyDirZero
    split <;> exact ⟨h, hf⟩
  simp only [AxisEngine.endPulse, hgate, hrun]

end EndPulse

/-- Settles O43. -/
theorem pulseEndLowersStep : Obligations.PulseEndLowersStep := by
  refine ⟨fun a s => s.pulseEndDue_iff a, fun a s hdue => ?_⟩
  refine ⟨s.setAx a ((s.ax a).endPulse s.dirlead s.now), if_pos hdue, fun hgate hzero => ?_,
    fun hgate hzero => ?_, fun hgate hzero => ?_, fun f hgate hzero hrun hdir => ?_,
    fun hgate hzero hrun => ?_, fun hgate hzero hrun => ?_⟩
  · rw [AxisEngine.endPulse_of_gate _ _ hgate]
    simp only [AxisEngine.applyDirZero, hzero]
  · rw [AxisEngine.endPulse_of_gate _ _ hgate]
    simp only [AxisEngine.applyDirZero, hzero]
  · rw [AxisEngine.endPulse_of_gate _ _ hgate]
    simp only [AxisEngine.applyDirZero, hzero]
  · rw [AxisEngine.endPulse_of_dirWait _ _ hgate hrun]
    simp [AxisEngine.applyDirZero, AxisEngine.gateStep, AxisEngine.dirLevel, hzero, hdir,
      StepOut.isHigh, State.dirlead]
  · rw [AxisEngine.endPulse_of_dirWait _ _ hgate hrun]
    simp [AxisEngine.applyDirZero, AxisEngine.gateStep, AxisEngine.dirLevel, hzero, StepOut.isHigh,
      State.dirlead]
  · rw [AxisEngine.endPulse_of_dirWait _ _ hgate hrun]
    simp [AxisEngine.applyDirZero, AxisEngine.gateStep, AxisEngine.dirLevel, hzero]

end Sys2Proof.Machine
end

