-- ==== Sys2Proof/Proofs/HostEvents.lean ====
section
/-!
PROOF. Host writes to the exchange RAM (R12, R14): which word is whose, a write to a watched word as the
event of its owner, and a write to a word that nobody watches.
-/
namespace Sys2Proof.Machine

variable {a : Axis} {s t : State}

/-! ### The owner of a word -/

theorem watchOwner_axisWord (a : Axis) : watchOwner (axisWord a 0) = .axisCommand a := by
  revert a; decide

theorem watchOwner_joinWord (j : Point) : watchOwner (joinWord j 2) = .joinControl j := by
  revert j; decide

theorem watchOwner_slotStateWord (k : Slot) : watchOwner (slotStateWord k) = .slotState k := by
  revert k; decide

/-- A word that is no fixed watched word has no owner. -/
theorem watchOwner_of_not_fixed {addr : Addr} (h : isFixedWatched addr = false) :
    watchOwner addr = .unwatched := by
  simp only [isFixedWatched, Bool.or_eq_false_iff, Bool.and_eq_false_iff, decide_eq_false_iff_not,
    beq_eq_false_iff_ne] at h
  obtain ⟨⟨haxis, hjoin⟩, hslot⟩ := h
  simp only [watchOwner]
  rw [if_neg (by omega), if_neg (by omega), if_neg (by omega)]

theorem watchOwner_pageWord {p : Page} (hp : isGeneralPage p = true) (off : BitVec 8) :
    watchOwner (pageWord p off) = .unwatched := by
  have hp : 3 ≤ p.toNat := of_decide_eq_true hp
  refine watchOwner_of_not_fixed ?_
  have hn := pageWord_toNat p off
  simp only [isFixedWatched, Bool.or_eq_false_iff, Bool.and_eq_false_iff, decide_eq_false_iff_not,
    beq_eq_false_iff_ne]
  omega

/-! ### The page and the offset of a word -/

theorem page_of_pageWord (p : Page) (off : BitVec 8) : (pageWord p off).extractLsb' 8 7 = p := by
  apply BitVec.eq_of_toNat_eq
  rw [BitVec.extractLsb'_toNat, pageWord_toNat, Nat.shiftRight_eq_div_pow]
  omega

theorem offset_of_pageWord (p : Page) (off : BitVec 8) : (pageWord p off).extractLsb' 0 8 = off := by
  apply BitVec.eq_of_toNat_eq
  rw [BitVec.extractLsb'_toNat, pageWord_toNat, Nat.shiftRight_zero]
  omega

/-- Every word is a word of its page. -/
theorem pageWord_of_addr (addr : Addr) : pageWord (addr.extractLsb' 8 7) (addr.extractLsb' 0 8) = addr := by
  apply BitVec.eq_of_toNat_eq
  rw [pageWord_toNat, BitVec.extractLsb'_toNat, BitVec.extractLsb'_toNat, Nat.shiftRight_eq_div_pow,
    Nat.shiftRight_zero]
  omega

/-! ### Words nobody watches -/

theorem State.watchers_eq_nil {w : Wait} (h : ∀ a, s.watches a w = false) : s.watchers w = [] :=
  List.filter_eq_nil_iff.mpr fun a _ => Bool.eq_false_iff.mp (h a)

theorem State.enterEach_nil (value : Word) (header : Option Word) (s : State) :
    s.enterEach value header [] = s := rfl

theorem State.linkWordEvent_unwatched {p : Page} (v : Word) (h : ∀ a, s.watches a (.link p) = false) :
    s.linkWordEvent p v = s := by
  simp only [State.linkWordEvent]
  split
  · rfl
  · rw [State.watchers_eq_nil h, State.enterEach_nil]

theorem State.stateWordEvent_unwatched {p : Page} (v : Word) (h : ∀ a, s.watches a (.state p) = false) :
    s.stateWordEvent p v = s := by
  simp only [State.stateWordEvent]
  split
  · rfl
  · rw [State.watchers_eq_nil h, State.enterEach_nil]

/-- A write to a word that nobody watches is only stored. -/
theorem State.plainWrite_unwatched {addr : Addr} (v : Word) (hinit : s.inInit = false)
    (h : ∀ a w, s.watches a w = true → w.word ≠ addr) : s.plainWrite addr v = s.write addr v := by
  have hnone (w : Wait) (hw : w.word = addr) (a : Axis) : (s.write addr v).watches a w = false :=
    Bool.eq_false_iff.mpr fun hwatch => h a w hwatch hw
  have hword := pageWord_of_addr addr
  simp only [State.plainWrite]
  rw [if_neg (Bool.eq_false_iff.mp hinit)]
  split
  · rename_i hoff
    rw [hoff] at hword
    exact State.stateWordEvent_unwatched v (hnone (.state _) hword)
  · split
    · rename_i hoff
      rw [hoff] at hword
      exact State.linkWordEvent_unwatched v (hnone (.link _) hword)
    · rfl

/-- Settles O19. -/
theorem hostRamWriteStores : Obligations.HostRamWriteStores := by
  intro addr value s hquiet hinit hfixed hwatch
  have hwrite : s.hostWrite addr value = s.write addr value := by
    rw [State.hostWrite, watchOwner_of_not_fixed hfixed]
    exact State.plainWrite_unwatched value hinit hwatch
  refine ⟨s.write addr value, ?_, rfl, State.read_write_same .., fun b hb =>
    State.read_write_ne s (beq_eq_false_iff_ne.mp hb).symm value⟩
  refine congrArg Host.Outcome.next ?_
  rw [hwrite]
  exact State.settled_nil (s.write addr value) hquiet

/-! ### Watched words -/

/-- A value is the command word of its code and its other bits. -/
theorem commandWord_of_value (value : Word) :
    commandWord (value.extractLsb' 0 4) (value.extractLsb' 4 12) = value := by
  apply BitVec.eq_of_toNat_eq
  rw [commandWord_toNat, BitVec.extractLsb'_toNat, BitVec.extractLsb'_toNat, Nat.shiftRight_eq_div_pow,
    Nat.shiftRight_zero]
  omega

theorem commandWord_of_code {value : Word} {code : BitVec 4}
    (h : (value.extractLsb' 0 4).toNat = code.toNat) :
    commandWord code (value.extractLsb' 4 12) = value := by
  rw [← BitVec.eq_of_toNat_eq h, commandWord_of_value]

/-- A write to a command word is the command it carries. -/
theorem exec_commandOf (a : Axis) (value : Word) (hquiet : Quiet s) :
    exec (commandOf a value) s = .next (s.axisCommandWrite a value).settled := by
  unfold commandOf
  split
  case h_1 hcode =>
    have hword : commandWord 0 (value.extractLsb' 4 12) = value := commandWord_of_code hcode
    have hnone : s.axisCommandWrite a value = s.noneWrite a value := by
      simp only [State.axisCommandWrite, commandCode, hcode]
    have hquiet' : (s.noneWrite a value).agenda = [] := by
      rw [State.noneWrite]
      split <;> exact hquiet
    rw [hnone, State.settled_nil _ hquiet']
    exact congrArg (fun v => Host.Outcome.next (s.noneWrite a v)) hword
  case h_10 =>
    have hword := commandWord_of_value value
    exact congrArg (fun v => Host.Outcome.next (s.axisCommandWrite a v).settled) hword
  all_goals
    rename_i hcode
    simp only [exec, execStart, execPause, execResume, execAbort, execClear, execInterject, execWithdraw,
      execSetpos, State.axisCommandWrite, commandCode, hcode]
    rw [commandWord_of_code]
    exact hcode

theorem State.joinControlWrite_agenda (j : Point) (v : Word) (s : State) :
    (s.joinControlWrite j v).agenda = s.agenda := by
  simp only [State.joinControlWrite]
  split
  · rfl
  · split <;> rfl

/-- A write to a word of a general page is the event of the word. -/
theorem State.hostWrite_pageWord {p : Page} (hp : isGeneralPage p = true) (off : BitVec 8) (v : Word)
    (s : State) : s.hostWrite (pageWord p off) v = s.plainWrite (pageWord p off) v := by
  rw [State.hostWrite, watchOwner_pageWord hp off]

/-- Settles O21. -/
theorem writesToWatchedWordsAreEvents : Obligations.WritesToWatchedWordsAreEvents := by
  intro value s hquiet
  refine ⟨fun a => ?axis, fun a code arg => (exec_commandOf a (arg ++ code) hquiet).symm, fun j => ?join,
    fun k => ?slot, fun p hp => ⟨?link, ?state⟩⟩
  case axis =>
    rw [exec_commandOf a value hquiet]
    refine congrArg (fun u : State => Host.Outcome.next u.settled) ?_
    rw [State.hostWrite, watchOwner_axisWord]
  case join =>
    refine congrArg Host.Outcome.next ?_
    rw [State.hostWrite, watchOwner_joinWord]
    exact State.settled_nil _ ((s.joinControlWrite_agenda j value).trans hquiet)
  case slot =>
    refine congrArg (fun u : State => Host.Outcome.next u.settled) ?_
    rw [State.hostWrite, watchOwner_slotStateWord]
  case link =>
    have hplain : s.plainWrite (pageWord p 2) value =
        if s.inInit then s else (s.write (pageWord p 2) value).linkWordEvent p value := by
      have hoff : (2 : BitVec 8) ≠ 1 := by decide
      simp only [State.plainWrite, page_of_pageWord, offset_of_pageWord, if_neg hoff, if_pos]
    simp only [exec, execHostRamWrite, execLinkWordEvent, State.hostWrite_pageWord hp, hplain]
    split
    · rw [State.settled_nil s hquiet]
    · rfl
  case state =>
    have hplain : s.plainWrite (pageWord p 1) value =
        if s.inInit then s else (s.write (pageWord p 1) value).stateWordEvent p value := by
      simp only [State.plainWrite, page_of_pageWord, offset_of_pageWord, if_pos]
    simp only [exec, execHostRamWrite, execStateWordEvent, State.hostWrite_pageWord hp, hplain]
    split
    · rw [State.settled_nil s hquiet]
    · rfl

end Sys2Proof.Machine
end

