-- ==== Sys2Proof/Proofs/Layout.lean ====
section
/-!
PROOF. The words of the status block (R98, R75) and of every kind of record (12.4).
-/
namespace Sys2Proof.Machine

variable {a : Axis} {s : State}

/-! ### The status block -/

/-- The fourteen words of a status block in order. -/
theorem State.statusWords_eq (s : State) (a : Axis) :
    s.statusWords a =
      [(s.ax a).state.code, BitVec.ofNat 16 (s.ax a).level.val, BitVec.ofNat 16 (s.ax a).stack.length,
        (s.ax a).requests.mask,
        match (s.ax a).haltCause with | some c => c.code.setWidth 16 | none => 0,
        (s.ax a).haltDetail.setWidth 16, (s.ax a).pageWord, BitVec.ofNat 16 (s.ax a).index,
        lowWord (BitVec.ofNat 32 (s.ax a).countWritten),
        highWord (BitVec.ofNat 32 (s.ax a).countWritten), lowWord (s.ax a).position,
        highWord (s.ax a).position, BitVec.ofNat 16 (s.owedOf a).length,
        if (s.ax a).dirLevel then 1 else 0] := rfl

section Fields

variable {x : AxisEngine} {c : Context}

theorem AxisEngine.level_of_ctx (h : x.ctx = some c) : x.level = c.level := by
  rw [AxisEngine.level, h]

theorem AxisEngine.level_of_none (h : x.ctx = none) :
    x.level = if x.state = .halted then x.haltLevel else 0 := by
  rw [AxisEngine.level, h]

theorem AxisEngine.index_of_ctx (h : x.ctx = some c) : x.index = c.index := by
  rw [AxisEngine.index, h]

theorem AxisEngine.pageWord_of_ctx (h : x.ctx = some c) : x.pageWord = pageNumber c.pageOr0 := by
  rw [AxisEngine.pageWord, h]

/-- On a RUN the full count is shown while the tick of its begin lasts, else what remains. -/
theorem AxisEngine.countWritten_of_run {n v w : Nat} {d : Int} {f rep : Bool} {tag : Word}
    (h : x.ctx = some c) (hphase : c.phase = .inSegment (.run n v d w f rep tag)) :
    x.countWritten = x.beganCount.getD n := by
  have hrun : x.onRun = true := by simp only [AxisEngine.onRun, h, hphase]
  have hremaining : x.remaining = n := by
    simp only [AxisEngine.remaining, h, Context.remaining, hphase]
  rw [AxisEngine.countWritten, if_pos hrun, hremaining]

/-- Off a RUN the count of the context is 0. -/
theorem AxisEngine.countWritten_of_other (h : x.ctx = some c)
    (hphase : ∀ n v d w f rep tag, c.phase ≠ .inSegment (.run n v d w f rep tag)) :
    x.countWritten = 0 := by
  have hremaining : c.remaining = 0 := by
    unfold Context.remaining
    split
    · rename_i hrun
      exact absurd hrun (hphase _ _ _ _ _ _ _)
    · rfl
  have hrun : x.onRun = false := by
    rw [AxisEngine.onRun, h]
    dsimp only
    split
    · rename_i hrun
      exact absurd hrun (hphase _ _ _ _ _ _ _)
    · rfl
  rw [AxisEngine.countWritten, if_neg (Bool.eq_false_iff.mp hrun), AxisEngine.remaining, h]
  exact hremaining

theorem AxisEngine.countWritten_of_none (h : x.ctx = none) : x.countWritten = x.shownRemaining := by
  have hrun : x.onRun = false := by simp only [AxisEngine.onRun, h]
  rw [AxisEngine.countWritten, if_neg (Bool.eq_false_iff.mp hrun), AxisEngine.remaining, h]

/-- Bit L of the mask is the slot of level L. -/
theorem PendingSet.mask_getLsbD (p : PendingSet) (i : Fin 16) :
    p.mask.getLsbD i.val =
      ((i.val == 1 && p.one.isSome) || (i.val == 2 && p.two.isSome) ||
        (i.val == 3 && p.three.isSome)) := by
  have hbits (one two three : Bool) (i : Fin 16) :
      ((if one then 2 else 0) ||| (if two then 4 else 0) ||| (if three then 8 else 0) : Word).getLsbD
          i.val =
        ((i.val == 1 && one) || (i.val == 2 && two) || (i.val == 3 && three)) := by
    revert one two three i
    decide
  exact hbits _ _ _ i

end Fields

/-! ### Records -/

theorem positionWords_eq_flatMap (l : List Pos) :
    positionWords l = l.flatMap fun q => [q.extractLsb' 0 16, q.extractLsb' 16 16] := by
  induction l with
  | nil => rfl
  | cons p l ih => rw [positionWords, ih]; rfl

/-- The first word of a record: its length in bits 12:8 and its kind in bits 7:0. -/
theorem headWord_eq {n : Nat} (hn : n < 32) (code : BitVec 8) :
    (0#3 ++ BitVec.ofNat 5 n ++ code : Word) = BitVec.ofNat 16 (256 * n + code.toNat) := by
  apply BitVec.eq_of_toNat_eq
  rw [toNat_append_eq, toNat_append_eq]
  simp only [BitVec.toNat_ofNat]
  omega

theorem axisLevelWord_toNat (a : Axis) (l : Level) : (axisLevelWord a l).toNat = a.val + 16 * l.val := by
  revert a l; decide

theorem pageIndexWord_toNat (p : Page) {i : Nat} (h : i < 32) :
    (pageIndexWord p i).toNat = p.toNat + 256 * i := by
  rw [pageIndexWord, toNat_append_eq, toNat_append_eq, toNat_append_eq]
  simp only [BitVec.toNat_ofNat]
  omega

/-- The words of a record whose length is known. -/
theorem Record.words_of_length (r : Record) (seq : Word) {n : Nat} (h : r.length = n) (hn : n < 32) :
    r.words seq =
      BitVec.ofNat 16 (256 * n + r.body.code.toNat) :: seq :: (timeWords r.time ++ r.body.words) := by
  rw [Record.words, h, headWord_eq hn]

theorem Record.words_capture (time : Time) (seq : Word) (n : Line) (rising : Bool) (mask : AxisMask)
    (positions : List Pos) (h : positions.length ≤ 8) :
    Record.words { time := time, body := .capture n rising mask positions } seq =
      [BitVec.ofNat 16 (256 * (7 + 2 * positions.length) + 6), seq, time.extractLsb' 0 16,
        time.extractLsb' 16 16, time.extractLsb' 32 16,
        BitVec.ofNat 16 (if rising then 0x100 + n.val else n.val), mask.setWidth 16] ++
          positions.flatMap fun q => [q.extractLsb' 0 16, q.extractLsb' 16 16] := by
  have hlength : Record.length { time := time, body := .capture n rising mask positions } =
      7 + 2 * positions.length := by
    simp only [Record.length, RecordBody.words, List.length_append, positionWords_length,
      List.length_cons, List.length_nil]
    omega
  have hline : n.val + (if rising then 0x100 else 0) = if rising then 0x100 + n.val else n.val := by
    cases rising
    · rfl
    · exact Nat.add_comm _ _
  rw [Record.words_of_length _ seq hlength (by omega), RecordBody.words, hline,
    positionWords_eq_flatMap]
  rfl

/-- Settles O53. -/
theorem statusAndRecordWords : Obligations.StatusAndRecordWords := by
  refine ⟨fun a s => ?status, fun time seq a l m p i tag pos kind cause detail value n rising mask
    positions => ⟨?done, ?join, ?note, ?halt, ?starve, ?timeout,
      Record.words_capture time seq n rising mask positions, ?command, ?trip, ?out, ?drops,
      axisLevelWord_toNat a l, pageIndexWord_toNat p⟩⟩
  case done => exact Record.words_of_length _ seq (n := 10) rfl (by decide)
  case join => exact Record.words_of_length _ seq (n := 11) rfl (by decide)
  case note => exact Record.words_of_length _ seq (n := 11) rfl (by decide)
  case halt => exact Record.words_of_length _ seq (n := 10) rfl (by decide)
  case starve => exact Record.words_of_length _ seq (n := 9) rfl (by decide)
  case timeout => exact Record.words_of_length _ seq (n := 9) rfl (by decide)
  case command => exact Record.words_of_length _ seq (n := 8) rfl (by decide)
  case trip => exact Record.words_of_length _ seq (n := 8) rfl (by decide)
  case out => exact Record.words_of_length _ seq (n := 7) rfl (by decide)
  case drops => exact Record.words_of_length _ seq (n := 6) rfl (by decide)
  rw [State.statusWords_eq]
  refine ⟨rfl, rfl, fun c hc => ⟨?level, fun p hp => ?page, fun hp => ?noPage, ?index, ?run, ?other⟩,
    fun hnone => ⟨fun hhalted => ?haltLevel, fun hhalted => ?zero, ?shownPage, ?shownIndex, ?low, ?high⟩,
    rfl, fun w hw i => ?mask, fun hcause => ?noCause, fun cause hcause => ?cause, rfl, rfl, rfl, rfl,
    fun hdir => ?dir, fun hdir => ?dirWaits⟩
  case level =>
    rw [AxisEngine.level_of_ctx hc]
    rfl
  case page =>
    rw [AxisEngine.pageWord_of_ctx hc, Context.pageOr0, hp]
    rfl
  case noPage =>
    rw [AxisEngine.pageWord_of_ctx hc, Context.pageOr0, hp]
    rfl
  case index =>
    rw [AxisEngine.index_of_ctx hc]
    rfl
  case run =>
    intro k v d w f rep tag hphase m hm
    have hcount : (s.ax a).countWritten = m := by
      rw [AxisEngine.countWritten_of_run hc hphase]
      rcases hm with ⟨hnone, rfl⟩ | hsome
      · rw [hnone, Option.getD_none]
      · rw [hsome, Option.getD_some]
    rw [hcount]
    exact ⟨rfl, rfl⟩
  case other =>
    intro hphase
    rw [AxisEngine.countWritten_of_other hc hphase]
    exact ⟨rfl, rfl⟩
  case haltLevel =>
    rw [AxisEngine.level_of_none hnone, if_pos hhalted]
    rfl
  case zero =>
    rw [AxisEngine.level_of_none hnone, if_neg hhalted]
    rfl
  case shownPage =>
    rw [AxisEngine.pageWord, hnone]
    rfl
  case shownIndex =>
    rw [AxisEngine.index, hnone]
    rfl
  case low =>
    rw [AxisEngine.countWritten_of_none hnone]
    rfl
  case high =>
    rw [AxisEngine.countWritten_of_none hnone]
    rfl
  case mask =>
    obtain rfl := Option.some.inj hw
    exact PendingSet.mask_getLsbD _ i
  case noCause =>
    rw [hcause]
    rfl
  case cause =>
    rw [hcause]
    rfl
  case dir =>
    have hlevel : (s.ax a).dirLevel = (s.ax a).dir := by rw [AxisEngine.dirLevel, hdir]
    rw [hlevel]
    rfl
  case dirWaits =>
    have hlevel : (s.ax a).dirLevel = false := by
      unfold AxisEngine.dirLevel
      split
      · rename_i hnot
        exact absurd hnot hdir
      · rfl
      · rfl
    rw [hlevel]
    rfl

end Sys2Proof.Machine
end

