-- ==== Sys2Proof/Proofs/Closing.lean ====
section
/-!
PROOF. The closing of a report page (R154): what the words of the page, the slot's state word and the count
read after it, and the two commands that close a page, FLUSH and AGING_EXPIRY (R162, R163).
-/
namespace Sys2Proof.Machine

variable {s t : State} {k : Slot} {p : Page} {records used : Nat}

/-! ### The words of a closed page -/

/-- The exchange RAM after page `p` of slot `k` has closed as the page number `closed`. -/
def Memory.closed (m : Memory) (reason : CloseReason) (time : Time) (k : Slot) (p : Page) (count : Word) :
    Memory :=
  ((m.writeWords (pageWord p 5) [reason.code, time.extractLsb' 0 16, time.extractLsb' 16 16]).write
    (slotStateWord k) 3).write 0x0010 count

theorem State.closePage_ram (h : s.filling = some (k, p, records, used)) (reason : CloseReason)
    (time : Time) :
    (s.closePage reason time).ram = Memory.closed s.ram reason time k p (s.report.pagesClosed + 1) := by
  simp only [State.closePage, h]
  split <;> rfl

theorem State.closePage_acause (h : s.filling = some (k, p, records, used)) (reason : CloseReason)
    (time : Time) :
    (s.closePage reason time).acause = if reason = .reset then s.acause else s.acause ||| 0x008 := by
  simp only [State.closePage, h]
  split <;> rfl

section Reads

variable (m : Memory) (reason : CloseReason) (time : Time) (k : Slot) (p : Page) (count : Word)

theorem Memory.read_closed_count : (m.closed reason time k p count).read 0x0010 = count :=
  Memory.read_write_same _ _ _

theorem Memory.read_closed_slot : (m.closed reason time k p count).read (slotStateWord k) = 3 := by
  have hk := slotStateWord_toNat k
  rw [Memory.closed, Memory.read_write_of_toNat _ (by rw [hk]; show 16 ≠ _; omega),
    Memory.read_write_same]

/-- A word that is neither the slot's nor the count, as the words of the page leave it. -/
theorem Memory.read_closed_page {addr : Addr} (hslot : addr.toNat ≠ 0x0041 + 2 * k.val)
    (hcount : addr.toNat ≠ 0x0010) :
    (m.closed reason time k p count).read addr =
      (m.writeWords (pageWord p 5)
        [reason.code, time.extractLsb' 0 16, time.extractLsb' 16 16]).read addr := by
  rw [Memory.closed, Memory.read_write_of_toNat _ (fun e => hcount e.symm),
    Memory.read_write_of_toNat _ (by rw [slotStateWord_toNat]; exact fun e => hslot e.symm)]

/-- The three words of the page. -/
theorem Memory.read_closed_reason {i : Nat} (hi : i < 3) :
    (m.closed reason time k p count).read (pageWord p (BitVec.ofNat 8 (5 + i))) =
      [reason.code, time.extractLsb' 0 16, time.extractLsb' 16 16][i] := by
  have hword := pageWord_toNat p (BitVec.ofNat 8 (5 + i))
  rw [BitVec.toNat_ofNat] at hword
  have hk := k.isLt
  rw [Memory.read_closed_page _ _ _ _ _ _ (by omega) (by omega)]
  exact Memory.read_writeWords_page _ m p 5 hi (by simp)

/-- Every other word stands. -/
theorem Memory.read_closed_other {addr : Addr} (hpage : isPageWord p 5 7 addr = false)
    (hslot : addr ≠ slotStateWord k) (hcount : addr ≠ 0x0010) :
    (m.closed reason time k p count).read addr = m.read addr := by
  rw [isPageWord_eq_false] at hpage
  have hfive : (5 : BitVec 8).toNat = 5 := rfl
  rw [Memory.closed, Memory.read_write_ne _ hcount.symm, Memory.read_write_ne _ hslot.symm,
    Memory.read_writeWords_page_outside _ _ _ _ (by simp)
      (by simp only [List.length_cons, List.length_nil, hfive]; omega)]

end Reads

/-- The FILLING page closes with a reason other than RESET. -/
theorem State.closePage_closes (h : s.filling = some (k, p, records, used)) {reason : CloseReason}
    (hreason : reason ≠ .reset) :
    PageCloses reason.code k p s (s.closePage reason s.timebase) := by
  have hram := State.closePage_ram h reason s.timebase
  have hread (addr : Addr) : (s.closePage reason s.timebase).read addr =
      Memory.read (Memory.closed s.ram reason s.timebase k p (s.report.pagesClosed + 1)) addr := by
    rw [State.read, hram]
  refine ⟨?fields, ?_, ?_, ?_, ?_, ?_, fun addr haddr => ?other⟩
  case fields =>
    have hframe := State.closePage_eq h reason s.timebase
    rwa [State.closePage_acause h, if_neg hreason] at hframe
  case other =>
    simp only [Bool.or_eq_false_iff, beq_eq_false_iff_ne] at haddr
    obtain ⟨⟨hpage, hslot⟩, hcount⟩ := haddr
    rw [hread, Memory.read_closed_other _ _ _ _ _ _ hpage hslot hcount]
    rfl
  · exact (hread _).trans (Memory.read_closed_reason _ _ _ _ _ _ (i := 0) (by decide))
  · exact (hread _).trans (Memory.read_closed_reason _ _ _ _ _ _ (i := 1) (by decide))
  · exact (hread _).trans (Memory.read_closed_reason _ _ _ _ _ _ (i := 2) (by decide))
  · exact (hread _).trans (Memory.read_closed_slot ..)
  · exact (hread _).trans (Memory.read_closed_count ..)

/-! ### FLUSH and aging -/

theorem State.closeIfRecords_of_some (h : s.filling = some (k, p, records, used)) (hrec : records ≠ 0)
    (reason : CloseReason) (time : Time) : s.closeIfRecords reason time = s.closePage reason time := by
  simp only [State.closeIfRecords, h, if_neg hrec]

/-- With no record in a FILLING page, closing does nothing. -/
theorem State.closeIfRecords_of_empty
    (h : ∀ k p records used, s.filling = some (k, p, records, used) → records = 0)
    (reason : CloseReason) (time : Time) : s.closeIfRecords reason time = s := by
  simp only [State.closeIfRecords]
  split
  · rfl
  · rename_i hfill
    rw [if_pos (h _ _ _ _ hfill)]

theorem State.agingDue_iff (s : State) :
    s.agingDue = true ↔
      (s.dev = .running ∨ s.dev = .stopping) ∧ s.report.deadline = some s.timebase := by
  simp [State.agingDue]

/-- Settles O12: the page closes as closePage_closes says; the read-back does not touch it, and a closed
page has no deadline already. -/
theorem flushAndAgingCloseThePage : Obligations.FlushAndAgingCloseThePage := by
  refine ⟨fun s hinit => ⟨fun hempty => ?nothing, fun k p records used hfill hrec => ?flush⟩,
    fun k p records used s hdev hdeadline hfill hrec => ?aging⟩
  case nothing =>
    refine congrArg Host.Outcome.next ?_
    rw [State.flushCommand, if_neg (Bool.eq_false_iff.mp hinit), State.closeIfRecords_of_empty hempty]
    rfl
  case flush =>
    have hcloses := State.closePage_closes hfill (reason := .flush) CloseReason.noConfusion
    rw [← State.closeIfRecords_of_some hfill hrec] at hcloses
    obtain ⟨hfields, hreads⟩ := hcloses
    refine ⟨(s.closeIfRecords .flush s.timebase).readBack 4 .taken, ?_, ?_, hreads⟩
    · exact congrArg Host.Outcome.next (if_neg (Bool.eq_false_iff.mp hinit))
    · exact congrArg (State.readBack 4 .taken) hfields
  case aging =>
    have hcloses := State.closePage_closes hfill (reason := .aged) CloseReason.noConfusion
    rw [← State.closeIfRecords_of_some hfill hrec] at hcloses
    refine ⟨s.closeIfRecords .aged s.timebase, ?_, hcloses⟩
    have hnone : (s.closeIfRecords .aged s.timebase).report.deadline = none := by
      rw [hcloses.1]
    have hdue := s.agingDue_iff.mpr ⟨hdev, hdeadline⟩
    refine (if_pos hdue).trans (congrArg Host.Outcome.next ?_)
    rw [State.mapReport, ← hnone]

end Sys2Proof.Machine
end

