-- ==== Sys2Proof/Proofs/EndTick.lean ====
section
/-!
PROOF. The writes that fall at the end of a tick, read back: the rewrite of a status block field by field
(R18, R98), the rewrites of all axes (R99), the snapshot (R35).
-/
namespace Sys2Proof.Machine

variable {s t u : State} {a b : Axis}

/-! ### A rewrite of the fields that have changed -/

theorem Memory.read_writeChanged_step (f : List Word) (fs : List (List Word)) (old : List Word)
    (m : Memory) (a : Addr) :
    Memory.writeChanged m a old (f :: fs) =
      Memory.writeChanged (if old.take f.length = f then m else m.writeWords a f)
        (a + BitVec.ofNat 15 f.length) (old.drop f.length) fs := rfl

/-- Word `i` of field `j` of a rewrite: as it stood where the copy shows no change of the field, else the
word of the field. -/
theorem Memory.read_writeChanged_at (fs : List (List Word)) (old : List Word) (m : Memory) (a : Addr)
    {j i : Nat} (hj : j < fs.length) (hi : i < fs[j].length) (hlen : fs.flatten.length ≤ 32768) :
    Memory.read (Memory.writeChanged m a old fs)
        (a + BitVec.ofNat 15 ((fs.take j).flatten.length + i)) =
      if (old.drop (fs.take j).flatten.length).take fs[j].length = fs[j] then
        Memory.read m (a + BitVec.ofNat 15 ((fs.take j).flatten.length + i))
      else fs[j][i] := by
  induction fs generalizing m a old j with
  | nil => cases hj
  | cons f fs ih =>
    cases j with
    | zero =>
      simp only [List.take_zero, List.flatten_nil, List.length_nil, Nat.zero_add, List.drop_zero,
        List.getElem_cons_zero] at hi ⊢
      have hf : f.length ≤ 32768 := by
        simp only [List.flatten_cons, List.length_append] at hlen
        omega
      rw [Memory.read_writeChanged_first f fs old m a i hi hlen, Memory.read_writeWords_at f m a hi hf]
    | succ j =>
      simp only [List.getElem_cons_succ, List.length_cons, Nat.add_lt_add_iff_right] at hi hj ⊢
      have hn : f.length + ((fs.take j).flatten.length + i) < 32768 := by
        have htake : (fs.take j).flatten.length + fs[j].length ≤ fs.flatten.length := by
          have hsplit : fs.flatten.length =
              (fs.take j).flatten.length + (fs[j].length + (fs.drop (j + 1)).flatten.length) := by
            rw [← List.length_append, ← List.length_append, ← List.flatten_cons, List.getElem_cons_drop,
              ← List.flatten_append, List.take_append_drop]
          omega
        simp only [List.flatten_cons, List.length_append] at hlen
        omega
      have haddr : a + BitVec.ofNat 15 (((f :: fs).take (j + 1)).flatten.length + i) =
          a + BitVec.ofNat 15 f.length + BitVec.ofNat 15 ((fs.take j).flatten.length + i) := by
        rw [List.take_succ_cons, List.flatten_cons, List.length_append, BitVec.add_assoc,
          ← BitVec.ofNat_add, Nat.add_assoc]
      have hstands : Memory.read (if old.take f.length = f then m else m.writeWords a f)
          (a + BitVec.ofNat 15 f.length + BitVec.ofNat 15 ((fs.take j).flatten.length + i)) =
            Memory.read m
              (a + BitVec.ofNat 15 f.length + BitVec.ofNat 15 ((fs.take j).flatten.length + i)) := by
        split
        · rfl
        · refine Memory.read_writeWords_outside f m a _ fun k hk he => ?_
          rw [BitVec.add_assoc, BitVec.add_right_inj, ← BitVec.ofNat_add] at he
          have hnum := congrArg BitVec.toNat he
          simp only [BitVec.toNat_ofNat] at hnum
          omega
      rw [haddr, Memory.read_writeChanged_step, ih _ _ _ hj hi (by
        simp only [List.flatten_cons, List.length_append] at hlen
        omega), hstands, List.drop_drop, List.take_succ_cons, List.flatten_cons, List.length_append]

theorem take_one_drop_eq {α : Type} (l : List α) (k : Nat) (v : α) :
    (l.drop k).take 1 = [v] ↔ l[k]? = some v := by
  rw [← List.head?_drop]
  cases l.drop k <;> simp

theorem take_two_drop_eq {α : Type} (l : List α) (k : Nat) (v w : α) :
    (l.drop k).take 2 = [v, w] ↔ l[k]? = some v ∧ l[k + 1]? = some w := by
  rw [← List.head?_drop, ← List.head?_drop, ← List.tail_drop]
  rcases l.drop k with _ | ⟨x, _ | ⟨y, l⟩⟩ <;> simp

/-! ### The rewrite of one status block -/

theorem axisWord_status_ne (a : Axis) {i : Nat} (hi : i < 14) : axisWord a 17 ≠ axisWord a (18 + i) := by
  refine addr_ne_of_toNat ?_
  rw [axisWord_toNat a (by decide), axisWord_toNat a (by omega)]
  omega

theorem State.statusFields_length (s : State) (a : Axis) : (s.statusFields a).flatten.length = 14 := rfl

/-- Word +18 + `n` of the block after a rewrite, by the field it belongs to. -/
theorem State.read_rewriteStatus_field (a : Axis) (s : State) {j i n : Nat}
    (hj : j < (s.statusFields a).length) (hi : i < (s.statusFields a)[j].length)
    (hn : ((s.statusFields a).take j).flatten.length + i = n) (hn' : n < 14) :
    (s.rewriteStatus a).read (axisWord a (18 + n)) =
      if ((s.ax a).copy.drop ((s.statusFields a).take j).flatten.length).take
          (s.statusFields a)[j].length = (s.statusFields a)[j] then s.read (axisWord a (18 + n))
      else (s.statusFields a)[j][i] := by
  have hne := axisWord_status_ne a hn'
  subst hn
  rw [State.read, State.rewriteStatus_ram, Memory.read_write_ne _ hne, ← axisWord_add,
    Memory.read_writeChanged_at _ _ _ _ hj hi (by rw [State.statusFields_length]; decide), axisWord_add,
    Memory.read_write_ne _ hne]
  rfl

/-- A field of one word. -/
theorem State.read_rewriteStatus_single (a : Axis) (s : State) {j n : Nat} {w : Word}
    (hj : j < 12) (hfield : (s.statusFields a)[j]'hj = [w])
    (hn : ((s.statusFields a).take j).flatten.length = n) (hn' : n < 14)
    (hword : (s.statusWords a)[n]? = some w) (hother : otherWord n = n) :
    (s.rewriteStatus a).read (axisWord a (18 + n)) = rewrittenWord a s n := by
  rw [State.read_rewriteStatus_field a s (i := 0) hj (by rw [hfield]; exact Nat.zero_lt_succ _) hn hn']
  have hget : (s.statusWords a).getD n 0 = w := by rw [List.getD_eq_getElem?_getD, hword]; rfl
  simp only [hfield, hn, List.length_cons, List.length_nil, Nat.zero_add, take_one_drop_eq,
    List.getElem_cons_zero, rewrittenWord, WordUnchanged, hword, hother, and_self, hget]

/-- A word of a field of two words. -/
theorem State.read_rewriteStatus_double (a : Axis) (s : State) {j n : Nat} {v w : Word}
    (hj : j < 12) (hfield : (s.statusFields a)[j]'hj = [v, w])
    (hn : ((s.statusFields a).take j).flatten.length = n) (hn' : n + 1 < 14)
    (hv : (s.statusWords a)[n]? = some v) (hw : (s.statusWords a)[n + 1]? = some w)
    (hother : otherWord n = n + 1) (hother' : otherWord (n + 1) = n) :
    (s.rewriteStatus a).read (axisWord a (18 + n)) = rewrittenWord a s n ∧
      (s.rewriteStatus a).read (axisWord a (18 + (n + 1))) = rewrittenWord a s (n + 1) := by
  have hgetv : (s.statusWords a).getD n 0 = v := by rw [List.getD_eq_getElem?_getD, hv]; rfl
  have hgetw : (s.statusWords a).getD (n + 1) 0 = w := by rw [List.getD_eq_getElem?_getD, hw]; rfl
  constructor
  · rw [State.read_rewriteStatus_field a s (i := 0) hj (by rw [hfield]; exact Nat.zero_lt_succ _) hn (by omega)]
    simp only [hfield, hn, List.length_cons, List.length_nil, Nat.zero_add, Nat.reduceAdd, take_two_drop_eq,
      List.getElem_cons_zero, rewrittenWord, WordUnchanged, hv, hw, hother, hgetv]
  · rw [State.read_rewriteStatus_field a s (i := 1) hj (by rw [hfield]; exact Nat.one_lt_succ_succ _) (by rw [hn]) hn']
    simp only [hfield, hn, List.length_cons, List.length_nil, Nat.zero_add, Nat.reduceAdd, take_two_drop_eq,
      List.getElem_cons_succ, List.getElem_cons_zero, rewrittenWord, WordUnchanged, hv, hw, hother',
      hgetw, and_comm]

/-- A rewrite, word by word. -/
theorem State.read_rewriteStatus_word (a : Axis) (s : State) (i : Fin 14) :
    (s.rewriteStatus a).read (axisWord a (18 + i.val)) = rewrittenWord a s i.val := by
  have hremaining := State.read_rewriteStatus_double a s (j := 8) (n := 8) (by decide) rfl rfl (by decide)
    rfl rfl rfl rfl
  have hposition := State.read_rewriteStatus_double a s (j := 9) (n := 10) (by decide) rfl rfl (by decide)
    rfl rfl rfl rfl
  have hsingle {j n : Nat} {w : Word} := State.read_rewriteStatus_single a s (j := j) (n := n) (w := w)
  match i with
  | 0 => exact hsingle (j := 0) (by decide) rfl rfl (by decide) rfl rfl
  | 1 => exact hsingle (j := 1) (by decide) rfl rfl (by decide) rfl rfl
  | 2 => exact hsingle (j := 2) (by decide) rfl rfl (by decide) rfl rfl
  | 3 => exact hsingle (j := 3) (by decide) rfl rfl (by decide) rfl rfl
  | 4 => exact hsingle (j := 4) (by decide) rfl rfl (by decide) rfl rfl
  | 5 => exact hsingle (j := 5) (by decide) rfl rfl (by decide) rfl rfl
  | 6 => exact hsingle (j := 6) (by decide) rfl rfl (by decide) rfl rfl
  | 7 => exact hsingle (j := 7) (by decide) rfl rfl (by decide) rfl rfl
  | 8 => exact hremaining.1
  | 9 => exact hremaining.2
  | 10 => exact hposition.1
  | 11 => exact hposition.2
  | 12 => exact hsingle (j := 10) (by decide) rfl rfl (by decide) rfl rfl
  | 13 => exact hsingle (j := 11) (by decide) rfl rfl (by decide) rfl rfl

theorem State.read_rewriteStatus_count (a : Axis) (s : State) :
    (s.rewriteStatus a).read (axisWord a 17) = (s.ax a).updateCount + 2 := by
  rw [State.read, State.rewriteStatus_ram, Memory.read_write_same]

/-- A rewrite leaves every word outside the block. -/
theorem State.read_rewriteStatus_outside (s : State) {addr : Addr} (h : isStatusWord a addr = false) :
    (s.rewriteStatus a).read addr = s.read addr := by
  rw [isStatusWord_eq_false] at h
  have hcount : (axisWord a 17).toNat ≠ addr.toNat := by
    rw [axisWord_toNat a (by decide)]
    omega
  rw [State.read, State.rewriteStatus_ram, Memory.read_write_of_toNat _ hcount,
    Memory.read_writeChanged_outside, Memory.read_write_of_toNat _ hcount]
  · rfl
  · intro i hi
    rw [State.statusFields_length] at hi
    refine addr_ne_of_toNat ?_
    rw [axisWord_add, axisWord_toNat a (by omega)]
    omega

/-! ### One axis of the end of a tick -/

theorem State.flushStatus_rewrites (a : Axis) (s : State) : StatusRewritten a s (s.flushStatus a) :=
  fun hdirty => by
    rw [State.flushStatus_dirty s a hdirty]
    exact ⟨s.read_rewriteStatus_count a, s.read_rewriteStatus_word a⟩

theorem State.read_flushStatus_outside (s : State) {addr : Addr}
    (h : isStatusWord a addr = false ∨ (s.ax a).dirty = false) :
    (s.flushStatus a).read addr = s.read addr := by
  cases hdirty : (s.ax a).dirty
  · rw [State.flushStatus_clean s a hdirty]
  · rw [State.flushStatus_dirty s a hdirty]
    exact State.read_rewriteStatus_outside s (h.resolve_right (by rw [hdirty]; exact Bool.noConfusion))

theorem State.flushStatus_owedOf (a b : Axis) (s : State) : (s.flushStatus a).owedOf b = s.owedOf b := by
  rw [State.flushStatus_frame]
  rfl

/-- The words of two status blocks do not overlap. -/
theorem isStatusWord_ne {addr : Addr} (hab : a ≠ b) (h : isStatusWord a addr = true) :
    isStatusWord b addr = false := by
  have hval : a.val ≠ b.val := fun e => hab (Fin.ext e)
  rw [← Bool.not_eq_false, isStatusWord_eq_false] at h
  rw [isStatusWord_eq_false]
  omega

theorem isStatusWord_axisWord (a : Axis) {n : Nat} (h : 17 ≤ n) (h' : n < 32) :
    isStatusWord a (axisWord a n) = true := by
  rw [← Bool.not_eq_false, isStatusWord_eq_false, axisWord_toNat a h']
  omega

/-- `u` agrees with `s` in all that a rewrite of the status block of `a` goes by. -/
structure StatusAgrees (a : Axis) (s u : State) : Prop where
  ax : u.ax a = s.ax a
  owed : u.owedOf a = s.owedOf a
  words : ∀ addr, isStatusWord a addr = true → u.read addr = s.read addr

theorem StatusAgrees.statusWords (h : StatusAgrees a s u) : u.statusWords a = s.statusWords a := by
  rw [State.statusWords_eq, State.statusWords_eq, h.ax, h.owed]

theorem StatusAgrees.rewrittenWord (h : StatusAgrees a s u) {i : Nat} (hi : i < 14) :
    rewrittenWord a u i = rewrittenWord a s i := by
  have hread := h.words _ (isStatusWord_axisWord a (n := 18 + i) (by omega) (by omega))
  simp only [Sys2Proof.Machine.rewrittenWord, WordUnchanged, h.ax, h.statusWords, hread]

theorem StatusAgrees.rewritten (h : StatusAgrees a s u) (ht : StatusRewritten a u t) :
    StatusRewritten a s t := fun hdirty => by
  obtain ⟨hcount, hwords⟩ := ht (h.ax.symm ▸ hdirty)
  exact ⟨by rw [hcount, h.ax], fun i => (hwords i).trans (h.rewrittenWord i.isLt)⟩

theorem StatusAgrees.flushStatus (h : a ≠ b) (s : State) : StatusAgrees a s (s.flushStatus b) :=
  ⟨State.flushStatus_ax_ne s h, s.flushStatus_owedOf b a,
    fun _ haddr => State.read_flushStatus_outside s (.inl (isStatusWord_ne h haddr))⟩

/-! ### The rewrites of all axes (R99) -/

theorem State.read_flushList_outside (l : List Axis) (s : State) {addr : Addr}
    (h : ∀ a ∈ l, isStatusWord a addr = false ∨ (s.ax a).dirty = false) :
    (l.foldl (fun s a => s.flushStatus a) s).read addr = s.read addr := by
  induction l generalizing s with
  | nil => rfl
  | cons c l ih =>
    rw [List.foldl_cons, ih, State.read_flushStatus_outside s (h c (.head _))]
    intro b hb
    by_cases hbc : b = c
    · subst hbc
      exact .inr (State.flushStatus_done s b)
    · rw [State.flushStatus_ax_ne s hbc]
      exact h b (.tail _ hb)

theorem State.flushList_ax_notMem (l : List Axis) (s : State) (h : a ∉ l) :
    (l.foldl (fun s a => s.flushStatus a) s).ax a = s.ax a := by
  induction l generalizing s with
  | nil => rfl
  | cons c l ih =>
    rw [List.foldl_cons, ih _ (fun hin => h (.tail _ hin)),
      State.flushStatus_ax_ne s (List.ne_of_not_mem_cons h)]

/-- Each axis of a list without repetitions is rewritten as it stands at the start. -/
theorem State.flushList_rewrites (l : List Axis) (hl : l.Nodup) (ha : a ∈ l) (s : State) :
    StatusRewritten a s (l.foldl (fun s a => s.flushStatus a) s) ∧
      (l.foldl (fun s a => s.flushStatus a) s).ax a = (s.flushStatus a).ax a := by
  induction l generalizing s with
  | nil => cases ha
  | cons c l ih =>
    obtain ⟨hc, hl⟩ := List.nodup_cons.mp hl
    rw [List.foldl_cons]
    by_cases hac : a = c
    · subst hac
      have hlater (addr : Addr) (haddr : isStatusWord a addr = true) :
          (l.foldl (fun s a => s.flushStatus a) (s.flushStatus a)).read addr =
            (s.flushStatus a).read addr :=
        State.read_flushList_outside l _ fun b hb =>
          .inl (isStatusWord_ne (Ne.symm (ne_of_mem_of_not_mem hb hc)) haddr)
      refine ⟨fun hdirty => ?_, State.flushList_ax_notMem l _ hc⟩
      obtain ⟨hcount, hwords⟩ := s.flushStatus_rewrites a hdirty
      exact ⟨(hlater _ (isStatusWord_axisWord a (by decide) (by decide))).trans hcount, fun i =>
        (hlater _ (isStatusWord_axisWord a (by omega) (by omega))).trans (hwords i)⟩
    · have hagrees := StatusAgrees.flushStatus hac s
      obtain ⟨hrewritten, hax⟩ := ih hl ((List.mem_cons.mp ha).resolve_left hac) (s.flushStatus c)
      refine ⟨hagrees.rewritten hrewritten, hax.trans ?_⟩
      rw [State.flushStatus_ax, State.flushStatus_ax, hagrees.ax, hagrees.statusWords]

theorem State.flushAll_rewrites (a : Axis) (s : State) : StatusRewritten a s s.flushAll :=
  (State.flushList_rewrites allAxes nodup_allAxes (mem_allAxes a) s).1

/-- The axis engine after the rewrites. -/
theorem State.flushAll_ax (a : Axis) (s : State) : s.flushAll.ax a = (s.flushStatus a).ax a :=
  (State.flushList_rewrites allAxes nodup_allAxes (mem_allAxes a) s).2

theorem State.read_flushAll_outside (s : State) {addr : Addr}
    (h : ∀ a, isStatusWord a addr = false ∨ (s.ax a).dirty = false) :
    s.flushAll.read addr = s.read addr :=
  State.read_flushList_outside allAxes s fun a _ => h a

/-! ### The snapshot (R35) -/

theorem State.snapWords_length (s : State) : s.snapWords.length = 19 := rfl

theorem State.flushSnap_owed (h : s.snapsOwed ≠ 0) :
    s.flushSnap.ram =
      Memory.write (Memory.writeWords s.ram 0x0021 s.snapWords) 0x0020
        (s.snapCount + BitVec.ofNat 16 s.snapsOwed) := by
  simp only [State.flushSnap, if_neg h]
  rfl

/-- Word 0x0021 + `i` of the snapshot. -/
theorem State.read_flushSnap_word (h : s.snapsOwed ≠ 0) {i : Nat} (hi : i < 19) :
    s.flushSnap.read (BitVec.ofNat 15 (0x0021 + i)) = s.snapWords[i]'hi := by
  have hne : BitVec.toNat (0x0020 : Addr) ≠ (BitVec.ofNat 15 (0x0021 + i)).toNat := by
    rw [BitVec.toNat_ofNat]
    show 32 ≠ _
    omega
  rw [State.read, State.flushSnap_owed h, Memory.read_write_of_toNat _ hne, BitVec.ofNat_add]
  exact Memory.read_writeWords_at s.snapWords s.ram 0x0021 hi (by rw [State.snapWords_length]; decide)

theorem State.read_flushSnap_outside (s : State) {addr : Addr} (h : s.snapTouches addr = false) :
    s.flushSnap.read addr = s.read addr := by
  by_cases hnone : s.snapsOwed = 0
  · rw [State.flushSnap_none s hnone]
  · have hrange : addr.toNat < 32 ∨ 51 < addr.toNat := by
      simp only [State.snapTouches, Bool.and_eq_false_iff, bne_eq_false_iff_eq, hnone, false_or,
        decide_eq_false_iff_not, Nat.not_le] at h
      exact h
    have hfirst : BitVec.toNat (0x0020 : Addr) = 32 := rfl
    rw [State.read, State.flushSnap_owed hnone, Memory.read_write_of_toNat _ (by rw [hfirst]; omega),
      Memory.read_writeWords_outside]
    · rfl
    · intro i hi
      rw [State.snapWords_length] at hi
      refine addr_ne_of_toNat ?_
      have hstart : BitVec.toNat (0x0021 : Addr) = 33 := rfl
      rw [BitVec.toNat_add, BitVec.toNat_ofNat, hstart]
      omega

/-- The words of the position of axis `a` in the snapshot. -/
theorem State.snapWords_position (s : State) (a : Axis) :
    s.snapWords[3 + 2 * a.val]? = some ((s.snapPosition a).extractLsb' 0 16) ∧
      s.snapWords[4 + 2 * a.val]? = some ((s.snapPosition a).extractLsb' 16 16) := by
  match a with
  | 0 => exact ⟨rfl, rfl⟩
  | 1 => exact ⟨rfl, rfl⟩
  | 2 => exact ⟨rfl, rfl⟩
  | 3 => exact ⟨rfl, rfl⟩
  | 4 => exact ⟨rfl, rfl⟩
  | 5 => exact ⟨rfl, rfl⟩
  | 6 => exact ⟨rfl, rfl⟩
  | 7 => exact ⟨rfl, rfl⟩

/-- The position of an axis as the snapshot has it, word by word. -/
theorem State.snapPosition_word (s : State) (a : Axis) (i : Nat) :
    (s.snapPosition a).extractLsb' i 16 =
      if (s.ax a).state = .off then 0 else (s.ax a).position.extractLsb' i 16 := by
  rw [State.snapPosition]
  split
  · apply BitVec.eq_of_getLsbD_eq
    simp
  · rfl

theorem State.flushSnap_writes (s : State) : SnapshotWritten s s.flushSnap := by
  intro howed
  have hword {n i : Nat} {w : Word} (hn : n = 0x0021 + i) (hi : i < 19)
      (hw : s.snapWords[i]? = some w) : s.flushSnap.read (BitVec.ofNat 15 n) = w := by
    subst hn
    rw [State.read_flushSnap_word howed hi]
    exact Option.some.inj ((List.getElem?_eq_getElem (show i < s.snapWords.length from hi)).symm.trans hw)
  refine ⟨?count, hword (i := 0) rfl (by decide) rfl, hword (i := 1) rfl (by decide) rfl,
    hword (i := 2) rfl (by decide) rfl, fun a => ?position⟩
  case count =>
    rw [State.read, State.flushSnap_owed howed, Memory.read_write_same]
  case position =>
    obtain ⟨hlow, hhigh⟩ := s.snapWords_position a
    rw [← State.snapPosition_word, ← State.snapPosition_word]
    exact ⟨hword (by omega) (by omega) hlow, hword (by omega) (by omega) hhigh⟩

/-! ### The end of a tick -/

theorem State.flushSnap_ax (s : State) (a : Axis) : s.flushSnap.ax a = s.ax a :=
  State.ax_of_axes s.flushSnap_axes a

theorem State.flushSnap_owedOf (s : State) (a : Axis) : s.flushSnap.owedOf a = s.owedOf a := by
  rw [State.flushSnap_frame]
  rfl

theorem State.snapTouches_eq_false {addr : Addr} (s : State) (h : addr.toNat < 32 ∨ 51 < addr.toNat) :
    s.snapTouches addr = false := by
  simp only [State.snapTouches, Bool.and_eq_false_iff, decide_eq_false_iff_not, Nat.not_le]
  omega

theorem StatusAgrees.flushSnap (a : Axis) (s : State) : StatusAgrees a s s.flushSnap := by
  refine ⟨s.flushSnap_ax a, s.flushSnap_owedOf a, fun addr haddr => ?_⟩
  rw [← Bool.not_eq_false, isStatusWord_eq_false] at haddr
  exact State.read_flushSnap_outside s (s.snapTouches_eq_false (by omega))

theorem State.endTick_rewrites (a : Axis) (s : State) : StatusRewritten a s s.endTick :=
  (StatusAgrees.flushSnap a s).rewritten (State.flushAll_rewrites a s.flushSnap)

/-- The axis engine after the end of a tick. -/
theorem State.endTick_ax (a : Axis) (s : State) :
    s.endTick.ax a =
      if (s.ax a).dirty then
        { s.ax a with
          copy := s.statusWords a, updateCount := (s.ax a).updateCount + 2, dirty := false
          beganCount := none }
      else s.ax a := by
  have hagrees := StatusAgrees.flushSnap a s
  rw [State.endTick, State.flushAll_ax, State.flushStatus_ax, hagrees.ax, hagrees.statusWords]

/-- What the snapshot block reads, the rewrites leave. -/
theorem SnapshotWritten.of_read (h : SnapshotWritten s t)
    (hread : ∀ addr : Addr, 32 ≤ addr.toNat → addr.toNat ≤ 51 → u.read addr = t.read addr) :
    SnapshotWritten s u := fun howed => by
  obtain ⟨hcount, h0, h1, h2, hpositions⟩ := h howed
  refine ⟨(hread _ (by decide) (by decide)).trans hcount, (hread _ (by decide) (by decide)).trans h0,
    (hread _ (by decide) (by decide)).trans h1, (hread _ (by decide) (by decide)).trans h2, fun a => ?_⟩
  obtain ⟨hlow, hhigh⟩ := hpositions a
  refine ⟨(hread _ ?_ ?_).trans hlow, (hread _ ?_ ?_).trans hhigh⟩ <;>
  · rw [BitVec.toNat_ofNat]
    omega

theorem State.endTick_snapshot (s : State) : SnapshotWritten s s.endTick :=
  s.flushSnap_writes.of_read fun addr hlow hhigh => State.read_flushAll_outside _ fun a =>
    .inl (isStatusWord_eq_false.mpr (by omega))

theorem State.endTick_sameRamBut (s : State) : SameRamBut s.tickTouches s s.endTick := by
  intro addr haddr
  simp only [State.tickTouches, Bool.or_eq_false_iff, List.any_eq_false, Bool.and_eq_true, not_and,
    Bool.not_eq_true] at haddr
  obtain ⟨hstatus, hsnap⟩ := haddr
  rw [State.endTick, State.read_flushAll_outside, State.read_flushSnap_outside s hsnap]
  intro a
  rw [State.flushSnap_ax]
  cases hdirty : (s.ax a).dirty
  · exact .inr rfl
  · exact .inl (hstatus a (mem_allAxes a) hdirty)

end Sys2Proof.Machine
end

