-- ==== Sys2Proof/Proofs/Ticks.lean ====
section
/-!
PROOF. TICK_BOUNDARY (R22, R99, R134): the end of the tick, then the counts, the samples and the timebase of
the next one; and SNAP (R35).
-/
namespace Sys2Proof.Machine

variable {s t : State} {a : Axis} {x : AxisEngine} {c : Context}

/-! ### The counts of an axis (R74, R143) -/

/-- A tick changes no more of an axis engine than its context. -/
theorem AxisEngine.countDown_frame (x : AxisEngine) : x.countDown = { x with ctx := x.countDown.ctx } := by
  unfold AxisEngine.countDown
  split
  · rfl
  · split <;> rfl

theorem AxisEngine.countDown_dwell {k : Nat} {rep : Bool} {tag : Word} (hstate : x.state = .dwelling)
    (hc : x.ctx = some c) (hphase : c.phase = .inSegment (.dwell k rep tag)) :
    x.countDown.ctx = some { c with phase := .inSegment (.dwell (k - 1) rep tag) } := by
  simp only [AxisEngine.countDown, hc, hstate, hphase]

theorem AxisEngine.countDown_waitInput {n : Line} {level : Bool} {k : Nat} {th rep : Bool} {tag : Word}
    (hstate : x.state = .waitInput) (hc : x.ctx = some c)
    (hphase : c.phase = .inSegment (.waitInput n level (some k) th rep tag)) :
    x.countDown.ctx =
      some { c with phase := .inSegment (.waitInput n level (some (k - 1)) th rep tag) } := by
  simp only [AxisEngine.countDown, hc, hstate, hphase]

/-- A WAIT_INPUT without a timeout counts nothing. -/
theorem AxisEngine.countDown_untimed {n : Line} {level th rep : Bool} {tag : Word} (hc : x.ctx = some c)
    (hphase : c.phase = .inSegment (.waitInput n level none th rep tag)) :
    x.countDown.ctx = some c := by
  simp only [AxisEngine.countDown, hc]
  split
  · rename_i hdwell
    rw [hphase] at hdwell
    cases hdwell
  · rename_i hwait
    rw [hphase] at hwait
    cases hwait
  · exact hc

/-- In any other state no count falls. -/
theorem AxisEngine.countDown_other (h : x.state ≠ .dwelling) (h' : x.state ≠ .waitInput) :
    x.countDown.ctx = x.ctx := by
  unfold AxisEngine.countDown
  split
  · rfl
  · split
    · rename_i hdwell _
      exact absurd hdwell h
    · rename_i hwait _
      exact absurd hwait h'
    · rfl

/-! ### The next tick -/

/-- The state in which the next tick begins, from the end of the last one. -/
theorem State.advance_eq (raw : BitVec 16) (u : State) :
    ({ u with now := u.now + 1, rawLevels := raw } : State).advanceTimebase.sampleAndCount raw =
      { u with
        now := u.now + 1, rawLevels := raw
        timebase := if u.dev = .running ∨ u.dev = .stopping then u.timebase + 1 else u.timebase
        lines :=
          if u.dev = .running then table16 fun n => (u.line n).sample (raw.getLsbD n.val) else u.lines
        axes := if u.dev = .running then table8 fun a => (u.ax a).countDown else u.axes } := by
  simp only [State.advanceTimebase, State.sampleAndCount]
  cases u.dev <;> rfl

theorem State.tick_eq (raw : BitVec 16) (s : State) :
    s.tick raw =
      { s with
        ram := s.endTick.ram
        axes := if s.dev = .running then table8 fun a => (s.endTick.ax a).countDown else s.endTick.axes
        snapCount := s.snapCount + BitVec.ofNat 16 s.snapsOwed, snapsOwed := 0
        now := s.now + 1, rawLevels := raw
        timebase := if s.dev = .running ∨ s.dev = .stopping then s.timebase + 1 else s.timebase
        lines :=
          if s.dev = .running then table16 fun n => (s.line n).sample (raw.getLsbD n.val)
          else s.lines } := by
  have hframe := s.endTick_frame
  rw [State.tick]
  generalize s.endTick = u at hframe ⊢
  obtain ⟨ram, axes, rfl⟩ : ∃ ram axes, u =
      { s with
        ram := ram, axes := axes
        snapCount := s.snapCount + BitVec.ofNat 16 s.snapsOwed, snapsOwed := 0 } := ⟨_, _, hframe⟩
  exact State.advance_eq raw _

theorem State.tick_read (raw : BitVec 16) (s : State) (addr : Addr) :
    (s.tick raw).read addr = s.endTick.read addr := by
  have hram : (s.tick raw).ram = s.endTick.ram := by rw [State.tick_eq]
  rw [State.read, State.read, hram]

theorem State.tick_axis (raw : BitVec 16) (s : State) (a : Axis) :
    (s.tick raw).ax a = if s.dev = .running then (s.endTick.ax a).countDown else s.endTick.ax a := by
  rw [State.tick_eq]
  show (if _ then _ else _ : Vector AxisEngine 8)[a] = _
  split
  · exact table8_get (fun a => (s.endTick.ax a).countDown) a
  · rfl

theorem State.tick_line (raw : BitVec 16) (s : State) (n : Line) :
    (s.tick raw).line n =
      if s.dev = .running then (s.line n).sample (raw.getLsbD n.val) else s.line n := by
  rw [State.tick_eq]
  show (if _ then _ else _ : Vector InputLine 16)[n] = _
  split
  · exact table16_get (fun n => (s.line n).sample (raw.getLsbD n.val)) n
  · rfl

theorem exec_tickBoundary (raw : BitVec 16) (h : s.anyDue = false) :
    exec (.tickBoundary raw) s = .next (s.tick raw) := if_neg (Bool.eq_false_iff.mp h)

/-- The rewrite and the snapshot read the same after the tick as at its end. -/
theorem State.tick_rewrites (raw : BitVec 16) (a : Axis) (s : State) : StatusRewritten a s (s.tick raw) :=
  fun hdirty => by
    obtain ⟨hcount, hwords⟩ := s.endTick_rewrites a hdirty
    exact ⟨(s.tick_read raw _).trans hcount, fun i => (s.tick_read raw _).trans (hwords i)⟩

theorem State.tick_snapshot (raw : BitVec 16) (s : State) : SnapshotWritten s (s.tick raw) :=
  s.endTick_snapshot.of_read fun addr _ _ => s.tick_read raw addr

/-- Settles O13. -/
theorem snapWritesTheSnapshot : Obligations.SnapWritesTheSnapshot := by
  intro s
  refine ⟨fun hinit => ?taken, fun raw hdue => ?written⟩
  case taken =>
    exact congrArg Host.Outcome.next (if_neg (Bool.eq_false_iff.mp hinit))
  case written =>
    refine ⟨s.tick raw, exec_tickBoundary raw hdue, by rw [State.tick_eq], by rw [State.tick_eq],
      s.tick_snapshot raw, fun hnone addr haddr => ?_⟩
    have hrange : 0x0020 ≤ addr.toNat ∧ addr.toNat ≤ 0x0033 := by
      simp only [gt_iff_lt, Bool.or_eq_false_iff, decide_eq_false_iff_not, Nat.not_lt] at haddr
      exact haddr
    rw [State.tick_read, State.endTick, State.read_flushAll_outside, State.flushSnap_none s hnone]
    exact fun a => .inl (isStatusWord_eq_false.mpr (by omega))

/-! ### TICK_BOUNDARY -/

/-- The context of an axis after the tick. -/
theorem State.tick_ctx (raw : BitVec 16) (s : State) (a : Axis) :
    ((s.tick raw).ax a).ctx = if s.dev = .running then (s.ax a).countDown.ctx else (s.ax a).ctx := by
  have hcount (d : Bool) (copy : List Word) (n : Word) (began : Option Nat) :
      ({ s.ax a with copy := copy, updateCount := n, dirty := d, beganCount := began } :
        AxisEngine).countDown.ctx = (s.ax a).countDown.ctx := by
    cases hc : (s.ax a).ctx with
    | none => simp only [AxisEngine.countDown, hc]
    | some c =>
      simp only [AxisEngine.countDown, hc]
      split <;> first | rfl | exact hc.symm
  rw [State.tick_axis, State.endTick_ax]
  split <;> split
  · exact hcount _ _ _ _
  · rfl
  · rfl
  · rfl

/-- A tick leaves of an axis engine all but its context and what a rewrite changes. -/
theorem State.tick_axis_frame (raw : BitVec 16) (s : State) (a : Axis) :
    (s.tick raw).ax a = { s.endTick.ax a with ctx := ((s.tick raw).ax a).ctx } := by
  rw [State.tick_axis]
  generalize s.endTick.ax a = x
  split
  · exact x.countDown_frame
  · rfl

/-- Settles O49. -/
theorem tickBoundaryAdvances : Obligations.TickBoundaryAdvances := by
  intro raw s hdue
  refine ⟨s.tick raw, exec_tickBoundary raw hdue, ?fields, fun n => ?line, fun a => ⟨fun hclean => ?clean,
    fun hdirty => ?dirty, s.tick_rewrites raw a, ?dwell, ?wait, ?untimed, ?other⟩, s.tick_snapshot raw,
    fun addr haddr => (s.tick_read raw addr).trans (s.endTick_sameRamBut addr haddr)⟩
  case fields =>
    have htick := State.tick_eq raw s
    generalize s.tick raw = t at htick ⊢
    obtain ⟨ram, axes, lines, rfl⟩ : ∃ ram axes lines, t =
        { s with
          ram := ram, axes := axes, lines := lines, rawLevels := raw, now := s.now + 1
          snapCount := s.snapCount + BitVec.ofNat 16 s.snapsOwed, snapsOwed := 0
          timebase :=
            if s.dev = .running ∨ s.dev = .stopping then s.timebase + 1 else s.timebase } :=
      ⟨_, _, _, htick⟩
    rfl
  case line =>
    rw [State.tick_line]
    rfl
  case clean =>
    have hframe := s.tick_axis_frame raw a
    rwa [State.endTick_ax, if_neg (Bool.eq_false_iff.mp hclean)] at hframe
  case dirty =>
    have hframe := s.tick_axis_frame raw a
    rwa [State.endTick_ax, if_pos hdirty] at hframe
  case dwell =>
    intro c k rep tag hdev hstate hc hphase
    rw [State.tick_ctx, if_pos hdev]
    exact AxisEngine.countDown_dwell hstate hc hphase
  case wait =>
    intro c n level k th rep tag hdev hstate hc hphase
    rw [State.tick_ctx, if_pos hdev]
    exact AxisEngine.countDown_waitInput hstate hc hphase
  case untimed =>
    intro c n level th rep tag hc hphase
    rw [State.tick_ctx]
    split
    · exact AxisEngine.countDown_untimed hc hphase
    · exact hc
  case other =>
    intro hstays
    rw [State.tick_ctx]
    split
    · rename_i hdev
      obtain ⟨hdwell, hwait⟩ := hstays.resolve_left (fun h => h hdev)
      exact AxisEngine.countDown_other hdwell hwait
    · rfl

end Sys2Proof.Machine
end

