-- ==== Sys2Proof/Proofs/SoftReset.lean ====
section
/-!
PROOF. SOFT_RESET (R32, R34): what it resets and what it keeps for the scan.
-/
namespace Sys2Proof.Machine

variable {s t u : State} {a : Axis}

/-! ### SOFT_RESET -/

theorem State.softReset_ram (s : State) : s.softReset.ram = s.endTick.ram := by
  rw [State.softReset]

theorem State.softReset_read (s : State) (addr : Addr) : s.softReset.read addr = s.endTick.read addr := by
  rw [State.read, State.read, State.softReset_ram]

/-- A soft reset with STEP low: all but the pulse, the copy and the update count is at reset. -/
theorem AxisEngine.softReset_low {x : AxisEngine} (h : x.step.isHigh = false) :
    x.softReset =
      { AxisEngine.reset with step := x.step, copy := x.copy, updateCount := x.updateCount } := by
  simp only [AxisEngine.softReset, AxisEngine.resetKeepingPulse]
  cases hstep : x.step with
  | low => rfl
  | high => rw [hstep] at h; cases h

/-- A soft reset during a pulse keeps DIR, and brings it to 0 after the pulse. -/
theorem AxisEngine.softReset_high {x : AxisEngine} (h : x.step.isHigh = true) :
    x.softReset =
      { AxisEngine.reset with
        step := x.step, dir := x.dir, dirZero := .byReset, copy := x.copy
        updateCount := x.updateCount } := by
  simp only [AxisEngine.softReset, AxisEngine.resetKeepingPulse]
  cases hstep : x.step with
  | low => rw [hstep] at h; cases h
  | high => rfl

/-- What the end of a tick leaves of an axis engine, as SOFT_RESET reads it. -/
theorem State.endTick_kept (s : State) (a : Axis) :
    (s.endTick.ax a).step = (s.ax a).step ∧ (s.endTick.ax a).dir = (s.ax a).dir ∧
      (s.endTick.ax a).copy = (if (s.ax a).dirty then s.statusWords a else (s.ax a).copy) ∧
      (s.endTick.ax a).updateCount = (s.ax a).countAfter := by
  rw [State.endTick_ax, AxisEngine.countAfter]
  split <;> exact ⟨rfl, rfl, rfl, rfl⟩

/-- Settles O6. -/
theorem softResetResetsTheBlocks : Obligations.SoftResetResetsTheBlocks := by
  intro s hinit
  have hread := s.softReset_read
  refine ⟨s.softReset, exec_softReset hinit, ?fields, fun a => ?axis,
    s.endTick_snapshot.of_read fun addr _ _ => hread addr,
    fun addr haddr => (hread addr).trans (s.endTick_sameRamBut addr haddr)⟩
  case fields =>
    have hframe := s.endTick_frame
    rw [State.softReset]
    generalize s.endTick = u at hframe ⊢
    obtain ⟨ram, axes, rfl⟩ : ∃ ram axes, u =
        { s with
          ram := ram, axes := axes
          snapCount := s.snapCount + BitVec.ofNat 16 s.snapsOwed, snapsOwed := 0 } := ⟨_, _, hframe⟩
    rfl
  case axis =>
    obtain ⟨hstep, hdir, hcopy, hcount⟩ := s.endTick_kept a
    rw [State.softReset_ax]
    refine ⟨fun hlow => ?_, fun hhigh => ?_, fun hdirty => ?_⟩
    · rw [AxisEngine.softReset_low (hstep.symm ▸ hlow), hstep, hcopy, hcount]
    · rw [AxisEngine.softReset_high (hstep.symm ▸ hhigh), hstep, hdir, hcopy, hcount]
    · obtain ⟨hbracket, hwords⟩ := s.endTick_rewrites a hdirty
      exact ⟨(hread _).trans hbracket, fun i => (hread _).trans (hwords i)⟩

end Sys2Proof.Machine
end

