-- ==== Sys2Proof/Proofs/Releases.lean ====
section
/-!
PROOF. Releases of claims (R8, R10): the words of a released page, the releases of a halt (R93), and the
soft-reset scan (R20, R165).
-/
namespace Sys2Proof.Machine

variable {s t : State} {a : Axis} {p q : Page} {c : Claimant} {time : Time} {e : Nat × Claimant}
  {l : List (Nat × Claimant)}

/-! ### The release of one page -/

/-- The words of page `p` that its release writes. -/
def releaseTouches (p : Page) (addr : Addr) : Bool := addr == pageWord p 1 || isPageWord p 4 7 addr

/-- Page `p` reads as it does after the release of the claim of `c`. -/
structure Released (p : Page) (c : Claimant) (time : Time) (t : State) : Prop where
  state : t.read (pageWord p 1) = 3
  low : t.read (pageWord p 4) = time.extractLsb' 0 16
  mid : t.read (pageWord p 5) = time.extractLsb' 16 16
  high : t.read (pageWord p 6) = time.extractLsb' 32 16
  spender : t.read (pageWord p 7) = axisLevelWord c.axis c.level

/-- What leaves the five words leaves the page released. -/
theorem Released.of_read (h : Released p c time s)
    (hread : ∀ off : BitVec 8, t.read (pageWord p off) = s.read (pageWord p off)) :
    Released p c time t :=
  ⟨(hread 1).trans h.state, (hread 4).trans h.low, (hread 5).trans h.mid, (hread 6).trans h.high,
    (hread 7).trans h.spender⟩

theorem releaseTouches_eq_false {addr : Addr} : releaseTouches p addr = false ↔
    addr.toNat ≠ 256 * p.toNat + 1 ∧
      (addr.toNat < 256 * p.toNat + 4 ∨ 256 * p.toNat + 7 < addr.toNat) := by
  have hone : (1 : BitVec 8).toNat = 1 := rfl
  rw [releaseTouches, Bool.or_eq_false_iff, isPageWord_eq_false, beq_eq_false_iff_ne, ne_eq,
    ← BitVec.toNat_inj, pageWord_toNat, hone]

/-- The release of a page writes no word of another. -/
theorem releaseTouches_pageWord (h : p ≠ q) (off : BitVec 8) :
    releaseTouches p (pageWord q off) = false := by
  have hne : p.toNat ≠ q.toNat := fun heq => h (BitVec.eq_of_toNat_eq heq)
  have hoff := off.isLt
  rw [releaseTouches_eq_false, pageWord_toNat]
  omega

theorem State.releasePage_ram (p : Page) (c : Claimant) (time : Time) (s : State) :
    (s.releasePage p c time).ram =
      Memory.write
        (Memory.writeWords s.ram (pageWord p 4) (timeWords time ++ [axisLevelWord c.axis c.level]))
        (pageWord p 1) 3 := rfl

theorem State.read_releasePage_outside (s : State) {addr : Addr} (h : releaseTouches p addr = false) :
    (s.releasePage p c time).read addr = s.read addr := by
  have hfour : (4 : BitVec 8).toNat = 4 := rfl
  have hone : (1 : BitVec 8).toNat = 1 := rfl
  rw [releaseTouches_eq_false] at h
  rw [State.read, State.releasePage_ram,
    Memory.read_write_of_toNat _ (by rw [pageWord_toNat, hone]; omega),
    Memory.read_writeWords_page_outside _ _ _ _ (by simp [timeWords])
      (by simp only [timeWords, List.length_append, List.length_cons, List.length_nil, hfour]; omega)]
  rfl

theorem State.releasePage_released (p : Page) (c : Claimant) (time : Time) (s : State) :
    Released p c time (s.releasePage p c time) := by
  have hword {i : Nat} (hi : i < 4) : (s.releasePage p c time).read (pageWord p (BitVec.ofNat 8 (4 + i))) =
      (timeWords time ++ [axisLevelWord c.axis c.level])[i]'hi := by
    have hne : (pageWord p 1).toNat ≠ (pageWord p (BitVec.ofNat 8 (4 + i))).toNat := by
      have hone : (1 : BitVec 8).toNat = 1 := rfl
      rw [pageWord_toNat, pageWord_toNat, BitVec.toNat_ofNat, hone]
      omega
    rw [State.read, State.releasePage_ram, Memory.read_write_of_toNat _ hne]
    exact Memory.read_writeWords_page _ s.ram p 4 hi (by simp [timeWords])
  refine ⟨?_, hword (i := 0) (by decide), hword (i := 1) (by decide), hword (i := 2) (by decide),
    hword (i := 3) (by decide)⟩
  rw [State.read, State.releasePage_ram, Memory.read_write_same]

/-! ### The releases of a list -/

theorem State.read_releaseList_outside (s : State) {addr : Addr}
    (h : ∀ e ∈ l, releaseTouches (BitVec.ofNat 7 e.1) addr = false) :
    (s.releaseList time l).read addr = s.read addr := by
  induction l generalizing s with
  | nil => rfl
  | cons f l ih =>
    exact (ih _ fun e he => h e (.tail _ he)).trans (s.read_releasePage_outside (h f (.head _)))

/-- Each page of a list without repetitions is released. -/
theorem State.releaseList_released (s : State)
    (hl : l.Pairwise fun e f => BitVec.ofNat 7 e.1 ≠ BitVec.ofNat 7 f.1) (he : e ∈ l) :
    Released (BitVec.ofNat 7 e.1) e.2 time (s.releaseList time l) := by
  induction l generalizing s with
  | nil => cases he
  | cons f l ih =>
    obtain ⟨hf, hl⟩ := List.pairwise_cons.mp hl
    rcases List.mem_cons.mp he with rfl | he
    · exact (s.releasePage_released _ _ _).of_read fun off =>
        State.read_releaseList_outside _ fun g hg => releaseTouches_pageWord (hf g hg).symm off
    · exact ih _ hl he

theorem Sparse.erase_eq_filter {α : Type} (m : List (Nat × α)) (k : Nat) :
    Sparse.erase m k = m.filter fun e => e.1 ≠ k := by
  induction m with
  | nil => rfl
  | cons e m ih =>
    rw [List.filter_cons, Sparse.erase, ih]
    by_cases h : e.1 = k <;> simp [h]

/-- A release list takes the claims of its pages and no other. -/
theorem State.claims_releaseList (s : State) :
    (s.releaseList time l).claims =
      s.claims.filter fun e => l.all fun f => e.1 ≠ (BitVec.ofNat 7 f.1).toNat := by
  induction l generalizing s with
  | nil => exact (List.filter_eq_self.mpr fun _ _ => rfl).symm
  | cons f l ih =>
    have hclaims : (s.releasePage (BitVec.ofNat 7 f.1) f.2 time).claims =
        s.claims.filter fun e => e.1 ≠ (BitVec.ofNat 7 f.1).toNat := Sparse.erase_eq_filter ..
    rw [State.releaseList, ih, hclaims, List.filter_filter]
    exact List.filter_congr fun e _ => Bool.and_comm ..

/-! ### Claims under the first law -/

/-- The keys that rise are pairwise different. -/
theorem Sparse.pairwise_of_rising {α : Type} {m : List (Nat × α)} (h : Sparse.rising m = true) :
    m.Pairwise fun e f => e.1 < f.1 := by
  induction m with
  | nil => exact .nil
  | cons e m ih =>
    simp only [Sparse.rising, Bool.and_eq_true, List.all_eq_true, decide_eq_true_eq] at h
    exact .cons h.1 (ih h.2)

/-- The claimed pages are pairwise different. -/
theorem ClaimLaw.pairwise (h : ClaimLaw s) :
    s.claims.Pairwise fun e f => BitVec.ofNat 7 e.1 ≠ BitVec.ofNat 7 f.1 :=
  (Sparse.pairwise_of_rising h.1).imp_of_mem fun he hf hlt heq => by
    rw [← BitVec.toNat_inj, h.toNat_ofNat he, h.toNat_ofNat hf] at heq
    omega

/-- A page has one claim. -/
theorem ClaimLaw.unique (h : ClaimLaw s) {f : Nat × Claimant} (he : e ∈ s.claims) (hf : f ∈ s.claims)
    (heq : e.1 = f.1) : e = f := by
  have hnodup : (s.claims.map Prod.fst).Nodup :=
    List.pairwise_map.mpr ((Sparse.pairwise_of_rising h.1).imp Nat.ne_of_lt)
  exact List.inj_on_of_nodup_map hnodup he hf heq

/-- Settles O30. -/
theorem haltReleasesItsClaims : Obligations.HaltReleasesItsClaims := by
  intro a s hlaw
  refine ⟨?fields, fun e he haxis => ?released, fun addr haddr => ?outside⟩
  case fields =>
    have hclaims : (s.releaseAxisClaims a).claims = s.claims.filter fun e => e.2.axis ≠ a := by
      rw [State.releaseAxisClaims, State.claims_releaseList]
      refine List.filter_congr fun e he => ?_
      rw [Bool.eq_iff_iff, List.all_eq_true, decide_eq_true_eq]
      constructor
      · intro hall haxis
        have hne := hall e (List.mem_filter.mpr ⟨he, decide_eq_true haxis⟩)
        rw [hlaw.toNat_ofNat he, decide_eq_true_eq] at hne
        exact hne rfl
      · intro haxis f hf
        obtain ⟨hmem, hfaxis⟩ := List.mem_filter.mp hf
        rw [hlaw.toNat_ofNat hmem, decide_eq_true_eq]
        exact fun heq => haxis (hlaw.unique he hmem heq ▸ of_decide_eq_true hfaxis)
    rw [← hclaims]
    exact State.releaseList_fields ..
  case released =>
    have hmem : e ∈ s.claims.filter fun e => e.2.axis = a := List.mem_filter.mpr ⟨he, decide_eq_true haxis⟩
    obtain ⟨hstate, hlow, hmid, hhigh, hspender⟩ :=
      s.releaseList_released (time := s.timebase) (hlaw.pairwise.filter _) hmem
    rw [haxis] at hspender
    exact ⟨hstate, hlow, hmid, hhigh, hspender⟩
  case outside =>
    refine s.read_releaseList_outside fun e he => ?_
    obtain ⟨hmem, haxis⟩ := List.mem_filter.mp he
    have hno := List.any_eq_false.mp haddr e hmem
    rw [beq_iff_eq.mpr (of_decide_eq_true haxis), Bool.true_and, Bool.not_eq_true] at hno
    exact hno

/-! ### The scan -/

/-- The words that the FILLING slot has written by the scan. -/
def State.fillingTouches (s : State) (addr : Addr) : Bool :=
  match s.filling with
  | none => false
  | some (k, p, records, _) =>
    addr == slotStateWord k || (records != 0 && (isPageWord p 5 7 addr || addr == 0x0010))

theorem State.scanTouches_eq_false {addr : Addr} : s.scanTouches addr = false ↔
    (∀ e ∈ s.claims, releaseTouches (BitVec.ofNat 7 e.1) addr = false) ∧ s.fillingTouches addr = false := by
  have hsplit : s.scanTouches addr =
      ((s.claims.any fun e => releaseTouches (BitVec.ofNat 7 e.1) addr) || s.fillingTouches addr) := rfl
  rw [hsplit, Bool.or_eq_false_iff, List.any_eq_false]
  simp only [Bool.not_eq_true]

section Filling

variable {k : Slot} {records used : Nat}

theorem State.scanFilling_none (h : s.filling = none) (kept : Time) : s.scanFilling kept = s := by
  simp only [State.scanFilling, h]

theorem State.scanFilling_empty (h : s.filling = some (k, p, 0, used)) (kept : Time) :
    s.scanFilling kept = s.writeSlot k .empty := by
  simp only [State.scanFilling, h, if_pos]

theorem State.scanFilling_closes (h : s.filling = some (k, p, records, used)) (hrec : records ≠ 0)
    (kept : Time) : s.scanFilling kept = s.closePage .reset kept := by
  simp only [State.scanFilling, h, if_neg hrec]

end Filling

theorem State.fillingTouches_empty {k : Slot} {used : Nat} (h : s.filling = some (k, p, 0, used))
    (addr : Addr) : s.fillingTouches addr = (addr == slotStateWord k) := by
  simp [State.fillingTouches, h]

theorem State.fillingTouches_closes {k : Slot} {records used : Nat}
    (h : s.filling = some (k, p, records, used)) (hrec : records ≠ 0) (addr : Addr) :
    s.fillingTouches addr = (addr == slotStateWord k || (isPageWord p 5 7 addr || addr == 0x0010)) := by
  have hbne : (records != 0) = true := bne_iff_ne.mpr hrec
  simp only [State.fillingTouches, h, hbne, Bool.true_and]

theorem State.read_scanFilling_outside (kept : Time) {addr : Addr} (h : s.fillingTouches addr = false) :
    (s.scanFilling kept).read addr = s.read addr := by
  cases hfill : s.filling with
  | none => rw [State.scanFilling_none hfill]
  | some f =>
    obtain ⟨k, p, records, used⟩ := f
    by_cases hrec : records = 0
    · subst hrec
      rw [State.fillingTouches_empty hfill, beq_eq_false_iff_ne] at h
      rw [State.scanFilling_empty hfill]
      exact Memory.read_write_ne s.ram h.symm (SlotState.code .empty)
    · simp only [State.fillingTouches_closes hfill hrec, Bool.or_eq_false_iff, beq_eq_false_iff_ne] at h
      obtain ⟨hslot, hpage, hcount⟩ := h
      rw [State.scanFilling_closes hfill hrec, State.read, State.closePage_ram hfill,
        Memory.read_closed_other _ _ _ _ _ _ hpage hslot hcount]
      rfl

/-- The FILLING slot writes no word of another general page, and no word of its own below word 5. -/
theorem State.fillingTouches_pageWord (hq : 3 ≤ q.toNat) {off : BitVec 8}
    (h : off.toNat < 5 ∨
      ∀ k p records used, s.filling = some (k, p, records, used) → records ≠ 0 → p ≠ q) :
    s.fillingTouches (pageWord q off) = false := by
  have hoff := off.isLt
  have hcount : BitVec.toNat (0x0010 : Addr) = 16 := rfl
  cases hfill : s.filling with
  | none => simp only [State.fillingTouches, hfill]
  | some f =>
    obtain ⟨k, p, records, used⟩ := f
    have hk := k.isLt
    have hslot : pageWord q off ≠ slotStateWord k :=
      addr_ne_of_toNat (by rw [pageWord_toNat, slotStateWord_toNat]; omega)
    by_cases hrec : records = 0
    · subst hrec
      rw [State.fillingTouches_empty hfill, beq_eq_false_iff_ne]
      exact hslot
    · have hpage : isPageWord p 5 7 (pageWord q off) = false := by
        rw [isPageWord_eq_false, pageWord_toNat]
        rcases h with hlow | hother
        · omega
        · have hne : p.toNat ≠ q.toNat := fun heq =>
            hother k p records used hfill hrec (BitVec.eq_of_toNat_eq heq)
          omega
      simp only [State.fillingTouches_closes hfill hrec, hpage, Bool.or_eq_false_iff, Bool.false_or,
        beq_eq_false_iff_ne]
      exact ⟨hslot, addr_ne_of_toNat (by rw [pageWord_toNat, hcount]; omega)⟩

theorem State.scanFilling_frame (kept : Time) (s : State) :
    s.scanFilling kept =
      { s with
        ram := (s.scanFilling kept).ram, acause := (s.scanFilling kept).acause
        report := (s.scanFilling kept).report } := by
  cases hfill : s.filling with
  | none => rw [State.scanFilling_none hfill]
  | some f =>
    obtain ⟨k, p, records, used⟩ := f
    by_cases hrec : records = 0
    · subst hrec
      rw [State.scanFilling_empty hfill]
      rfl
    · rw [State.scanFilling_closes hfill hrec, State.closePage_eq hfill]

/-- The state after the releases of the scan. -/
def State.scanReleases (kept : Time) (s : State) : State :=
  { s.releaseList kept s.claims with claims := [] }

theorem State.scan_eq (kept : Time) (s : State) :
    s.scan kept =
      ((s.scanReleases kept).scanFilling kept).mapReport fun r => { r with lastClosed := 7 } := rfl

theorem State.scanReleases_frame (kept : Time) (s : State) :
    s.scanReleases kept = { s with ram := (s.scanReleases kept).ram, claims := [] } := by
  rw [State.scanReleases, State.releaseList_fields]

theorem State.scanReleases_filling (kept : Time) (s : State) : (s.scanReleases kept).filling = s.filling := by
  rw [State.scanReleases_frame]
  rfl

theorem State.scanReleases_report (kept : Time) (s : State) : (s.scanReleases kept).report = s.report := by
  rw [State.scanReleases_frame]

theorem State.scan_read (kept : Time) (s : State) (addr : Addr) :
    (s.scan kept).read addr = ((s.scanReleases kept).scanFilling kept).read addr := by
  rw [State.scan_eq]
  rfl

/-- The state in which the scan leaves the part (R34). -/
def State.scanned (kept : Time) (s : State) : State :=
  { s.scan kept with dev := .stopped, acause := AlertCause.resetDone.bit }

theorem State.scanned_frame (kept : Time) (s : State) :
    s.scanned kept =
      { s with
        ram := (s.scanned kept).ram, claims := [], dev := .stopped, acause := 0x001
        report := (s.scanned kept).report } := by
  rw [State.scanned, State.scan_eq, State.scanFilling_frame, State.scanReleases_frame]
  rfl

theorem State.scanned_report (kept : Time) (s : State) :
    (s.scanned kept).report =
      { ((s.scanReleases kept).scanFilling kept).report with lastClosed := 7 } := by
  rw [State.scanned, State.scan_eq]
  rfl

/-- Words that the FILLING slot leaves read as after the releases. -/
theorem State.read_scanned (kept : Time) {addr : Addr} (h : s.fillingTouches addr = false) :
    (s.scanned kept).read addr = (s.scanReleases kept).read addr := by
  refine (s.scan_read kept addr).trans (State.read_scanFilling_outside kept ?_)
  rw [State.fillingTouches, State.scanReleases_filling]
  exact h

theorem exec_softResetScanEnd_busy (h : s.anyPulse = true) : exec .softResetScanEnd s = .next s := by
  show execSoftResetScanEnd s = _
  unfold execSoftResetScanEnd
  split
  · exact if_pos h
  all_goals rfl

theorem exec_softResetScanEnd (hdev : s.dev = .init (.scan kept)) (h : s.anyPulse = false) :
    exec .softResetScanEnd s = .next (s.scanned kept) := by
  show execSoftResetScanEnd s = _
  simp only [execSoftResetScanEnd, hdev, h, Bool.false_eq_true, if_false]
  rfl

/-- Settles O7. -/
theorem softResetScanReleasesPages : Obligations.SoftResetScanReleasesPages := by
  refine ⟨fun s ⟨a, hhigh⟩ => exec_softResetScanEnd_busy (State.anyPulse_eq_true hhigh),
    fun s kept hlaw hdev hlow => ⟨s.scanned kept,
      exec_softResetScanEnd hdev (State.anyPulse_eq_false hlow), s.scanned_frame kept,
      fun addr haddr => ?outside, fun e he => ?released, fun e he hother => ?whole, fun hfill => ?none,
      fun k p records used hfill => ⟨fun hrec => ?empty, fun hrec => ?closes⟩⟩⟩
  case outside =>
    obtain ⟨hclaims, hfilling⟩ := State.scanTouches_eq_false.mp haddr
    exact (State.read_scanned kept hfilling).trans (State.read_releaseList_outside s hclaims)
  case released =>
    have hreleased := s.releaseList_released (time := kept) hlaw.pairwise he
    have hpage : 3 ≤ (BitVec.ofNat 7 e.1).toNat := (hlaw.toNat_ofNat he).symm ▸ (hlaw.2 e he).1
    exact ⟨(State.read_scanned kept (State.fillingTouches_pageWord hpage (.inl (by decide)))).trans
        hreleased.state,
      (State.read_scanned kept (State.fillingTouches_pageWord hpage (.inl (by decide)))).trans
        hreleased.low⟩
  case whole =>
    have hreleased := s.releaseList_released (time := kept) hlaw.pairwise he
    have hpage : 3 ≤ (BitVec.ofNat 7 e.1).toNat := (hlaw.toNat_ofNat he).symm ▸ (hlaw.2 e he).1
    have hread (off : BitVec 8) := State.read_scanned kept (State.fillingTouches_pageWord hpage (off := off) (.inr hother))
    exact ⟨(hread 5).trans hreleased.mid, (hread 6).trans hreleased.high, (hread 7).trans hreleased.spender⟩
  case none =>
    rw [State.scanned_report, State.scanFilling_none ((s.scanReleases_filling kept).trans hfill),
      State.scanReleases_report]
  case empty =>
    subst hrec
    have hfill' := (s.scanReleases_filling kept).trans hfill
    have hempty := State.scanFilling_empty hfill' kept
    refine ⟨?_, ?_⟩
    · rw [State.scanned_report, hempty]
      show { (s.scanReleases kept).report with slots := (s.scanReleases kept).report.slots.set k .empty, lastClosed := 7 } = _
      rw [State.scanReleases_report]
    · refine (s.scan_read kept _).trans ?_
      rw [hempty]
      exact Memory.read_write_same (s.scanReleases kept).ram (slotStateWord k) (SlotState.code .empty)
  case closes =>
    have hfill' := (s.scanReleases_filling kept).trans hfill
    have hcloses := State.scanFilling_closes hfill' hrec kept
    have hread (addr : Addr) : (s.scanned kept).read addr =
        Memory.read (Memory.closed (s.scanReleases kept).ram .reset kept k p (s.report.pagesClosed + 1))
          addr := by
      refine (s.scan_read kept _).trans ?_
      rw [hcloses, State.read, State.closePage_ram hfill', State.scanReleases_report]
    refine ⟨?_, (hread _).trans (Memory.read_closed_slot ..), (hread _).trans (Memory.read_closed_count ..),
      (hread _).trans (Memory.read_closed_reason _ _ _ _ _ _ (i := 0) (by decide)),
      (hread _).trans (Memory.read_closed_reason _ _ _ _ _ _ (i := 1) (by decide)),
      (hread _).trans (Memory.read_closed_reason _ _ _ _ _ _ (i := 2) (by decide))⟩
    rw [State.scanned_report, hcloses, State.closePage_eq hfill', State.scanReleases_report]

end Sys2Proof.Machine
end

