-- ==== Sys2Proof/Proofs/RunStart.lean ====
section
/-!
PROOF. RUN_START with a valid setup (R26, R29, R73): the copied setup, the axes, the join entries and the
mirror words.
-/
namespace Sys2Proof.Machine

variable {s t : State} {a : Axis} {x : AxisEngine} {c : Setup} {j : Point} {n : Line}

/-! ### The setup -/

theorem firstFault_eq_none (h : ∀ (f : SetupFault) (i : Fin 16), c.fails f i = false) :
    c.firstFault = none := by
  have henabled : c.enabled ≠ 0 := fun h0 =>
    Bool.eq_false_iff.mp (h .noAxes 0) ((c.fails_noAxes_iff 0).mpr ⟨rfl, h0⟩)
  have haxes : firstFailing c.axisFault allAxes = none := firstFailing_eq_none allAxes fun a => by
    rw [Setup.axisFault_eq, h, if_neg Bool.false_ne_true]
  have hpoints : firstFailing c.pointFault allSixteen = none := firstFailing_eq_none allSixteen fun j => by
    rw [Setup.pointFault_eq, h, if_neg Bool.false_ne_true]
  have hlines : firstFailing c.lineFault allSixteen = none := firstFailing_eq_none allSixteen fun n => by
    rw [Setup.lineFault_eq, h, h, if_neg Bool.false_ne_true, if_neg Bool.false_ne_true]
  rw [Setup.firstFault, if_neg henabled, haxes, hpoints, hlines]

theorem exec_runStart_valid (raw : BitVec 16) (hdev : s.dev = .stopped)
    (h : (Memory.setup s.ram).firstFault = none) :
    exec (.runStart raw) s = .next (s.startSpan (Memory.setup s.ram) raw) := by
  refine congrArg Host.Outcome.next ?_
  simp only [State.runStartCommand, hdev, h]

/-- The copy is read word by word. -/
theorem setup_copied (s : State) : CopiedFrom s (Memory.setup s.ram) :=
  ⟨rfl, rfl, rfl, rfl, rfl, fun a => table8_get (Memory.axisLimits s.ram) a,
    fun j => table16_get (Memory.pointSetup s.ram) j, fun n => table16_get (Memory.lineSetup s.ram) n⟩

/-! ### The axes -/

/-- An axis engine at the start of a span, before its rewrite. -/
theorem AxisEngine.atRunStart_eq (x : AxisEngine) (enabled : Bool) (now : Nat) :
    x.atRunStart enabled now =
      { state := if enabled then .idle else .off
        ctx := none, stack := [], requests := .empty, position := 0
        step := x.step
        dir := x.step.isHigh && x.dir
        dirChange := if x.dir = true ∧ x.step.isHigh = false then some now else none
        dirZero := if x.step.isHigh then .byRunStart else .notWaiting
        gate := .idle, haltCause := none, haltDetail := 0, haltLevel := 0
        shownPage := 0, shownIndex := 0, shownRemaining := 0, beganCount := none
        copy := [], updateCount := x.updateCount, dirty := true } := by
  simp only [AxisEngine.atRunStart, AxisEngine.zeroDirAtRunStart]
  cases hstep : x.step.isHigh <;> simp

theorem AxisEngine.atRunStart_level (x : AxisEngine) (enabled : Bool) (now : Nat) :
    (x.atRunStart enabled now).level = 0 := by
  rw [AxisEngine.atRunStart_eq, AxisEngine.level_of_none rfl]
  cases enabled <;> rfl

theorem AxisEngine.atRunStart_dirLevel (x : AxisEngine) (enabled : Bool) (now : Nat) :
    (x.atRunStart enabled now).dirLevel = false := by
  rw [AxisEngine.atRunStart_eq, AxisEngine.dirLevel]
  cases x.step.isHigh <;> rfl

theorem AxisEngine.atRunStart_countWritten (x : AxisEngine) (enabled : Bool) (now : Nat) :
    (x.atRunStart enabled now).countWritten = 0 := by
  rw [AxisEngine.atRunStart_eq, AxisEngine.countWritten_of_none rfl]

/-- The status words at the start of a span: the state and the count of owed records, and no other. -/
theorem State.statusWords_atRunStart {enabled : Bool} {now : Nat}
    (h : s.ax a = x.atRunStart enabled now) :
    s.statusWords a =
      [if enabled then 1 else 0, 0, 0, 0, 0, 0, 0, 0, 0, 0, 0, 0, BitVec.ofNat 16 (s.owedOf a).length, 0] := by
  have hlevel := x.atRunStart_level enabled now
  have hdir := x.atRunStart_dirLevel enabled now
  have hcount := x.atRunStart_countWritten enabled now
  have hstate : (x.atRunStart enabled now).state.code = if enabled then 1 else 0 := by
    rw [AxisEngine.atRunStart_eq]
    cases enabled <;> rfl
  have hmask : (x.atRunStart enabled now).requests.mask = 0 := by
    rw [AxisEngine.atRunStart_eq]
    exact (by decide : PendingSet.empty.mask = 0)
  rw [State.statusWords_eq, h, hlevel, hdir, hcount, hstate, hmask, AxisEngine.atRunStart_eq]
  simp [AxisEngine.pageWord, AxisEngine.index, lowWord, highWord]

/-- A word of a rewrite of which the copy holds nothing. -/
theorem rewrittenWord_of_copy_nil (h : (s.ax a).copy = []) {i : Nat} (hi : i < 14) :
    rewrittenWord a s i = (s.statusWords a).getD i 0 := by
  have hget : ¬ WordUnchanged a s i := by
    rw [WordUnchanged, h, List.getElem?_nil, List.getElem?_eq_getElem (show i < (s.statusWords a).length from hi)]
    exact nofun
  rw [rewrittenWord, if_neg fun hboth => hget hboth.1]

/-! ### The join entries and the mirror words -/

theorem joinWord_add (j : Point) (n i : Nat) : joinWord j n + BitVec.ofNat 15 i = joinWord j (n + i) := by
  rw [joinWord, joinWord, ← BitVec.ofNat_add, Nat.add_assoc]

theorem State.read_writeJoinEntries_outside (l : List Point) (s : State) {addr : Addr}
    (h : ∀ j ∈ l, ∀ i < 3, addr ≠ joinWord j (3 + i)) :
    (s.writeJoinEntries l).read addr = s.read addr := by
  induction l generalizing s with
  | nil => rfl
  | cons j l ih =>
    rw [State.writeJoinEntries, ih _ fun k hk => h k (.tail _ hk), State.read_writeWords_outside]
    intro i hi
    rw [joinWord_add]
    exact (h j (.head _) i hi).symm

/-- Words +3 to +5 of the entry of every point of the list read 0. -/
theorem State.read_writeJoinEntries (l : List Point) (s : State) {i : Nat} (hi : i < 3) (hj : j ∈ l) :
    (s.writeJoinEntries l).read (joinWord j (3 + i)) = 0 := by
  induction l generalizing s with
  | nil => cases hj
  | cons k l ih =>
    rw [State.writeJoinEntries]
    by_cases htail : j ∈ l
    · exact ih _ htail
    · have hjk := (List.mem_cons.mp hj).resolve_right htail
      subst hjk
      have houtside : ∀ k ∈ l, ∀ n < 3, joinWord j (3 + i) ≠ joinWord k (3 + n) := fun k hk n hn => by
        have hne : j.val ≠ k.val := fun heq => htail (Fin.ext heq ▸ hk)
        refine addr_ne_of_toNat ?_
        rw [joinWord_toNat j (by omega), joinWord_toNat k (by omega)]
        omega
      rw [State.read_writeJoinEntries_outside l _ houtside, State.read, ← joinWord_add]
      refine (Memory.read_writeWords_at [0, 0, 0] s.ram (joinWord j 3) hi (by decide)).trans ?_
      match i, hi with
      | 0, _ => rfl
      | 1, _ => rfl
      | 2, _ => rfl

theorem State.read_writeMirrors_outside (l : List Line) (s : State) {addr : Addr}
    (h : ∀ n ∈ l, addr ≠ lineWord n 7) : (s.writeMirrors l).read addr = s.read addr := by
  induction l generalizing s with
  | nil => rfl
  | cons n l ih =>
    rw [State.writeMirrors, ih _ fun k hk => h k (.tail _ hk), State.read_write_ne _ (h n (.head _)).symm]

/-- The mirror word of every line of the list reads its qualified level. -/
theorem State.read_writeMirrors (l : List Line) (s : State) (hn : n ∈ l) :
    (s.writeMirrors l).read (lineWord n 7) = if (s.line n).qualified then 1 else 0 := by
  induction l generalizing s with
  | nil => cases hn
  | cons k l ih =>
    rw [State.writeMirrors]
    by_cases htail : n ∈ l
    · exact ih _ htail
    · have hnk := (List.mem_cons.mp hn).resolve_right htail
      subst hnk
      rw [State.read_writeMirrors_outside l, State.read_write_same]
      intro k hk
      have hne : n.val ≠ k.val := fun heq => htail (Fin.ext heq ▸ hk)
      refine addr_ne_of_toNat ?_
      rw [lineWord_toNat n (by decide), lineWord_toNat k (by decide)]
      omega

/-! ### The span -/

/-- RUN_START with the read-back, before the status blocks are rewritten. -/
def State.spanAged (c : Setup) (raw : BitVec 16) (s : State) : State :=
  (s.spanOpened c raw).restartAging.readBack 1 .taken

theorem State.spanAged_frame (c : Setup) (raw : BitVec 16) (s : State) :
    s.spanAged c raw =
      { s with
        ram := (s.spanOpened c raw).ram, setup := c, timebase := 0
        axes := table8 fun a => (s.ax a).atRunStart (inMask c.enabled a) s.now
        points := table16 fun _ => JoinPoint.reset
        lines := table16 fun n => InputLine.loaded (raw.getLsbD n.val)
        snapCount := s.snapCount + BitVec.ofNat 16 s.snapsOwed, snapsOwed := 0
        dev := .running, faultCode := .ok, faultIndex := 0, cmdBack := some (1, .taken)
        report := { s.report with deadline := (s.spanOpened c raw).restartAging.report.deadline } } := by
  have haging := (s.spanOpened c raw).restartAging_frame
  have hopened := s.spanOpened_frame c raw
  rw [State.spanAged]
  generalize (s.spanOpened c raw).restartAging = v at haging ⊢
  generalize s.spanOpened c raw = u at haging hopened ⊢
  rw [haging, hopened]
  rfl

theorem State.spanAged_ax (c : Setup) (raw : BitVec 16) (s : State) (a : Axis) :
    (s.spanAged c raw).ax a = (s.ax a).atRunStart (inMask c.enabled a) s.now := by
  rw [State.spanAged_frame]
  exact table8_get (fun a => (s.ax a).atRunStart (inMask c.enabled a) s.now) a

theorem State.startSpan_eq_flushAll (c : Setup) (raw : BitVec 16) (s : State) :
    s.startSpan c raw = (s.spanAged c raw).flushAll := s.startSpan_eq c raw

/-- The span, field by field. -/
theorem State.startSpan_frame (c : Setup) (raw : BitVec 16) (s : State) :
    s.startSpan c raw =
      { s with
        ram := (s.startSpan c raw).ram, setup := c, timebase := 0
        axes := (s.startSpan c raw).axes
        points := table16 fun _ => JoinPoint.reset
        lines := table16 fun n => InputLine.loaded (raw.getLsbD n.val)
        snapCount := s.snapCount + BitVec.ofNat 16 s.snapsOwed, snapsOwed := 0
        dev := .running, faultCode := .ok, faultIndex := 0, cmdBack := some (1, .taken)
        report := { s.report with deadline := (s.spanOpened c raw).restartAging.report.deadline } } := by
  have hflush := (s.spanAged c raw).flushAll_frame
  rw [← State.startSpan_eq_flushAll, State.spanAged_frame] at hflush
  exact hflush

/-- The aging deadline of a FILLING page with records. -/
theorem State.spanOpened_deadline {k : Slot} {p : Page} {records used : Nat} (c : Setup) (raw : BitVec 16)
    (h : s.filling = some (k, p, records, used)) (hrec : records ≠ 0) :
    (s.spanOpened c raw).restartAging.report.deadline =
      if c.reportAge = 0 then none else some (c.reportAge.setWidth 48 * 1024) := by
  have hopened := s.spanOpened_frame c raw
  generalize s.spanOpened c raw = u at hopened ⊢
  have hfill : u.filling = some (k, p, records, used) := by
    rw [hopened]
    exact h
  simp only [State.restartAging, hfill, if_neg hrec, State.mapReport, State.agingDeadline]
  rw [hopened]
  exact congrArg (fun d => if c.reportAge = 0 then none else some d) (BitVec.zero_add _)

theorem State.read_spanAged (c : Setup) (raw : BitVec 16) (s : State) (addr : Addr) :
    (s.spanAged c raw).read addr = ((s.spanLines c raw).writeMirrors allSixteen).read addr := by
  have hram : (s.spanOpened c raw).ram = ((s.spanLines c raw).writeMirrors allSixteen).ram := by
    rw [State.spanOpened]
  rw [State.read, State.spanAged_frame, State.read, ← hram]

theorem State.read_spanLines (c : Setup) (raw : BitVec 16) (s : State) (addr : Addr) :
    (s.spanLines c raw).read addr = ((s.spanReset c).writeJoinEntries allSixteen).read addr := by
  rw [State.read, State.spanLines]
  generalize (s.spanReset c).writeJoinEntries allSixteen = u
  rfl

theorem State.spanLines_line (c : Setup) (raw : BitVec 16) (s : State) (n : Line) :
    (s.spanLines c raw).line n = InputLine.loaded (raw.getLsbD n.val) := by
  rw [State.spanLines]
  generalize (s.spanReset c).writeJoinEntries allSixteen = u
  exact table16_get (fun n => InputLine.loaded (raw.getLsbD n.val)) n

/-- Words that RUN_START writes neither in a join entry nor as a mirror read as after the snapshot. -/
theorem State.read_spanAged_outside (c : Setup) (raw : BitVec 16) (s : State) {addr : Addr}
    (hentry : ∀ j : Point, ∀ i < 3, addr ≠ joinWord j (3 + i)) (hmirror : ∀ n : Line, addr ≠ lineWord n 7) :
    (s.spanAged c raw).read addr = s.flushSnap.read addr := by
  rw [State.read_spanAged, State.read_writeMirrors_outside allSixteen _ fun n _ => hmirror n,
    State.read_spanLines, State.read_writeJoinEntries_outside allSixteen _ fun j _ => hentry j, State.read,
    State.spanReset_frame]
  rfl

theorem State.read_spanAged_entry (c : Setup) (raw : BitVec 16) (s : State) (j : Point) {i : Nat}
    (hi : i < 3) : (s.spanAged c raw).read (joinWord j (3 + i)) = 0 := by
  have hmirror : ∀ n ∈ allSixteen, joinWord j (3 + i) ≠ lineWord n 7 := fun n _ => addr_ne_of_toNat (by
    rw [joinWord_toNat j (by omega), lineWord_toNat n (by decide)]
    omega)
  rw [State.read_spanAged, State.read_writeMirrors_outside allSixteen _ hmirror, State.read_spanLines,
    State.read_writeJoinEntries allSixteen _ hi (mem_allSixteen j)]

theorem State.read_spanAged_mirror (c : Setup) (raw : BitVec 16) (s : State) (n : Line) :
    (s.spanAged c raw).read (lineWord n 7) = if raw.getLsbD n.val then 1 else 0 := by
  rw [State.read_spanAged, State.read_writeMirrors allSixteen _ (mem_allSixteen n), State.spanLines_line]
  rfl

/-- Outside the status blocks the rewrite leaves all. -/
theorem State.read_startSpan_outside (c : Setup) (raw : BitVec 16) (s : State) {addr : Addr}
    (h : ∀ a, isStatusWord a addr = false) :
    (s.startSpan c raw).read addr = (s.spanAged c raw).read addr := by
  rw [State.startSpan_eq_flushAll]
  exact State.read_flushAll_outside _ fun a => .inl (h a)

theorem State.startSpan_ax (c : Setup) (raw : BitVec 16) (s : State) (a : Axis) :
    (s.startSpan c raw).ax a =
      { (s.ax a).atRunStart (inMask c.enabled a) s.now with
        copy := (s.spanAged c raw).statusWords a, updateCount := (s.ax a).updateCount + 2, dirty := false
        beganCount := none } := by
  have hdirty : ((s.ax a).atRunStart (inMask c.enabled a) s.now).dirty = true := by
    rw [AxisEngine.atRunStart_eq]
  rw [State.startSpan_eq_flushAll, State.flushAll_ax, State.flushStatus_ax, State.spanAged_ax, if_pos hdirty,
    AxisEngine.atRunStart_updateCount]

theorem State.startSpan_owedOf (c : Setup) (raw : BitVec 16) (s : State) (a : Axis) :
    (s.startSpan c raw).owedOf a = s.owedOf a := by
  have howed : (s.startSpan c raw).report.owed = s.report.owed := by rw [State.startSpan_frame]
  rw [State.owedOf, State.owedOf, howed]

theorem State.spanAged_owedOf (c : Setup) (raw : BitVec 16) (s : State) (a : Axis) :
    (s.spanAged c raw).owedOf a = s.owedOf a := by
  have howed : (s.spanAged c raw).report.owed = s.report.owed := by rw [State.spanAged_frame]
  rw [State.owedOf, State.owedOf, howed]

/-- Off a context a rewrite changes no status word. -/
theorem State.statusWords_of_rewritten {copy : List Word} {count : Word} {d : Bool}
    (hax : t.ax a = { s.ax a with copy := copy, updateCount := count, dirty := d, beganCount := none })
    (howed : t.owedOf a = s.owedOf a) (hctx : (s.ax a).ctx = none) : t.statusWords a = s.statusWords a := by
  have hcount : (t.ax a).countWritten = (s.ax a).countWritten := by
    rw [AxisEngine.countWritten_of_none hctx, AxisEngine.countWritten_of_none (by rw [hax]; exact hctx), hax]
  rw [State.statusWords_eq, State.statusWords_eq, howed, hcount, hax]
  rfl

theorem State.startSpan_statusWords (c : Setup) (raw : BitVec 16) (s : State) (a : Axis) :
    (s.startSpan c raw).statusWords a = (s.spanAged c raw).statusWords a := by
  refine State.statusWords_of_rewritten (copy := (s.spanAged c raw).statusWords a)
    (count := (s.ax a).updateCount + 2) (d := false) ?_ ?_ ?_
  · rw [State.startSpan_ax, State.spanAged_ax]
  · rw [State.startSpan_owedOf, State.spanAged_owedOf]
  · rw [State.spanAged_ax, AxisEngine.atRunStart_eq]

/-- The status block of `a` after RUN_START, word by word. -/
theorem State.read_startSpan_status (c : Setup) (raw : BitVec 16) (s : State) (a : Axis) :
    (s.startSpan c raw).read (axisWord a 17) = (s.ax a).updateCount + 2 ∧
      ∀ i : Fin 14, (s.startSpan c raw).read (axisWord a (18 + i.val)) =
        ([if inMask c.enabled a then 1 else 0, 0, 0, 0, 0, 0, 0, 0, 0, 0, 0, 0,
          BitVec.ofNat 16 (s.owedOf a).length, 0] : List Word).getD i.val 0 := by
  have hax := s.spanAged_ax c raw a
  have hdirty : ((s.spanAged c raw).ax a).dirty = true := by rw [hax, AxisEngine.atRunStart_eq]
  have hcopy : ((s.spanAged c raw).ax a).copy = [] := by rw [hax, AxisEngine.atRunStart_eq]
  obtain ⟨hcount, hwords⟩ := (s.spanAged c raw).flushAll_rewrites a hdirty
  rw [← State.startSpan_eq_flushAll] at hcount hwords
  refine ⟨by rw [hcount, hax, AxisEngine.atRunStart_updateCount], fun i => ?_⟩
  rw [hwords, rewrittenWord_of_copy_nil hcopy i.isLt, State.statusWords_atRunStart hax, State.spanAged_owedOf]

/-- Settles O8. -/
theorem runStartBeginsASpan : Obligations.RunStartBeginsASpan := by
  intro raw s hdev hvalid
  have hsetup : (s.startSpan (Memory.setup s.ram) raw).setup = Memory.setup s.ram := by
    rw [State.startSpan_frame]
  have hcopied := setup_copied s
  refine ⟨s.startSpan (Memory.setup s.ram) raw, exec_runStart_valid raw hdev (firstFault_eq_none hvalid), ?_⟩
  rw [hsetup]
  generalize Memory.setup s.ram = c at hcopied hsetup ⊢
  refine ⟨?fields, hcopied, fun k p records used hfill hrec => ?aging, fun a => ⟨?axis, ?status⟩,
    fun j => ⟨?point, ?entry⟩, fun n => ⟨?line, ?mirror⟩, ?snapshot, fun addr haddr => ?outside⟩
  case fields =>
    have hframe := s.startSpan_frame c raw
    generalize s.startSpan c raw = t at hframe ⊢
    rw [hframe]
  case aging =>
    rw [State.startSpan_frame]
    exact s.spanOpened_deadline c raw hfill hrec
  case axis =>
    rw [State.startSpan_statusWords, State.startSpan_ax, AxisEngine.atRunStart_eq]
  case status =>
    obtain ⟨hcount, hwords⟩ := s.read_startSpan_status c raw a
    refine ⟨hcount, hwords 0, fun i h0 h12 => (hwords i).trans ?_, hwords 12⟩
    match i with
    | 0 => exact absurd rfl h0
    | 12 => exact absurd rfl h12
    | 1 | 2 | 3 | 4 | 5 | 6 | 7 | 8 | 9 | 10 | 11 | 13 => rfl
  case point =>
    rw [State.startSpan_frame]
    exact table16_get (fun _ => JoinPoint.reset) j
  case entry =>
    have hword {i : Nat} (hi : i < 3) : (s.startSpan c raw).read (joinWord j (3 + i)) = 0 := by
      rw [State.read_startSpan_outside, State.read_spanAged_entry c raw s j hi]
      intro a
      rw [isStatusWord_eq_false, joinWord_toNat j (by omega)]
      omega
    exact ⟨hword (i := 0) (by decide), hword (i := 1) (by decide), hword (i := 2) (by decide)⟩
  case line =>
    rw [State.startSpan_frame]
    exact table16_get (fun n => InputLine.loaded (raw.getLsbD n.val)) n
  case mirror =>
    rw [State.read_startSpan_outside, State.read_spanAged_mirror]
    intro a
    rw [isStatusWord_eq_false, lineWord_toNat n (by decide)]
    omega
  case snapshot =>
    refine s.flushSnap_writes.of_read fun addr hlow hhigh => ?_
    rw [State.read_startSpan_outside, State.read_spanAged_outside]
    · exact fun j i hi => addr_ne_of_toNat (by rw [joinWord_toNat j (by omega)]; omega)
    · exact fun n => addr_ne_of_toNat (by rw [lineWord_toNat n (by decide)]; omega)
    · exact fun a => isStatusWord_eq_false.mpr (by omega)
  case outside =>
    simp only [startTouches, Bool.or_eq_false_iff, List.any_eq_false, Bool.not_eq_true, beq_eq_false_iff_ne]
      at haddr
    obtain ⟨⟨hstatus, hentries⟩, hsnap⟩ := haddr
    rw [State.read_startSpan_outside _ _ _ fun a => hstatus a (mem_allAxes a), State.read_spanAged_outside,
      State.read_flushSnap_outside s hsnap]
    · intro j i hi
      obtain ⟨⟨⟨h3, h4⟩, h5⟩, -⟩ := hentries j (mem_allSixteen j)
      match i, hi with
      | 0, _ => exact h3
      | 1, _ => exact h4
      | 2, _ => exact h5
    · exact fun n => (hentries n (mem_allSixteen n)).2

end Sys2Proof.Machine
end

