-- ==== Sys2Proof/Proofs/Shortages.lean ====
section
/-!
PROOF. A record without room (R155 to R159): owed, held, or dropped and counted.
-/
namespace Sys2Proof.Machine

variable {s u : State} {rec : Record} {a : Axis}

/-- The drop count after one more record is lost (R159). -/
def State.dropsAfter (s : State) : Word := if s.report.drops = 0xFFFF then 0xFFFF else s.report.drops + 1

theorem State.countDrop_eq (s : State) :
    s.countDrop =
      { s with
        ram := Memory.write s.ram 0x0013 s.dropsAfter, acause := s.acause ||| 0x020
        report := { s.report with drops := s.dropsAfter } } := by
  simp only [State.countDrop, State.dropsAfter]
  split
  · rename_i hfull
    rw [hfull]
    rfl
  · rfl

theorem State.owes_eq_true_iff (s : State) (a : Axis) : s.owes a = true ↔ s.owedOf a ≠ [] := by
  simp [State.owes]

theorem State.ownerOwes_of_axis {body : RecordBody} (h : body.axis? = some a) (s : State) :
    s.ownerOwes body = s.owes a := by
  rw [State.ownerOwes, h]

/-! ### The rows of R155 -/

/-- Where the owner owes, or the queue is full, an essential record is owed to its axis. -/
theorem State.noRoom_owed (haxis : rec.body.axis? = some a) (hessential : rec.body.essential = true)
    (h : u.owedOf a ≠ [] ∨ 8 ≤ u.report.queue.length) :
    u.noRoom rec = (u.setCause .roomExhausted).oweRecord a rec := by
  have howner : (u.setCause .roomExhausted).ownerOwes rec.body = u.owes a := State.ownerOwes_of_axis haxis _
  simp only [State.noRoom, howner, hessential, haxis, ite_eq_left_iff, State.owes_eq_true_iff]
  intro hnone
  exact if_neg (Nat.not_lt.mpr (h.resolve_left hnone))

theorem State.noRoom_holds (howner : u.ownerOwes rec.body = false) (h : u.report.queue.length < 8) :
    u.noRoom rec = (u.setCause .roomExhausted).holdRecord rec := by
  have howner' : (u.setCause .roomExhausted).ownerOwes rec.body = false := howner
  simp only [State.noRoom, howner', Bool.false_eq_true, if_false]
  exact if_pos h

theorem State.noRoom_dropped (hessential : rec.body.essential = false)
    (h : u.ownerOwes rec.body = true ∨ 8 ≤ u.report.queue.length) :
    u.noRoom rec = (u.setCause .roomExhausted).countDrop := by
  have howner' : (u.setCause .roomExhausted).ownerOwes rec.body = u.ownerOwes rec.body := rfl
  simp only [State.noRoom, howner', hessential, ite_eq_left_iff]
  intro hnone
  exact if_neg (Nat.not_lt.mpr (h.resolve_left hnone))

/-! ### The store of an axis -/

theorem State.oweRecord_first (h : s.owedOf a = []) :
    s.oweRecord a rec = (s.setOwed a [rec]).mapReport fun r => { r with waitList := r.waitList ++ [a] } := by
  simp [State.oweRecord, h]

theorem State.oweRecord_next (h : s.owedOf a ≠ []) (h' : (s.owedOf a).length < 3) :
    s.oweRecord a rec = s.setOwed a (s.owedOf a ++ [rec]) := by
  simp [State.oweRecord, h, Nat.not_le.mpr h']

/-- A store of three loses its newest record. -/
theorem State.oweRecord_full (h : 3 ≤ (s.owedOf a).length) :
    s.oweRecord a rec = (s.setOwed a ((s.owedOf a).dropLast ++ [rec])).countDrop := by
  simp [State.oweRecord, h]

theorem State.handRecord_noRoom {body : RecordBody} (hrec : rec = { time := s.timebase, body := body })
    (h : s.tryPlace rec = (false, u)) : s.handRecord body = u.noRoom rec := by
  subst hrec
  simp only [State.handRecord, h]

/-- Settles O51. -/
theorem recordsWithoutRoom : Obligations.RecordsWithoutRoom := by
  intro body s u rec hrec hplace
  have hbody : rec.body = body := by rw [hrec]
  rw [State.handRecord_noRoom hrec hplace]
  refine ⟨fun a haxis hessential howes hroom => ?next, fun a haxis hessential hnone hfull => ?first,
    fun a haxis hessential hthree => ?full, fun hnone hroom => ?held, fun hessential hcase => ?dropped⟩
  case next =>
    rw [State.noRoom_owed (hbody ▸ haxis) (hbody ▸ hessential) (.inl howes)]
    exact State.oweRecord_next (s := u.setCause .roomExhausted) howes hroom
  case first =>
    rw [State.noRoom_owed (hbody ▸ haxis) (hbody ▸ hessential) (.inr hfull)]
    exact State.oweRecord_first (s := u.setCause .roomExhausted) hnone
  case full =>
    have howes : u.owedOf a ≠ [] := fun hnil => by
      rw [hnil] at hthree
      cases hthree
    rw [State.noRoom_owed (hbody ▸ haxis) (hbody ▸ hessential) (.inl howes),
      State.oweRecord_full (s := u.setCause .roomExhausted) hthree, State.countDrop_eq]
    rfl
  case held =>
    have howner : u.ownerOwes rec.body = false := by
      rw [hbody, State.ownerOwes]
      split
      · rename_i a haxis
        exact (u.owes_eq_false_iff a).mpr (hnone a haxis)
      · rfl
    rw [State.noRoom_holds howner hroom, State.holdRecord]
    have hlen : ((u.setCause .roomExhausted).report.queue ++ [rec]).length = u.report.queue.length + 1 :=
      List.length_append
    rw [hlen]
    rfl
  case dropped =>
    have hcase' : u.ownerOwes rec.body = true ∨ 8 ≤ u.report.queue.length := hcase.imp_left fun ⟨a, haxis, howes⟩ => by
      rw [hbody, State.ownerOwes_of_axis haxis]
      exact (u.owes_eq_true_iff a).mpr howes
    rw [State.noRoom_dropped (hbody ▸ hessential) hcase', State.countDrop_eq]
    rfl

end Sys2Proof.Machine
end

