-- ==== Sys2Proof/Proofs/Searches.lean ====
section
/-!
PROOF. The search for a slot (R152, R11): the tests on a page word, the slots in their order, and the slot
taken.
-/
namespace Sys2Proof.Machine

variable {s t u : State} {k j : Slot} {p q : Page} {v : Word}

/-! ### The tests on the page word -/

theorem generalPage?_eq_some_iff : generalPage? v = some p ↔ v.toNat = p.toNat ∧ 3 ≤ p.toNat := by
  have hlow : (v.extractLsb' 0 7).toNat = v.toNat % 128 := by
    rw [BitVec.extractLsb'_toNat, Nat.shiftRight_zero]
  have hp := p.isLt
  unfold generalPage?
  split
  · rename_i hrange
    rw [Option.some.injEq, ← BitVec.toNat_inj, hlow]
    omega
  · rename_i hrange
    constructor
    · exact nofun
    · rintro ⟨heq, hthree⟩
      exact absurd ⟨heq.symm ▸ hthree, by omega⟩ hrange

theorem SlotState.page?_eq_some_iff (w : SlotState) :
    w.page? = some p ↔ w = .full (some p) ∨ ∃ records used, w = .filling p records used := by
  cases w <;> simp [SlotState.page?]

theorem Sparse.isSome_find?_iff {α : Type} {m : List (Nat × α)} {n : Nat} :
    (Sparse.find? m n).isSome = true ↔ ∃ e ∈ m, e.1 = n := by
  constructor
  · intro h
    induction m with
    | nil => cases h
    | cons e m ih =>
      simp only [Sparse.find?] at h
      split at h
      · exact ⟨e, .head _, by assumption⟩
      · obtain ⟨f, hf, hn⟩ := ih h
        exact ⟨f, .tail _ hf, hn⟩
  · rintro ⟨e, he, rfl⟩
    exact Sparse.isSome_find?_of_mem he

theorem State.claimed_eq_false_iff (s : State) (p : Page) :
    s.claimed p = false ↔ ∀ e ∈ s.claims, e.1 ≠ p.toNat := by
  rw [← Bool.not_eq_true, State.claimed, Sparse.isSome_find?_iff]
  simp only [not_exists, not_and]

/-- A slot's page word passes its tests (R152, R11). -/
theorem State.poolPage_eq_some_iff (s : State) (k : Slot) (p : Page) :
    s.poolPage k = some p ↔
      generalPage? (s.read (slotPageWord k)) = some p ∧ (∀ i : Slot, (s.slot i).page? ≠ some p) ∧
        s.claimed p = false := by
  have hused (q : Page) : (allAxes.any fun i => (s.slot i).page? == some q) = true ↔
      ∃ i : Slot, (s.slot i).page? = some q := by
    simp [mem_allAxes]
  simp only [State.poolPage]
  split
  · rename_i hpage
    simp [hpage]
  · rename_i q hpage
    rw [hpage, Option.some.injEq]
    split
    · rename_i hany
      obtain ⟨i, hi⟩ := (hused q).mp hany
      exact iff_of_false nofun fun ⟨hq, hfree, _⟩ => hfree i (hq ▸ hi)
    · rename_i hany
      split
      · rename_i hclaimed
        refine iff_of_false nofun fun ⟨hq, _, hfree⟩ => ?_
        rw [← hq, hclaimed] at hfree
        cases hfree
      · rename_i hclaimed
        rw [Option.some.injEq]
        refine ⟨fun hq => ⟨hq, fun i hi => hany ((hused q).mpr ⟨i, hq ▸ hi⟩), ?_⟩, fun h => h.1⟩
        rw [← hq]
        exact Bool.eq_false_iff.mpr hclaimed

/-- What leaves the page words and the claims, and puts no slot on another page, leaves the tests. -/
theorem State.poolPage_congr (hread : t.read (slotPageWord k) = s.read (slotPageWord k))
    (hclaims : t.claims = s.claims) (hslot : ∀ i, (t.slot i).page? = (s.slot i).page?) :
    t.poolPage k = s.poolPage k :=
  Option.ext fun p => by
    simp only [State.poolPage_eq_some_iff, State.claimed, hread, hclaims, hslot]

/-- An EMPTY slot that becomes BAD leaves the tests of every slot. -/
theorem State.poolPage_bad (h : s.slot k = .empty) (j : Slot) :
    ((s.writeSlot k .bad).setCause .slotFault).poolPage j = s.poolPage j := by
  refine State.poolPage_congr ?_ rfl fun i => ?_
  · refine Memory.read_write_of_toNat s.ram ?_ (SlotState.code .bad)
    rw [slotStateWord_toNat, slotPageWord_toNat]
    omega
  · refine (congrArg SlotState.page? (State.slot_writeSlot k i .bad s)).trans ?_
    split
    · rename_i hik
      rw [hik, h]
      rfl
    · rfl

/-! ### The slots visited -/

/-- From `s` to `t` a search has visited the slots `ks` and taken none of them. -/
structure Visited (ks : List Slot) (s t : State) : Prop where
  bad : ∀ j ∈ ks, s.slot j = .empty →
    s.poolPage j = none ∧ t.slot j = .bad ∧ t.acause.getLsbD 6 = true
  stands : ∀ j, (j ∈ ks → s.slot j ≠ .empty) → t.slot j = s.slot j

theorem Visited.nil (s : State) : Visited [] s s := ⟨fun _ hj => (by cases hj), fun _ _ => rfl⟩

/-- A slot that is not EMPTY is passed. -/
theorem Visited.skip {ks : List Slot} (h : Visited ks s t) (hk : s.slot k ≠ .empty) :
    Visited (k :: ks) s t := by
  refine ⟨fun j hj hempty => ?_, fun j hj => h.stands j fun hin => hj (.tail _ hin)⟩
  rcases List.mem_cons.mp hj with rfl | hj
  · exact absurd hempty hk
  · exact h.bad j hj hempty

/-- An EMPTY slot that fails its tests becomes BAD. -/
theorem Visited.fail {ks : List Slot} (hempty : s.slot k = .empty) (hnone : s.poolPage k = none)
    (h : Visited ks ((s.writeSlot k .bad).setCause .slotFault) t) (hcause : t.acause.getLsbD 6 = true) :
    Visited (k :: ks) s t := by
  have hslot (j : Slot) : ((s.writeSlot k .bad).setCause .slotFault).slot j =
      if j = k then .bad else s.slot j := State.slot_writeSlot k j .bad s
  have hk : t.slot k = .bad := by
    rw [h.stands k fun _ => by rw [hslot, if_pos rfl]; exact nofun, hslot, if_pos rfl]
  refine ⟨fun j hj hj' => ?_, fun j hj => ?_⟩
  · by_cases hjk : j = k
    · subst hjk
      exact ⟨hnone, hk, hcause⟩
    · obtain ⟨hpool, hbad, hset⟩ := h.bad j ((List.mem_cons.mp hj).resolve_left hjk) (by rw [hslot, if_neg hjk, hj'])
      exact ⟨(State.poolPage_bad hempty j).symm.trans hpool, hbad, hset⟩
  · have hjk : j ≠ k := fun heq => hj (heq ▸ .head _) (heq ▸ hempty)
    rw [h.stands j fun hin => by rw [hslot, if_neg hjk]; exact hj (.tail _ hin), hslot, if_neg hjk]

theorem State.setCause_slotFault (s : State) : (s.setCause .slotFault).acause.getLsbD 6 = true := by
  show (s.acause ||| AlertCause.slotFault.bit).getLsbD 6 = true
  rw [BitVec.getLsbD_or]
  exact Bool.or_true _

/-- SLOT_FAULT stays set through a search. -/
theorem State.searchSlots_cause (ks : List Slot) (s : State) (h : s.acause.getLsbD 6 = true) :
    (s.searchSlots ks).2.acause.getLsbD 6 = true := by
  induction ks generalizing s with
  | nil => exact h
  | cons k ks ih =>
    simp only [State.searchSlots]
    split
    · split
      · refine ih _ ?_
        show (s.acause ||| AlertCause.slotFault.bit).getLsbD 6 = true
        rw [BitVec.getLsbD_or, h]
        rfl
      · exact h
    · exact ih s h

/-- The state in which a search has found the slots `ks` bad or not EMPTY. -/
theorem State.searchSlots_missed {ks : List Slot} (h : s.searchSlots ks = (false, t)) : Visited ks s t := by
  induction ks generalizing s with
  | nil =>
    simp only [State.searchSlots, Prod.mk.injEq, true_and] at h
    exact h ▸ .nil s
  | cons k ks ih =>
    simp only [State.searchSlots] at h
    split at h
    · rename_i hempty
      split at h
      · rename_i hpool
        have hcause := State.searchSlots_cause ks _ (s.writeSlot k .bad).setCause_slotFault
        rw [h] at hcause
        exact (ih h).fail hempty hpool hcause
      · simp at h
    · rename_i hempty
      exact (ih h).skip hempty

/-- A search that takes a slot: the first EMPTY one that passes its tests. -/
theorem State.searchSlots_found {ks : List Slot} (h : s.searchSlots ks = (true, t)) :
    ∃ pre k post p u, ks = pre ++ k :: post ∧ Visited pre s u ∧
      (s.acause.getLsbD 6 = true → u.acause.getLsbD 6 = true) ∧ u.slot k = .empty ∧
      s.poolPage k = some p ∧ t = u.withSlotTaken k p := by
  induction ks generalizing s with
  | nil => simp [State.searchSlots] at h
  | cons k ks ih =>
    simp only [State.searchSlots] at h
    split at h
    · rename_i hempty
      split at h
      · rename_i hpool
        obtain ⟨pre, j, post, p, u, rfl, hvisited, hcause, hj, hpage, ht⟩ := ih h
        have hset := hcause (s.writeSlot k .bad).setCause_slotFault
        exact ⟨k :: pre, j, post, p, u, rfl, hvisited.fail hempty hpool hset, fun _ => hset, hj,
          (State.poolPage_bad hempty j).symm.trans hpage, ht⟩
      · rename_i p hpool
        obtain rfl := (Prod.mk.inj h).2
        exact ⟨[], k, ks, p, s, rfl, .nil s, id, hempty, hpool, rfl⟩
    · rename_i hempty
      obtain ⟨pre, j, post, p, u, rfl, hvisited, hrest⟩ := ih h
      exact ⟨k :: pre, j, post, p, u, rfl, hvisited.skip hempty, hrest⟩

/-- Where a good EMPTY slot is reached before any other EMPTY slot, it is taken. -/
theorem State.searchSlots_takes {pre post : List Slot} (hpre : ∀ j ∈ pre, s.slot j ≠ .empty)
    (hempty : s.slot k = .empty) (hpool : s.poolPage k = some p) :
    s.searchSlots (pre ++ k :: post) = (true, s.withSlotTaken k p) := by
  induction pre with
  | nil =>
    simp only [List.nil_append, State.searchSlots, hempty, hpool, if_true]
    rfl
  | cons j pre ih =>
    rw [List.cons_append, State.searchSlots, if_neg (hpre j (.head _))]
    exact ih fun i hi => hpre i (.tail _ hi)

/-! ### The order of the slots -/

theorem searchOrder_eq (last : Slot) :
    searchOrder last = (List.range 8).map fun n => last + 1 + Fin.ofNat 8 n := by
  revert last
  decide

theorem nodup_searchOrder (last : Slot) : (searchOrder last).Nodup := by
  revert last
  decide

/-- The first part of the order, and the slot behind it, by their distances. -/
theorem searchOrder_split {last : Slot} {pre post : List Slot} (h : searchOrder last = pre ++ k :: post) :
    pre.length < 8 ∧ k = last + 1 + Fin.ofNat 8 pre.length ∧
      ∀ m < pre.length, last + 1 + Fin.ofNat 8 m ∈ pre := by
  have hlen : pre.length < 8 := by
    have hlen := congrArg List.length h
    simp only [searchOrder, List.length_cons, List.length_nil, List.length_append] at hlen
    omega
  have hget (m : Nat) (hm : m < 8) : (searchOrder last)[m]? = some (last + 1 + Fin.ofNat 8 m) := by
    rw [searchOrder_eq, List.getElem?_map, List.getElem?_range hm]
    rfl
  rw [h] at hget
  refine ⟨hlen, ?_, fun m hm => ?_⟩
  · have hk := hget _ hlen
    rw [List.getElem?_append_right (le_refl _), Nat.sub_self] at hk
    exact Option.some.inj hk
  · have hmem := hget m (by omega)
    rw [List.getElem?_append_left hm] at hmem
    exact List.mem_of_getElem? hmem

theorem State.slot_withSlotTaken (s : State) (k j : Slot) (p : Page) :
    (s.withSlotTaken k p).slot j = if j = k then .filling p 0 0 else s.slot j :=
  State.slot_setSlot k j (.filling p 0 0) s

/-- Settles O52. -/
theorem slotSearchOrder : Obligations.SlotSearchOrder := by
  refine ⟨fun s k p => ⟨?tests, fun hno => ?outside, fun heq hused => ?used⟩,
    fun s t => ⟨fun htake => ?found, fun htake k => ?missed⟩⟩
  case tests =>
    rw [State.poolPage_eq_some_iff, generalPage?_eq_some_iff, State.claimed_eq_false_iff, and_assoc]
    simp only [ne_eq, SlotState.page?_eq_some_iff, not_or, not_exists]
  case outside =>
    simp only [State.poolPage, (generalPage?_eq_none_iff _).mpr hno]
  case used =>
    refine Option.eq_none_iff_forall_ne_some.mpr fun q hq => ?_
    rw [State.poolPage_eq_some_iff, generalPage?_eq_some_iff, State.claimed_eq_false_iff] at hq
    obtain ⟨⟨hread, -⟩, hfree, hclaims⟩ := hq
    have hpq : q = p := BitVec.eq_of_toNat_eq (hread.symm.trans heq)
    subst hpq
    rcases hused with ⟨i, hi⟩ | ⟨i, records, used, hi⟩ | ⟨c, hc⟩
    · exact hfree i (by rw [hi]; rfl)
    · exact hfree i (by rw [hi]; rfl)
    · exact hclaims _ hc rfl
  case found =>
    obtain ⟨pre, k, post, p, u, hsplit, hvisited, -, hempty, hpool, rfl⟩ := State.searchSlots_found htake
    obtain ⟨hlen, hk, hmem⟩ := searchOrder_split hsplit
    have hnotin : k ∉ pre := by
      have hnodup := nodup_searchOrder s.report.lastClosed
      rw [hsplit] at hnodup
      exact fun hin => (List.nodup_append.mp hnodup).2.2 k hin k (.head _) rfl
    have hkempty : s.slot k = .empty := (hvisited.stands k fun hin => absurd hin hnotin).symm.trans hempty
    refine ⟨pre.length, k, p, hlen, hk, hkempty, hpool, ?_, fun m hm hm' => ?_, fun i hi => ?_⟩
    · rw [State.slot_withSlotTaken, if_pos rfl]
    · obtain ⟨hnone, hbad, hcause⟩ := hvisited.bad _ (hmem m hm) hm'
      refine ⟨hnone, ?_, hcause⟩
      rw [State.slot_withSlotTaken, if_neg, hbad]
      exact fun heq => hnotin (heq ▸ hmem m hm)
    · rw [State.slot_withSlotTaken, if_neg hi]
      by_cases hvisits : i ∈ pre ∧ s.slot i = .empty
      · exact .inr ⟨hvisits.2, (hvisited.bad i hvisits.1 hvisits.2).2.1⟩
      · exact .inl (hvisited.stands i fun hin hi' => hvisits ⟨hin, hi'⟩)
  case missed =>
    have hvisited := State.searchSlots_missed htake
    exact ⟨hvisited.bad k (mem_searchOrder _ k), fun hne => hvisited.stands k fun _ => hne⟩

end Sys2Proof.Machine
end

