-- ==== Sys2Proof/Proofs/Placements.lean ====
section
/-!
PROOF. The placing of a record (R149, R152, R153, R162): the words of the record and of the page header, the
slot that is taken for it, the page that closes before it.
-/
namespace Sys2Proof.Machine

variable {s t u : State} {k j : Slot} {p q : Page} {records used : Nat} {rec : Record}

/-! ### A record in the FILLING page -/

/-- The exchange RAM after a record has been placed as number `seq`. -/
def Memory.placed (m : Memory) (p : Page) (records used : Nat) (rec : Record) (seq : Word) : Memory :=
  ((((m.writeWords (pageWord p (BitVec.ofNat 8 (8 + used))) (rec.words seq)).write (pageWord p 1)
    (BitVec.ofNat 16 (records + 1))).write (pageWord p 3) seq).write (pageWord p 4)
      (BitVec.ofNat 16 (used + rec.length))).write 0x0011 (seq + 1)

theorem State.placeIn_ram (k : Slot) (p : Page) (records used : Nat) (rec : Record) (s : State) :
    (s.placeIn k p records used rec).ram = Memory.placed s.ram p records used rec s.report.seq := by
  simp only [State.placeIn]
  split <;> rfl

theorem State.placeIn_deadline (k : Slot) (p : Page) (records used : Nat) (rec : Record) (s : State) :
    (s.placeIn k p records used rec).report.deadline =
      if records = 0 then s.agingDeadline else s.report.deadline := by
  simp only [State.placeIn]
  split <;> rfl

theorem Record.length_words (rec : Record) (seq : Word) : (rec.words seq).length = rec.length := by
  simp [Record.words, Record.length, timeWords]
  omega

section Reads

variable (m : Memory) {seq : Word}

/-- The words of the record, which stands in the body of the page. -/
theorem Memory.read_placed_word (hp : isGeneralPage p = true) (hfits : used + rec.length ≤ 248) {i : Nat}
    (hi : i < rec.length) :
    (m.placed p records used rec seq).read (pageWord p (BitVec.ofNat 8 (8 + used + i))) =
      (rec.words seq).getD i 0 := by
  have hthree : 3 ≤ p.toNat := of_decide_eq_true hp
  have hlen := rec.length_words seq
  have hword := pageWord_toNat p (BitVec.ofNat 8 (8 + used + i))
  have hoff : (BitVec.ofNat 8 (8 + used + i)).toNat = 8 + used + i := by rw [BitVec.toNat_ofNat]; omega
  have hstart : (BitVec.ofNat 8 (8 + used)).toNat = 8 + used := by rw [BitVec.toNat_ofNat]; omega
  have hone : (1 : BitVec 8).toNat = 1 := rfl
  have hthird : (3 : BitVec 8).toNat = 3 := rfl
  have hfour : (4 : BitVec 8).toNat = 4 := rfl
  have hnext : BitVec.toNat (0x0011 : Addr) = 17 := rfl
  rw [hoff] at hword
  rw [Memory.placed, Memory.read_write_of_toNat _ (by omega),
    Memory.read_write_of_toNat _ (by rw [pageWord_toNat]; omega),
    Memory.read_write_of_toNat _ (by rw [pageWord_toNat]; omega),
    Memory.read_write_of_toNat _ (by rw [pageWord_toNat]; omega)]
  have hread := Memory.read_writeWords_page (rec.words seq) m p (BitVec.ofNat 8 (8 + used)) (i := i)
    (by omega) (by omega)
  rw [hstart] at hread
  rw [hread, List.getD_eq_getElem?_getD, List.getElem?_eq_getElem]
  rfl

theorem Memory.read_placed_count (hp : isGeneralPage p = true) :
    (m.placed p records used rec seq).read (pageWord p 1) = BitVec.ofNat 16 (records + 1) ∧
      (m.placed p records used rec seq).read (pageWord p 3) = seq ∧
      (m.placed p records used rec seq).read (pageWord p 4) = BitVec.ofNat 16 (used + rec.length) := by
  have hthree : 3 ≤ p.toNat := of_decide_eq_true hp
  have hone : (1 : BitVec 8).toNat = 1 := rfl
  have hthird : (3 : BitVec 8).toNat = 3 := rfl
  have hfour : (4 : BitVec 8).toNat = 4 := rfl
  have hnext : BitVec.toNat (0x0011 : Addr) = 17 := rfl
  refine ⟨?_, ?_, ?_⟩
  · rw [Memory.placed, Memory.read_write_of_toNat _ (by rw [pageWord_toNat]; omega),
      Memory.read_write_of_toNat _ (by rw [pageWord_toNat, pageWord_toNat]; omega),
      Memory.read_write_of_toNat _ (by rw [pageWord_toNat, pageWord_toNat]; omega), Memory.read_write_same]
  · rw [Memory.placed, Memory.read_write_of_toNat _ (by rw [pageWord_toNat]; omega),
      Memory.read_write_of_toNat _ (by rw [pageWord_toNat, pageWord_toNat]; omega), Memory.read_write_same]
  · rw [Memory.placed, Memory.read_write_of_toNat _ (by rw [pageWord_toNat]; omega), Memory.read_write_same]

theorem Memory.read_placed_seq : (m.placed p records used rec seq).read 0x0011 = seq + 1 :=
  Memory.read_write_same _ _ _

theorem Memory.read_placed_other (hfits : used + rec.length ≤ 248) {addr : Addr}
    (hbody : isPageWord p (8 + used) (7 + used + rec.length) addr = false) (h1 : addr ≠ pageWord p 1)
    (h3 : addr ≠ pageWord p 3) (h4 : addr ≠ pageWord p 4) (hseq : addr ≠ 0x0011) :
    (m.placed p records used rec seq).read addr = m.read addr := by
  have hlen := rec.length_words seq
  have hfive : 5 ≤ rec.length := Nat.le_add_right ..
  have hstart : (BitVec.ofNat 8 (8 + used)).toNat = 8 + used := by rw [BitVec.toNat_ofNat]; omega
  rw [isPageWord_eq_false] at hbody
  rw [Memory.placed, Memory.read_write_ne _ hseq.symm, Memory.read_write_ne _ h4.symm,
    Memory.read_write_ne _ h3.symm, Memory.read_write_ne _ h1.symm,
    Memory.read_writeWords_page_outside _ _ _ _ (by omega) (by omega)]

end Reads

/-- A record that fits is placed. -/
theorem State.placeIn_places (hp : isGeneralPage p = true) (hfits : used + rec.length ≤ 248) (s : State)
    (k : Slot) : RecordPlaces rec k p records used s (s.placeIn k p records used rec) := by
  have hread (addr : Addr) : (s.placeIn k p records used rec).read addr =
      Memory.read (Memory.placed s.ram p records used rec s.report.seq) addr := by
    rw [State.read, State.placeIn_ram]
  obtain ⟨hcount, hlast, hused⟩ :=
    Memory.read_placed_count s.ram (records := records) (used := used) (rec := rec) (seq := s.report.seq) hp
  refine ⟨?fields, fun i hi => (hread _).trans (Memory.read_placed_word s.ram hp hfits hi),
    (hread _).trans hcount, (hread _).trans hlast, (hread _).trans hused,
    (hread _).trans (Memory.read_placed_seq s.ram), fun addr haddr => ?other⟩
  case fields =>
    have hframe := s.placeIn_eq k p records used rec
    rwa [State.placeIn_deadline] at hframe
  case other =>
    simp only [Bool.or_eq_false_iff, beq_eq_false_iff_ne] at haddr
    obtain ⟨⟨⟨⟨hbody, h1⟩, h3⟩, h4⟩, hseq⟩ := haddr
    exact (hread _).trans (Memory.read_placed_other s.ram hfits hbody h1 h3 h4 hseq)

/-! ### A slot taken for it -/

/-- With no other slot FILLING, the slot just taken is the FILLING one. -/
theorem State.filling_withSlotTaken (h : s.NoFilling) (k : Slot) (p : Page) :
    (s.withSlotTaken k p).filling = some (k, p, 0, 0) := by
  refine State.filling_of_slot (.of_only (k := k) fun j hj => ?_) ?_
  · rw [State.slot_withSlotTaken, if_neg hj]
    exact h j
  · rw [State.slot_withSlotTaken, if_pos rfl]

/-- Where the search takes slot `k`, the record is placed in its page. -/
theorem State.takeAndPlace_of_taken (hnone : s.NoFilling)
    (htake : s.takeSlot = (true, s.withSlotTaken k p)) :
    s.takeAndPlace rec = (true, (s.withSlotTaken k p).placeIn k p 0 0 rec) := by
  simp only [State.takeAndPlace, htake, State.placeFresh, State.filling_withSlotTaken hnone]

/-- The slot after the last closed one is visited first. -/
theorem State.takeSlot_first (hempty : s.slot (s.report.lastClosed + 1) = .empty)
    (hpool : s.poolPage (s.report.lastClosed + 1) = some p) :
    s.takeSlot = (true, s.withSlotTaken (s.report.lastClosed + 1) p) :=
  State.searchSlots_takes (pre := []) (fun _ hj => (by cases hj)) hempty hpool

theorem State.tryPlace_fits (h : s.filling = some (k, p, records, used))
    (hfits : used + rec.length ≤ 248) : s.tryPlace rec = (true, s.placeIn k p records used rec) := by
  simp only [State.tryPlace, h, hfits, if_true]

theorem State.tryPlace_closes (h : s.filling = some (k, p, records, used))
    (hfull : 248 < used + rec.length) :
    s.tryPlace rec = (s.closePage .full s.timebase).takeAndPlace rec := by
  simp only [State.tryPlace, h, if_neg (Nat.not_le.mpr hfull)]

theorem State.tryPlace_takes (h : s.NoFilling) : s.tryPlace rec = s.takeAndPlace rec := by
  simp only [State.tryPlace, (State.filling_eq_none_iff s).mpr h]

theorem State.handRecord_of_placed {body : RecordBody}
    (h : s.tryPlace { time := s.timebase, body := body } = (true, t)) : s.handRecord body = t := by
  simp only [State.handRecord, h]

theorem generalPage?_pageNumber (hp : isGeneralPage p = true) : generalPage? (pageNumber p) = some p := by
  have hlt := p.isLt
  rw [generalPage?_eq_some_iff, pageNumber, BitVec.toNat_setWidth]
  exact ⟨by omega, of_decide_eq_true hp⟩

/-! ### The page that closes before it -/

theorem State.closePage_full_noFilling (h : s.filling = some (k, p, records, used)) (hlaw : FillingLaw s)
    (time : Time) : (s.closePage .full time).NoFilling := fun j => by
  rw [State.slot_closePage h]
  split
  · rfl
  · rename_i hj
    exact hlaw.others (State.slot_of_filling h ▸ rfl) hj

theorem next_slot_ne (k : Slot) : k + 1 ≠ k := by
  revert k
  decide

/-- Settles O50. -/
theorem recordsArePlaced : Obligations.RecordsArePlaced := by
  refine ⟨fun body k p s hp hwords => ⟨fun records used hfill hfits => ?fits,
    fun hnone hk hempty hread hclaimed hfree => ?takes⟩,
    fun body k p q records used s hp hq hpq hwords hfill hlaw hfull hempty hread hclaimed hfree => ?closes⟩
  case fits =>
    have hfits' : used + (⟨s.timebase, body⟩ : Record).length ≤ 248 := by
      show used + (5 + body.words.length) ≤ 248
      omega
    rw [State.handRecord_of_placed (State.tryPlace_fits hfill hfits')]
    exact s.placeIn_places hp hfits' k
  case takes =>
    subst hk
    have hfits : 0 + (⟨s.timebase, body⟩ : Record).length ≤ 248 := by
      show 0 + (5 + body.words.length) ≤ 248
      omega
    have hpool := (s.poolPage_eq_some_iff _ p).mpr ⟨by rw [hread]; exact generalPage?_pageNumber hp, hfree, hclaimed⟩
    have htake := State.takeSlot_first hempty hpool
    rw [State.handRecord_of_placed ((State.tryPlace_takes hnone).trans (State.takeAndPlace_of_taken hnone htake))]
    exact (s.withSlotTaken _ p).placeIn_places hp hfits _
  case closes =>
    have hcloses := State.closePage_closes hfill (reason := .full) CloseReason.noConfusion
    have hnone := State.closePage_full_noFilling hfill hlaw s.timebase
    have hslot := State.slot_closePage hfill .full s.timebase
    refine ⟨s.closePage .full s.timebase, hcloses, ?_⟩
    obtain ⟨hfields, -, -, -, -, -, hsame⟩ := hcloses
    have hfits : 0 + (⟨s.timebase, body⟩ : Record).length ≤ 248 := by
      show 0 + (5 + body.words.length) ≤ 248
      omega
    have hfull' : 248 < used + (⟨s.timebase, body⟩ : Record).length := by
      show 248 < used + (5 + body.words.length)
      omega
    have hlast : (s.closePage .full s.timebase).report.lastClosed = k := by rw [hfields]
    have hclaims : (s.closePage .full s.timebase).claims = s.claims := by rw [hfields]
    have hword : (s.closePage .full s.timebase).read (slotPageWord (k + 1)) = s.read (slotPageWord (k + 1)) := by
      refine hsame _ ?_
      have hthree : 3 ≤ p.toNat := of_decide_eq_true hp
      have hcount : BitVec.toNat (0x0010 : Addr) = 16 := rfl
      have hnext := slotPageWord_toNat (k + 1)
      have hk := slotStateWord_toNat k
      simp only [Bool.or_eq_false_iff, beq_eq_false_iff_ne, isPageWord_eq_false]
      exact ⟨⟨.inl (by omega), addr_ne_of_toNat (by omega)⟩, addr_ne_of_toNat (by omega)⟩
    have hempty' : (s.closePage .full s.timebase).slot (k + 1) = .empty := by
      rw [hslot, if_neg (next_slot_ne k)]
      exact hempty
    have hpool : (s.closePage .full s.timebase).poolPage (k + 1) = some q := by
      refine (State.poolPage_eq_some_iff _ _ q).mpr ⟨?_, fun i => ?_, ?_⟩
      · rw [hword, hread]
        exact generalPage?_pageNumber hq
      · rw [hslot]
        split
        · exact fun h => hpq (Option.some.inj h)
        · exact hfree i
      · rw [State.claimed, hclaims]
        exact hclaimed
    have htry := State.tryPlace_closes hfill hfull'
    generalize s.closePage .full s.timebase = u at *
    subst hlast
    have htake := State.takeSlot_first hempty' hpool
    rw [State.handRecord_of_placed (htry.trans (State.takeAndPlace_of_taken hnone htake))]
    exact (u.withSlotTaken _ q).placeIn_places hq hfits _

end Sys2Proof.Machine
end

