-- ==== Sys2Proof/Proofs/Commutes.lean ====
section
/-!
SUPPORT. What the report unit and the claims do does not depend on the axis engines: a record that is handed
over, and a release, commute with a change of one engine that owes a rewrite already.
-/
namespace Sys2Proof.Machine

variable {s t : State} {a b : Axis} {x y : AxisEngine} {rec : Record}

/-! ### One engine changed twice -/

theorem State.setAx_comm (s : State) (h : a ≠ b) (x y : AxisEngine) :
    (s.setAx a x).setAx b y = (s.setAx b y).setAx a x := by
  have hval : a.val ≠ b.val := fun e => h (Fin.ext e)
  simp only [State.setAx, Vector.set_comm _ _ hval]

/-! ### Placing a record -/

theorem State.searchSlots_setAx (ks : List Slot) (s : State) :
    (s.setAx a x).searchSlots ks = ((s.searchSlots ks).1, (s.searchSlots ks).2.setAx a x) := by
  induction ks generalizing s with
  | nil => rfl
  | cons k ks ih =>
    have hslot : (s.setAx a x).slot k = s.slot k := rfl
    have hpool : (s.setAx a x).poolPage k = s.poolPage k := rfl
    simp only [State.searchSlots, hslot, hpool]
    split
    · split
      · exact ih ((s.writeSlot k .bad).setCause .slotFault)
      · rfl
    · exact ih s

theorem State.closePage_setAx (reason : CloseReason) (time : Time) (s : State) :
    (s.setAx a x).closePage reason time = (s.closePage reason time).setAx a x := by
  have hfill : (s.setAx a x).filling = s.filling := rfl
  simp only [State.closePage, hfill]
  split
  · rfl
  · split <;> rfl

theorem State.placeIn_setAx (k : Slot) (p : Page) (records used : Nat) (rec : Record) (s : State) :
    (s.setAx a x).placeIn k p records used rec = (s.placeIn k p records used rec).setAx a x := by
  simp only [State.placeIn]
  split <;> rfl

theorem State.takeAndPlace_setAx (rec : Record) (s : State) :
    (s.setAx a x).takeAndPlace rec = ((s.takeAndPlace rec).1, (s.takeAndPlace rec).2.setAx a x) := by
  have htake : (s.setAx a x).takeSlot = (s.takeSlot.1, s.takeSlot.2.setAx a x) := State.searchSlots_setAx _ s
  simp only [State.takeAndPlace, htake]
  generalize s.takeSlot = r
  obtain ⟨found, u⟩ := r
  cases found
  · rfl
  · have hfill : (u.setAx a x).filling = u.filling := rfl
    simp only [State.placeFresh, hfill]
    split
    · rfl
    · rw [State.placeIn_setAx]

theorem State.tryPlace_setAx (rec : Record) (s : State) :
    (s.setAx a x).tryPlace rec = ((s.tryPlace rec).1, (s.tryPlace rec).2.setAx a x) := by
  have hfill : (s.setAx a x).filling = s.filling := rfl
  have htime : (s.setAx a x).timebase = s.timebase := rfl
  simp only [State.tryPlace, hfill, htime]
  split
  · split
    · rw [State.placeIn_setAx]
    · rw [State.closePage_setAx, State.takeAndPlace_setAx]
  · exact State.takeAndPlace_setAx rec s

/-! ### A record without room -/

/-- A touch of an axis that owes a rewrite already commutes with the change of its engine. -/
theorem State.touch_setAx (hx : x.dirty = true) (b : Axis) (s : State) :
    (s.setAx a x).touch b = (s.touch b).setAx a x := by
  by_cases hab : b = a
  · subst hab
    have htouched : { x with dirty := true } = x := by rw [← hx]
    rw [State.touch, State.touch, State.setAx_setAx, State.setAx_setAx, State.ax_setAx_same, htouched]
  · rw [State.touch, State.touch, State.ax_setAx_ne s hab, State.setAx_comm s (Ne.symm hab)]

theorem State.setOwed_setAx (hx : x.dirty = true) (b : Axis) (rs : List Record) (s : State) :
    (s.setAx a x).setOwed b rs = (s.setOwed b rs).setAx a x :=
  State.touch_setAx hx b (s.mapReport fun r => { r with owed := r.owed.set b rs })

theorem State.countDrop_setAx (s : State) : (s.setAx a x).countDrop = s.countDrop.setAx a x := rfl

theorem State.oweRecord_setAx (hx : x.dirty = true) (b : Axis) (rec : Record) (s : State) :
    (s.setAx a x).oweRecord b rec = (s.oweRecord b rec).setAx a x := by
  have howed : (s.setAx a x).owedOf b = s.owedOf b := rfl
  simp only [State.oweRecord, howed]
  split
  · rw [State.setOwed_setAx hx]
    rfl
  · split
    · rw [State.setOwed_setAx hx]
      rfl
    · exact State.setOwed_setAx hx b _ s

theorem State.noRoom_setAx (hx : x.dirty = true) (rec : Record) (s : State) :
    (s.setAx a x).noRoom rec = (s.noRoom rec).setAx a x := by
  have hcause : (s.setAx a x).setCause .roomExhausted = (s.setCause .roomExhausted).setAx a x := rfl
  have howner : ((s.setCause .roomExhausted).setAx a x).ownerOwes rec.body =
      (s.setCause .roomExhausted).ownerOwes rec.body := rfl
  have hqueue : ((s.setCause .roomExhausted).setAx a x).report = (s.setCause .roomExhausted).report := rfl
  have hkeeps : (match rec.body.essential, rec.body.axis? with
        | true, some b => ((s.setCause .roomExhausted).setAx a x).oweRecord b rec
        | _, _ => ((s.setCause .roomExhausted).setAx a x).countDrop) =
      (match rec.body.essential, rec.body.axis? with
        | true, some b => (s.setCause .roomExhausted).oweRecord b rec
        | _, _ => (s.setCause .roomExhausted).countDrop).setAx a x := by
    split
    · exact State.oweRecord_setAx hx _ rec _
    · rfl
  simp only [State.noRoom, hcause, howner, hqueue]
  split
  · exact hkeeps
  · split
    · rfl
    · exact hkeeps

/-- A record that is handed over commutes with a change of an engine that owes a rewrite. -/
theorem State.handRecord_setAx (hx : x.dirty = true) (body : RecordBody) (s : State) :
    (s.setAx a x).handRecord body = (s.handRecord body).setAx a x := by
  have htime : (s.setAx a x).timebase = s.timebase := rfl
  simp only [State.handRecord, htime, State.tryPlace_setAx]
  generalize s.tryPlace _ = r
  obtain ⟨placed, u⟩ := r
  cases placed
  · exact State.noRoom_setAx hx _ u
  · rfl

/-! ### Claims -/

theorem State.releaseList_setAx (time : Time) (l : List (Nat × Claimant)) (s : State) :
    (s.setAx a x).releaseList time l = (s.releaseList time l).setAx a x := by
  induction l generalizing s with
  | nil => rfl
  | cons e l ih => exact ih (s.releasePage (BitVec.ofNat 7 e.1) e.2 time)

theorem State.releaseAxisClaims_setAx (b : Axis) (s : State) :
    (s.setAx a x).releaseAxisClaims b = (s.releaseAxisClaims b).setAx a x :=
  State.releaseList_setAx s.timebase _ s

end Sys2Proof.Machine
end

