-- ==== Sys2Proof/Proofs/Chains.lean ====
section
/-!
PROOF. Chains, I: the rest of a command with one task, and the ways a chain ends (R53, R54, R93). The running
axis of a chain is met in a state that differs from the one a statement speaks of by its axis state alone:
`s.setAxState a st` stands for it, with `st` a state of an axis whose chain goes on.
-/
namespace Sys2Proof.Machine

variable {s t u : State} {a b : Axis} {c d : Context} {st : AxisState} {m n : Nat} {x y : AxisEngine}

/-! ### The rest of a command -/

/-- Up to `m` tasks are taken. -/
def State.finish (m : Nat) (u : State) : State := { u.settle m with agenda := [] }

theorem State.settled_eq_finish (s : State) : s.settled = s.finish settleBound := rfl

/-- With no task the command is at its end. -/
theorem State.finish_nil (h : u.agenda = []) : u.finish m = u := by
  rw [State.finish, State.settle_nil u h, ← h]

/-- With one task the command goes on as that task leaves it. -/
theorem State.finish_push (h : u.agenda = []) (k : Task) :
    (u.push k).finish (m + 1) = (u.runTask k).finish m := by
  have hagenda : (u.push k).agenda = [k] := by rw [State.push, h]; rfl
  have hempty : ({ u.push k with agenda := [] } : State) = u := by
    rw [← h]
    rfl
  rw [State.finish, State.settle_one _ k hagenda, hempty]
  rfl

/-! ### The axis state of a running chain -/

/-- The states of an axis whose chain goes on: an active axis on which no pause is about to take hold. -/
def AxisState.goesOn (st : AxisState) : Prop := st.active = true ∧ st ≠ .pausing

theorem State.setAxState_ax (a : Axis) (st : AxisState) (s : State) :
    (s.setAxState a st).ax a = { s.ax a with state := st, dirty := true } := State.ax_setAx_same s a _

theorem State.setAxState_setAx (a : Axis) (st : AxisState) (x : AxisEngine) (s : State) :
    (s.setAxState a st).setAx a x = s.setAx a x := State.setAx_setAx s a _ x

theorem State.setAxState_setAxState (a : Axis) (st st' : AxisState) (s : State) :
    (s.setAxState a st).setAxState a st' = s.setAxState a st' := by
  rw [State.setAxState, State.setAxState_ax, State.setAxState_setAx]
  rfl

/-- A record that is handed over leaves of an engine all but what asks for a rewrite. -/
theorem State.handRecord_engine (body : RecordBody) (s : State) (a : Axis) :
    { (s.handRecord body).ax a with dirty := true } = { s.ax a with dirty := true } := by
  obtain ⟨d, h⟩ := s.handRecord_ax body a
  rw [h]

theorem State.handRecord_setAxState (body : RecordBody) (s : State) (a : Axis) (st : AxisState) :
    (s.setAxState a st).handRecord body = (s.handRecord body).setAxState a st := by
  obtain ⟨d, h⟩ := s.handRecord_ax body a
  rw [State.setAxState, State.handRecord_setAx rfl, State.setAxState, h]

theorem State.recorded_setAxState (s : State) (a : Axis) (st : AxisState) (c : Context) (kind : SegKind)
    (report : Bool) (tag : Word) (generation : Option Word) :
    (s.setAxState a st).recorded a c kind report tag generation =
      (s.recorded a c kind report tag generation).setAxState a st := by
  have hpos : ((s.setAxState a st).ax a).position = (s.ax a).position := by rw [State.setAxState_ax]
  rw [State.recorded, State.recorded, hpos]
  split
  · exact s.handRecord_setAxState _ a st
  · rfl

theorem State.releasePage_setAxState (p : Page) (l : Claimant) (time : Time) (s : State) (a : Axis)
    (st : AxisState) :
    (s.setAxState a st).releasePage p l time = (s.releasePage p l time).setAxState a st := rfl

theorem State.recorded_ax (s : State) (a b : Axis) (c : Context) (kind : SegKind) (report : Bool) (tag : Word)
    (generation : Option Word) :
    ∃ e, (s.recorded a c kind report tag generation).ax b = { s.ax b with dirty := e } := by
  rw [State.recorded]
  split
  · exact s.handRecord_ax _ b
  · exact ⟨_, rfl⟩

/-! ### Halts -/

theorem State.setCause_setAx (cause : AlertCause) (s : State) (a : Axis) (x : AxisEngine) :
    (s.setAx a x).setCause cause = (s.setCause cause).setAx a x := rfl

/-- What a halt takes from an engine does not depend on the axis state of a running context. -/
theorem AxisEngine.halted_of_ctx (hc : x.ctx = some c) (st : AxisState) (cause : HaltCause)
    (detail : BitVec 8) :
    ({ x with state := st, dirty := true } : AxisEngine).halted cause detail = x.halted cause detail := by
  simp only [AxisEngine.halted, AxisEngine.level, AxisEngine.pageWord, AxisEngine.index, AxisEngine.remaining,
    hc]

/-- An active axis halts, and its halt breaks no join point. -/
theorem State.halt_of_noMeeting (cause : HaltCause) (detail : BitVec 8) (hactive : (s.ax a).state.active = true)
    (hmeeting : NoMeeting s a) : Halts a cause detail s (s.halt a cause detail) := by
  have hpoints : NoMeeting
      (((s.releaseAxisClaims a).setAx a ((s.ax a).halted cause detail)).handRecord
        (.halt a (s.ax a).level cause detail (s.ax a).haltPage (s.ax a).index (s.ax a).position)) a := by
    have hrelease : (s.releaseAxisClaims a).points = s.points ∧ (s.releaseAxisClaims a).setup = s.setup := by
      rw [State.releaseAxisClaims, State.releaseList_fields]
      exact ⟨rfl, rfl⟩
    intro j
    simp only [State.members, State.point, State.handRecord_points, State.handRecord_setup, State.setAx_points,
      State.setAx_setup, hrelease]
    exact hmeeting j
  simp only [State.halt, if_pos hactive]
  rw [State.tellHalted_none a _ hpoints, State.handRecord_setAx rfl]
  rfl

/-- The record of a halt does not depend on the axis state of a running context. -/
theorem AxisEngine.haltRecord_of_ctx (hc : x.ctx = some c) (a : Axis) (st : AxisState) (cause : HaltCause)
    (detail : BitVec 8) (y : AxisEngine) (hy : y = { x with state := st, dirty := true }) :
    RecordBody.halt a y.level cause detail y.haltPage y.index y.position =
      .halt a x.level cause detail x.haltPage x.index x.position := by
  subst hy
  simp only [AxisEngine.level, AxisEngine.haltPage, AxisEngine.index, hc]

/-- The same of an axis whose chain goes on. -/
theorem State.halts_chain (cause : HaltCause) (detail : BitVec 8) (hc : (s.ax a).ctx = some c)
    (hst : st.active = true) (hmeeting : NoMeeting s a) :
    Halts a cause detail s ((s.setAxState a st).halt a cause detail) := by
  have hax := s.setAxState_ax a st
  have hhalts := State.halt_of_noMeeting (s := s.setAxState a st) (a := a) cause detail (by rw [hax]; exact hst) hmeeting
  have hbody := AxisEngine.haltRecord_of_ctx hc a st cause detail _ hax
  have hengine := AxisEngine.halted_of_ctx hc st cause detail
  refine hhalts.trans ?_
  show (((s.setAxState a st).releaseAxisClaims a).handRecord _ |>.setCause .axisHalted).setAx a
      (((s.setAxState a st).ax a).halted cause detail) =
    (((s.releaseAxisClaims a).handRecord _).setCause .axisHalted).setAx a ((s.ax a).halted cause detail)
  rw [hbody, hax, hengine, State.setAxState, State.releaseAxisClaims_setAx, State.handRecord_setAx rfl,
    State.setCause_setAx, State.setAx_setAx]

/-! ### Starvation -/

/-- A context that is not met by a pause starves (R53, R54). -/
theorem State.starves_chain (w : Wait) (hst : st ≠ .pausing) :
    Starves a c w s ((s.setAxState a st).starve a c w false) := by
  have hax := s.setAxState_ax a st
  simp only [State.starve, hax, if_neg hst, Bool.false_eq_true, if_false]
  rw [State.setAxState_setAx, State.handRecord_setAx rfl]
  rfl

/-! ### Nothing is left to do -/

theorem AxisBecomes.finish {e : AxisEngine} (h : AxisBecomes a e s t) (hagenda : s.agenda = []) :
    AxisBecomes a e s (t.finish m) := by
  rw [State.finish_nil]
  · exact h
  · rw [h]
    exact hagenda

theorem Starves.finish {w : Wait} (h : Starves a c w s t) (hagenda : s.agenda = []) :
    Starves a c w s (t.finish m) :=
  AxisBecomes.finish h ((State.handRecord_agenda ..).trans hagenda)

theorem Halts.finish {cause : HaltCause} {detail : BitVec 8} (h : Halts a cause detail s t)
    (hagenda : s.agenda = []) : Halts a cause detail s (t.finish m) := by
  refine AxisBecomes.finish h ((State.handRecord_agenda ..).trans ?_)
  rw [State.releaseAxisClaims, State.releaseList_fields]
  exact hagenda

/-! ### The next task -/

section Tasks

variable (hdev : s.dev = .running) (hagenda : s.agenda = [])

include hdev hagenda

theorem State.finish_begin {boundary : Bool} :
    (((s.setAxState a st).push (.begin a boundary)).finish (m + 1)) =
      ((s.setAxState a st).begin a boundary).finish m := by
  rw [State.finish_push]
  · unfold State.runTask
    rw [if_pos (show (s.setAxState a st).dev = .running from hdev)]
  · exact hagenda

theorem State.finish_leave {boundary : Bool} :
    (((s.setAxState a st).push (.leave a boundary)).finish (m + 1)) =
      ((s.setAxState a st).leave a boundary).finish m := by
  rw [State.finish_push]
  · unfold State.runTask
    rw [if_pos (show (s.setAxState a st).dev = .running from hdev)]
  · exact hagenda

theorem State.finish_enter {value : Word} {hdr : Option Word} {boundary : Bool} :
    (((s.setAxState a st).push (.enter a value hdr boundary)).finish (m + 1)) =
      ((s.setAxState a st).enter a value hdr boundary).finish m := by
  rw [State.finish_push]
  · unfold State.runTask
    rw [if_pos (show (s.setAxState a st).dev = .running from hdev)]
  · exact hagenda

end Tasks

/-! ### A begin point that is met later in the command -/

/-- `next` says how a command with the running context of `a` at a begin point ends, if at least `M` tasks
can still be taken. -/
def Serves (a : Axis) (next : State → State → Prop) (M : Nat) : Prop :=
  ∀ (m : Nat) (s : State) (st : AxisState) (c : Context), M ≤ m → s.dev = .running → s.agenda = [] →
    (s.ax a).ctx = some c → st.goesOn → next s (((s.setAxState a st).push (.begin a false)).finish m)

variable {next : State → State → Prop} {M : Nat}

/-! ### Entering a page (R45, R46) -/

theorem badLinkDetail_eq (v : Word) : linkDetail v = badLinkDetail v := rfl

theorem linkDetail_of_page {v : Word} {p : Page} (h : generalPage? v = some p) :
    linkDetail v = p.setWidth 8 := by
  obtain ⟨heq, -⟩ := generalPage?_eq_some_iff.mp h
  have hp := p.isLt
  have hsmall : v.toNat ≤ 0xFF := by omega
  rw [linkDetail, if_pos hsmall]
  apply BitVec.eq_of_toNat_eq
  rw [BitVec.extractLsb'_toNat, BitVec.toNat_setWidth, Nat.shiftRight_zero, heq]

section Tests

variable {p : Page} {hdr : Option Word}

theorem State.testEntry_granted (h : EntryGranted s p (hdr.getD (s.read (pageWord p 1)))) :
    s.testEntry p hdr = .granted (s.read (pageWord p 3)).toNat := by
  obtain ⟨hclaimed, hkind, hheader, hlow, hhigh⟩ := h
  have hcount : ¬ ((s.read (pageWord p 3)).toNat < 1 ∨ 31 < (s.read (pageWord p 3)).toNat) := by omega
  simp only [State.testEntry, hclaimed, hkind, hheader, if_neg hcount]
  rfl

theorem State.testEntry_wait (h : EntryWaits s p (hdr.getD (s.read (pageWord p 1)))) :
    s.testEntry p hdr = .wait := by
  obtain ⟨hclaimed, hkind, hheader⟩ := h
  simp only [State.testEntry, hclaimed, hkind, hheader]
  rfl

theorem State.testEntry_bad (h : EntryBad s p (hdr.getD (s.read (pageWord p 1)))) :
    s.testEntry p hdr = .badLink := by
  simp only [State.testEntry]
  split
  · rfl
  · rename_i hclaimed
    split
    · rfl
    · rename_i hkind
      split
      · rename_i hzero
        rcases h with h | h | ⟨h, -⟩ | ⟨h, -⟩
        · exact absurd h hclaimed
        · exact absurd h hkind
        · exact absurd hzero h
        · rw [hzero] at h
          exact absurd h (by decide)
      · rename_i hzero
        split
        · rfl
        · rename_i hone
          rw [if_pos]
          rcases h with h | h | ⟨-, h⟩ | ⟨-, h⟩
          · exact absurd h hclaimed
          · exact absurd h hkind
          · exact absurd h hone
          · exact h

end Tests

/-- The claim does not touch the segment records of the page. -/
theorem State.readRecord_withClaim (s : State) (a : Axis) (c : Context) (p : Page) :
    (s.withClaim a c p).readRecord p 0 = s.readRecord p 0 := by
  have hword (k : BitVec 8) (hk : k.toNat < 8) :
      (s.withClaim a c p).read (pageWord p (recordOffset 0 + k)) = s.read (pageWord p (recordOffset 0 + k)) := by
    have hoff : recordOffset 0 = 8 := rfl
    have hone : (1 : BitVec 8).toNat = 1 := rfl
    have height : (8 : BitVec 8).toNat = 8 := rfl
    refine Memory.read_write_of_toNat s.ram ?_ 2
    rw [hoff, pageWord_toNat, pageWord_toNat, BitVec.toNat_add, hone, height]
    omega
  simp only [State.readRecord, hword _ (show BitVec.toNat 0 < 8 by decide),
    hword _ (show BitVec.toNat 1 < 8 by decide), hword _ (show BitVec.toNat 2 < 8 by decide),
    hword _ (show BitVec.toNat 3 < 8 by decide), hword _ (show BitVec.toNat 4 < 8 by decide),
    hword _ (show BitVec.toNat 5 < 8 by decide), hword _ (show BitVec.toNat 6 < 8 by decide),
    hword _ (show BitVec.toNat 7 < 8 by decide)]

/-- Granted, the context stands at the begin point of segment 0. -/
theorem State.grantClaim_chain (s : State) (a : Axis) (st : AxisState) (c : Context) (p : Page) :
    (s.setAxState a st).grantClaim a c p (s.read (pageWord p 3)).toNat false =
      (((s.withClaim a c p).withCtx a { c.onPage s p with following := some (s.readRecord p 0) }).setAxState a
        st).push (.begin a false) := by
  have hrecord := s.readRecord_withClaim a c p
  have hax := (s.withClaim a c p).setAxState_ax a st
  have hstate : ({ ({ s.setAxState a st with
      claims := Sparse.insert (s.setAxState a st).claims p.toNat { axis := a, level := c.level } } : State)
        with } : State).write (pageWord p 1) 2 = (s.withClaim a c p).setAxState a st := rfl
  simp only [State.grantClaim]
  rw [hstate, hax]
  have hread : ((s.withClaim a c p).setAxState a st).readRecord p 0 = s.readRecord p 0 := hrecord
  rw [hread, State.setAxState_setAx, State.withCtx, State.setAxState, State.ax_setAx_same, State.setAx_setAx]
  rfl

/-- The entry of a running context into a page. -/
theorem State.enters_chain {p : Page} {value header : Word} {hdr : Option Word} (hnext : Serves a next M)
    (hm : M ≤ m) (hdev : s.dev = .running) (hagenda : s.agenda = []) (hc : (s.ax a).ctx = some c)
    (hst : st.goesOn) (hp : generalPage? value = some p) (hhdr : header = hdr.getD (s.read (pageWord p 1))) :
    Enters a next c p header s (((s.setAxState a st).enter a value hdr false).finish m) := by
  have hax := s.setAxState_ax a st
  have hctx : ((s.setAxState a st).ax a).ctx = some c := by rw [hax]; exact hc
  have htest : (s.setAxState a st).testEntry p hdr = s.testEntry p hdr := rfl
  subst hhdr
  refine ⟨fun hgranted => ?granted, fun hwaits => ?waits, fun hbad hmeeting => ?bad⟩
  case granted =>
    simp only [State.enter, hctx, hp, htest, State.testEntry_granted hgranted, State.grantClaim_chain]
    refine hnext m _ st { c.onPage s p with following := some (s.readRecord p 0) } hm hdev hagenda ?_ hst
    rw [State.withCtx, State.ax_setAx_same]
  case waits =>
    simp only [State.enter, hctx, hp, htest, State.testEntry_wait hwaits]
    exact (State.starves_chain (.state p) hst.2).finish hagenda
  case bad =>
    simp only [State.enter, hctx, hp, htest, State.testEntry_bad hbad, linkDetail_of_page hp]
    exact (State.halts_chain .badLink _ hc hst.1 hmeeting).finish hagenda

/-- The running context acts on a link value that is not 0 (R44, R45). -/
theorem State.follows_chain {value : Word} (hnext : Serves a next M) (hm : M ≤ m) (hdev : s.dev = .running)
    (hagenda : s.agenda = []) (hc : (s.ax a).ctx = some c) (hst : st.goesOn) :
    Follows a next c value s (((s.setAxState a st).enter a value none false).finish m) := by
  refine ⟨fun hno hmeeting => ?_, fun p hp => State.enters_chain hnext hm hdev hagenda hc hst hp rfl⟩
  have hctx : ((s.setAxState a st).ax a).ctx = some c := by rw [s.setAxState_ax]; exact hc
  simp only [State.enter, hctx, (generalPage?_eq_none_iff value).mpr hno]
  exact (State.halts_chain .badLink _ hc hst.1 hmeeting).finish hagenda

/-! ### Completions (R47) -/

theorem State.withCtx_ax (s : State) (a : Axis) (c : Context) :
    (s.withCtx a c).ax a = { s.ax a with ctx := some c, gate := .idle, dirty := true } :=
  State.ax_setAx_same s a _

/-- Step 2 of a completion leaves the context advanced, with its next task. -/
theorem State.advance_chain (s : State) (a : Axis) (st : AxisState) (c : Context) (boundary : Bool) :
    (s.setAxState a st).advance a c boundary =
      ((s.withCtx a c.advanced).setAxState a st).push
        (if c.index + 1 < c.count then .begin a boundary else .leave a boundary) := by
  simp only [State.advance, State.setAxState_ax, State.setAxState_setAx]
  rw [State.setAxState, State.withCtx_ax, State.withCtx, State.setAx_setAx]
  rfl

/-- The end of a page: the link is read, the page released, the link followed or starved on. -/
theorem State.leaves_chain {q : Page} (hnext : Serves a next M) (hm : M + 1 ≤ m) (hdev : s.dev = .running)
    (hagenda : s.agenda = []) (hc : (s.ax a).ctx = some c) (hst : st.goesOn) (hq : c.page = some q) :
    (s.read (pageWord q 2) = 0 →
      Starves a c (.link q) (s.releasePage q { axis := a, level := c.level } s.timebase)
        (((s.setAxState a st).leave a false).finish m)) ∧
    (s.read (pageWord q 2) ≠ 0 →
      Follows a next c (s.read (pageWord q 2)) (s.releasePage q { axis := a, level := c.level } s.timebase)
        (((s.setAxState a st).leave a false).finish m)) := by
  have hctx : ((s.setAxState a st).ax a).ctx = some c := by rw [s.setAxState_ax]; exact hc
  have hread : (s.setAxState a st).read (pageWord q 2) = s.read (pageWord q 2) := rfl
  have htime : (s.setAxState a st).timebase = s.timebase := rfl
  simp only [State.leave, hctx, hq, hread, htime, State.releasePage_setAxState]
  refine ⟨fun hzero => ?_, fun hlink => ?_⟩
  · rw [if_pos hzero]
    exact (State.starves_chain (.link q) hst.2).finish hagenda
  · obtain ⟨m, rfl⟩ : ∃ k, m = k + 1 := ⟨m - 1, by omega⟩
    rw [if_neg hlink, State.finish_enter (s := s.releasePage q { axis := a, level := c.level } s.timebase) hdev hagenda]
    exact State.follows_chain hnext (by omega) hdev hagenda hc hst

/-- Steps 2 to 4 of a completion. -/
theorem State.completes_chain (hnext : Serves a next M) (hm : M + 2 ≤ m) (hdev : s.dev = .running)
    (hagenda : s.agenda = []) (hst : st.goesOn) (c : Context) :
    Completes a next c s (((s.setAxState a st).advance a c false).finish m) := by
  have hctx : ((s.withCtx a c.advanced).ax a).ctx = some c.advanced := by rw [State.withCtx_ax]
  rw [State.advance_chain]
  refine ⟨fun hmore => ?_, fun hend q hq => ?_⟩
  · rw [if_pos hmore]
    exact hnext m _ st _ (by omega) hdev hagenda hctx hst
  · obtain ⟨m, rfl⟩ : ∃ k, m = k + 1 := ⟨m - 1, by omega⟩
    rw [if_neg (by omega), State.finish_leave (s := s.withCtx a c.advanced) hdev hagenda]
    exact State.leaves_chain (s := s.withCtx a c.advanced) hnext (by omega) hdev hagenda hctx hst hq

/-- A completion with its DONE record. -/
theorem State.completes_recorded (hnext : Serves a next M) (hm : M + 2 ≤ m) (hdev : s.dev = .running)
    (hagenda : s.agenda = []) (hst : st.goesOn) (c : Context) (kind : SegKind) (report : Bool) (tag : Word)
    (generation : Option Word) :
    Completes a next c (s.recorded a c kind report tag generation)
      (((s.setAxState a st).complete a c kind report tag generation false).finish m) := by
  have hrecorded : (s.setAxState a st).recorded a c kind report tag generation =
      (s.recorded a c kind report tag generation).setAxState a st := s.recorded_setAxState a st c kind report tag generation
  have hcomplete : (s.setAxState a st).complete a c kind report tag generation false =
      ((s.setAxState a st).recorded a c kind report tag generation).advance a c false := rfl
  rw [hcomplete, hrecorded]
  refine State.completes_chain hnext hm ?_ ?_ hst c
  · rw [State.recorded]
    split
    · exact (State.handRecord_dev ..).trans hdev
    · exact hdev
  · rw [State.recorded]
    split
    · exact (State.handRecord_agenda ..).trans hagenda
    · exact hagenda

/-! ### Requests (R106, R107) -/

/-- The engine that takes a request, as the acceptance check leaves it. -/
theorem AxisEngine.interjected_eq {l : Level} {r : Request} {p : Page} (hp : generalPage? r.head = some p) :
    ({ x with
        state := .running, ctx := some (Context.fresh l r.head)
        stack := x.ctx.getD Context.idleBaseContext :: x.stack, requests := x.requests.set l none
        gate := .idle, beganCount := none, dirty := true } : AxisEngine) = x.interjected l p := by
  rw [Context.fresh, hp]
  rfl

/-- A change of an engine, with the record of an interjection handed over behind it. -/
theorem State.interjectionRecord_ax (hx : x.dirty = true) (body : RecordBody) (s : State) :
    ((s.setAx a x).interjectionRecord a body).ax a = x := by
  rw [State.interjectionRecord]
  split
  · rw [State.handRecord_setAx hx, State.ax_setAx_same]
  · exact State.ax_setAx_same s a x

theorem State.interjectionRecord_frame (body : RecordBody) (s : State) :
    (s.interjectionRecord a body).agenda = s.agenda ∧ (s.interjectionRecord a body).dev = s.dev := by
  rw [State.interjectionRecord]
  split
  · exact ⟨State.handRecord_agenda .., State.handRecord_dev ..⟩
  · exact ⟨rfl, rfl⟩

/-- An engine in an axis state that owes a rewrite is as that state leaves it. -/
theorem State.setAxState_of_ax (hstate : (s.ax a).state = st) (hdirty : (s.ax a).dirty = true) :
    s.setAxState a st = s := by
  have hsame : { s.ax a with state := st, dirty := true } = s.ax a := by rw [← hstate, ← hdirty]
  rw [State.setAxState, hsame, State.setAx_ax]

/-- A request is taken. -/
theorem State.takesRequest_chain {l : Level} {r : Request} {p : Page} (hnext : Serves a next M)
    (hm : M + 1 ≤ m) (hdev : s.dev = .running) (hagenda : s.agenda = []) (haccept : x.acceptable = true)
    (htop : x.requests.top = some (l, r)) (hp : generalPage? r.head = some p) :
    TakesRequest a next x l r p s (((s.setAx a x).accept a).finish m) := by
  intro u hu d hd
  have hax : u.ax a = x.interjected l p := by
    rw [hu]
    exact State.interjectionRecord_ax (x := x.interjected l p) rfl (.interjectIn a l r.head r.source) s
  obtain ⟨hagenda', hdev'⟩ : u.agenda = [] ∧ u.dev = .running := by
    rw [hu]
    obtain ⟨hkeeps, hkeeps'⟩ := State.interjectionRecord_frame (a := a) (.interjectIn a l r.head r.source)
      (s.setAx a (x.interjected l p))
    exact ⟨hkeeps.trans hagenda, hkeeps'.trans hdev⟩
  have hrun : u.setAxState a .running = u :=
    State.setAxState_of_ax (by rw [hax]; rfl) (by rw [hax]; rfl)
  have haccepted : (s.setAx a x).accept a = u.push (.enter a r.head none false) := by
    simp only [State.accept, State.ax_setAx_same, htop, haccept, if_true, State.setAx_setAx]
    rw [AxisEngine.interjected_eq hp, hu]
    rfl
  obtain ⟨m, rfl⟩ : ∃ k, m = k + 1 := ⟨m - 1, by omega⟩
  rw [haccepted, ← hrun, State.finish_enter hdev' hagenda', hrun]
  have henters := State.enters_chain (s := u) (c := d) hnext (m := m) (by omega) hdev' hagenda'
    (by rw [hax]; exact hd) (st := .running) ⟨rfl, AxisState.noConfusion⟩ hp (hdr := none) rfl
  rwa [hrun] at henters

end Sys2Proof.Machine
end

