-- ==== Sys2Proof/Proofs/Begins.lean ====
section
/-!
PROOF. Chains, II: resumption, END and the pop, arrivals, and the begin point itself (R42, R51, R87, R111, R122).
-/
namespace Sys2Proof.Machine

variable {s t u : State} {a b : Axis} {c d : Context} {st : AxisState} {m n : Nat} {x y : AxisEngine}
  {next : State → State → Prop} {M : Nat} {r : SegRecord}

/-! ### A step that is due (R65, R69) -/

theorem AxisEngine.gateStep_dirty (x : AxisEngine) (dirlead now : Nat) (f : Bool) :
    ({ x with dirty := true } : AxisEngine).gateStep dirlead now f =
      { x.gateStep dirlead now f with dirty := true } := by
  have hlevel : ({ x with dirty := true } : AxisEngine).dirLevel = x.dirLevel := rfl
  simp only [AxisEngine.gateStep, hlevel]
  split
  · rfl
  · split <;> rfl

theorem State.stepDue_past {f : Bool} (hf : (s.ax a).runForward = some f)
    (hpast : (s.ax a).pastLimit (s.limits a) f = true) : s.stepDue a = s.halt a .softLimit 0 := by
  simp only [State.stepDue, hf, hpast, if_true]

theorem State.stepDue_within {f : Bool} (hf : (s.ax a).runForward = some f)
    (hpast : (s.ax a).pastLimit (s.limits a) f = false) :
    s.stepDue a = s.setAx a ((s.ax a).gateStep s.dirlead s.now f) := by
  simp only [State.stepDue, hf, hpast, Bool.false_eq_true, if_false]

theorem AxisEngine.runForward_of_run {k v : Nat} {e : Int} {w : Nat} {f rep : Bool} {tag : Word}
    (hc : x.ctx = some c) (hphase : c.phase = .inSegment (.run k v e w f rep tag)) :
    x.runForward = some f := by
  simp only [AxisEngine.runForward, hc, hphase]

/-! ### Resumption (R57, R87, R112) -/

section Phases

variable (hctx : (s.ax a).ctx = some c) (hidle : c.idleBase = false)

include hctx hidle

theorem State.resumeContext_atBegin (hphase : c.phase = .atBegin) :
    s.resumeContext a = (s.setAxState a .running).push (.begin a false) := by
  simp only [State.resumeContext, hctx, hidle, hphase, Bool.false_eq_true, if_false]

theorem State.resumeContext_copy {copy : Running} (hphase : c.phase = .inSegment copy) :
    s.resumeContext a = (s.setAxState a .running).resumeCopy a c copy := by
  simp only [State.resumeContext, hctx, hidle, hphase, Bool.false_eq_true, if_false]

theorem State.resumeContext_starved {w : Wait} (hphase : c.phase = .starved w) :
    s.resumeContext a = (s.setAxState a .running).recheck a w := by
  simp only [State.resumeContext, hctx, hidle, hphase, Bool.false_eq_true, if_false]

end Phases

/-- The running context resumes. -/
theorem State.resumes_chain (hnext : Serves a next M) (hm : M + 2 ≤ m) (hdev : s.dev = .running)
    (hagenda : s.agenda = []) : Resumes a next s ((s.resumeContext a).finish m) := by
  intro c hc
  have hctx : (s.ax a).ctx = some c := hc
  have hrun : AxisState.running.goesOn := ⟨rfl, AxisState.noConfusion⟩
  have hset (st : AxisState) : AxisBecomes a { s.ax a with state := st } s
      (((s.setAxState a .running).setAxState a st).finish m) :=
    AxisBecomes.finish (s.setAxState_setAxState a .running st) hagenda
  refine ⟨fun hidle => ?idle, fun hidle => ?_⟩
  case idle =>
    simp only [State.resumeContext, hctx, hidle, if_true]
    refine AxisBecomes.finish ?_ hagenda
    rw [State.setAxState, State.setCtx, State.ax_setAx_same, State.setAx_setAx]
  generalize hphase : c.phase = phase
  match phase with
  | .atBegin =>
    rw [State.resumeContext_atBegin hctx hidle hphase]
    exact hnext m s .running c (by omega) hdev hagenda hctx hrun
  | .inSegment (.run k v e w f rep tag) =>
    rw [State.resumeContext_copy hctx hidle hphase]
    have hcopy : (s.setAxState a .running).resumeCopy a c (.run k v e w f rep tag) =
        (s.setAxState a .running).stepDue a := by
      simp only [State.resumeCopy, State.setAxState_setAxState]
    have hax := s.setAxState_ax a .running
    have hforward : ((s.setAxState a .running).ax a).runForward = some f :=
      AxisEngine.runForward_of_run (by rw [hax]; exact hctx) hphase
    have hlimit : ((s.setAxState a .running).ax a).pastLimit ((s.setAxState a .running).limits a) f =
        (s.ax a).pastLimit (s.limits a) f := by rw [hax]; rfl
    rw [hcopy]
    refine ⟨fun hpast => ?_, fun hpast hmeeting => ?_⟩
    · refine AxisBecomes.finish ((State.stepDue_within hforward (hlimit.trans hpast)).trans ?_) hagenda
      rw [hax, State.setAxState_setAx]
      exact congrArg (s.setAx a) (AxisEngine.gateStep_dirty { s.ax a with state := .running } _ _ f)
    · have hhalts := State.halts_chain .softLimit 0 hctx hrun.1 hmeeting
      rw [← State.stepDue_past hforward (hlimit.trans hpast)] at hhalts
      exact hhalts.finish hagenda
  | .inSegment (.dwell ticks report tag) =>
    rw [State.resumeContext_copy hctx hidle hphase]
    refine ⟨fun hleft => ?_, fun hdone => ?_⟩
    · simp only [State.resumeCopy, if_neg hleft]
      exact hset .dwelling
    · simp only [State.resumeCopy, if_pos hdone]
      exact State.completes_recorded hnext hm hdev hagenda hrun c .dwell report tag none
  | .inSegment (.waitInput k level timeout timeoutHalt report tag) =>
    rw [State.resumeContext_copy hctx hidle hphase]
    have hline : (s.setAxState a .running).line k = s.line k := rfl
    refine ⟨fun hlevel => ?_, fun hlevel htimeout => ?_, fun hlevel htimeout hhalt hmeeting => ?_,
      fun hlevel htimeout hhalt => ?_⟩
    · simp only [State.resumeCopy, hline, if_pos hlevel]
      exact State.completes_recorded hnext hm hdev hagenda hrun c .waitInput report tag none
    · simp only [State.resumeCopy, hline, if_neg hlevel, if_neg htimeout]
      exact hset .waitInput
    · simp only [State.resumeCopy, hline, if_neg hlevel, if_pos htimeout, State.waitExpires, hhalt, if_true]
      exact (State.halts_chain .waitTimeout _ hctx hrun.1 hmeeting).finish hagenda
    · simp only [State.resumeCopy, hline, if_neg hlevel, if_pos htimeout, State.waitExpires, hhalt,
        Bool.false_eq_true, if_false, State.handRecord_setAxState]
      exact State.completes_chain hnext hm ((State.handRecord_dev ..).trans hdev)
        ((State.handRecord_agenda ..).trans hagenda) hrun c
  | .inSegment (.join j released broken report tag) =>
    rw [State.resumeContext_copy hctx hidle hphase]
    refine ⟨fun g hg => ?_, fun hreleased hbroken => ?_, fun hreleased hbroken hmeeting => ?_⟩
    · have hreleased : released = some g := hg
      simp only [State.resumeCopy, hreleased]
      exact State.completes_recorded hnext hm hdev hagenda hrun c .join report tag (some g)
    · simp only [State.resumeCopy, hreleased, hbroken, Bool.false_eq_true, if_false]
      exact hset .waitJoin
    · simp only [State.resumeCopy, hreleased, hbroken, if_true]
      exact (State.halts_chain .joinBroken _ hctx hrun.1 hmeeting).finish hagenda
  | .starved (.link q) =>
    rw [State.resumeContext_starved hctx hidle hphase]
    have hread : (s.setAxState a .running).read (Wait.word (.link q)) = s.read (pageWord q 2) := rfl
    refine ⟨fun hzero => ?_, fun hlink => ?_⟩
    · simp only [State.recheck, hread, if_pos hzero]
      exact hset .starved
    · obtain ⟨m, rfl⟩ : ∃ k, m = k + 1 := ⟨m - 1, by omega⟩
      simp only [State.recheck, hread, if_neg hlink]
      rw [State.finish_enter hdev hagenda]
      exact State.follows_chain hnext (by omega) hdev hagenda hctx hrun
  | .starved (.state p) =>
    rw [State.resumeContext_starved hctx hidle hphase]
    have hread : (s.setAxState a .running).read (Wait.word (.state p)) = s.read (pageWord p 1) := rfl
    refine ⟨fun hzero => ?_, fun hp hopen => ?_⟩
    · simp only [State.recheck, hread, if_pos hzero]
      exact hset .starved
    · obtain ⟨m, rfl⟩ : ∃ k, m = k + 1 := ⟨m - 1, by omega⟩
      simp only [State.recheck, hread, if_neg hopen]
      rw [State.finish_enter hdev hagenda]
      exact State.enters_chain hnext (by omega) hdev hagenda hctx hrun (generalPage?_pageNumber hp) rfl

/-! ### END (R51, R111) -/

section Ending

variable {report : Bool} {tag : Word} {kind : SegKind} {generation : Option Word}

theorem State.recorded_dev (s : State) :
    (s.recorded a c kind report tag generation).dev = s.dev := by
  rw [State.recorded]
  split
  · exact State.handRecord_dev ..
  · rfl

theorem State.recorded_agenda (s : State) :
    (s.recorded a c kind report tag generation).agenda = s.agenda := by
  rw [State.recorded]
  split
  · exact State.handRecord_agenda ..
  · rfl

theorem State.recorded_timebase (s : State) :
    (s.recorded a c kind report tag generation).timebase = s.timebase := by
  rw [State.recorded]
  split
  · exact State.handRecord_timebase ..
  · rfl

theorem State.recorded_setup (s : State) :
    (s.recorded a c kind report tag generation).setup = s.setup := by
  rw [State.recorded]
  split
  · exact State.handRecord_setup ..
  · rfl

end Ending

/-- END has handed its record over and released its page. -/
def State.ended (s : State) (a : Axis) (c : Context) (r : SegRecord) : State :=
  (s.recorded a c .end_ r.report r.tag none).releasePage c.pageOr0 { axis := a, level := c.level } s.timebase

theorem State.ended_ax (s : State) (a b : Axis) (c : Context) (r : SegRecord) :
    ∃ e, (s.ended a c r).ax b = { s.ax b with dirty := e } :=
  s.recorded_ax a b c .end_ r.report r.tag none

theorem State.ended_setAxState (s : State) (a : Axis) (st : AxisState) (c : Context) (r : SegRecord) :
    (s.setAxState a st).ended a c r = (s.ended a c r).setAxState a st := by
  rw [State.ended, State.recorded_setAxState]
  rfl

theorem State.ended_eq (s : State) (a : Axis) (c : Context) (r : SegRecord) :
    (if r.report then s.handRecord (s.doneBody a c .end_ r.tag none) else s).releasePage c.pageOr0
        { axis := a, level := c.level }
        (if r.report then s.handRecord (s.doneBody a c .end_ r.tag none) else s).timebase =
      s.ended a c r := by
  have htime := s.recorded_timebase (a := a) (c := c) (kind := .end_) (report := r.report) (tag := r.tag)
    (generation := none)
  rw [State.ended, ← htime]
  rfl

theorem State.endChain_nil (c : Context) (r : SegRecord) (h : (s.ax a).stack = []) :
    s.endChain a c r = (s.ended a c r).baseEnd a c := by
  obtain ⟨e, he⟩ := s.ended_ax a a c r
  have hstack : ((s.ended a c r).ax a).stack = [] := by rw [he]; exact h
  simp only [State.endChain, State.ended_eq, hstack]

theorem State.endChain_cons {top : Context} {rest : List Context} (c : Context) (r : SegRecord)
    (h : (s.ax a).stack = top :: rest) : s.endChain a c r = (s.ended a c r).pop a c top rest := by
  obtain ⟨e, he⟩ := s.ended_ax a a c r
  have hstack : ((s.ended a c r).ax a).stack = top :: rest := by rw [he]; exact h
  simp only [State.endChain, State.ended_eq, hstack]

/-- END on the only context of an axis. -/
theorem State.endsBase_chain (c : Context) (r : SegRecord) (hagenda : s.agenda = []) (h : (s.ax a).stack = []) :
    EndsBase a c r s (((s.setAxState a st).endChain a c r).finish m) := by
  obtain ⟨e, he⟩ := s.ended_ax a a c r
  refine AxisBecomes.finish ?_ (s.recorded_agenda.trans hagenda)
  rw [State.endChain_nil c r (by rw [s.setAxState_ax]; exact h), State.ended_setAxState, State.baseEnd,
    State.setAxState_ax, State.setAxState_setAx, he]
  rfl

/-- END on an interjection context: the pop, then a request or the restored context. -/
theorem State.pops_chain {top : Context} {rest : List Context} (hnext : Serves a next M) (hm : M + 3 ≤ m)
    (hdev : s.dev = .running) (hagenda : s.agenda = []) (c : Context) (r : SegRecord)
    (h : (s.ax a).stack = top :: rest) :
    Pops a next c r top rest s (((s.setAxState a st).endChain a c r).finish m) := by
  intro u v w hu hv hw
  obtain ⟨e, he⟩ := s.ended_ax a a c r
  have hvended : v = (s.ended a c r).setAx a ((s.ax a).popped c top rest) := by
    rw [hv, hu, s.recorded_timebase]
    rfl
  have hmask : v.setup = s.setup := by
    rw [hvended]
    exact s.recorded_setup
  have hwrecord : w = v.interjectionRecord a (.interjectOut a c.level top.level) := by
    rw [hw, State.interjectionRecord, hmask]
  have hax : w.ax a = (s.ax a).popped c top rest := by
    rw [hwrecord, hvended]
    exact State.interjectionRecord_ax rfl _ _
  obtain ⟨hkeeps, hkeeps'⟩ := State.interjectionRecord_frame (a := a) (.interjectOut a c.level top.level) v
  have hwagenda : w.agenda = [] := by
    rw [hwrecord, hkeeps, hvended]
    exact s.recorded_agenda.trans hagenda
  have hwdev : w.dev = .running := by
    rw [hwrecord, hkeeps', hvended]
    exact s.recorded_dev.trans hdev
  have hpop : (s.setAxState a st).endChain a c r =
      if (w.ax a).acceptable then w.accept a else w.push (.resume a) := by
    rw [State.endChain_cons c r (by rw [s.setAxState_ax]; exact h), State.ended_setAxState]
    have hpopped : ((s.ended a c r).setAxState a st).setAx a
        { ((s.ended a c r).setAxState a st).ax a with
          state := .running, ctx := some top, stack := rest, gate := .idle
          shownPage := pageNumber c.pageOr0, shownIndex := c.index, shownRemaining := 0, dirty := true } = v := by
      rw [State.setAxState_ax, State.setAxState_setAx, he, hvended]
      rfl
    rw [State.pop, hpopped, ← hwrecord]
  obtain ⟨m, rfl⟩ : ∃ k, m = k + 1 := ⟨m - 1, by omega⟩
  rw [hpop, hax]
  refine ⟨fun hno => ?_, fun haccept q hq p hp => ?_⟩
  · have hresume : w.runTask (.resume a) = w.resumeContext a := by
      unfold State.runTask
      exact if_pos hwdev
    rw [if_neg (Bool.eq_false_iff.mp hno), State.finish_push hwagenda, hresume]
    exact State.resumes_chain hnext (by omega) hwdev hwagenda
  · obtain ⟨l, q⟩ := q
    have hset : w = w.setAx a ((s.ax a).popped c top rest) := by rw [← hax, State.setAx_ax]
    rw [if_pos haccept]
    have htakes := State.takesRequest_chain (s := w) hnext (m := m + 1) (by omega) hwdev hwagenda haccept
      (show ((s.ax a).popped c top rest).requests.top = some (l, q) from hq) hp
    rwa [← hset] at htakes

/-! ### Arrivals (R122) -/

/-- Advancing overwrites the context and the axis state stands. -/
theorem State.advance_overwrites (s : State) (a : Axis) (st : AxisState) (o : Option Context) (c : Context)
    (boundary : Bool) :
    (s.setAx a { s.ax a with state := st, ctx := o, dirty := true }).advance a c boundary =
      (s.setAxState a st).advance a c boundary := by
  simp only [State.advance, State.ax_setAx_same, State.setAx_setAx, State.setAxState]

/-- So does a completion, whose record does not go by the phase. -/
theorem State.complete_overwrites (s : State) (a : Axis) (st : AxisState) (o : Option Context) (c : Context)
    (k : Phase) (kind : SegKind) (report : Bool) (tag : Word) (generation : Option Word) :
    (s.setAx a { s.ax a with state := st, ctx := o, dirty := true }).complete a { c with phase := k } kind
        report tag generation false =
      ((s.recorded a c kind report tag generation).setAxState a st).advance a c false := by
  have hrecorded : (s.setAx a { s.ax a with state := st, ctx := o, dirty := true }).recorded a c kind report tag
        generation =
      (s.recorded a c kind report tag generation).setAx a
        { (s.recorded a c kind report tag generation).ax a with state := st, ctx := o, dirty := true } := by
    obtain ⟨e, he⟩ := s.recorded_ax a a c kind report tag generation
    rw [he, State.recorded, State.recorded, State.ax_setAx_same]
    split
    · exact State.handRecord_setAx rfl _ s
    · rfl
  have hcomplete (u : State) : u.complete a { c with phase := k } kind report tag generation false =
      (u.recorded a c kind report tag generation).advance a c false := rfl
  rw [hcomplete, hrecorded, State.advance_overwrites]

theorem maskAxes_maskBit (a : Axis) : maskAxes (maskBit a) = [a] := by
  revert a
  decide

theorem Context.flagReleased_of_not_holds {j : Point} {g : Word} (h : c.holdsArrival j = false) :
    c.flagReleased j g = c := by
  unfold Context.flagReleased
  split
  · rename_i p rep tag hphase
    have hne : ¬ p = j := fun hpj => by
      rw [Context.holdsArrival, hphase] at h
      simp [hpj] at h
    rw [if_neg hne]
  · rfl

theorem Context.flagReleased_of_waiting {j : Point} {g tag : Word} {rep : Bool}
    (h : c.phase = .inSegment (.join j none false rep tag)) :
    c.flagReleased j g = { c with phase := .inSegment (.join j (some g) false rep tag) } := by
  simp only [Context.flagReleased, h, if_true]

theorem Context.holdsArrival_of_waiting {j : Point} {tag : Word} {rep : Bool}
    (h : c.phase = .inSegment (.join j none false rep tag)) : c.holdsArrival j = true := by
  simp only [Context.holdsArrival, h, decide_true]

theorem joinDeadline_eq (s : State) (j : Point) : s.joinDeadline j =
    if s.setup.points[j].timeout = 0 then none
    else some (s.timebase + s.setup.points[j].timeout.setWidth 48 * 1024) := rfl

/-- The release of a point by its only member: the waiting JOIN completes at once. -/
theorem State.releasePoint_sole {j : Point} {waiting : Context} {rep : Bool} {tag : Word}
    (hphase : waiting.phase = .inSegment (.join j none false rep tag))
    (hstack : ∀ b ∈ (s.ax a).stack, b.holdsArrival j = false) :
    (s.setAx a { s.ax a with state := .waitJoin, ctx := some waiting, dirty := true }).releasePoint j
        (maskBit a) a =
      ((s.soleRelease a waiting j).setAx a
        { (s.soleRelease a waiting j).ax a with
          state := .waitJoin
          ctx := some { waiting with phase := .inSegment (.join j (some ((s.point j).generation + 1)) false rep tag) }
          dirty := true }).push (.arrived a) := by
  have hholds := Context.holdsArrival_of_waiting hphase
  have hflag := Context.flagReleased_of_waiting (g := (s.point j).generation + 1) hphase
  have hkept : (s.ax a).stack.map (Context.flagReleased j ((s.point j).generation + 1)) = (s.ax a).stack :=
    (List.map_congr_left fun d hd => Context.flagReleased_of_not_holds (hstack d hd)).trans (List.map_id _)
  have hpoint (x : AxisEngine) : (s.setAx a x).point j = s.point j := rfl
  have hax (x y : AxisEngine) : ((((s.setAx a x).setPoint j
      { state := .opened, arrivals := 0, generation := (s.point j).generation + 1, deadline := none }).write
        (joinWord j 4) 0).write (joinWord j 5) ((s.point j).generation + 1)).setAx a y =
      (s.soleRelease a waiting j).setAx a y := by
    show (((s.setAx a x).setAx a y).setPoint j _ |>.write _ _).write _ _ =
      (((s.setAx a { s.ax a with ctx := some waiting }).setAx a y).setPoint j _ |>.write _ _).write _ _
    rw [State.setAx_setAx, State.setAx_setAx]
  have hsole : (s.soleRelease a waiting j).ax a = { s.ax a with ctx := some waiting } :=
    State.ax_setAx_same s a _
  have hreached (x : AxisEngine) : ((((s.setAx a x).setPoint j
      { state := .opened, arrivals := 0, generation := (s.point j).generation + 1, deadline := none }).write
        (joinWord j 4) 0).write (joinWord j 5) ((s.point j).generation + 1)).ax a = x :=
    State.ax_setAx_same s a x
  have hstate : (AxisState.waitJoin != .paused) = true := rfl
  simp only [State.releasePoint, maskAxes_maskBit, List.foldl_cons, List.foldl_nil, State.releaseAxis, hpoint,
    hreached, hholds, hstate, Bool.and_self, if_true, hax, hsole, Option.map_some, hflag, hkept]

/-- A released JOIN that is met in WAIT_JOIN completes. -/
theorem State.joinDone_waiting {j : Point} {waiting : Context} {rep : Bool} {tag g : Word}
    (hctx : (s.ax a).ctx = some { waiting with phase := .inSegment (.join j (some g) false rep tag) })
    (hstate : (s.ax a).state = .waitJoin) :
    s.joinDone a = s.complete a { waiting with phase := .inSegment (.join j (some g) false rep tag) } .join rep
      tag (some g) false := by
  simp only [State.joinDone, hctx, hstate]
  rfl

theorem State.soleArrival_completes {j : Point} {waiting : Context} (hnext : Serves a next M) (hm : M + 3 ≤ m)
    (hdev : s.dev = .running) (hagenda : s.agenda = [])
    (hwaiting : waiting =
      { c.readsNext s with phase := .inSegment (.join j none false r.report r.tag) })
    (hstack : ∀ b ∈ (s.ax a).stack, b.holdsArrival j = false) :
    Completes a next (c.readsNext s)
      ((s.soleRelease a waiting j).recorded a (c.readsNext s) .join r.report r.tag
        (some ((s.point j).generation + 1)))
      (((s.setAx a { s.ax a with state := .waitJoin, ctx := some waiting, dirty := true }).releasePoint j
        (maskBit a) a).finish m) := by
  have hphase : waiting.phase = .inSegment (.join j none false r.report r.tag) := by rw [hwaiting]
  have hagenda' : (s.soleRelease a waiting j).agenda = [] := hagenda
  have hdev' : (s.soleRelease a waiting j).dev = .running := hdev
  obtain ⟨m, rfl⟩ : ∃ k, m = k + 1 := ⟨m - 1, by omega⟩
  rw [State.releasePoint_sole hphase hstack]
  generalize hg : (s.point j).generation + 1 = g
  generalize s.soleRelease a waiting j = v at hagenda' hdev' ⊢
  have htask (u : State) (hu : u.dev = .running) : u.runTask (.arrived a) = u.joinDone a := by
    unfold State.runTask
    exact if_pos hu
  rw [State.finish_push (by exact hagenda')]
  rw [htask _ (by exact hdev'), State.joinDone_waiting (by rw [State.ax_setAx_same]) (by rw [State.ax_setAx_same]), hwaiting]
  rw [State.complete_overwrites]
  exact State.completes_chain hnext (by omega) (v.recorded_dev.trans hdev') (v.recorded_agenda.trans hagenda')
    ⟨rfl, AxisState.noConfusion⟩ (c.readsNext s)

/-- A JOIN begins on context `c`: its arrival at point `j`. -/
theorem State.arrives_chain {j : Point} (hnext : Serves a next M) (hm : M + 3 ≤ m) (hdev : s.dev = .running)
    (hagenda : s.agenda = []) (c : Context) (r : SegRecord) :
    Arrives a next c r j s
      ((((s.setAxState a st).runCopy a (c.readsNext s) (.join j none false r.report r.tag) .running).arrive a
        j).finish m) := by
  intro waiting hwaiting
  have hrun : (s.setAxState a st).runCopy a (c.readsNext s) (.join j none false r.report r.tag) .running =
      (s.setAx a { s.ax a with ctx := some waiting }).setAxState a .running := by
    rw [State.runCopy, State.setAxState_ax, State.setAxState_setAx, State.setAxState, State.ax_setAx_same,
      State.setAx_setAx, hwaiting]
  have hpoint : ((s.setAx a { s.ax a with ctx := some waiting }).setAxState a .running).point j = s.point j := rfl
  have hmembers : ((s.setAx a { s.ax a with ctx := some waiting }).setAxState a .running).members j =
      s.members j := rfl
  have hset (st : AxisState) : ((s.setAx a { s.ax a with ctx := some waiting }).setAxState a .running).setAxState a st =
      s.setAx a { s.ax a with state := st, ctx := some waiting, dirty := true } := by
    rw [State.setAxState_setAxState, State.setAxState, State.ax_setAx_same, State.setAx_setAx]
  rw [hrun]
  refine ⟨fun hbroken hmeeting => ?broken, fun hopen hin => ?again, fun hopen hout hmore => ?waits,
    fun hopen hnone hsole hstack => ?sole⟩
  case broken =>
    obtain ⟨cause, hcause⟩ : ∃ cause, (s.point j).state = .broken cause := by
      cases h : (s.point j).state with
      | opened => exact absurd h hbroken
      | broken cause => exact ⟨cause, rfl⟩
    simp only [State.arrive, hpoint, hcause]
    have hctx : ((s.setAx a { s.ax a with ctx := some waiting }).ax a).ctx = some waiting := by
      rw [State.ax_setAx_same]
    exact (State.halts_chain .joinBroken _ hctx rfl hmeeting).finish hagenda
  case again =>
    simp only [State.arrive, hpoint, hopen, hin, if_true, hset]
    exact AxisBecomes.finish rfl hagenda
  case waits =>
    simp only [State.arrive, hpoint, hmembers, hopen, hout, Bool.false_eq_true, if_false, if_neg hmore]
    have hcommutes (q : JoinPoint) (v : Word) :
        ((((s.setAx a { s.ax a with ctx := some waiting }).setAxState a .running).setPoint j q).write
          (joinWord j 4) v).setAxState a .waitJoin =
        ((((s.setAx a { s.ax a with ctx := some waiting }).setAxState a .running).setAxState a
          .waitJoin).setPoint j q).write (joinWord j 4) v := rfl
    rw [hcommutes, hset]
    exact AxisBecomes.finish rfl hagenda
  case sole =>
    have hin : inMask (s.point j).arrivals a = false := by rw [hnone]; exact BitVec.getLsbD_zero
    have hall : (s.point j).arrivals ||| maskBit a = s.members j := by
      rw [hnone, hsole]
      exact BitVec.zero_or
    simp only [State.arrive, hpoint, hmembers, hopen, hin, Bool.false_eq_true, if_false, if_pos hall, hset]
    rw [hall, hsole]
    exact State.soleArrival_completes hnext hm hdev hagenda hwaiting hstack

/-! ### The begin point (R42, R43) -/

section Point

variable (hc : (s.ax a).ctx = some c) (hphase : c.phase = .atBegin) (hr : c.following = some r)
  (hst : st.goesOn)

include hc hphase hr hst

theorem State.begin_owes (howes : s.owes a = true) :
    (s.setAxState a st).begin a false = s.setAxState a .reportWait := by
  have howes' : (s.setAxState a st).owes a = true := howes
  simp only [State.begin, State.setAxState_ax, hc, hphase, hr, if_neg hst.2, howes', Bool.false_eq_true,
    if_false, if_true, State.setAxState_setAxState]

theorem State.begin_invalid (howes : s.owes a = false) (hkind : s.validKind a r = none) :
    (s.setAxState a st).begin a false = (s.setAxState a st).halt a .badSegment (r.kindCode.setWidth 8) := by
  have howes' : (s.setAxState a st).owes a = false := howes
  have hkind' : (s.setAxState a st).validKind a r = none := hkind
  simp only [State.begin, State.setAxState_ax, hc, hphase, hr, if_neg hst.2, howes', hkind',
    Bool.false_eq_true, if_false]

theorem State.begin_valid {kind : SegKind} (howes : s.owes a = false)
    (hkind : s.validKind a r = some kind) :
    (s.setAxState a st).begin a false = (s.setAxState a st).startSegment a c r kind := by
  have howes' : (s.setAxState a st).owes a = false := howes
  have hkind' : (s.setAxState a st).validKind a r = some kind := hkind
  simp only [State.begin, State.setAxState_ax, hc, hphase, hr, if_neg hst.2, howes', hkind',
    Bool.false_eq_true, if_false]

end Point

/-- The context on which a segment starts has the next record read (R40). -/
theorem Context.readsNext_eq (s : State) (a : Axis) (st : AxisState) (c : Context) {kind : SegKind}
    (hkind : kind ≠ .end_) :
    c.readsNext s =
      { c with
        following :=
          if c.index + 1 < c.count ∧ kind ≠ .end_ then
            some ((s.setAxState a st).readRecord c.pageOr0 (c.index + 1))
          else none } := by
  simp only [Context.readsNext, hkind, ne_eq, not_false_eq_true, and_true]
  rfl

section Kinds

variable (s : State) (a : Axis) (st : AxisState) (c : Context) (r : SegRecord)

theorem State.startSegment_run :
    (s.setAxState a st).startSegment a c r .run =
      (((s.setAxState a st).runCopy a (c.readsNext s)
        (.run r.stepCount r.interval r.change r.width r.forward r.report r.tag) .running).setBegan a
          r.stepCount).stepDue a := by
  rw [Context.readsNext_eq s a st c (kind := .run) SegKind.noConfusion]
  rfl

theorem State.startSegment_dwell :
    (s.setAxState a st).startSegment a c r .dwell =
      if r.duration = 0 then
        (s.setAxState a st).complete a (c.readsNext s) .dwell r.report r.tag none false
      else
        (s.setAxState a st).runCopy a (c.readsNext s) (.dwell r.duration r.report r.tag) .dwelling := by
  rw [Context.readsNext_eq s a st c (kind := .dwell) SegKind.noConfusion]
  rfl

theorem State.startSegment_join {j : Point} (hj : r.joinPoint = some j) :
    (s.setAxState a st).startSegment a c r .join =
      ((s.setAxState a st).runCopy a (c.readsNext s) (.join j none false r.report r.tag) .running).arrive a
        j := by
  rw [Context.readsNext_eq s a st c (kind := .join) SegKind.noConfusion]
  simp only [State.startSegment, hj]

theorem State.startSegment_waitInput :
    (s.setAxState a st).startSegment a c r .waitInput =
      if (s.line r.line).qualified = r.awaited then
        (s.setAxState a st).complete a (c.readsNext s) .waitInput r.report r.tag none false
      else
        (s.setAxState a st).runCopy a (c.readsNext s)
          (.waitInput r.line r.awaited r.timeout r.timeoutHalt r.report r.tag) .waitInput := by
  rw [Context.readsNext_eq s a st c (kind := .waitInput) SegKind.noConfusion]
  rfl

theorem State.startSegment_note :
    (s.setAxState a st).startSegment a c r .note =
      (if r.report then
        (s.setAxState a st).handRecord
          (.note a c.level c.pageOr0 c.index r.tag (s.ax a).position r.value)
      else s.setAxState a st).advance a (c.readsNext s) false := by
  have hpos : ((s.setAxState a st).ax a).position = (s.ax a).position := by rw [State.setAxState_ax]
  rw [Context.readsNext_eq s a st c (kind := .note) SegKind.noConfusion, ← hpos]
  rfl

theorem State.startSegment_end :
    (s.setAxState a st).startSegment a c r .end_ = (s.setAxState a st).endChain a c r := rfl

/-- The running copy of a segment that takes time and is no RUN. -/
theorem State.runCopy_becomes {copy : Running} {st' : AxisState} (hagenda : s.agenda = [])
    (hcopy : ∀ k v e w f rep tag, copy ≠ .run k v e w f rep tag) :
    AxisBecomes a ((s.ax a).started (c.readsNext s) copy st' s.dirlead s.now) s
      (((s.setAxState a st).runCopy a (c.readsNext s) copy st').finish m) := by
  have hstarted : (s.ax a).started (c.readsNext s) copy st' s.dirlead s.now =
      { s.ax a with state := st', ctx := some { c.readsNext s with phase := .inSegment copy } } := by
    cases copy with
    | run k v e w f rep tag => exact absurd rfl (hcopy k v e w f rep tag)
    | dwell k rep tag => rfl
    | join j g k rep tag => rfl
    | waitInput k level timeout th rep tag => rfl
  rw [hstarted]
  refine AxisBecomes.finish ?_ hagenda
  rw [State.runCopy, State.setAxState_ax, State.setAxState_setAx]

/-- The engine on which a RUN has begun, before its first step is due. -/
def AxisEngine.runBegun (x : AxisEngine) (c : Context) (r : SegRecord) : AxisEngine :=
  { x with
    state := .running
    ctx :=
      some
        { c with
          phase := .inSegment (.run r.stepCount r.interval r.change r.width r.forward r.report r.tag) }
    beganCount := some r.stepCount }

theorem State.startSegment_runBegun :
    (s.setAxState a st).startSegment a c r .run =
      (s.setAx a { (s.ax a).runBegun (c.readsNext s) r with dirty := true }).stepDue a := by
  rw [State.startSegment_run, State.runCopy, State.setAxState_ax, State.setAxState_setAx, State.setBegan,
    State.ax_setAx_same, State.setAx_setAx]
  rfl

end Kinds

/-- A halt goes by what it takes from the engine alone. -/
theorem State.halt_setAx_congr (cause : HaltCause) (detail : BitVec 8) (hx : x.state.active = true)
    (hy : y.state.active = true) (hhalted : x.halted cause detail = y.halted cause detail)
    (hrecord : RecordBody.halt a x.level cause detail x.haltPage x.index x.position =
      .halt a y.level cause detail y.haltPage y.index y.position) :
    (s.setAx a x).halt a cause detail = (s.setAx a y).halt a cause detail := by
  simp only [State.halt, State.ax_setAx_same, hx, hy, if_true, State.releaseAxisClaims_setAx,
    State.setAx_setAx, hhalted, hrecord]

/-- A RUN begins: its first step is due. -/
theorem State.runBegins_chain (hagenda : s.agenda = []) (c : Context) (r : SegRecord) :
    ((s.ax a).pastLimit (s.limits a) r.forward = false →
      AxisBecomes a
        ((s.ax a).started (c.readsNext s)
          (.run r.stepCount r.interval r.change r.width r.forward r.report r.tag) .running s.dirlead s.now) s
        (((s.setAxState a st).startSegment a c r .run).finish m)) ∧
    ((s.ax a).pastLimit (s.limits a) r.forward = true → NoMeeting s a →
      Halts a .softLimit 0
        (s.setAx a
          { s.ax a with
            ctx :=
              some
                { c.readsNext s with
                  phase :=
                    .inSegment
                      (.run r.stepCount r.interval r.change r.width r.forward r.report r.tag) } })
        (((s.setAxState a st).startSegment a c r .run).finish m)) := by
  have hax : (s.setAx a { (s.ax a).runBegun (c.readsNext s) r with dirty := true }).ax a =
      { (s.ax a).runBegun (c.readsNext s) r with dirty := true } := State.ax_setAx_same s a _
  have hforward : ((s.setAx a { (s.ax a).runBegun (c.readsNext s) r with dirty := true }).ax a).runForward =
      some r.forward := by
    rw [hax]
    rfl
  have hlimit : ((s.setAx a { (s.ax a).runBegun (c.readsNext s) r with dirty := true }).ax a).pastLimit
      ((s.setAx a { (s.ax a).runBegun (c.readsNext s) r with dirty := true }).limits a) r.forward =
      (s.ax a).pastLimit (s.limits a) r.forward := by
    rw [hax]
    rfl
  rw [State.startSegment_runBegun]
  refine ⟨fun hwithin => ?_, fun hpast hmeeting => ?_⟩
  · rw [State.stepDue_within hforward (hlimit.trans hwithin), hax, State.setAx_setAx]
    exact AxisBecomes.finish (congrArg (s.setAx a)
      (AxisEngine.gateStep_dirty ((s.ax a).runBegun (c.readsNext s) r) _ _ _)) hagenda
  · rw [State.stepDue_past hforward (hlimit.trans hpast)]
    refine Halts.finish ?_ hagenda
    have hhalts := State.halts_chain (s := s.setAx a { s.ax a with ctx := ((s.ax a).runBegun (c.readsNext s) r).ctx })
      (a := a) (st := .running) .softLimit 0 (by rw [State.ax_setAx_same]; rfl) rfl hmeeting
    rw [State.setAxState, State.ax_setAx_same, State.setAx_setAx] at hhalts
    have hsame : (s.setAx a { (s.ax a).runBegun (c.readsNext s) r with dirty := true }).halt a .softLimit 0 =
        (s.setAx a
          { s.ax a with
            state := .running, ctx := ((s.ax a).runBegun (c.readsNext s) r).ctx, dirty := true }).halt a
          .softLimit 0 := State.halt_setAx_congr .softLimit 0 rfl rfl rfl rfl
    rw [hsame]
    exact hhalts

/-- With `4 * n` tasks left a begin point is followed through `n` segments. -/
theorem atBegin_serves (a : Axis) (n : Nat) : Serves a (AtBegin a n) (4 * n) := by
  induction n with
  | zero => exact fun _ _ _ _ _ _ _ _ _ => trivial
  | succ n ih =>
    intro m s st c hm hdev hagenda hc hst
    obtain ⟨m, rfl⟩ : ∃ k, m = k + 1 := ⟨m - 1, by omega⟩
    rw [State.finish_begin hdev hagenda]
    intro _ d hd hphase r hr
    obtain rfl : c = d := Option.some.inj (hc.symm.trans hd)
    have hr : c.following = some r := hr
    refine ⟨fun howes => ?owes, fun howes => ⟨fun hkind hmeeting => ?invalid, fun b hb => ?begins,
      fun hkind hpast hmeeting => ?limit, fun hkind hzero => ?dwell, fun hkind hlevel => ?waitInput,
      fun hkind => ?note, fun hkind j hj => ?join, fun hkind => ?ends⟩⟩
    case owes =>
      rw [State.begin_owes hc hphase hr hst howes]
      exact AxisBecomes.finish rfl hagenda
    case invalid =>
      rw [State.begin_invalid hc hphase hr hst howes hkind]
      exact (State.halts_chain .badSegment _ hc hst.1 hmeeting).finish hagenda
    case begins =>
      have hb : s.begins a r = some b := hb
      cases hkind : s.validKind a r with
      | none => simp [State.begins, hkind] at hb
      | some kind =>
        rw [State.begin_valid hc hphase hr hst howes hkind]
        cases kind with
        | run =>
          simp only [State.begins, hkind] at hb
          split at hb
          · cases hb
          · rename_i hwithin
            cases hb
            exact (State.runBegins_chain hagenda c r).1 (Bool.eq_false_iff.mpr hwithin)
        | dwell =>
          simp only [State.begins, hkind] at hb
          split at hb
          · cases hb
          · rename_i hleft
            cases hb
            rw [State.startSegment_dwell, if_neg hleft]
            exact State.runCopy_becomes s a st c hagenda fun _ _ _ _ _ _ _ => Running.noConfusion
        | waitInput =>
          simp only [State.begins, hkind] at hb
          split at hb
          · cases hb
          · rename_i hlevel
            cases hb
            rw [State.startSegment_waitInput, if_neg hlevel]
            exact State.runCopy_becomes s a st c hagenda fun _ _ _ _ _ _ _ => Running.noConfusion
        | join => simp [State.begins, hkind] at hb
        | note => simp [State.begins, hkind] at hb
        | end_ => simp [State.begins, hkind] at hb
    case limit =>
      rw [State.begin_valid hc hphase hr hst howes hkind]
      exact (State.runBegins_chain hagenda c r).2 hpast hmeeting
    case dwell =>
      rw [State.begin_valid hc hphase hr hst howes hkind, State.startSegment_dwell, if_pos hzero]
      exact State.completes_recorded ih (by omega) hdev hagenda hst (c.readsNext s) .dwell r.report r.tag none
    case waitInput =>
      rw [State.begin_valid hc hphase hr hst howes hkind, State.startSegment_waitInput, if_pos hlevel]
      exact State.completes_recorded ih (by omega) hdev hagenda hst (c.readsNext s) .waitInput r.report r.tag none
    case note =>
      rw [State.begin_valid hc hphase hr hst howes hkind, State.startSegment_note]
      split
      · rw [State.handRecord_setAxState]
        exact State.completes_chain ih (by omega) ((State.handRecord_dev ..).trans hdev)
          ((State.handRecord_agenda ..).trans hagenda) hst (c.readsNext s)
      · exact State.completes_chain ih (by omega) hdev hagenda hst (c.readsNext s)
    case join =>
      rw [State.begin_valid hc hphase hr hst howes hkind, State.startSegment_join s a st c r hj]
      exact State.arrives_chain ih (by omega) hdev hagenda c r
    case ends =>
      rw [State.begin_valid hc hphase hr hst howes hkind, State.startSegment_end]
      cases hstack : (s.ax a).stack with
      | nil => exact State.endsBase_chain c r hagenda hstack
      | cons top rest => exact State.pops_chain ih (by omega) hdev hagenda c r hstack

end Sys2Proof.Machine
end

