-- ==== Sys2Proof/Proofs/Starts.lean ====
section
/-!
PROOF. The commands and events that set one chain in motion (R74, R82, R87, R105, R144): START, RESUME,
INTERJECT, the end of a DWELL and of a WAIT_INPUT.
-/
namespace Sys2Proof.Machine

variable {s t u : State} {a : Axis} {c : Context} {p : Page} {x : AxisEngine}

/-- The begin points of a command, with the tasks that it can take. -/
theorem beginPoint_serves (a : Axis) : Serves a (BeginPoint a) 124 := atBegin_serves a 31

/-! ### START (R82) -/

theorem startCheck_of_page {v : Word} (hidle : (s.ax a).state = .idle) (hp : isGeneralPage p = true)
    (hhead : s.read (axisWord a 1) = pageNumber p) :
    startCheck a (s.write (axisWord a 0) v) = .accepted := by
  have hread : (s.write (axisWord a 0) v).read (axisWord a 1) = pageNumber p :=
    (State.read_stored a v (by decide) (by decide) s).trans hhead
  have hstate : ¬ ((s.write (axisWord a 0) v).ax a).state ≠ .idle := fun h => h hidle
  rw [startCheck, if_neg hstate, hread, generalPage?_pageNumber hp]
  rfl

/-- START of an IDLE axis with a head page goes on to the entry into that page. -/
theorem exec_start_enters (hquiet : Quiet s) (hdev : s.dev = .running) (hidle : (s.ax a).state = .idle)
    (hp : isGeneralPage p = true) (hhead : s.read (axisWord a 1) = pageNumber p) (arg : BitVec 12) :
    exec (.start a arg) s =
      .next (((((s.answered a 1 arg 1).setAx a ((s.ax a).startingOn p)).setAxState a .running).enter a
        (pageNumber p) none false).finish 16383) := by
  have hoff : (s.ax a).state ≠ .off := by rw [hidle]; exact AxisState.noConfusion
  have haccepted := State.commandWrite_accepted (code := 1) (effect := startEffect a) (arg := arg) hdev (by decide) hoff
    (startCheck_of_page hidle hp hhead)
  have hread : (s.answered a 1 arg 1).read (axisWord a 1) = pageNumber p :=
    (s.read_answered_axisWord a 1 arg 1 a (by decide) (by decide)).trans hhead
  have hstarted : startEffect a (s.answered a 1 arg 1) =
      (((s.answered a 1 arg 1).setAx a ((s.ax a).startingOn p)).setAxState a .running).push
        (.enter a (pageNumber p) none false) := by
    rw [startEffect, hread, Context.fresh, generalPage?_pageNumber hp, State.setAxState, State.ax_setAx_same,
      State.setAx_setAx]
    rfl
  refine congrArg Host.Outcome.next ?_
  rw [haccepted, hstarted, State.settled_eq_finish]
  exact State.finish_enter (m := 16383) (s := (s.answered a 1 arg 1).setAx a ((s.ax a).startingOn p)) hdev hquiet

/-- A general page holds no command and no answer word. -/
theorem State.read_answered_page (s : State) (a : Axis) (code : BitVec 4) (arg : BitVec 12) (r : BitVec 4)
    (hp : isGeneralPage p = true) (off : BitVec 8) :
    (s.answered a code arg r).read (pageWord p off) = s.read (pageWord p off) := by
  have hthree : 3 ≤ p.toNat := of_decide_eq_true hp
  have hne {n : Nat} (hn : n < 32) : pageWord p off ≠ axisWord a n := addr_ne_of_toNat (by
    rw [pageWord_toNat, axisWord_toNat a hn]
    omega)
  exact State.read_answered a code arg r s (hne (n := 0) (by decide)) (hne (n := 16) (by decide))

/-- Settles O25. -/
theorem startEntersTheHeadPage : Obligations.StartEntersTheHeadPage := by
  intro a arg p s hquiet hdev hidle hp hhead
  refine ⟨_, exec_start_enters hquiet hdev hidle hp hhead arg, fun c hc => ?_⟩
  have hctx : (((s.answered a 1 arg 1).setAx a ((s.ax a).startingOn p)).ax a).ctx = some c := by
    rw [State.ax_setAx_same]
    exact hc
  refine State.enters_chain (beginPoint_serves a) (by decide) hdev hquiet hctx ⟨rfl, AxisState.noConfusion⟩
    (generalPage?_pageNumber hp) ?_
  exact (s.read_answered_page a 1 arg 1 hp 1).symm

/-! ### RESUME (R86, R87) -/

theorem resumeCheck_accepted (h : (s.ax a).state = .pausing ∨ (s.ax a).state = .paused) :
    resumeCheck a s = .accepted := if_pos h

theorem State.commandWrite_resume (hdev : s.dev = .running)
    (h : (s.ax a).state = .pausing ∨ (s.ax a).state = .paused) (arg : BitVec 12) :
    s.commandWrite a (commandWord 3 arg) (resumeCheck a) (resumeEffect a) =
      resumeEffect a (s.answered a 3 arg 1) := by
  have hoff : (s.ax a).state ≠ .off := by
    rcases h with h | h <;> rw [h] <;> exact AxisState.noConfusion
  exact State.commandWrite_accepted hdev (by decide) hoff (resumeCheck_accepted h)

/-- Settles O28. -/
theorem resumeLetsTheAxisGoOn : Obligations.ResumeLetsTheAxisGoOn := by
  refine ⟨fun a arg s hquiet hdev hstate => ?pausing, fun a arg s hquiet hdev hstate haccept => ?paused⟩
  case pausing =>
    exact axisBecomes_settled 3 1 { s.ax a with state := .running } hquiet
      ((State.commandWrite_resume hdev (.inl hstate) arg).trans (if_pos hstate))
  case paused =>
    have hpausing : ¬ (s.ax a).state = .pausing := by rw [hstate]; exact AxisState.noConfusion
    have heffect : resumeEffect a (s.answered a 3 arg 1) = (s.answered a 3 arg 1).push (.resume a) :=
      (if_neg hpausing).trans (if_neg (Bool.eq_false_iff.mp haccept))
    have hresume : (s.answered a 3 arg 1).runTask (.resume a) = (s.answered a 3 arg 1).resumeContext a := by
      unfold State.runTask
      exact if_pos hdev
    refine ⟨((s.answered a 3 arg 1).resumeContext a).finish 16383, congrArg Host.Outcome.next ?_,
      State.resumes_chain (beginPoint_serves a) (by decide) hdev hquiet⟩
    rw [State.commandWrite_resume hdev (.inr hstate) arg, heffect, State.settled_eq_finish, ← hresume]
    exact State.finish_push (m := 16383) (u := s.answered a 3 arg 1) hquiet (.resume a)

/-! ### The acceptance check and INTERJECT (R105, R106) -/

theorem PendingSet.get_of_top {q : PendingSet} {l : Level} {r : Request} (h : q.top = some (l, r)) :
    q.get l = some r ∧ ∀ m : Level, (q.get m).isSome = true → m ≤ l := by
  unfold PendingSet.top at h
  split at h
  case h_1 v h3 =>
    cases h
    exact ⟨h3, fun m _ => Fin.le_last m⟩
  case h_2 h3 =>
    split at h
    case h_1 v h2 =>
      cases h
      refine ⟨h2, fun m hm => ?_⟩
      match m with
      | 0 | 1 | 2 => decide
      | 3 => rw [PendingSet.get, h3] at hm; cases hm
    case h_2 h2 =>
      split at h
      case h_1 v h1 =>
        cases h
        refine ⟨h1, fun m hm => ?_⟩
        match m with
        | 0 | 1 => decide
        | 2 => rw [PendingSet.get, h2] at hm; cases hm
        | 3 => rw [PendingSet.get, h3] at hm; cases hm
      case h_2 => cases h

theorem PendingSet.get_of_top_none {q : PendingSet} (h : q.top = none) (m : Level) : q.get m = none := by
  unfold PendingSet.top at h
  split at h
  case h_1 => cases h
  case h_2 h3 =>
    split at h
    case h_1 => cases h
    case h_2 h2 =>
      split at h
      case h_1 => cases h
      case h_2 h1 =>
        match m with
        | 0 => rfl
        | 1 => exact h1
        | 2 => exact h2
        | 3 => exact h3

theorem AxisEngine.acceptable_iff (x : AxisEngine) :
    x.acceptable = true ↔
      ∃ l : Level,
        (x.requests.get l).isSome = true ∧ (∀ m : Level, (x.requests.get m).isSome = true → m ≤ l) ∧
        x.level < l ∧ x.stack.length ≤ 1 := by
  unfold AxisEngine.acceptable
  cases htop : x.requests.top with
  | none =>
    refine ⟨(by cases ·), fun ⟨l, hget, _⟩ => ?_⟩
    rw [PendingSet.get_of_top_none htop] at hget
    cases hget
  | some top =>
    obtain ⟨l, r⟩ := top
    obtain ⟨hget, hmax⟩ := PendingSet.get_of_top htop
    have hsome : (x.requests.get l).isSome = true := by rw [hget]; rfl
    refine ⟨fun h => ?_, fun ⟨k, hk, hkmax, hlevel, hstack⟩ => ?_⟩
    · obtain ⟨hlevel, hstack⟩ := Bool.and_eq_true_iff.mp h
      exact ⟨l, hsome, hmax, of_decide_eq_true hlevel, of_decide_eq_true hstack⟩
    · obtain rfl : k = l := Fin.le_antisymm (hmax k hk) (hkmax l hsome)
      exact Bool.and_eq_true_iff.mpr ⟨decide_eq_true hlevel, decide_eq_true hstack⟩

/-- INTERJECT on an axis that is checked at once, where the check takes a request. -/
theorem exec_interject_takes {arg : BitVec 12} (hdev : s.dev = .running) (h : s.interjectAccepted a arg)
    (hchecks : (s.ax a).state.checksAtOnce = true) :
    exec (.interject a arg) s =
      .next ((((s.answered a 6 arg 1).setAx a
        { (s.ax a).withRequest (argLevel arg) (s.read (axisWord a 2)) with dirty := true }).accept a).finish
          settleBound) := by
  rw [exec_interject_accepted hdev h, State.settled_eq_finish]
  have hplace : (s.answered a 6 arg 1).placeRequest a (argLevel arg)
        { head := s.read (axisWord a 2), source := .command } =
      ((s.answered a 6 arg 1).setAx a
        { (s.ax a).withRequest (argLevel arg) (s.read (axisWord a 2)) with dirty := true }).accept a :=
    if_pos hchecks
  rw [hplace]

/-- RESUME of a PAUSED axis whose check takes a request. -/
theorem exec_resume_takes (hdev : s.dev = .running) (hstate : (s.ax a).state = .paused)
    (haccept : (s.ax a).acceptable = true) (arg : BitVec 12) :
    exec (.resume a arg) s = .next (((s.answered a 3 arg 1).accept a).finish settleBound) := by
  have hpausing : ¬ (s.ax a).state = .pausing := by rw [hstate]; exact AxisState.noConfusion
  have heffect : resumeEffect a (s.answered a 3 arg 1) = (s.answered a 3 arg 1).accept a :=
    (if_neg hpausing).trans (if_pos haccept)
  refine congrArg Host.Outcome.next ?_
  rw [State.commandWrite_resume hdev (.inr hstate) arg, heffect, State.settled_eq_finish]

/-- Settles O33. -/
theorem requestsAreTaken : Obligations.RequestsAreTaken := by
  refine ⟨AxisEngine.acceptable_iff, fun a arg l r p s hquiet hdev hp => ⟨fun haccepted hstate haccept htop => ?_,
    fun hstate haccept htop => ?_⟩⟩
  · have hchecks : (s.ax a).state.checksAtOnce = true := by
      rcases hstate with h | h | h | h | h <;> rw [h] <;> rfl
    exact ⟨_, exec_interject_takes hdev haccepted hchecks,
      State.takesRequest_chain (s := s.answered a 6 arg 1)
        (x := { (s.ax a).withRequest (argLevel arg) (s.read (axisWord a 2)) with dirty := true })
        (beginPoint_serves a) (by decide) hdev hquiet haccept htop hp⟩
  · have htakes := State.takesRequest_chain (s := s.answered a 3 arg 1) (m := settleBound) (beginPoint_serves a)
      (by decide) hdev hquiet haccept htop hp
    have hsame : (s.answered a 3 arg 1).setAx a (s.ax a) = s.answered a 3 arg 1 := State.setAx_ax ..
    rw [hsame] at htakes
    exact ⟨_, exec_resume_takes hdev hstate haccept arg, htakes⟩

/-! ### The end of a DWELL and of a WAIT_INPUT (R74, R144) -/

/-- An axis in a state in which its chain goes on, at a completion: the rewrite flag is set in any case. -/
theorem State.advance_setAxState (c : Context) (boundary : Bool) (h : (u.ax a).state = st) :
    (u.setAxState a st).advance a c boundary = u.advance a c boundary := by
  simp only [State.advance, State.setAxState, State.ax_setAx_same, State.setAx_setAx]
  rw [← h]

theorem State.completes_here {next : State → State → Prop} {M m : Nat} (hnext : Serves a next M) (hm : M + 2 ≤ m)
    (hdev : u.dev = .running) (hagenda : u.agenda = []) (hst : (u.ax a).state.goesOn) (c : Context) :
    Completes a next c u ((u.advance a c false).finish m) := by
  rw [← State.advance_setAxState c false (rfl : (u.ax a).state = _)]
  exact State.completes_chain hnext hm hdev hagenda hst c

theorem State.recorded_state (s : State) (a : Axis) (c : Context) (kind : SegKind) (report : Bool) (tag : Word)
    (generation : Option Word) : ((s.recorded a c kind report tag generation).ax a).state = (s.ax a).state := by
  obtain ⟨e, he⟩ := s.recorded_ax a a c kind report tag generation
  rw [he]

theorem dwellDue_of_phase {report : Bool} {tag : Word} (hdev : s.dev = .running)
    (hstate : (s.ax a).state = .dwelling) (hc : (s.ax a).ctx = some c)
    (hphase : c.phase = .inSegment (.dwell 0 report tag)) : s.dwellDue a = true := by
  simp [State.dwellDue, hdev, hstate, hc, hphase]

theorem exec_dwellExpiry_due {report : Bool} {tag : Word} (hdev : s.dev = .running)
    (hstate : (s.ax a).state = .dwelling) (hc : (s.ax a).ctx = some c)
    (hphase : c.phase = .inSegment (.dwell 0 report tag)) :
    exec (.dwellExpiry a) s =
      .next (((s.recorded a c .dwell report tag none).advance a c false).finish settleBound) := by
  have hexpiry : s.dwellExpiry a = (s.recorded a c .dwell report tag none).advance a c false := by
    simp only [State.dwellExpiry, hc, hphase]
    rfl
  rw [← hexpiry]
  exact if_pos (dwellDue_of_phase hdev hstate hc hphase)

theorem exec_waitInputTimeout_due {n : Line} {level th report : Bool} {tag : Word} (hdev : s.dev = .running)
    (hstate : (s.ax a).state = .waitInput) (hc : (s.ax a).ctx = some c)
    (hphase : c.phase = .inSegment (.waitInput n level (some 0) th report tag)) :
    exec (.waitInputTimeout a) s = .next ((s.waitExpires a c n th tag).finish settleBound) := by
  have hdue : s.waitTimeoutDue a = true := by simp [State.waitTimeoutDue, hdev, hstate, hc, hphase]
  have hexpires : s.waitTimeout a = s.waitExpires a c n th tag := by simp only [State.waitTimeout, hc, hphase]
  rw [← hexpires]
  exact if_pos hdue

/-- Settles O44. -/
theorem dwellAndWaitRunOut : Obligations.DwellAndWaitRunOut := by
  refine ⟨fun a s c rep tag hquiet hdev hstate hc hphase => ?_,
    fun a s c n level th rep tag hquiet hdev hstate hc hphase => ?_⟩
  · refine ⟨_, exec_dwellExpiry_due hdev hstate hc hphase, ?_⟩
    refine State.completes_here (beginPoint_serves a) (by decide) (s.recorded_dev.trans hdev)
      (s.recorded_agenda.trans hquiet) ?_ c
    rw [State.recorded_state, hstate]
    exact ⟨rfl, AxisState.noConfusion⟩
  · refine ⟨_, exec_waitInputTimeout_due hdev hstate hc hphase, fun hth hmeeting => ?_, fun hth => ?_⟩
    · rw [State.waitExpires, if_pos hth]
      exact (State.halt_of_noMeeting _ _ (by rw [hstate]; rfl) hmeeting).finish hquiet
    · rw [State.waitExpires, if_neg (Bool.eq_false_iff.mp hth)]
      refine State.completes_here (beginPoint_serves a) (by decide) ((State.handRecord_dev ..).trans hdev)
        ((State.handRecord_agenda ..).trans hquiet) ?_ c
      obtain ⟨e, he⟩ := s.handRecord_ax (.timeout a c.level n tag c.pageOr0 c.index) a
      rw [he]
      exact hstate ▸ ⟨rfl, AxisState.noConfusion⟩

/-! ### END on an interjection context (R111) -/

theorem SegRecord.validKind_end {r : SegRecord} (h : r.kind = some .end_) : s.validKind a r = some .end_ := by
  rw [State.validKind, h]

/-- Settles O45. -/
theorem endRestoresTheSavedContext : Obligations.EndRestoresTheSavedContext := by
  intro a s c top rest r rep tag hquiet hdev hstate hc hphase hmore hr hkind hstack howes
  have hst : ((s.recorded a c .dwell rep tag none).ax a).state = .dwelling :=
    (State.recorded_state ..).trans hstate
  have hgoes : AxisState.dwelling.goesOn := ⟨rfl, AxisState.noConfusion⟩
  refine ⟨_, exec_dwellExpiry_due hdev hstate hc hphase, ?_⟩
  generalize hu : s.recorded a c .dwell rep tag none = u at hst howes ⊢
  have hdev' : (u.withCtx a c.advanced).dev = .running := hu ▸ s.recorded_dev.trans hdev
  have hagenda : (u.withCtx a c.advanced).agenda = [] := hu ▸ s.recorded_agenda.trans hquiet
  have hstack' : ((u.withCtx a c.advanced).ax a).stack = top :: rest := by
    obtain ⟨e, he⟩ := s.recorded_ax a a c .dwell rep tag none
    rw [State.withCtx_ax, ← hu, he]
    exact hstack
  rw [← State.advance_setAxState c false hst, State.advance_chain, if_pos hmore]
  rw [show settleBound = 16383 + 1 from rfl, State.finish_begin hdev' hagenda]
  rw [State.begin_valid (s := u.withCtx a c.advanced) (c := c.advanced) (by rw [State.withCtx_ax]) rfl hr hgoes
    howes (SegRecord.validKind_end hkind), State.startSegment_end]
  exact State.pops_chain (beginPoint_serves a) (by decide) hdev' hagenda c.advanced r hstack'

end Sys2Proof.Machine
end

