-- ==== Sys2Proof/Proofs/Segments.lean ====
section
/-!
PROOF. The words of a segment record, its validity check (R6, R43), and the first segment of a chain that
START has set in motion.
-/
namespace Sys2Proof.Machine

variable {s t u : State} {a : Axis} {c : Context} {p : Page} {r : SegRecord} {k : SegKind}

/-! ### The fields of a record (R6) -/

/-- A 24-bit field: a word, and the low byte of the next. -/
theorem longField_toNat (low high : Word) :
    (high.extractLsb' 0 8 ++ low).toNat = low.toNat + 65536 * (high.toNat % 256) := by
  rw [toNat_append_eq, BitVec.extractLsb'_toNat]
  show high.toNat % 256 * 65536 + low.toNat = _
  omega

/-- A 32-bit field of two words. -/
theorem doubleField_toNat (low high : Word) : (high ++ low).toNat = low.toNat + 65536 * high.toNat := by
  rw [toNat_append_eq]
  omega

theorem SegRecord.joinPoint_eq_some_iff {j : Point} : r.joinPoint = some j ↔ r.w1.toNat = j.val := by
  unfold SegRecord.joinPoint
  split
  · exact ⟨fun h => congrArg Fin.val (Option.some.inj h), fun h => congrArg some (Fin.ext h)⟩
  · rename_i hlarge
    exact ⟨fun h => (by cases h), fun h => absurd (h ▸ j.isLt) hlarge⟩

theorem SegRecord.line_val (r : SegRecord) : r.line.val = r.w1.toNat % 16 := by
  show (r.w1.extractLsb' 0 4).toNat % 16 = _
  rw [BitVec.extractLsb'_toNat]
  show r.w1.toNat % 16 % 16 = _
  omega

theorem SegRecord.timeoutField (r : SegRecord) :
    (r.w3 ++ r.w2).toNat = r.w2.toNat + 65536 * r.w3.toNat := doubleField_toNat r.w2 r.w3

theorem SegRecord.timeout_none (h2 : r.w2 = 0) (h3 : r.w3 = 0) : r.timeout = none := by
  rw [SegRecord.timeout, r.timeoutField, h2, h3]
  rfl

theorem SegRecord.timeout_some (h : r.w2 ≠ 0 ∨ r.w3 ≠ 0) :
    r.timeout = some (r.w2.toNat + 65536 * r.w3.toNat) := by
  have hpos : ¬ r.w2.toNat + 65536 * r.w3.toNat = 0 := by
    rintro hzero
    rcases h with h | h <;> exact h (BitVec.eq_of_toNat_eq (show _ = 0 by omega))
  rw [SegRecord.timeout, r.timeoutField, if_neg hpos]

theorem SegRecord.fields (r : SegRecord) : SegmentFields r :=
  ⟨rfl, rfl, rfl, rfl, rfl, longField_toNat .., longField_toNat .., rfl, rfl, doubleField_toNat ..,
    fun _ => SegRecord.joinPoint_eq_some_iff, r.line_val, rfl, fun h => SegRecord.timeout_none h.1 h.2,
    SegRecord.timeout_some, rfl⟩

/-! ### The validity check (R43) -/

theorem SegRecord.kindCode_toNat (r : SegRecord) : r.kindCode.toNat = r.w0.toNat % 16 := by
  rw [SegRecord.kindCode, BitVec.extractLsb'_toNat]
  rfl

theorem SegRecord.kind_eq_some_iff : r.kind = some k ↔ r.w0.toNat % 16 = k.code.toNat := by
  rw [← r.kindCode_toNat, SegRecord.kind]
  split <;> cases k <;> simp_all [SegKind.code]

/-- A record passes the check if it has a kind, and, for a RUN and a JOIN, if its operands are in range. -/
theorem State.validKind_eq_some_iff :
    s.validKind a r = some k ↔
      r.kind = some k ∧
        (k = .run → 1 ≤ r.stepCount ∧ 32 ≤ r.interval ∧ 1 ≤ r.width ∧ r.width < r.interval / 16) ∧
        (k = .join → ∃ j, r.joinPoint = some j ∧ inMask (s.members j) a = true) := by
  unfold State.validKind
  cases hkind : r.kind with
  | none => simp
  | some k' =>
    cases k' with
    | run => split <;> cases k <;> simp_all
    | join =>
      cases hj : r.joinPoint with
      | none => cases k <;> simp
      | some j =>
        cases hin : inMask (s.members j) a <;> cases k <;> simp [hin]
    | dwell => cases k <;> simp
    | waitInput => cases k <;> simp
    | note => cases k <;> simp
    | end_ => cases k <;> simp

/-- The kinds whose operands are not checked. -/
theorem State.validKind_eq_some_iff_of_ne (hrun : k ≠ .run) (hjoin : k ≠ .join) :
    s.validKind a r = some k ↔ r.w0.toNat % 16 = k.code.toNat := by
  rw [State.validKind_eq_some_iff, SegRecord.kind_eq_some_iff]
  exact and_iff_left ⟨fun h => absurd h hrun, fun h => absurd h hjoin⟩

theorem State.validByWords (s : State) (a : Axis) (r : SegRecord) : ValidByWords s a r := by
  refine ⟨?run, State.validKind_eq_some_iff_of_ne SegKind.noConfusion SegKind.noConfusion, ?join,
    State.validKind_eq_some_iff_of_ne SegKind.noConfusion SegKind.noConfusion,
    State.validKind_eq_some_iff_of_ne SegKind.noConfusion SegKind.noConfusion,
    State.validKind_eq_some_iff_of_ne SegKind.noConfusion SegKind.noConfusion⟩
  case run =>
    have hcount : r.stepCount = r.w1.toNat + 65536 * (r.w2.toNat % 256) := longField_toNat ..
    have hinterval : r.interval = r.w3.toNat + 65536 * (r.w4.toNat % 256) := longField_toNat ..
    rw [State.validKind_eq_some_iff, SegRecord.kind_eq_some_iff, hcount, hinterval]
    exact ⟨fun ⟨hkind, hrange, _⟩ => ⟨hkind, hrange rfl⟩,
      fun ⟨hkind, hrange⟩ => ⟨hkind, fun _ => hrange, fun h => (by cases h)⟩⟩
  case join =>
    rw [State.validKind_eq_some_iff, SegRecord.kind_eq_some_iff]
    simp only [SegRecord.joinPoint_eq_some_iff]
    exact ⟨fun ⟨hkind, _, hmember⟩ => ⟨hkind, hmember trivial⟩,
      fun ⟨hkind, hmember⟩ => ⟨hkind, fun h => (by cases h), fun _ => hmember⟩⟩

/-! ### The words of a record (R40) -/

theorem recordOffset_toNat {i : Nat} (hi : i < 31) {off : BitVec 8} (hoff : off.toNat < 8) :
    (recordOffset i + off).toNat = 8 + 8 * i + off.toNat := by
  rw [recordOffset, BitVec.toNat_add, BitVec.toNat_ofNat]
  omega

theorem State.readRecord_eq_recordWords (s : State) (p : Page) {i : Nat} (hi : i < 31) :
    s.readRecord p i = s.recordWords p i := by
  have hword (n : Nat) (hn : n < 8) :
      s.read (pageWord p (recordOffset i + BitVec.ofNat 8 n)) =
        s.read (pageWord p (BitVec.ofNat 8 (8 + n + 8 * i))) := by
    refine congrArg (fun off => s.read (pageWord p off)) (BitVec.eq_of_toNat_eq ?_)
    have hsmall : (BitVec.ofNat 8 n).toNat = n := by
      rw [BitVec.toNat_ofNat]
      omega
    rw [recordOffset_toNat hi (by omega), hsmall, BitVec.toNat_ofNat]
    omega
  exact (SegRecord.mk.injEq ..).mpr ⟨hword 0 (by decide), hword 1 (by decide), hword 2 (by decide), hword 3 (by decide),
    hword 4 (by decide), hword 5 (by decide), hword 6 (by decide), hword 7 (by decide)⟩

theorem State.readRecord_congr {i : Nat} (hi : i < 31)
    (h : ∀ off : BitVec 8, 8 ≤ off.toNat → t.read (pageWord p off) = s.read (pageWord p off)) :
    t.readRecord p i = s.readRecord p i := by
  have hword (off : BitVec 8) (hoff : off.toNat < 8) :
      t.read (pageWord p (recordOffset i + off)) = s.read (pageWord p (recordOffset i + off)) :=
    h _ (by rw [recordOffset_toNat hi hoff]; omega)
  exact (SegRecord.mk.injEq ..).mpr ⟨hword 0 (by decide), hword 1 (by decide), hword 2 (by decide), hword 3 (by decide),
    hword 4 (by decide), hword 5 (by decide), hword 6 (by decide), hword 7 (by decide)⟩

/-! ### The first segment of a chain -/

/-- The claim on the head page leaves its segment records. -/
theorem State.claimed_reads (s : State) (a : Axis) (arg : BitVec 12) (hp : isGeneralPage p = true)
    {i : Nat} (hi : i < 31) :
    ((((s.answered a 1 arg 1).setAx a x).withClaim a c p).withCtx a d).readRecord p i = s.readRecord p i := by
  refine State.readRecord_congr hi fun off hoff => ?_
  refine Eq.trans ?_ (s.read_answered_page a 1 arg 1 hp off)
  refine Memory.read_write_of_toNat (s.answered a 1 arg 1).ram ?_ 2
  have hone : (1 : BitVec 8).toNat = 1 := rfl
  rw [pageWord_toNat, pageWord_toNat, hone]
  omega

/-- A halt does not go by the part of the running context that the HALT record does not name. -/
theorem Halts.of_congr {cause : HaltCause} {detail : BitVec 8} (h : Halts a cause detail (s.setAx a x) t)
    (hmeeting : NoMeeting s a) (hx : x.state.active = true) (hy : y.state.active = true)
    (hhalted : x.halted cause detail = y.halted cause detail)
    (hrecord : RecordBody.halt a x.level cause detail x.haltPage x.index x.position =
      .halt a y.level cause detail y.haltPage y.index y.position) :
    Halts a cause detail (s.setAx a y) t := by
  have hthere : Halts a cause detail (s.setAx a x) ((s.setAx a x).halt a cause detail) :=
    State.halt_of_noMeeting _ _ (by rw [State.ax_setAx_same]; exact hx) hmeeting
  have hhere : Halts a cause detail (s.setAx a y) ((s.setAx a y).halt a cause detail) :=
    State.halt_of_noMeeting _ _ (by rw [State.ax_setAx_same]; exact hy) hmeeting
  have ht : t = (s.setAx a x).halt a cause detail := Eq.trans h (Eq.symm hthere)
  rw [ht, State.halt_setAx_congr cause detail hx hy hhalted hrecord]
  exact hhere

theorem AxisBecomes.of_withCtx {e : AxisEngine} (h : AxisBecomes a e (u.withCtx a d) t) : AxisBecomes a e u t :=
  h.trans (State.setAx_setAx ..)

/-- The end of a base chain goes by the page, index and level of its context. -/
theorem EndsBase.of_withCtx {o : Option SegRecord} (h : EndsBase a { c with following := o } r (u.withCtx a d) t) :
    EndsBase a c r u t := by
  have hrecorded : (u.withCtx a d).recorded a { c with following := o } .end_ r.report r.tag none =
      (u.recorded a c .end_ r.report r.tag none).setAx a
        { u.ax a with ctx := some d, gate := .idle, dirty := true } := by
    rw [State.recorded, State.recorded, State.withCtx_ax]
    split
    · exact State.handRecord_setAx rfl _ u
    · rfl
  have hax := u.withCtx_ax a d
  unfold EndsBase AxisBecomes at h ⊢
  rw [hrecorded, hax] at h
  exact h.trans (State.setAx_setAx (s := (u.recorded a c .end_ r.report r.tag none).releasePage c.pageOr0 _ _) ..)

/-- The begin point that a START with a granted entry leads to. -/
theorem State.start_atBegin {arg : BitVec 12} {next : State → State → Prop} (hp : isGeneralPage p = true)
    (hgranted : EntryGranted s p (s.read (pageWord p 1)))
    (h : Enters a next c p (s.read (pageWord p 1)) ((s.answered a 1 arg 1).setAx a x) t) :
    next ((((s.answered a 1 arg 1).setAx a x).withClaim a c p).withCtx a
      { c.onPage s p with following := some (s.readRecord p 0) }) t := by
  generalize hS : (s.answered a 1 arg 1).setAx a x = S at h
  have hread (off : BitVec 8) : S.read (pageWord p off) = s.read (pageWord p off) :=
    hS ▸ s.read_answered_page a 1 arg 1 hp off
  have hgrantedS : EntryGranted S p (s.read (pageWord p 1)) := by
    obtain ⟨hclaimed, hkind, hstate, hcount⟩ := hgranted
    refine ⟨hS ▸ hclaimed, (hread 0).trans hkind, hstate, ?_⟩
    rwa [hread]
  have hon : c.onPage S p = c.onPage s p := by rw [Context.onPage, Context.onPage, hread]
  have hrecord : S.readRecord p 0 = s.readRecord p 0 := State.readRecord_congr (by decide) fun off _ => hread off
  have hbegin := h.1 hgrantedS
  rwa [hon, hrecord] at hbegin

theorem Context.readsNext_congr (h : s.readRecord c.pageOr0 (c.index + 1) = t.readRecord c.pageOr0 (c.index + 1)) :
    c.readsNext s = c.readsNext t := by
  rw [Context.readsNext, Context.readsNext, h]

/-- Settles O26. -/
theorem startMeetsTheFirstSegment : Obligations.StartMeetsTheFirstSegment := by
  refine ⟨fun a s r => ⟨r.fields, s.validByWords a r⟩, fun s p i hi => s.readRecord_eq_recordWords p hi,
    fun a arg p s hquiet hdev hidle hp hhead hgranted => ?_⟩
  obtain ⟨t, hexec, hchain⟩ := startEntersTheHeadPage a arg p s hquiet hdev hidle hp hhead
  refine ⟨t, hexec, fun c hc u hu => ?_⟩
  have hbegin := State.start_atBegin hp hgranted (hchain c hc)
  have hnext : (c.onPage s p).readsNext (u.withCtx a { c.onPage s p with following := some (s.readRecord p 0) }) =
      (c.onPage s p).readsNext s := by
    have hrecord := s.claimed_reads (x := (s.ax a).startingOn p) (c := c) (i := 1) a arg hp
      (d := { c.onPage s p with following := some (s.readRecord p 0) }) (by decide)
    rw [← hu] at hrecord
    exact Context.readsNext_congr hrecord
  have hax : u.ax a = (s.ax a).startingOn p := by
    rw [hu]
    exact State.ax_setAx_same ..
  have hmeeting (h : NoMeeting s a) : NoMeeting u a := by
    rw [hu]
    exact h
  have hpoint (j : Point) : u.point j = s.point j := by
    rw [hu]
    rfl
  have howes : u.owes a = s.owes a := by
    rw [hu]
    rfl
  have hvalid (r : SegRecord) : u.validKind a r = s.validKind a r := by
    rw [hu]
    rfl
  have hstate : ((s.ax a).startingOn p).state ≠ .pausing := AxisState.noConfusion
  rw [← hu] at hbegin
  have hctx := u.withCtx_ax a { c.onPage s p with following := some (s.readRecord p 0) }
  rw [hax] at hctx
  obtain ⟨hwaits, hbegins⟩ := hbegin (by rw [hctx]; exact hstate) _ (by rw [hctx]; rfl) rfl _ rfl
  refine ⟨fun howed => ?owes, fun hnone hkind hmeets => ?invalid, fun hnone hkind hstack => ?ends,
    fun hnone hkind j hj hopen harrived hmissing => ?join⟩
  case owes =>
    have h := (hwaits (howes.trans howed)).of_withCtx
    rwa [hctx] at h
  case invalid =>
    obtain ⟨hinvalid, -⟩ := hbegins (howes.trans hnone)
    have h := hinvalid ((hvalid _).trans hkind) (hmeeting hmeets)
    refine Halts.of_congr h (hmeeting hmeets) ?_ rfl ?_ ?_ <;> rw [hax] <;> rfl
  case ends =>
    obtain ⟨-, -, -, -, -, -, -, hend⟩ := hbegins (howes.trans hnone)
    have h := hend ((hvalid _).trans (SegRecord.validKind_end hkind))
    have hbase : ((u.withCtx a { c.onPage s p with following := some (s.readRecord p 0) }).ax a).stack = [] := by
      rw [hctx]
      exact hstack
    rw [hbase] at h
    exact h.of_withCtx
  case join =>
    obtain ⟨-, -, -, -, -, -, hjoin, -⟩ := hbegins (howes.trans hnone)
    obtain ⟨-, -, hcounted, -⟩ := hjoin ((hvalid _).trans hkind) j hj _ rfl
    have hnext' : ({ c.onPage s p with following := some (s.readRecord p 0) } : Context).readsNext
        (u.withCtx a { c.onPage s p with following := some (s.readRecord p 0) }) = (c.onPage s p).readsNext s := hnext
    have hmembers : u.members j = s.members j ∧ u.setup.points[j].timeout = s.setup.points[j].timeout ∧
        u.timebase = s.timebase := by
      rw [hu]
      exact ⟨rfl, rfl, rfl⟩
    obtain ⟨hmembers, htimeout, htime⟩ := hmembers
    rw [hnext', hctx] at hcounted
    have h := hcounted ((congrArg JoinPoint.state (hpoint j)).trans hopen)
      ((congrArg (fun q : JoinPoint => inMask q.arrivals a) (hpoint j)).trans harrived)
      (fun hall => hmissing (by rw [← hmembers, ← hpoint j]; exact hall))
    rw [← hpoint j, ← htimeout, ← htime]
    exact h.trans (State.setAx_setAx (s := (u.setPoint j _).write _ _) ..)

end Sys2Proof.Machine
end

