-- ==== Sys2Proof/Proofs/Boundaries.lean ====
section
/-!
PROOF. The step boundaries (R49, R65, R69, R70, R83, R108): with steps left, and after the last step, where
the boundary takes hold of the axis at the next begin point or where the chain starves on the way there.
-/
namespace Sys2Proof.Machine

variable {s t u : State} {a : Axis} {c : Context} {p q : Page} {x y : AxisEngine} {boundary : Bool} {m : Nat}

/-! ### When a boundary is due (R67, R70) -/

theorem State.stepBoundaryDue_iff :
    s.stepBoundaryDue a = true ↔
      s.dev = .running ∧ ((s.ax a).state = .running ∨ (s.ax a).state = .pausing) ∧
        ∃ ends, (s.ax a).gate = .inFlight ends ∧ ends ≤ s.now := by
  rw [State.stepBoundaryDue, Bool.and_eq_true, State.stepping_iff, and_assoc]
  cases (s.ax a).gate <;> simp

theorem State.leadGapDue_iff :
    s.leadGapDue a = true ↔
      s.dev = .running ∧ ((s.ax a).state = .running ∨ (s.ax a).state = .pausing) ∧
        ∃ ends, (s.ax a).gate = .leadGap ends ∧ ends ≤ s.now := by
  rw [State.leadGapDue, Bool.and_eq_true, State.stepping_iff, and_assoc]
  cases (s.ax a).gate <;> simp

theorem AxisEngine.pastLimit_iff (x : AxisEngine) (l : AxisLimits) (forward : Bool) :
    x.pastLimit l forward = true ↔
      l.enabled = true ∧ (x.nextPosition forward < l.min.toInt ∨ l.max.toInt < x.nextPosition forward) := by
  simp only [AxisEngine.pastLimit, Bool.and_eq_true, Bool.or_eq_true, decide_eq_true_eq]

theorem State.runTask_begin (hdev : s.dev = .running) : s.runTask (.begin a boundary) = s.begin a boundary := by
  unfold State.runTask
  exact if_pos hdev

theorem State.runTask_leave (hdev : s.dev = .running) : s.runTask (.leave a boundary) = s.leave a boundary := by
  unfold State.runTask
  exact if_pos hdev

theorem State.runTask_enter {value : Word} {hdr : Option Word} (hdev : s.dev = .running) :
    s.runTask (.enter a value hdr boundary) = s.enter a value hdr boundary := by
  unfold State.runTask
  exact if_pos hdev

/-! ### The boundary takes hold of the axis (R70 steps 2 and 3) -/

/-- What an axis engine at a boundary that takes hold of it tells the chain: a PAUSING axis pauses at the
next begin point in any case, a RUNNING axis is checked there. -/
def AxisEngine.HeldBy (x : AxisEngine) (boundary : Bool) : Prop :=
  x.state = .pausing ∧ boundary = false ∨ x.state = .running ∧ boundary = true ∧ x.acceptable = true

theorem AxisEngine.HeldBy.congr (h : x.HeldBy boundary) (hstate : y.state = x.state)
    (haccept : y.acceptable = x.acceptable) : y.HeldBy boundary := by
  rw [AxisEngine.HeldBy, hstate, haccept]
  exact h

theorem AxisEngine.acceptable_congr (hrequests : y.requests = x.requests) (hlevel : y.level = x.level)
    (hstack : y.stack = x.stack) : y.acceptable = x.acceptable := by
  rw [AxisEngine.acceptable, AxisEngine.acceptable, hrequests, hlevel, hstack]

/-- The taking of a request overwrites the state, the gate and the rewrite flag. -/
theorem State.takes_of_accept {l : Level} {r : Request} {st : AxisState} {g : Gate} {d : Bool}
    (hdev : s.dev = .running) (hagenda : s.agenda = []) (hc : x.ctx = some c) (haccept : x.acceptable = true)
    (hm : 125 ≤ m) (htop : x.requests.top = some (l, r)) (hp : generalPage? r.head = some p) :
    TakesRequest a (BeginPoint a) x l r p s
      (((s.setAx a { x with state := st, gate := g, dirty := d }).accept a).finish m) := by
  have hlevel : ({ x with state := st, gate := g, dirty := d } : AxisEngine).level = x.level :=
    (AxisEngine.level_of_ctx (x := { x with state := st, gate := g, dirty := d }) hc).trans
      (AxisEngine.level_of_ctx hc).symm
  have haccept' := (AxisEngine.acceptable_congr (x := x) (y := { x with state := st, gate := g, dirty := d }) rfl
    hlevel rfl).trans haccept
  exact State.takesRequest_chain (x := { x with state := st, gate := g, dirty := d }) (beginPoint_serves a) hm hdev
    hagenda haccept' htop hp

theorem State.begin_pauses (hc : (s.ax a).ctx = some c) (hphase : c.phase = .atBegin)
    (hfollowing : c.following ≠ none) (hstate : (s.ax a).state = .pausing) :
    s.begin a boundary = s.setAxState a .paused := by
  obtain ⟨r, hr⟩ := Option.ne_none_iff_exists'.mp hfollowing
  simp only [State.begin, hc, hphase, hr, if_pos hstate]

theorem State.begin_accepts (hc : (s.ax a).ctx = some c) (hphase : c.phase = .atBegin)
    (hfollowing : c.following ≠ none) (hstate : (s.ax a).state ≠ .pausing) :
    s.begin a true = s.accept a := by
  obtain ⟨r, hr⟩ := Option.ne_none_iff_exists'.mp hfollowing
  simp only [State.begin, hc, hphase, hr, if_neg hstate, if_true]

/-- At a begin point. -/
theorem State.begin_takenHold (hx : x.HeldBy boundary) (hc : x.ctx = some c) (hphase : c.phase = .atBegin)
    (hfollowing : c.following ≠ none) (hm : 125 ≤ m) (hdev : s.dev = .running) (hagenda : s.agenda = []) :
    TakenHold a x s (((s.setAx a { x with dirty := true }).begin a boundary).finish m) := by
  have hax : (s.setAx a { x with dirty := true }).ax a = { x with dirty := true } := State.ax_setAx_same ..
  rcases hx with ⟨hstate, rfl⟩ | ⟨hstate, rfl, haccept⟩
  · refine ⟨fun _ => ?_, fun hne => absurd hstate hne⟩
    rw [State.begin_pauses (c := c) (by rw [hax]; exact hc) hphase hfollowing (by rw [hax]; exact hstate)]
    refine AxisBecomes.finish ?_ hagenda
    rw [State.setAxState, hax, State.setAx_setAx]
  · have hne : x.state ≠ .pausing := by rw [hstate]; exact AxisState.noConfusion
    refine ⟨fun h => absurd h hne, fun _ l q p htop hp => ?_⟩
    rw [State.begin_accepts (c := c) (by rw [hax]; exact hc) hphase hfollowing (by rw [hax]; exact hne)]
    exact State.takes_of_accept (st := x.state) (g := x.gate) (d := true) hdev hagenda hc haccept hm htop hp

/-- Where the chain starves. -/
theorem State.starve_isHeld {w : Wait} (hx : (s.ax a).HeldBy boundary) (hc : (s.ax a).ctx = some d)
    (hlevel : d.level = c.level) (hm : 125 ≤ m) (hdev : s.dev = .running) (hagenda : s.agenda = []) :
    StarvesAndIsHeld a c w s ((s.starve a c w boundary).finish m) := by
  have hrecord (y : AxisEngine) (hy : y.dirty = true) :
      ((s.setAx a y).handRecord (.starve a c.level w.page (s.ax a).position)).setCause .axisStarved =
        ((s.handRecord (.starve a c.level w.page (s.ax a).position)).setCause .axisStarved).setAx a y := by
    rw [State.handRecord_setAx hy]
    rfl
  rcases hx with ⟨hstate, rfl⟩ | ⟨hstate, rfl, haccept⟩
  · refine ⟨fun _ => ?_, fun hne => absurd hstate hne⟩
    simp only [State.starve, if_pos hstate, Bool.false_eq_true, if_false]
    exact AxisBecomes.finish (hrecord _ rfl) ((State.handRecord_agenda ..).trans hagenda)
  · have hne : ¬ (s.ax a).state = .pausing := by rw [hstate]; exact AxisState.noConfusion
    refine ⟨fun h => absurd h hne, fun _ l q p htop hp => ?_⟩
    simp only [State.starve, if_neg hne, if_true]
    rw [hrecord _ rfl]
    have haccept' : ({ s.ax a with ctx := some (c.starve w), gate := .idle } : AxisEngine).acceptable = true := by
      refine (AxisEngine.acceptable_congr (x := s.ax a)
        (y := { s.ax a with ctx := some (c.starve w), gate := .idle }) rfl ?_ rfl).trans haccept
      rw [AxisEngine.level_of_ctx hc, hlevel]
      exact c.starve_level w
    exact State.takes_of_accept (x := { s.ax a with ctx := some (c.starve w), gate := .idle })
      ((State.handRecord_dev ..).trans hdev) ((State.handRecord_agenda ..).trans hagenda) rfl haccept' hm htop hp

/-- Where a link that is not 0 leads. -/
theorem State.enter_isHeld {value : Word} (hx : (s.ax a).HeldBy boundary) (hc : (s.ax a).ctx = some c) (hm : 126 ≤ m)
    (hdev : s.dev = .running) (hagenda : s.agenda = []) :
    FollowsAndIsHeld a c value s ((s.enter a value none boundary).finish m) := by
  have hactive : (s.ax a).state.active = true := by
    rcases hx with ⟨h, -⟩ | ⟨h, -⟩ <;> rw [h] <;> rfl
  refine ⟨fun hno hmeeting => ?_, fun p hp => ⟨fun hgranted => ?_, fun hwaits => ?_, fun hbad hmeeting => ?_⟩⟩
  · simp only [State.enter, hc, (generalPage?_eq_none_iff value).mpr hno]
    exact (State.halt_of_noMeeting _ _ hactive hmeeting).finish hagenda
  · have hp' : generalPage? value = some p := hp
    obtain ⟨m, rfl⟩ : ∃ k, m = k + 1 := ⟨m - 1, by omega⟩
    simp only [State.enter, hc, hp', State.testEntry_granted (hdr := none) hgranted]
    have hgrant : s.grantClaim a c p (s.read (pageWord p 3)).toNat boundary =
        ((s.withClaim a c p).setAx a
          { s.ax a with
            ctx := some { c.onPage s p with following := some (s.readRecord p 0) }, gate := .idle, dirty := true }).push
          (.begin a boundary) := by
      rw [← s.readRecord_withClaim a c p]
      rfl
    rw [hgrant, State.finish_push (by exact hagenda), State.runTask_begin (by exact hdev)]
    refine State.begin_takenHold (s := s.withClaim a c p)
      (x := { s.ax a with
        ctx := some { c.onPage s p with following := some (s.readRecord p 0) }, gate := .idle })
      (hx.congr rfl ?_) rfl rfl (Option.some_ne_none _) (by omega) hdev hagenda
    exact AxisEngine.acceptable_congr rfl (AxisEngine.level_of_ctx hc).symm rfl
  · have hp' : generalPage? value = some p := hp
    simp only [State.enter, hc, hp', State.testEntry_wait (hdr := none) hwaits]
    exact State.starve_isHeld hx hc rfl (by omega) hdev hagenda
  · have hp' : generalPage? value = some p := hp
    simp only [State.enter, hc, hp', State.testEntry_bad (hdr := none) hbad, linkDetail_of_page hp']
    exact (State.halt_of_noMeeting _ _ hactive hmeeting).finish hagenda

/-- At the end of a page. -/
theorem State.leave_isHeld (hx : (s.ax a).HeldBy boundary) (hc : (s.ax a).ctx = some c) (hq : c.page = some q)
    (hm : 127 ≤ m) (hdev : s.dev = .running) (hagenda : s.agenda = []) :
    (s.read (pageWord q 2) = 0 →
      StarvesAndIsHeld a c (.link q) (s.releasePage q { axis := a, level := c.level } s.timebase)
        ((s.leave a boundary).finish m)) ∧
    (s.read (pageWord q 2) ≠ 0 →
      FollowsAndIsHeld a c (s.read (pageWord q 2)) (s.releasePage q { axis := a, level := c.level } s.timebase)
        ((s.leave a boundary).finish m)) := by
  refine ⟨fun hzero => ?_, fun hlink => ?_⟩
  · simp only [State.leave, hc, hq, if_pos hzero]
    exact State.starve_isHeld (s := s.releasePage q _ _) hx hc rfl (by omega) hdev hagenda
  · obtain ⟨m, rfl⟩ : ∃ k, m = k + 1 := ⟨m - 1, by omega⟩
    simp only [State.leave, hc, hq, if_neg hlink]
    rw [State.finish_push (by exact hagenda), State.runTask_enter (by exact hdev)]
    exact State.enter_isHeld (s := s.releasePage q _ _) hx hc (by omega) hdev hagenda

/-! ### The boundary with steps left -/

theorem exec_stepBoundary_due {n v : Nat} {d : Int} {w : Nat} {f rep : Bool} {tag : Word}
    (hdue : s.stepBoundaryDue a = true) (hc : (s.ax a).ctx = some c)
    (hphase : c.phase = .inSegment (.run n v d w f rep tag)) (hn : n ≠ 0) :
    exec (.stepBoundary a) s = .next ((s.boundary a).finish settleBound) := by
  have hboundary : s.stepBoundary a = s.boundary a := by
    simp only [State.stepBoundary, hc, hphase, if_neg hn]
  rw [← hboundary]
  exact if_pos hdue

theorem exec_leadGapEnd_due (hdue : s.leadGapDue a = true) :
    exec (.leadGapEnd a) s = .next ((s.boundary a).finish settleBound) := if_pos hdue

theorem State.boundary_pauses (h : (s.ax a).state = .pausing) :
    AxisBecomes a { s.ax a with state := .paused, gate := .idle } s (s.boundary a) := by
  have hax := s.ax_setAx_same a { s.ax a with gate := .idle }
  simp only [State.boundary, State.setGate, hax, if_pos h, State.setAxState, State.setAx_setAx]

theorem State.boundary_accepts (h : (s.ax a).state ≠ .pausing) (haccept : (s.ax a).acceptable = true) :
    s.boundary a = (s.setAx a { s.ax a with gate := .idle }).accept a := by
  have hax := s.ax_setAx_same a { s.ax a with gate := .idle }
  have haccept' : ({ s.ax a with gate := .idle } : AxisEngine).acceptable = true := haccept
  simp only [State.boundary, State.setGate, hax, if_neg h, haccept', if_true]

theorem State.boundary_steps (h : (s.ax a).state ≠ .pausing) (hdeny : (s.ax a).acceptable = false) :
    s.boundary a = (s.setAx a { s.ax a with gate := .idle }).stepDue a := by
  have hax := s.ax_setAx_same a { s.ax a with gate := .idle }
  have hdeny' : ({ s.ax a with gate := .idle } : AxisEngine).acceptable = false := hdeny
  simp only [State.boundary, State.setGate, hax, if_neg h, hdeny', Bool.false_eq_true, if_false]

/-- The step gate overwrites the gate. -/
theorem AxisEngine.gateStep_gate (x : AxisEngine) (g : Gate) (dirlead now : Nat) (f : Bool) :
    ({ x with gate := g } : AxisEngine).gateStep dirlead now f = x.gateStep dirlead now f := by
  have hlevel : ({ x with gate := g } : AxisEngine).dirLevel = x.dirLevel := rfl
  simp only [AxisEngine.gateStep, hlevel]

/-- Settles O41. -/
theorem boundaryWithStepsLeft : Obligations.BoundaryWithStepsLeft := by
  refine ⟨fun a s => ⟨State.stepBoundaryDue_iff, State.leadGapDue_iff⟩,
    fun x l => ⟨x.pastLimit_iff l true, x.pastLimit_iff l false⟩,
    fun a s c n v d w f rep tag i hquiet hc hphase hi => ?_⟩
  have hexec : exec i s = .next ((s.boundary a).finish settleBound) := by
    rcases hi with ⟨rfl, hdue, hn⟩ | ⟨rfl, hdue⟩
    · exact exec_stepBoundary_due hdue hc hphase hn
    · exact exec_leadGapEnd_due hdue
  have hdev : s.dev = .running := by
    rcases hi with ⟨-, hdue, -⟩ | ⟨-, hdue⟩
    · exact (State.stepBoundaryDue_iff.mp hdue).1
    · exact (State.leadGapDue_iff.mp hdue).1
  refine ⟨_, hexec, fun hpausing => ?_, fun hrunning haccept l r p htop hp => ?_, fun hrunning hdeny => ?_⟩
  · exact (State.boundary_pauses hpausing).finish hquiet
  · have hne : (s.ax a).state ≠ .pausing := by rw [hrunning]; exact AxisState.noConfusion
    rw [State.boundary_accepts hne haccept]
    exact State.takes_of_accept (st := (s.ax a).state) (g := .idle) (d := (s.ax a).dirty) hdev hquiet hc haccept
      (by decide) htop hp
  · have hne : (s.ax a).state ≠ .pausing := by rw [hrunning]; exact AxisState.noConfusion
    have hactive : (s.ax a).state.active = true := by rw [hrunning]; rfl
    have hax := s.ax_setAx_same a { s.ax a with gate := .idle }
    have hforward : ((s.setAx a { s.ax a with gate := .idle }).ax a).runForward = some f := by
      rw [hax]
      exact AxisEngine.runForward_of_run (x := { s.ax a with gate := .idle }) hc hphase
    rw [State.boundary_steps hne hdeny]
    refine ⟨fun hpast hmeeting => ?_, fun hwithin => ?_⟩
    · rw [State.stepDue_past hforward (by rw [hax]; exact hpast)]
      have hhalts := State.halt_of_noMeeting .softLimit 0
        (s := s.setAx a { s.ax a with gate := .idle }) (by rw [hax]; exact hactive) hmeeting
      have hsame := (hhalts.finish (m := settleBound) hquiet).of_congr hmeeting hactive hactive (y := s.ax a) rfl rfl
      rwa [State.setAx_ax] at hsame
    · rw [State.stepDue_within hforward (by rw [hax]; exact hwithin), hax, AxisEngine.gateStep_gate,
        State.setAx_setAx]
      rw [State.finish_nil (by exact hquiet)]
      refine ⟨fun hlevel => ?_, fun hlevel hhigh => ?_, fun hlevel hlow => ?_⟩
      · rw [AxisEngine.gateStep, if_pos hlevel]
      · rw [AxisEngine.gateStep, if_neg hlevel, if_pos hhigh]
      · rw [AxisEngine.gateStep, if_neg hlevel, if_neg (Bool.eq_false_iff.mp hlow)]
        rfl

/-! ### The boundary after the last step -/

theorem exec_stepBoundary_last {v : Nat} {d : Int} {w : Nat} {f rep : Bool} {tag : Word}
    (hdue : s.stepBoundaryDue a = true) (hc : (s.ax a).ctx = some c)
    (hphase : c.phase = .inSegment (.run 0 v d w f rep tag))
    (hboundary : ((s.ax a).state != .pausing && (s.ax a).acceptable) = boundary) :
    exec (.stepBoundary a) s =
      .next (((s.recorded a c .run rep tag none).advance a c boundary).finish settleBound) := by
  have hcomplete : s.stepBoundary a = (s.recorded a c .run rep tag none).advance a c boundary := by
    simp only [State.stepBoundary, hc, hphase, hboundary, if_true]
    rfl
  rw [← hcomplete]
  exact if_pos hdue

theorem State.advance_pushes (s : State) (a : Axis) (c : Context) (boundary : Bool) :
    s.advance a c boundary =
      (s.withCtx a c.advanced).push (if c.index + 1 < c.count then .begin a boundary else .leave a boundary) := rfl

/-- The boundary that takes hold, by the state it finds. -/
theorem AxisEngine.heldBy_of (h : x.state = .pausing ∨ x.state = .running ∧ x.acceptable = true) :
    x.HeldBy (x.state != .pausing && x.acceptable) := by
  rcases h with h | ⟨h, haccept⟩
  · exact .inl ⟨h, by rw [h]; rfl⟩
  · exact .inr ⟨h, by rw [h, haccept]; rfl, haccept⟩

/-- At the next begin point of the page. -/
theorem State.advance_takenHold (hx : (s.ax a).HeldBy boundary) (hc : (s.ax a).ctx = some d)
    (hlevel : d.level = c.level) (hmore : c.index + 1 < c.count) (hfollowing : c.following ≠ none) (hm : 126 ≤ m)
    (hdev : s.dev = .running) (hagenda : s.agenda = []) :
    TakenHold a { s.ax a with ctx := some c.advanced, gate := .idle } s ((s.advance a c boundary).finish m) := by
  obtain ⟨m, rfl⟩ : ∃ k, m = k + 1 := ⟨m - 1, by omega⟩
  rw [State.advance_pushes, if_pos hmore, State.finish_push (by exact hagenda), State.runTask_begin (by exact hdev)]
  refine State.begin_takenHold (x := { s.ax a with ctx := some c.advanced, gate := .idle }) (hx.congr rfl ?_) rfl rfl
    hfollowing (by omega) hdev hagenda
  exact AxisEngine.acceptable_congr rfl (hlevel.symm.trans (AxisEngine.level_of_ctx hc).symm) rfl

/-- Settles O42. -/
theorem boundaryAfterTheLastStep : Obligations.BoundaryAfterTheLastStep := by
  intro a s c v d w f rep tag hquiet hc hphase hdue
  have hdev : s.dev = .running := (State.stepBoundaryDue_iff.mp hdue).1
  refine ⟨_, exec_stepBoundary_last hdue hc hphase rfl, ?_⟩
  obtain ⟨e, he⟩ := s.recorded_ax a a c .run rep tag none
  have hdev' := (s.recorded_dev (a := a) (c := c) (kind := .run) (report := rep) (tag := tag)
    (generation := none)).trans hdev
  have hagenda := (s.recorded_agenda (a := a) (c := c) (kind := .run) (report := rep) (tag := tag)
    (generation := none)).trans hquiet
  have htime := s.recorded_timebase (a := a) (c := c) (kind := .run) (report := rep) (tag := tag)
    (generation := none)
  have hboundary : ((s.ax a).state != .pausing && (s.ax a).acceptable) =
      (((s.recorded a c .run rep tag none).ax a).state != .pausing &&
        ((s.recorded a c .run rep tag none).ax a).acceptable) := by
    rw [he]
    rfl
  rw [hboundary]
  generalize s.recorded a c .run rep tag none = u at *
  have hctx : (u.ax a).ctx = some c := by rw [he]; exact hc
  refine ⟨fun hrunning hdeny => ?on, fun hpausing hmore hfollowing => ?pauses,
    fun hrunning haccept hmore hfollowing l r p htop hp => ?takes, fun hheld hend q hq u' v hu hv => ?page⟩
  case on =>
    have hnone : ((u.ax a).state != .pausing && (u.ax a).acceptable) = false := by
      rw [he]
      exact (congrArg (_ && ·) hdeny).trans (Bool.and_false _)
    rw [hnone]
    refine State.completes_here (beginPoint_serves a) (by decide) hdev' hagenda ?_ c
    rw [he]
    exact hrunning ▸ ⟨rfl, AxisState.noConfusion⟩
  case pauses =>
    have hx : (u.ax a).HeldBy ((u.ax a).state != .pausing && (u.ax a).acceptable) :=
      AxisEngine.heldBy_of (.inl (by rw [he]; exact hpausing))
    have htaken := State.advance_takenHold hx hctx rfl hmore hfollowing (m := settleBound) (by decide) hdev' hagenda
    have hpauses := htaken.1 (by rw [he]; exact hpausing)
    rw [he] at hpauses ⊢
    exact hpauses
  case takes =>
    have hx : (u.ax a).HeldBy ((u.ax a).state != .pausing && (u.ax a).acceptable) :=
      AxisEngine.heldBy_of (.inr (by rw [he]; exact ⟨hrunning, haccept⟩))
    have htaken := State.advance_takenHold hx hctx rfl hmore hfollowing (m := settleBound) (by decide) hdev' hagenda
    have hne : (u.ax a).state ≠ .pausing := by
      rw [he]
      exact hrunning ▸ AxisState.noConfusion
    have htakes := htaken.2 hne l r p (by rw [he]; exact htop) hp
    rw [he] at htakes ⊢
    exact htakes
  case page =>
    have hx : (u.ax a).HeldBy ((u.ax a).state != .pausing && (u.ax a).acceptable) :=
      AxisEngine.heldBy_of (by rw [he]; exact hheld)
    generalize ((u.ax a).state != .pausing && (u.ax a).acceptable) = boundary at hx ⊢
    have hax := u.withCtx_ax a c.advanced
    have hx' : ((u.withCtx a c.advanced).ax a).HeldBy boundary := by
      rw [hax]
      exact hx.congr rfl (AxisEngine.acceptable_congr rfl (AxisEngine.level_of_ctx hctx).symm rfl)
    have hleave := State.leave_isHeld (s := u.withCtx a c.advanced) (c := c.advanced) (q := q) (m := 16383) hx'
      (by rw [hax]) hq (by decide) hdev' hagenda
    have hfinish : (u.advance a c boundary).finish settleBound =
        ((u.withCtx a c.advanced).leave a boundary).finish 16383 := by
      rw [State.advance_pushes, if_neg (by omega), show settleBound = 16383 + 1 from rfl,
        State.finish_push (by exact hagenda), State.runTask_leave (by exact hdev')]
    rw [hfinish, hv, hu, ← htime]
    exact hleave

end Sys2Proof.Machine
end

