-- ==== Sys2Proof/Proofs/Breaks.lean ====
section
/-!
PROOF. What a halt tells the join unit (R127, R128): the points that break, the breaks it sends; the causes
that a halt sets and those that stand.
-/
namespace Sys2Proof.Machine

variable {s t u : State} {a b : Axis} {j : Point}

/-! ### ACAUSE bits that stand (R171) -/

/-- The causes set in `s` are set in `t`. -/
def CausesStay (s t : State) : Prop := ∀ i, s.acause.getLsbD i = true → t.acause.getLsbD i = true

theorem CausesStay.refl (s : State) : CausesStay s s := fun _ h => h

theorem CausesStay.trans (h : CausesStay s t) (k : CausesStay t u) : CausesStay s u := fun i hi => k i (h i hi)

theorem CausesStay.of_eq (h : t.acause = s.acause) : CausesStay s t := fun _ hi => h ▸ hi

theorem CausesStay.setCause (s : State) (c : AlertCause) : CausesStay s (s.setCause c) := fun i hi => by
  show (s.acause ||| c.bit).getLsbD i = true
  rw [BitVec.getLsbD_or, hi, Bool.true_or]

theorem State.setCause_getLsbD (s : State) (c : AlertCause) {i : Nat} (h : c.bit.getLsbD i = true) :
    (s.setCause c).acause.getLsbD i = true := by
  show (s.acause ||| c.bit).getLsbD i = true
  rw [BitVec.getLsbD_or, h, Bool.or_true]

theorem CausesStay.searchSlots (ks : List Slot) (s : State) : CausesStay s (s.searchSlots ks).2 := by
  induction ks generalizing s with
  | nil => exact .refl s
  | cons k ks ih =>
    simp only [State.searchSlots]
    split
    · split
      · exact (CausesStay.setCause (s.writeSlot k .bad) .slotFault).trans (ih _)
      · exact .of_eq rfl
    · exact ih s

theorem CausesStay.closePage (reason : CloseReason) (time : Time) (s : State) :
    CausesStay s (s.closePage reason time) := by
  simp only [State.closePage]
  split
  · exact .refl s
  · split
    · exact .of_eq rfl
    · exact CausesStay.setCause s .pageClosed

theorem CausesStay.placeIn (k : Slot) (p : Page) (records used : Nat) (rec : Record) (s : State) :
    CausesStay s (s.placeIn k p records used rec) := by
  simp only [State.placeIn]
  split <;> exact .of_eq rfl

theorem CausesStay.takeAndPlace (rec : Record) (s : State) : CausesStay s (s.takeAndPlace rec).2 := by
  have h : CausesStay s s.takeSlot.2 := .searchSlots _ s
  simp only [State.takeAndPlace]
  split
  · rename_i t ht
    rw [ht] at h
    exact h
  · rename_i t ht
    rw [ht] at h
    refine h.trans ?_
    simp only [State.placeFresh]
    split
    · exact .refl t
    · exact .placeIn _ _ _ _ rec t

theorem CausesStay.tryPlace (rec : Record) (s : State) : CausesStay s (s.tryPlace rec).2 := by
  simp only [State.tryPlace]
  split
  · split
    · exact .placeIn _ _ _ _ rec s
    · exact (CausesStay.closePage .full _ s).trans (.takeAndPlace rec _)
  · exact .takeAndPlace rec s

theorem CausesStay.countDrop (s : State) : CausesStay s s.countDrop :=
  CausesStay.setCause _ .recordsDropped

theorem CausesStay.oweRecord (a : Axis) (rec : Record) (s : State) : CausesStay s (s.oweRecord a rec) := by
  simp only [State.oweRecord]
  split
  · exact .countDrop _
  · split <;> exact .of_eq rfl

theorem CausesStay.noRoom (rec : Record) (s : State) : CausesStay s (s.noRoom rec) := by
  simp only [State.noRoom]
  refine (CausesStay.setCause s .roomExhausted).trans ?_
  split
  · split
    · exact .oweRecord _ rec _
    · exact .countDrop _
  · split
    · exact .of_eq rfl
    · split
      · exact .oweRecord _ rec _
      · exact .countDrop _

theorem CausesStay.handRecord (body : RecordBody) (s : State) : CausesStay s (s.handRecord body) := by
  have h := CausesStay.tryPlace { time := s.timebase, body := body } s
  simp only [State.handRecord]
  split
  · rename_i t ht
    rw [ht] at h
    exact h
  · rename_i t ht
    rw [ht] at h
    exact h.trans (.noRoom _ t)

/-! ### The points that a halt breaks (R128) -/

/-- Point `j` breaks when axis `a` halts. -/
abbrev State.breaksWith (s : State) (a : Axis) (j : Point) : Prop :=
  inMask (s.members j) a = true ∧ (s.point j).state = .opened ∧ (s.point j).arrivals ≠ 0

/-- A point that has broken, arrivals and generation standing. -/
def JoinPoint.brokenBy (p : JoinPoint) (cause : BreakCause) : JoinPoint :=
  { p with state := .broken cause, deadline := none }

/-- The breaks that a broken point sends. -/
def State.breaksOf (s : State) (j : Point) : List Task := (maskAxes (s.point j).arrivals).map fun b => .breakAt b j

theorem State.breakPoint_eq (j : Point) (cause : BreakCause) (s : State) :
    s.breakPoint j cause =
      { ((s.setPoint j ((s.point j).brokenBy cause)).write (joinWord j 3) (JoinState.broken cause).word).setCause
          .joinBroken with
        agenda := s.agenda ++ s.breaksOf j } := by
  simp only [State.breakPoint]
  rw [State.pushEach_fields]
  rfl

/-- What the join unit has made of the halt of axis `a`, of the points of a list. -/
structure PointsTold (a : Axis) (l : List Point) (s t : State) : Prop where
  fields : t = { s with ram := t.ram, points := t.points, acause := t.acause, agenda := t.agenda }
  broken : ∀ j ∈ l, s.breaksWith a j → t.point j = (s.point j).brokenBy .memberHalted
  whole : ∀ j, ¬ (j ∈ l ∧ s.breaksWith a j) → t.point j = s.point j
  tasks : t.agenda = s.agenda ++ l.flatMap fun j => if s.breaksWith a j then s.breaksOf j else []
  stays : CausesStay s t
  cause : ∀ j ∈ l, s.breaksWith a j → t.acause.getLsbD 9 = true

theorem PointsTold.of_list (a : Axis) {l : List Point} (hnodup : l.Nodup) (s : State) :
    PointsTold a l s (l.foldl (State.breakIfMember a) s) := by
  induction l generalizing s with
  | nil =>
    exact ⟨rfl, fun _ h => (List.not_mem_nil h).elim, fun _ _ => rfl, (List.append_nil _).symm, .refl s,
      fun _ h => (List.not_mem_nil h).elim⟩
  | cons i l ih =>
    obtain ⟨hi, hl⟩ := List.nodup_cons.mp hnodup
    rw [List.foldl_cons]
    by_cases hbreaks : s.breaksWith a i
    · have hstep : State.breakIfMember a s i = s.breakPoint i .memberHalted := if_pos hbreaks
      rw [hstep, State.breakPoint_eq]
      generalize hu : ({ ((s.setPoint i ((s.point i).brokenBy .memberHalted)).write (joinWord i 3)
          (JoinState.broken .memberHalted).word).setCause .joinBroken with
        agenda := s.agenda ++ s.breaksOf i } : State) = u
      have hpoint {j : Point} (h : j ≠ i) : u.point j = s.point j := by
        rw [← hu]
        exact State.point_setPoint_ne s h _
      have hsame : u.point i = (s.point i).brokenBy .memberHalted := by
        rw [← hu]
        exact State.point_setPoint_same s i _
      have hmembers (j : Point) : u.members j = s.members j := by rw [← hu]; rfl
      have hiff {j : Point} (h : j ≠ i) : u.breaksWith a j ↔ s.breaksWith a j := by
        rw [State.breaksWith, hpoint h, hmembers]
      have htold := ih hl u
      generalize l.foldl (State.breakIfMember a) u = t at htold
      have hne {j : Point} (h : j ∈ l) : j ≠ i := fun e => hi (e ▸ h)
      have hcause : u.acause.getLsbD 9 = true := by
        rw [← hu]
        exact State.setCause_getLsbD ((s.setPoint i _).write _ _) .joinBroken rfl
      refine ⟨?_, ?_, ?_, ?_, ?_, ?_⟩
      · rw [htold.fields, ← hu]
        rfl
      · intro j hj hb
        rcases List.mem_cons.mp hj with rfl | hj
        · rw [htold.whole j fun h => hi h.1, hsame]
        · rw [htold.broken j hj ((hiff (hne hj)).mpr hb), hpoint (hne hj)]
      · intro j hj
        have hji : j ≠ i := fun e => hj ⟨e ▸ List.mem_cons_self, e ▸ hbreaks⟩
        rw [htold.whole j fun h => hj ⟨List.mem_cons_of_mem _ h.1, (hiff hji).mp h.2⟩, hpoint hji]
      · have hagenda : u.agenda = s.agenda ++ s.breaksOf i := by rw [← hu]
        rw [htold.tasks, hagenda, List.flatMap_cons, if_pos hbreaks, List.append_assoc]
        refine congrArg (fun r => s.agenda ++ (s.breaksOf i ++ r)) (List.flatMap_congr fun j hj => ?_)
        simp only [hiff (hne hj), State.breaksOf, hpoint (hne hj)]
      · refine CausesStay.trans ?_ htold.stays
        rw [← hu]
        exact CausesStay.setCause s .joinBroken
      · intro j _ _
        exact htold.stays 9 hcause
    · have hstep : State.breakIfMember a s i = s := if_neg hbreaks
      rw [hstep]
      have htold := ih hl s
      refine ⟨htold.fields, fun j hj hb => ?_, fun j hj => ?_, ?_, htold.stays, fun j hj hb => ?_⟩
      · rcases List.mem_cons.mp hj with rfl | hj
        · exact absurd hb hbreaks
        · exact htold.broken j hj hb
      · exact htold.whole j fun h => hj ⟨List.mem_cons_of_mem _ h.1, h.2⟩
      · rw [htold.tasks, List.flatMap_cons, if_neg hbreaks]
        rfl
      · rcases List.mem_cons.mp hj with rfl | hj
        · exact absurd hb hbreaks
        · exact htold.cause j hj hb

theorem State.tellHalted_told (a : Axis) (s : State) : PointsTold a allSixteen s (s.tellHalted a) :=
  .of_list a nodup_allSixteen s

end Sys2Proof.Machine
end

