-- ==== Sys2Proof/Proofs/Stops.lean ====
section
/-!
PROOF. Commands with several tasks in the agenda, taken in a free order (log 6, log 9): what every task keeps
holds at the end, when none is left. The tasks that no chain follows: breaks, HALT and PAUSE trips, captures.
-/
namespace Sys2Proof.Machine

variable {s t u : State} {a b : Axis} {j : Point} {k : Task}

/-! ### Taking tasks until none is left -/

/-- A task can be taken while any is left: one that moves a chain, or, where there is none, any. -/
theorem State.nextTask_ne_none (h : s.agenda ≠ []) : s.nextTask ≠ none := by
  have hmay : s.agenda.filter (Task.mayRun s.agenda) ≠ [] := by
    obtain ⟨k, hk⟩ := List.exists_mem_of_ne_nil _ h
    by_cases hmover : ∃ m ∈ s.agenda, m.movesChain = true
    · obtain ⟨m, hm, hmoves⟩ := hmover
      exact List.ne_nil_of_mem (List.mem_filter.mpr ⟨hm, by rw [Task.mayRun, hmoves, Bool.true_or]⟩)
    · refine List.ne_nil_of_mem (List.mem_filter.mpr ⟨hk, ?_⟩)
      have hnone : (s.agenda.any fun u => u.movesChain && u.axis? == k.axis?) = false := by
        refine List.any_eq_false.mpr fun m hm hboth => hmover ⟨m, hm, ?_⟩
        exact (Bool.and_eq_true_iff.mp hboth).1
      rw [Task.mayRun, hnone, Bool.not_false, Bool.or_true]
  intro hnext
  simp only [State.nextTask] at hnext
  split at hnext
  · rename_i hnil
    exact hmay hnil
  · cases hnext

/-- What every task keeps holds at the end, where each task leaves less work than it found. -/
theorem State.settle_keeps {P : State → Prop} {work : State → Nat}
    (hstep : ∀ k m u, k ∈ u.agenda → Task.mayRun u.agenda k = true → P u →
      P (({ u with agenda := u.agenda.erase k, freeCount := m } : State).runTask k) ∧
        work (({ u with agenda := u.agenda.erase k, freeCount := m } : State).runTask k) < work u)
    (n : Nat) (s : State) (hs : P s) (hwork : work s ≤ n) : P (s.settle n) ∧ (s.settle n).agenda = [] := by
  induction n generalizing s with
  | zero =>
    refine ⟨hs, ?_⟩
    by_contra hne
    obtain ⟨⟨k, u⟩, hnext⟩ := Option.ne_none_iff_exists'.mp (State.nextTask_ne_none hne)
    obtain ⟨hmem, hmay, m, -⟩ := State.nextTask_eq_some hnext
    have hless := (hstep k m s hmem hmay hs).2
    omega
  | succ n ih =>
    simp only [State.settle]
    split
    · rename_i hnext
      exact ⟨hs, by_contra fun hne => State.nextTask_ne_none hne hnext⟩
    · rename_i k u hnext
      obtain ⟨hmem, hmay, m, rfl⟩ := State.nextTask_eq_some hnext
      obtain ⟨hkept, hless⟩ := hstep k m s hmem hmay hs
      exact ih _ hkept (by omega)

theorem State.settled_keeps {P : State → Prop} {work : State → Nat}
    (hstep : ∀ k m u, k ∈ u.agenda → Task.mayRun u.agenda k = true → P u →
      P (({ u with agenda := u.agenda.erase k, freeCount := m } : State).runTask k) ∧
        work (({ u with agenda := u.agenda.erase k, freeCount := m } : State).runTask k) < work u)
    (hs : P s) (hwork : work s ≤ settleBound) : P s.settled ∧ s.settled.agenda = [] := by
  obtain ⟨hkept, hnil⟩ := State.settle_keeps hstep settleBound s hs hwork
  have hsettled : s.settled = s.settle settleBound := by rw [State.settled, ← hnil]
  rw [hsettled]
  exact ⟨hkept, hnil⟩

/-! ### A halt, with what the join unit makes of it -/

/-- What a halt of the active axis `a` makes of a state. -/
structure HaltTold (a : Axis) (cause : HaltCause) (detail : BitVec 8) (s t : State) : Prop where
  fields :
    t = { s with
      ram := t.ram, claims := t.claims, axes := t.axes, points := t.points, acause := t.acause
      report := t.report, agenda := t.agenda }
  halted : t.ax a = (s.ax a).halted cause detail
  others : ∀ b, b ≠ a → t.ax b = s.ax b
  broken : ∀ j, s.breaksWith a j → t.point j = (s.point j).brokenBy .memberHalted
  whole : ∀ j, ¬ s.breaksWith a j → t.point j = s.point j
  tasks : t.agenda = s.agenda ++ allSixteen.flatMap fun j => if s.breaksWith a j then s.breaksOf j else []
  claims : t.claims = (s.releaseAxisClaims a).claims
  stays : CausesStay s t
  causes : t.acause.getLsbD 7 = true ∧ ((∃ j, s.breaksWith a j) → t.acause.getLsbD 9 = true)

/-- The record of a halt, ahead of what the join unit makes of it. -/
def State.haltRecorded (s : State) (a : Axis) (cause : HaltCause) (detail : BitVec 8) : State :=
  ((s.releaseAxisClaims a).setAx a ((s.ax a).halted cause detail)).handRecord
    (.halt a (s.ax a).level cause detail (s.ax a).haltPage (s.ax a).index (s.ax a).position)

theorem State.halt_eq (h : (s.ax a).state.active = true) (cause : HaltCause) (detail : BitVec 8) :
    s.halt a cause detail = ((s.haltRecorded a cause detail).tellHalted a).setCause .axisHalted := if_pos h

theorem State.haltRecorded_fields (s : State) (a : Axis) (cause : HaltCause) (detail : BitVec 8) :
    s.haltRecorded a cause detail =
      { s with
        ram := (s.haltRecorded a cause detail).ram, claims := (s.releaseAxisClaims a).claims
        axes := (s.haltRecorded a cause detail).axes, acause := (s.haltRecorded a cause detail).acause
        report := (s.haltRecorded a cause detail).report } := by
  have hrelease : s.releaseAxisClaims a =
      { s with ram := (s.releaseAxisClaims a).ram, claims := (s.releaseAxisClaims a).claims } :=
    State.releaseList_fields s.timebase (s.claims.filter fun e => e.2.axis = a) s
  have hhand := (State.handRecord_frame
    (.halt a (s.ax a).level cause detail (s.ax a).haltPage (s.ax a).index (s.ax a).position)
    ((s.releaseAxisClaims a).setAx a ((s.ax a).halted cause detail))).fields
  rw [State.haltRecorded]
  generalize s.releaseAxisClaims a = r at hrelease hhand ⊢
  refine hhand.trans ?_
  rw [hrelease]
  rfl

/-- The points and the members as the halt finds them. -/
theorem State.haltRecorded_breaksWith (s : State) (a : Axis) (cause : HaltCause) (detail : BitVec 8) (j : Point) :
    (s.haltRecorded a cause detail).breaksWith a j ↔ s.breaksWith a j := by
  rw [State.haltRecorded_fields]
  exact Iff.rfl

theorem State.halt_told (h : (s.ax a).state.active = true) (cause : HaltCause) (detail : BitVec 8) :
    HaltTold a cause detail s (s.halt a cause detail) := by
  have hhalted := State.halt_ax a cause detail s h
  have hothers (b : Axis) (hb : b ≠ a) := State.halt_ax_ne a cause detail s hb
  have hiff (j : Point) := s.haltRecorded_breaksWith a cause detail j
  have hfields := s.haltRecorded_fields a cause detail
  have hstays : CausesStay s (s.haltRecorded a cause detail) := by
    refine CausesStay.trans (.of_eq ?_) (CausesStay.handRecord _ _)
    show (s.releaseAxisClaims a).acause = s.acause
    rw [State.releaseAxisClaims, State.releaseList_fields]
  have htold := (s.haltRecorded a cause detail).tellHalted_told a
  rw [State.halt_eq h] at hhalted hothers ⊢
  generalize s.haltRecorded a cause detail = v at hfields htold hstays hiff hhalted hothers ⊢
  have hpoint (j : Point) : v.point j = s.point j := by rw [hfields]; rfl
  have hagenda : v.agenda = s.agenda := by rw [hfields]
  have hbreaks (j : Point) : v.breaksOf j = s.breaksOf j := by rw [State.breaksOf, State.breaksOf, hpoint]
  have hset : CausesStay (v.tellHalted a) ((v.tellHalted a).setCause .axisHalted) := .setCause _ _
  generalize v.tellHalted a = w at htold hhalted hothers hset ⊢
  refine ⟨?_, hhalted, hothers, fun j hj => ?_, fun j hj => ?_, ?_, ?_, hstays.trans (htold.stays.trans hset),
    State.setCause_getLsbD w .axisHalted rfl, fun ⟨j, hj⟩ => ?_⟩
  · rw [htold.fields, hfields]
    rfl
  · exact (htold.broken j (mem_allSixteen j) ((hiff j).mpr hj)).trans (by rw [hpoint])
  · exact (htold.whole j fun hb => hj ((hiff j).mp hb.2)).trans (hpoint j)
  · refine htold.tasks.trans ?_
    simp only [hiff, hbreaks, hagenda]
  · show w.claims = _
    rw [htold.fields, hfields]
  · exact hset 9 (htold.cause j (mem_allSixteen j) ((hiff j).mpr hj))

/-! ### The tasks that no chain follows -/

/-- A task that no chain follows. -/
def Task.endsThere : Task → Bool
  | .begin _ _ => false
  | .leave _ _ => false
  | .enter _ _ _ _ => false
  | .resume _ => false
  | .arrived _ => false
  | .joinDone _ => false
  | .breakAt _ _ => true
  | .owingEnded _ => false
  | .levelSeen _ _ => false
  | .tripHalt _ _ => true
  | .tripPause _ _ => true
  | .tripInterject _ _ => false
  | .capture _ _ => true

/-- What a task that no chain follows makes of a state in RUNNING. -/
inductive TaskEnds (k : Task) (u : State) : State → Prop
  | nothing : TaskEnds k u u
  | breaks (b : Axis) (j : Point) (c : Context) (task : k = .breakAt b j) (paused : (u.ax b).state = .paused)
      (context : (u.ax b).ctx = some c) : TaskEnds k u (u.setCtx b (some (c.flagBroken j)))
  | halts (b : Axis) (cause : HaltCause) (detail : BitVec 8) (owner : k.axis? = some b)
      (active : (u.ax b).state.active = true)
      (reason : (∃ j, k = .breakAt b j) ∧ cause = .joinBroken ∨ (∃ n, k = .tripHalt b n) ∧ cause = .trip) :
      TaskEnds k u (u.halt b cause detail)
  | pauses (b : Axis) (n : Line) (task : k = .tripPause b n) : TaskEnds k u (u.pauseAxis b)
  | records (n : Line) (rising : Bool) (task : k = .capture n rising) : TaskEnds k u (u.capture n rising)

theorem TaskEnds.of_halt {cause : HaltCause} (detail : BitVec 8) (howner : k.axis? = some b)
    (hreason : (∃ j, k = .breakAt b j) ∧ cause = .joinBroken ∨ (∃ n, k = .tripHalt b n) ∧ cause = .trip) :
    TaskEnds k u (u.halt b cause detail) := by
  cases hactive : (u.ax b).state.active with
  | false =>
    rw [State.halt_inactive b cause detail u hactive]
    exact .nothing
  | true => exact .halts b cause detail howner hactive hreason

theorem State.runTask_ends (hdev : u.dev = .running) (hk : k.endsThere = true) : TaskEnds k u (u.runTask k) := by
  unfold State.runTask
  rw [if_pos hdev]
  cases k with
  | breakAt b j =>
    show TaskEnds _ u (u.breakAt b j)
    simp only [State.breakAt]
    split
    · exact .of_halt _ rfl (.inl ⟨⟨j, rfl⟩, rfl⟩)
    · split
      · exact .nothing
      · rename_i c hc
        split
        · split
          · rename_i hpaused
            exact .breaks b j c rfl hpaused hc
          · exact .of_halt _ rfl (.inl ⟨⟨j, rfl⟩, rfl⟩)
        · exact .nothing
  | tripHalt b n => exact .of_halt _ rfl (.inr ⟨⟨n, rfl⟩, rfl⟩)
  | tripPause b n => exact .pauses b n rfl
  | capture n rising => exact .records n rising rfl
  | _ => cases hk

/-! ### How much work is left -/

/-- The points that can still break. -/
def State.openPoints (s : State) : Nat := allSixteen.countP fun j => (s.point j).state = .opened

/-- The tasks left, and those that open points can still send. -/
def State.breakWork (s : State) : Nat := s.agenda.length + 8 * s.openPoints

theorem length_flatMap_le {α : Type} {f : α → List Task} {p q : α → Bool} (l : List α)
    (h : ∀ x ∈ l, (f x).length + (if q x then 8 else 0) ≤ if p x then 8 else 0) :
    (l.flatMap f).length + 8 * l.countP q ≤ 8 * l.countP p := by
  induction l with
  | nil => exact Nat.le_refl _
  | cons x l ih =>
    have hx := h x List.mem_cons_self
    have hl := ih fun y hy => h y (List.mem_cons_of_mem _ hy)
    rw [List.flatMap_cons, List.length_append, List.countP_cons, List.countP_cons]
    split at hx <;> split at hx <;> simp_all <;> omega

theorem length_breaksOf (s : State) (j : Point) : (s.breaksOf j).length ≤ 8 := by
  rw [State.breaksOf, List.length_map]
  exact List.length_filter_le _ _

theorem HaltTold.breakWork_le {cause : HaltCause} {detail : BitVec 8} (h : HaltTold a cause detail s t) :
    t.breakWork ≤ s.breakWork := by
  have hsend := length_flatMap_le (f := fun j => if s.breaksWith a j then s.breaksOf j else [])
    (p := fun j => decide ((s.point j).state = .opened)) (q := fun j => decide ((t.point j).state = .opened))
    allSixteen fun j _ => by
      by_cases hj : s.breaksWith a j
      · have hbroken : ¬ (t.point j).state = .opened := by
          rw [h.broken j hj]
          exact JoinState.noConfusion
        have hlen := length_breaksOf s j
        rw [if_pos hj]
        simpa [hbroken, hj.2.1] using hlen
      · simp [hj, h.whole j hj]
  rw [State.breakWork, State.breakWork, h.tasks, List.length_append, State.openPoints, State.openPoints]
  omega

end Sys2Proof.Machine
end

