-- ==== Sys2Proof/Proofs/Cascades.lean ====
section
/-!
PROOF. What the tasks that no chain follows keep (R93, R95, R127, R128): the axes that are not active, the
points that are not OPEN, the causes; and the axis that a break is meant for.
-/
namespace Sys2Proof.Machine

variable {s t u : State} {a b : Axis} {j : Point} {k : Task} {c : Context}

/-! ### What one task keeps -/

theorem State.pauseAxis_eq (u : State) (a : Axis) :
    u.pauseAxis a = u ∨ ∃ st, (u.ax a).state.active = true ∧ st.active = true ∧ u.pauseAxis a = u.setAxState a st := by
  simp only [State.pauseAxis]
  split
  · rename_i h
    exact .inr ⟨.pausing, by rw [h]; rfl, rfl, rfl⟩
  · split
    · rename_i h
      refine .inr ⟨.paused, ?_, rfl, rfl⟩
      cases hst : (u.ax a).state <;> simp_all [AxisState.pausesAtOnce, AxisState.active]
    · exact .inl rfl

theorem State.capture_frame (u : State) (n : Line) (rising : Bool) : ReportFrame u (u.capture n rising) :=
  State.handRecord_frame _ u

theorem State.capture_ax (u : State) (n : Line) (rising : Bool) (b : Axis) : (u.capture n rising).ax b = u.ax b :=
  State.handRecord_ax_ne _ u (by simp [RecordBody.axis?])

theorem TaskEnds.dev (h : TaskEnds k u t) : t.dev = u.dev := by
  cases h with
  | nothing => rfl
  | breaks => rfl
  | halts b cause detail howner hactive => rw [(State.halt_told hactive cause detail).fields]
  | pauses b n =>
    rcases u.pauseAxis_eq b with h | ⟨st, -, -, h⟩
    · rw [h]
    · rw [h]
      rfl
  | records n rising => rw [(u.capture_frame n rising).fields]

theorem TaskEnds.stays (h : TaskEnds k u t) : CausesStay u t := by
  cases h with
  | nothing => exact .refl _
  | breaks => exact .of_eq rfl
  | halts b cause detail howner hactive => exact (State.halt_told hactive cause detail).stays
  | pauses b n => rcases u.pauseAxis_eq b with h | ⟨st, -, -, h⟩ <;> rw [h] <;> exact .of_eq rfl
  | records n rising => exact .handRecord _ u

/-- The agenda grows by breaks alone. -/
theorem TaskEnds.agenda (h : TaskEnds k u t) :
    ∃ breaks : List Task, t.agenda = u.agenda ++ breaks ∧ ∀ m ∈ breaks, ∃ b j, m = .breakAt b j := by
  have hsame (v : State) (hv : v.agenda = u.agenda) :
      ∃ breaks : List Task, v.agenda = u.agenda ++ breaks ∧ ∀ m ∈ breaks, ∃ b j, m = .breakAt b j :=
    ⟨[], by rw [hv, List.append_nil], fun _ hm => (List.not_mem_nil hm).elim⟩
  cases h with
  | nothing => exact hsame _ rfl
  | breaks => exact hsame _ rfl
  | halts b cause detail howner hactive =>
    refine ⟨_, (State.halt_told hactive cause detail).tasks, fun m hm => ?_⟩
    obtain ⟨j, -, hj⟩ := List.mem_flatMap.mp hm
    split at hj
    · obtain ⟨b, -, rfl⟩ := List.mem_map.mp hj
      exact ⟨b, j, rfl⟩
    · cases hj
  | pauses b n => rcases u.pauseAxis_eq b with h | ⟨st, -, -, h⟩ <;> rw [h] <;> exact hsame _ rfl
  | records n rising => exact hsame _ (State.handRecord_agenda ..)

theorem TaskEnds.breakWork_le (h : TaskEnds k u t) : t.breakWork ≤ u.breakWork := by
  have hsame (v : State) (hagenda : v.agenda = u.agenda) (hpoints : v.points = u.points) :
      v.breakWork ≤ u.breakWork := by
    simp only [State.breakWork, State.openPoints, State.point, hagenda, hpoints]
    exact le_refl _
  cases h with
  | nothing => exact le_refl _
  | breaks => exact hsame _ rfl rfl
  | halts b cause detail howner hactive => exact (State.halt_told hactive cause detail).breakWork_le
  | pauses b n => rcases u.pauseAxis_eq b with h | ⟨st, -, -, h⟩ <;> rw [h] <;> exact hsame _ rfl rfl
  | records n rising =>
    refine hsame _ (State.handRecord_agenda ..) ?_
    rw [(u.capture_frame n rising).fields]

/-- A point that is not OPEN stays as it is. -/
theorem TaskEnds.point (h : TaskEnds k u t) (hj : (u.point j).state ≠ .opened) : t.point j = u.point j := by
  cases h with
  | nothing => rfl
  | breaks => rfl
  | halts b cause detail howner hactive =>
    exact (State.halt_told hactive cause detail).whole j fun hbreaks => hj hbreaks.2.1
  | pauses b n =>
    rcases u.pauseAxis_eq b with h | ⟨st, -, -, h⟩
    · rw [h]
    · rw [h]
      rfl
  | records n rising =>
    rw [(u.capture_frame n rising).fields]
    rfl

/-- An axis that is not active stays as it is. -/
theorem TaskEnds.ax_inactive (h : TaskEnds k u t) (hb : (u.ax b).state.active = false) : t.ax b = u.ax b := by
  have hne {d : Axis} (hd : (u.ax d).state.active = true) : b ≠ d := fun e => by
    rw [e, hd] at hb
    cases hb
  cases h with
  | nothing => rfl
  | breaks d j c _ hpaused => exact State.ax_setAx_ne u (hne (by rw [hpaused]; rfl)) _
  | halts d cause detail howner hactive => exact (State.halt_told hactive cause detail).others b (hne hactive)
  | pauses d n =>
    rcases u.pauseAxis_eq d with h | ⟨st, hactive, -, h⟩ <;> rw [h]
    exact State.ax_setAx_ne u (hne hactive) _
  | records n rising => exact u.capture_ax n rising b

/-- An active axis stays active or halts. -/
theorem TaskEnds.active (h : TaskEnds k u t) (hb : (u.ax b).state.active = true) :
    (t.ax b).state.active = true ∨ (t.ax b).state = .halted := by
  have hsame {v : State} (hv : v.ax b = u.ax b) : (v.ax b).state.active = true ∨ (v.ax b).state = .halted :=
    .inl (by rw [hv]; exact hb)
  have hset (d : Axis) (x : AxisEngine) (hx : x.state.active = true) :
      ((u.setAx d x).ax b).state.active = true ∨ ((u.setAx d x).ax b).state = .halted := by
    rw [State.ax_setAx]
    split
    · exact .inl hx
    · exact .inl hb
  cases h with
  | nothing => exact hsame rfl
  | breaks d j c _ hpaused => exact hset d _ (by rw [hpaused]; rfl)
  | halts d cause detail howner hactive =>
    have htold := State.halt_told hactive cause detail
    by_cases hbd : b = d
    · right
      rw [hbd, htold.halted]
      rfl
    · exact hsame (htold.others b hbd)
  | pauses d n =>
    rcases u.pauseAxis_eq d with h | ⟨st, -, hst, h⟩ <;> rw [h]
    · exact hsame rfl
    · exact hset d _ hst
  | records n rising => exact hsame (u.capture_ax n rising b)

/-- An axis that waits at a join point goes on waiting where a break does not halt it. -/
theorem TaskEnds.waiting (h : TaskEnds k u t) (hk : ∃ d j, k = .breakAt d j) (hb : (u.ax b).state = .waitJoin) :
    t.ax b = u.ax b ∨ (t.ax b).state = .halted ∧ (t.ax b).haltCause = some .joinBroken := by
  obtain ⟨d, j, rfl⟩ := hk
  cases h with
  | nothing => exact .inl rfl
  | breaks d j c _ hpaused =>
    refine .inl (State.ax_setAx_ne u (fun e => ?_) _)
    rw [← e, hb] at hpaused
    cases hpaused
  | halts d cause detail howner hactive hreason =>
    have htold := State.halt_told hactive cause detail
    by_cases hbd : b = d
    · right
      rw [hbd, htold.halted]
      refine ⟨rfl, ?_⟩
      rcases hreason with ⟨-, rfl⟩ | ⟨⟨n, hn⟩, -⟩
      · rfl
      · cases hn
    · exact .inl (htold.others b hbd)
  | pauses d n htask => cases htask
  | records n rising htask => cases htask

/-- The break that reaches an axis waiting at its point halts it. -/
theorem State.runTask_breakAt_waiting (hdev : u.dev = .running) (hstate : (u.ax b).state = .waitJoin)
    (hc : (u.ax b).ctx = some c) (hholds : c.holdsArrival j = true) :
    u.runTask (.breakAt b j) = u.halt b .joinBroken (BitVec.ofNat 8 j.val) := by
  have hne : ¬ (u.ax b).state = .paused := by rw [hstate]; exact AxisState.noConfusion
  unfold State.runTask
  rw [if_pos hdev]
  simp only [State.breakAt, hc, hholds, if_neg hne, if_true, ite_self]

/-! ### A cascade of breaks (R127, R128) -/

/-- The axis `b` waits at point `j`, where it has arrived. -/
abbrev State.WaitsAt (s : State) (b : Axis) (j : Point) : Prop :=
  (s.ax b).state = .waitJoin ∧ ∃ c, (s.ax b).ctx = some c ∧ c.holdsArrival j = true

/-- A state on the way through a cascade of breaks that starts in `s`. -/
structure Cascade (s u : State) : Prop where
  dev : u.dev = .running
  breaks : ∀ k ∈ u.agenda, ∃ b j, k = .breakAt b j
  stays : CausesStay s u
  axes : ∀ b, (s.ax b).state.active = false → u.ax b = s.ax b
  points : ∀ j, (s.point j).state ≠ .opened → u.point j = s.point j
  waits : ∀ b j, .breakAt b j ∈ s.agenda → s.WaitsAt b j →
    (u.ax b).state = .halted ∧ (u.ax b).haltCause = some .joinBroken ∨ .breakAt b j ∈ u.agenda ∧ u.WaitsAt b j

theorem Cascade.refl (hdev : s.dev = .running) (hbreaks : ∀ k ∈ s.agenda, ∃ b j, k = .breakAt b j) : Cascade s s :=
  ⟨hdev, hbreaks, .refl s, fun _ _ => rfl, fun _ _ => rfl, fun _ _ hmem hwaits => .inr ⟨hmem, hwaits⟩⟩

theorem endsThere_of_break (h : ∃ b j, k = .breakAt b j) : k.endsThere = true := by
  obtain ⟨b, j, rfl⟩ := h
  rfl

theorem Cascade.step (h : Cascade s u) (hk : k ∈ u.agenda) (m : Nat) :
    Cascade s (({ u with agenda := u.agenda.erase k, freeCount := m } : State).runTask k) := by
  have hends := State.runTask_ends (u := { u with agenda := u.agenda.erase k, freeCount := m }) h.dev
    (endsThere_of_break (h.breaks k hk))
  generalize htaken : ({ u with agenda := u.agenda.erase k, freeCount := m } : State).runTask k = t at hends
  obtain ⟨sent, hagenda, hsent⟩ := hends.agenda
  refine ⟨hends.dev.trans h.dev, fun q hq => ?_, h.stays.trans (CausesStay.trans (.of_eq rfl) hends.stays),
    fun b hb => ?_, fun j hj => ?_, fun b j hmem hwaits => ?_⟩
  · rw [hagenda] at hq
    rcases List.mem_append.mp hq with hq | hq
    · exact h.breaks q (List.mem_of_mem_erase hq)
    · exact hsent q hq
  · have hsame := h.axes b hb
    exact (hends.ax_inactive (b := b) (hsame ▸ hb)).trans hsame
  · have hsame := h.points j hj
    exact (hends.point (j := j) (hsame ▸ hj)).trans hsame
  · rcases h.waits b j hmem hwaits with ⟨hhalted, hcause⟩ | ⟨hpending, hstate, c, hc, hholds⟩
    · have hsame : t.ax b = u.ax b := hends.ax_inactive (by
        show (u.ax b).state.active = false
        rw [hhalted]
        rfl)
      exact .inl ⟨by rw [hsame, hhalted], by rw [hsame, hcause]⟩
    · by_cases hthis : k = .breakAt b j
      · left
        have hhalts := State.runTask_breakAt_waiting
          (u := { u with agenda := u.agenda.erase k, freeCount := m }) h.dev hstate hc hholds
        rw [← htaken, hthis]
        rw [hthis] at hhalts
        rw [hhalts, State.halt_ax _ _ _ _ (by
          show (u.ax b).state.active = true
          rw [hstate]
          rfl)]
        exact ⟨rfl, rfl⟩
      · rcases hends.waiting (h.breaks k hk) (b := b) hstate with hsame | hhalted
        · refine .inr ⟨?_, ?_⟩
          · rw [hagenda]
            exact List.mem_append_left _ ((List.mem_erase_of_ne fun e => hthis e.symm).mpr hpending)
          · rw [State.WaitsAt, hsame]
            exact ⟨hstate, c, hc, hholds⟩
        · exact .inl hhalted

/-- Taking a task off leaves less work. -/
theorem TaskEnds.breakWork_lt {m : Nat} (hk : k ∈ u.agenda)
    (h : TaskEnds k { u with agenda := u.agenda.erase k, freeCount := m } t) : t.breakWork < u.breakWork := by
  have hle : t.breakWork ≤ (u.agenda.erase k).length + 8 * u.openPoints := h.breakWork_le
  have hlen := List.length_erase_of_mem hk
  have hpos := List.length_pos_of_mem hk
  show t.breakWork < u.agenda.length + 8 * u.openPoints
  omega

theorem State.openPoints_le (s : State) : s.openPoints ≤ 16 := List.countP_le_length

/-- At the end of the command no break is left. -/
theorem Cascade.settled (hdev : s.dev = .running) (hbreaks : ∀ k ∈ s.agenda, ∃ b j, k = .breakAt b j)
    (hfew : s.agenda.length ≤ 16000) : Cascade s s.settled ∧ s.settled.agenda = [] := by
  refine State.settled_keeps (P := Cascade s) (work := State.breakWork) (fun k m u hk _ hu => ⟨hu.step hk m, ?_⟩)
    (.refl hdev hbreaks) ?_
  · exact (State.runTask_ends (u := { u with agenda := u.agenda.erase k, freeCount := m }) hu.dev
      (endsThere_of_break (hu.breaks k hk))).breakWork_lt hk
  · have hpoints := s.openPoints_le
    show s.agenda.length + 8 * s.openPoints ≤ 16384
    omega

end Sys2Proof.Machine
end

