-- ==== Sys2Proof/Proofs/Halting.lean ====
section
/-!
PROOF. ABORT (R88) and JOIN_TIMEOUT (R126), with the breaks that they lead to.
-/
namespace Sys2Proof.Machine

variable {s t u : State} {a b : Axis} {j : Point}

/-! ### ABORT -/

theorem exec_abort_active (arg : BitVec 12) (hdev : s.dev = .running) (hactive : (s.ax a).state.active = true) :
    exec (.abort a arg) s = .next ((s.answered a 4 arg 1).halt a .aborted 0).settled := by
  have hoff : (s.ax a).state ≠ .off := fun h => by rw [h] at hactive; cases hactive
  have hcheck : abortCheck a (s.write (axisWord a 0) (commandWord 4 arg)) = .accepted := if_pos hactive
  exact congrArg (fun u : State => Host.Outcome.next u.settled)
    (State.commandWrite_accepted (code := 4) (effect := State.halt a .aborted 0) (arg := arg) hdev (by decide) hoff
      hcheck)

/-- The breaks that a halt sends from a quiet state. -/
theorem HaltTold.breaks {cause : HaltCause} {detail : BitVec 8} (h : HaltTold a cause detail s t)
    (hquiet : s.agenda = []) :
    (∀ k ∈ t.agenda, ∃ b j, k = .breakAt b j) ∧ t.agenda.length ≤ 128 ∧
      ∀ b j, s.breaksWith a j → inMask (s.point j).arrivals b = true → .breakAt b j ∈ t.agenda := by
  have htasks : t.agenda = allSixteen.flatMap fun j => if s.breaksWith a j then s.breaksOf j else [] := by
    rw [h.tasks, hquiet, List.nil_append]
  refine ⟨fun k hk => ?_, ?_, fun b j hj hb => ?_⟩
  · rw [htasks] at hk
    obtain ⟨j, -, hj⟩ := List.mem_flatMap.mp hk
    split at hj
    · obtain ⟨b, -, rfl⟩ := List.mem_map.mp hj
      exact ⟨b, j, rfl⟩
    · cases hj
  · have hwork := h.breakWork_le
    have hpoints := s.openPoints_le
    rw [State.breakWork, State.breakWork, hquiet, List.length_nil] at hwork
    omega
  · rw [htasks]
    refine List.mem_flatMap.mpr ⟨j, mem_allSixteen j, ?_⟩
    rw [if_pos hj]
    exact List.mem_map.mpr ⟨b, (mem_maskAxes _ _).mpr hb, rfl⟩

/-- Settles O29. -/
theorem abortHaltsTheAxis : Obligations.AbortHaltsTheAxis := by
  intro a arg s hquiet hdev hactive
  have hactive' : ((s.answered a 4 arg 1).ax a).state.active = true := hactive
  have htold := State.halt_told hactive' .aborted 0
  have hquiet' : (s.answered a 4 arg 1).agenda = [] := hquiet
  have hpoint (j : Point) : (s.answered a 4 arg 1).point j = s.point j := rfl
  have hbreaks (j : Point) : (s.answered a 4 arg 1).breaksWith a j ↔ s.breaksWith a j := Iff.rfl
  have hax (b : Axis) : (s.answered a 4 arg 1).ax b = s.ax b := rfl
  refine ⟨_, exec_abort_active arg hdev hactive, fun hmeeting => ?_, ?_⟩
  · have hhalts := State.halt_of_noMeeting (s := s.answered a 4 arg 1) .aborted 0 hactive' hmeeting
    have hnil : ((s.answered a 4 arg 1).halt a .aborted 0).agenda = [] := by
      rw [htold.tasks, hquiet', List.nil_append]
      refine List.flatMap_eq_nil_iff.mpr fun j _ => if_neg fun hb => ?_
      exact hb.2.2 (hmeeting j hb.1 hb.2.1)
    rw [State.settled_nil _ hnil]
    exact hhalts
  obtain ⟨honly, hfew, hsent⟩ := htold.breaks hquiet'
  generalize (s.answered a 4 arg 1).halt a .aborted 0 = v at htold honly hfew hsent
  have hvdev : v.dev = .running := by
    rw [htold.fields]
    exact hdev
  obtain ⟨hcascade, hnil⟩ := Cascade.settled hvdev honly (by omega)
  have haxis : v.settled.ax a = (s.ax a).halted .aborted 0 :=
    (hcascade.axes a (by rw [htold.halted]; rfl)).trans htold.halted
  rw [haxis]
  refine ⟨rfl, rfl, rfl, rfl, rfl, rfl, rfl, rfl, rfl, hcascade.stays 7 htold.causes.1,
    fun j hmember hopen harrived => ?_⟩
  have hbreak : (s.answered a 4 arg 1).breaksWith a j := ⟨hmember, hopen, harrived⟩
  refine ⟨?_, hcascade.stays 9 (htold.causes.2 ⟨j, hbreak⟩), fun b hb hstate hwaits => ?_⟩
  · have hbroken := htold.broken j hbreak
    refine (hcascade.points j ?_).trans hbroken
    rw [hbroken]
    exact JoinState.noConfusion
  · by_cases hba : b = a
    · rw [hba, haxis]
      rfl
    · have hsame : v.ax b = s.ax b := htold.others b hba
      rcases hcascade.waits b j (hsent b j hbreak hb) (by rw [State.WaitsAt, hsame]; exact ⟨hstate, hwaits⟩) with
        ⟨hhalted, -⟩ | ⟨hleft, -⟩
      · exact hhalted
      · rw [hnil] at hleft
        cases hleft

end Sys2Proof.Machine
end

