-- ==== Sys2Proof/Proofs/JoinWords.lean ====
section
/-!
PROOF. The join table in the exchange RAM (12.1): what the report unit and the release of claims leave of it;
and JOIN_TIMEOUT (R126), whose word +3 stands through the breaks that follow.
-/
namespace Sys2Proof.Machine

variable {s t u : State} {a b : Axis} {i j : Point} {rec : Record} {k : Task}

/-! ### The words of the join table -/

/-- The words of the join table stand. -/
def JoinTableStands (s t : State) : Prop :=
  ∀ addr : Addr, 0x0080 ≤ addr.toNat → addr.toNat < 0x0100 → t.read addr = s.read addr

namespace JoinTableStands

theorem of_ram (h : t.ram = s.ram) : JoinTableStands s t := fun addr _ _ => by rw [State.read, State.read, h]

theorem refl (s : State) : JoinTableStands s s := .of_ram rfl

theorem trans (h : JoinTableStands s t) (k : JoinTableStands t u) : JoinTableStands s u := fun addr hlow hhigh =>
  (k addr hlow hhigh).trans (h addr hlow hhigh)

theorem write {addr : Addr} (k : JoinTableStands s t) (v : Word)
    (h : addr.toNat < 0x0080 ∨ 0x0100 ≤ addr.toNat) : JoinTableStands s (t.write addr v) := fun b hlow hhigh =>
  (State.read_write_ne t (fun e => by rw [e] at h; omega) v).trans (k b hlow hhigh)

/-- Words that begin in a general page end in one, or behind the last word of the RAM. -/
theorem writePage {p : Page} (h : JoinTableStands s t) (hp : isGeneralPage p = true) (off : BitVec 8) {ws : List Word}
    (hlen : ws.length ≤ 128) : JoinTableStands s (t.writeWords (pageWord p off) ws) := fun b hlow hhigh => by
  rw [State.read_writeWords_outside]
  · exact h b hlow hhigh
  · rintro i hi rfl
    have hp : 3 ≤ p.toNat := of_decide_eq_true hp
    have hlast := p.isLt
    have hoff := off.isLt
    rw [BitVec.toNat_add, pageWord_toNat, BitVec.toNat_ofNat] at hlow hhigh
    omega

theorem writePageWord {p : Page} (h : JoinTableStands s t) (hp : isGeneralPage p = true) (off : BitVec 8)
    (v : Word) : JoinTableStands s (t.write (pageWord p off) v) := by
  refine h.write v (.inr ?_)
  have hp : 3 ≤ p.toNat := of_decide_eq_true hp
  rw [pageWord_toNat]
  omega

theorem writeSlot (h : JoinTableStands s t) (k : Slot) (v : SlotState) : JoinTableStands s (t.writeSlot k v) := by
  have hset : JoinTableStands s (t.setSlot k v) := h.trans (.of_ram rfl)
  refine hset.write v.code (.inl ?_)
  rw [slotStateWord_toNat]
  have hk := k.isLt
  omega

theorem setCause (h : JoinTableStands s t) (c : AlertCause) : JoinTableStands s (t.setCause c) :=
  h.trans (.of_ram rfl)

theorem mapReport (h : JoinTableStands s t) (f : ReportUnit → ReportUnit) : JoinTableStands s (t.mapReport f) :=
  h.trans (.of_ram rfl)

end JoinTableStands

/-! ### The report unit -/

/-- The report unit has left the join table and placed on general pages alone. -/
structure TableFrame (s t : State) : Prop where
  stands : JoinTableStands s t
  general : SlotsGeneral t

theorem State.filling_general (hs : SlotsGeneral s) {k : Slot} {p : Page} {records used : Nat}
    (h : s.filling = some (k, p, records, used)) : isGeneralPage p = true := by
  have hk := hs k
  rw [State.slot_of_filling h] at hk
  exact hk

theorem State.searchSlots_table (ks : List Slot) (hs : SlotsGeneral s) : TableFrame s (s.searchSlots ks).2 := by
  induction ks generalizing s with
  | nil => exact ⟨.refl s, hs⟩
  | cons k ks ih =>
    simp only [State.searchSlots]
    split
    · split
      · have hrest := ih ((PlaceFrame.bad k s).general hs)
        exact ⟨(((JoinTableStands.refl s).writeSlot k .bad).setCause _).trans hrest.stands, hrest.general⟩
      · rename_i p hpool
        have hp := State.general_of_poolPage hpool
        exact ⟨((JoinTableStands.refl s).writePage hp 0 (by simp)).writeSlot k _, (PlaceFrame.take k hp _ s).general hs⟩
    · exact ih hs

theorem State.closePage_table (reason : CloseReason) (time : Time) (hs : SlotsGeneral s) :
    TableFrame s (s.closePage reason time) := by
  refine ⟨?_, (s.closePage_placeFrame reason time).general hs⟩
  simp only [State.closePage]
  split
  · exact .refl s
  · rename_i k p records used hfill
    have hwords := ((((JoinTableStands.refl s).writePage (State.filling_general hs hfill) 5
      (ws := [reason.code, time.extractLsb' 0 16, time.extractLsb' 16 16]) (by simp)).writeSlot k (.full (some p))
      |>.mapReport fun r =>
        { r with lastClosed := k, pagesClosed := s.report.pagesClosed + 1, deadline := none }).write (addr := 0x0010)
          (s.report.pagesClosed + 1) (.inl (by decide)))
    split
    · exact hwords
    · exact hwords.setCause .pageClosed

theorem State.placeIn_table {k : Slot} {p : Page} {records used : Nat} (hrec : rec.length ≤ 23)
    (hs : SlotsGeneral s) (h : s.filling = some (k, p, records, used)) :
    TableFrame s (s.placeIn k p records used rec) := by
  refine ⟨?_, (State.placeIn_placeFrame rec h).general hs⟩
  have hp := State.filling_general hs h
  have hlen : (rec.words s.report.seq).length ≤ 128 := by
    rw [Record.words_length]
    omega
  have hwords := (JoinTableStands.refl s).writePage hp (BitVec.ofNat 8 (8 + used)) hlen
  simp only [State.placeIn]
  split
  · exact ((((((hwords.writePageWord hp 1 _).writePageWord hp 3 _).writePageWord hp 4 _).mapReport _).mapReport
      _).write _ (.inl (by decide))).mapReport _
  · exact (((((hwords.writePageWord hp 1 _).writePageWord hp 3 _).writePageWord hp 4 _).mapReport _).mapReport
      _).write _ (.inl (by decide))

theorem State.takeAndPlace_table (hrec : rec.length ≤ 23) (hs : SlotsGeneral s) :
    JoinTableStands s (s.takeAndPlace rec).2 := by
  have h : TableFrame s s.takeSlot.2 := State.searchSlots_table _ hs
  simp only [State.takeAndPlace]
  split
  · rename_i t ht
    rw [ht] at h
    exact h.stands
  · rename_i t ht
    rw [ht] at h
    refine h.stands.trans ?_
    simp only [State.placeFresh]
    split
    · exact .refl t
    · rename_i hfill
      exact (State.placeIn_table hrec h.general hfill).stands

theorem State.tryPlace_table (hrec : rec.length ≤ 23) (hs : SlotsGeneral s) :
    JoinTableStands s (s.tryPlace rec).2 := by
  simp only [State.tryPlace]
  split
  · rename_i hfill
    split
    · exact (State.placeIn_table hrec hs hfill).stands
    · have hclosed := State.closePage_table .full s.timebase hs
      exact hclosed.stands.trans (State.takeAndPlace_table hrec hclosed.general)
  · exact State.takeAndPlace_table hrec hs

theorem State.countDrop_joinTable (s : State) : JoinTableStands s s.countDrop :=
  (((JoinTableStands.refl s).mapReport _).write _ (.inl (by decide))).setCause .recordsDropped

theorem State.oweRecord_joinTable (a : Axis) (rec : Record) (s : State) : JoinTableStands s (s.oweRecord a rec) := by
  simp only [State.oweRecord]
  split
  · exact JoinTableStands.trans (t := s.setOwed a _) (.of_ram rfl) (State.countDrop_joinTable _)
  · split <;> exact .of_ram rfl

theorem State.noRoom_joinTable (rec : Record) (s : State) : JoinTableStands s (s.noRoom rec) := by
  have hcause : JoinTableStands s (s.setCause .roomExhausted) := .of_ram rfl
  simp only [State.noRoom]
  refine hcause.trans ?_
  split
  · split
    · exact State.oweRecord_joinTable _ rec _
    · exact State.countDrop_joinTable _
  · split
    · exact ((JoinTableStands.refl _).mapReport _).write _ (.inl (by decide))
    · split
      · exact State.oweRecord_joinTable _ rec _
      · exact State.countDrop_joinTable _

theorem State.handRecord_joinTable {body : RecordBody} (hlen : body.words.length ≤ 18) (hs : SlotsGeneral s) :
    JoinTableStands s (s.handRecord body) := by
  have hrec : ({ time := s.timebase, body := body } : Record).length ≤ 23 := by
    show 5 + body.words.length ≤ 23
    omega
  have h := State.tryPlace_table hrec hs
  simp only [State.handRecord]
  split
  · rename_i t ht
    rw [ht] at h
    exact h
  · rename_i t ht
    rw [ht] at h
    exact h.trans (State.noRoom_joinTable _ t)

/-! ### Halts and breaks -/

theorem JoinTableStands.releasePage {p : Page} (h : JoinTableStands s t) (hp : isGeneralPage p = true) (c : Claimant)
    (time : Time) : JoinTableStands s (t.releasePage p c time) :=
  ((h.writePage hp 4 (ws := timeWords time ++ [axisLevelWord c.axis c.level]) (by simp [timeWords])).writePageWord hp 1
    3).trans (.of_ram rfl)

theorem State.releaseList_joinTable (time : Time) (l : List (Nat × Claimant)) (s : State)
    (hl : ∀ e ∈ l, 3 ≤ e.1 ∧ e.1 ≤ 127) : JoinTableStands s (s.releaseList time l) := by
  induction l generalizing s with
  | nil => exact .refl s
  | cons e l ih =>
    have hgeneral : isGeneralPage (BitVec.ofNat 7 e.1) = true := by
      have hrange := hl e (.head _)
      rw [isGeneralPage, decide_eq_true_eq, BitVec.toNat_ofNat]
      omega
    exact ((JoinTableStands.refl s).releasePage hgeneral e.2 time).trans (ih _ fun f hf => hl f (.tail _ hf))

theorem State.haltRecorded_joinTable (hlaws : PageLaws s) (a : Axis) (cause : HaltCause) (detail : BitVec 8) :
    JoinTableStands s (s.haltRecorded a cause detail) := by
  have hrelease : JoinTableStands s (s.releaseAxisClaims a) :=
    State.releaseList_joinTable s.timebase _ s fun e he => hlaws.claims e (List.mem_filter.mp he).1
  have hslots : SlotsGeneral ((s.releaseAxisClaims a).setAx a ((s.ax a).halted cause detail)) := by
    refine hlaws.slots.of_slots ?_
    show (s.releaseAxisClaims a).report.slots = s.report.slots
    rw [State.releaseAxisClaims, State.releaseList_fields]
  refine (hrelease.trans ?_).trans (State.handRecord_joinTable ?_ hslots)
  · exact .of_ram rfl
  · simp [RecordBody.words]

theorem JoinTableStands.joinWord (h : JoinTableStands s t) (j : Point) {n : Nat} (hn : n < 8) :
    t.read (joinWord j n) = s.read (joinWord j n) := by
  have hj := j.isLt
  have hword := joinWord_toNat j hn
  exact h _ (by omega) (by omega)

theorem State.read_breakPoint (j : Point) (cause : BreakCause) (s : State) (addr : Addr) :
    (s.breakPoint j cause).read addr = (s.write (joinWord j 3) (JoinState.broken cause).word).read addr := by
  rw [State.breakPoint_eq]
  rfl

/-- The breaks of other points leave the state word of point `j`. -/
theorem State.tellHalted_read (a : Axis) (l : List Point) (hj : (s.point j).state ≠ .opened) :
    (l.foldl (State.breakIfMember a) s).read (joinWord j 3) = s.read (joinWord j 3) := by
  induction l generalizing s with
  | nil => rfl
  | cons i l ih =>
    rw [List.foldl_cons]
    by_cases hbreaks : s.breaksWith a i
    · have hij : i ≠ j := fun e => hj (e ▸ hbreaks.2.1)
      have hstep : State.breakIfMember a s i = s.breakPoint i .memberHalted := if_pos hbreaks
      rw [hstep]
      refine (ih ?_).trans ?_
      · rw [State.breakPoint_eq]
        show ((s.setPoint i _).point j).state ≠ _
        rw [State.point_setPoint_ne s (Ne.symm hij)]
        exact hj
      · rw [State.read_breakPoint]
        refine State.read_write_ne _ (addr_ne_of_toNat ?_) _
        rw [joinWord_toNat i (by decide), joinWord_toNat j (by decide)]
        have := Fin.val_ne_of_ne hij
        omega
    · have hstep : State.breakIfMember a s i = s := if_neg hbreaks
      rw [hstep]
      exact ih hj

/-- The state word of a point that is not OPEN stands through a break. -/
theorem TaskEnds.joinState_read (h : TaskEnds k u t) (hk : ∃ b i, k = .breakAt b i) (hlaws : PageLaws u)
    (hj : (u.point j).state ≠ .opened) : t.read (joinWord j 3) = u.read (joinWord j 3) := by
  obtain ⟨b, i, rfl⟩ := hk
  cases h with
  | nothing => rfl
  | breaks => rfl
  | halts b cause detail _ hactive =>
    rw [State.halt_eq hactive]
    have htable := (u.haltRecorded_joinTable hlaws b cause detail).joinWord j (n := 3) (by decide)
    refine Eq.trans (State.tellHalted_read b allSixteen ?_) htable
    rw [State.haltRecorded_fields]
    exact hj
  | pauses b n htask => cases htask
  | records n rising htask => cases htask

/-! ### JOIN_TIMEOUT -/

/-- A point that a timeout has broken, its state word, and the laws of pages, through the breaks. -/
structure TimedOut (j : Point) (s u : State) : Prop where
  cascade : Cascade s u
  laws : PageLaws u
  word : u.read (joinWord j 3) = s.read (joinWord j 3)

theorem TimedOut.settled (hdev : s.dev = .running) (hbreaks : ∀ k ∈ s.agenda, ∃ b i, k = .breakAt b i)
    (hfew : s.agenda.length ≤ 16000) (hlaws : PageLaws s) (hj : (s.point j).state ≠ .opened) :
    TimedOut j s s.settled ∧ s.settled.agenda = [] := by
  refine State.settled_keeps (P := TimedOut j s) (work := State.breakWork) (fun k m u hk _ hu => ?_)
    ⟨.refl hdev hbreaks, hlaws, rfl⟩ ?_
  · have hends := State.runTask_ends (u := { u with agenda := u.agenda.erase k, freeCount := m }) hu.cascade.dev
      (endsThere_of_break (hu.cascade.breaks k hk))
    have htaken : PageLaws ({ u with agenda := u.agenda.erase k, freeCount := m } : State) :=
      hu.laws.acts (Act.agenda _ m).acts
    have hpoint : (u.point j).state ≠ .opened := by
      rw [hu.cascade.points j hj]
      exact hj
    exact ⟨⟨hu.cascade.step hk m, htaken.acts (.runTask k _),
      (hends.joinState_read (hu.cascade.breaks k hk) htaken hpoint).trans hu.word⟩, hends.breakWork_lt hk⟩
  · have hpoints := s.openPoints_le
    show s.agenda.length + 8 * s.openPoints ≤ 16384
    omega

theorem exec_joinTimeout_due (hdev : s.dev = .running) (hopen : (s.point j).state = .opened)
    (hdeadline : (s.point j).deadline = some s.timebase) :
    exec (.joinTimeout j) s = .next (s.breakPoint j .timeout).settled :=
  if_pos (by simp [State.joinTimeoutDue, hdev, hopen, hdeadline])

theorem breakPoint_pageLaws (hlaws : PageLaws s) (j : Point) (cause : BreakCause) :
    PageLaws (s.breakPoint j cause) := by
  rw [State.breakPoint_eq]
  exact hlaws.of_axes hlaws.contexts (fun _ => id) rfl

/-- Settles O46. -/
theorem joinTimeoutBreaksThePoint : Obligations.JoinTimeoutBreaksThePoint := by
  intro j s hquiet hpage hrecord hdev hopen hdeadline
  refine ⟨_, exec_joinTimeout_due hdev hopen hdeadline, ?_⟩
  have heq := State.breakPoint_eq j .timeout s
  have hlaws := breakPoint_pageLaws ((pageLaws_iff s).mpr ⟨hpage, hrecord⟩) j .timeout
  have hpoint : (s.breakPoint j .timeout).point j = (s.point j).brokenBy .timeout := by
    rw [heq]
    exact State.point_setPoint_same s j _
  have hagenda : (s.breakPoint j .timeout).agenda = s.breaksOf j := by
    rw [heq]
    exact (congrArg (· ++ s.breaksOf j) hquiet).trans (List.nil_append _)
  have hbroken : ((s.breakPoint j .timeout).point j).state ≠ .opened := by
    rw [hpoint]
    exact JoinState.noConfusion
  have hbreaks : ∀ k ∈ (s.breakPoint j .timeout).agenda, ∃ b i, k = .breakAt b i := fun k hk => by
    rw [hagenda] at hk
    obtain ⟨b, -, rfl⟩ := List.mem_map.mp hk
    exact ⟨b, j, rfl⟩
  have hlen := length_breaksOf s j
  have hdev' : (s.breakPoint j .timeout).dev = .running := by
    rw [heq]
    exact hdev
  obtain ⟨htimed, hnil⟩ := TimedOut.settled hdev' hbreaks (by rw [hagenda]; omega) hlaws hbroken
  refine ⟨(htimed.cascade.points j hbroken).trans hpoint, htimed.word.trans ?_, htimed.cascade.stays 9 ?_,
    fun a ha hstate hwaits => ?_, fun hnone => ?_⟩
  · rw [State.read_breakPoint, State.read_write_same]
    rfl
  · rw [heq]
    exact State.setCause_getLsbD ((s.setPoint j _).write _ _) .joinBroken rfl
  · have hmem : Task.breakAt a j ∈ (s.breakPoint j .timeout).agenda := by
      rw [hagenda]
      exact List.mem_map.mpr ⟨a, (mem_maskAxes _ _).mpr ha, rfl⟩
    have hsame : (s.breakPoint j .timeout).ax a = s.ax a := by
      rw [heq]
      rfl
    rcases htimed.cascade.waits a j hmem (by rw [State.WaitsAt, hsame]; exact ⟨hstate, hwaits⟩) with hhalted | ⟨hleft, -⟩
    · exact hhalted
    · rw [hnil] at hleft
      cases hleft
  · have hnone' : s.breaksOf j = [] := by
      rw [State.breaksOf, hnone]
      rfl
    rw [State.settled_nil _ (hagenda.trans hnone'), heq, hnone', List.append_nil]
    rfl

end Sys2Proof.Machine
end

