-- ==== Sys2Proof/Proofs/RunStops.lean ====
section
/-!
PROOF. RUN_STOP in RUNNING (R30, R31): the halts of every active axis, in a free order.
-/
namespace Sys2Proof.Machine

variable {s t u : State} {a b : Axis} {j : Point} {H : Axis → Prop}

/-! ### Halts of several axes, one after another -/

/-- Point `j` is OPEN with arrivals and has a member among the axes of `H`. -/
abbrev State.brokenWith (s : State) (H : Axis → Prop) (j : Point) : Prop :=
  (s.point j).state = .opened ∧ (s.point j).arrivals ≠ 0 ∧ ∃ a, H a ∧ inMask (s.members j) a = true

/-- The active axes of `H` have halted with RUN_STOPPED, one after another. -/
structure HaltedOf (H : Axis → Prop) (s u : State) : Prop where
  fields :
    u = { s with
      ram := u.ram, claims := u.claims, axes := u.axes, points := u.points, acause := u.acause
      report := u.report, freeCount := u.freeCount, agenda := u.agenda }
  law : ClaimLaw u
  halted : ∀ a, H a → u.ax a = (s.ax a).halted .runStopped 0
  others : ∀ a, ¬ H a → u.ax a = s.ax a
  claims : ∀ e ∈ u.claims, e ∈ s.claims ∧ ¬ H e.2.axis
  broken : ∀ j, s.brokenWith H j → u.point j = (s.point j).brokenBy .memberHalted
  whole : ∀ j, ¬ s.brokenWith H j → u.point j = s.point j
  cause : (∃ a, H a) → u.acause.getLsbD 7 = true

theorem HaltedOf.refl (h : ClaimLaw s) : HaltedOf (fun _ => False) s s :=
  ⟨rfl, h, fun _ h => h.elim, fun _ _ => rfl, fun _ he => ⟨he, id⟩, fun _ ⟨_, _, _, h, _⟩ => h.elim, fun _ _ => rfl,
    fun ⟨_, h⟩ => h.elim⟩

theorem HaltedOf.congr {G : Axis → Prop} (h : HaltedOf H s u) (hiff : ∀ a, G a ↔ H a) : HaltedOf G s u := by
  have hsame : G = H := funext fun a => propext (hiff a)
  rwa [hsame]

theorem HaltedOf.free (h : HaltedOf H s u) (m : Nat) : HaltedOf H s { u with freeCount := m } :=
  ⟨by rw [h.fields], h.law, h.halted, h.others, h.claims, h.broken, h.whole, h.cause⟩

/-- One more axis halts. -/
theorem HaltedOf.halt (h : HaltedOf H s u) (hactive : (s.ax a).state.active = true) (hnew : ¬ H a) :
    HaltedOf (fun b => H b ∨ b = a) s (u.halt a .runStopped 0) := by
  have hax := h.others a hnew
  have htold := State.halt_told (s := u) (a := a) (by rw [hax]; exact hactive) .runStopped 0
  have hlaw : ClaimLaw (u.halt a .runStopped 0) :=
    h.law.acts (.of_moves (Moves.halt (a := a) .runStopped 0 u))
  have hmembers (j : Point) : u.members j = s.members j := by
    rw [h.fields]
    rfl
  generalize u.halt a .runStopped 0 = t at htold hlaw
  refine ⟨?_, hlaw, fun b hb => ?_, fun b hb => ?_, fun e he => ?_, fun j hj => ?_, fun j hj => ?_,
    fun _ => htold.causes.1⟩
  · rw [htold.fields, h.fields]
  · by_cases hba : b = a
    · rw [hba, htold.halted, hax]
    · rw [htold.others b hba]
      exact h.halted b (hb.resolve_right hba)
  · rw [htold.others b fun e => hb (.inr e)]
    exact h.others b fun hH => hb (.inl hH)
  · rw [htold.claims] at he
    obtain ⟨hmem, haxis⟩ := h.law.releaseAxisClaims he
    obtain ⟨hold, hnot⟩ := h.claims e hmem
    exact ⟨hold, fun hH => hH.elim hnot haxis⟩
  · obtain ⟨hopen, harrived, b, hb, hmember⟩ := hj
    by_cases hbefore : s.brokenWith H j
    · have hbroken := h.broken j hbefore
      rw [htold.whole j fun hbreaks => ?_, hbroken]
      have hopen' := hbreaks.2.1
      rw [hbroken] at hopen'
      cases hopen'
    · have hsame := h.whole j hbefore
      have hba : b = a := hb.resolve_left fun hH => hbefore ⟨hopen, harrived, b, hH, hmember⟩
      rw [htold.broken j ⟨by rw [hmembers, ← hba]; exact hmember, by rw [hsame]; exact hopen,
        by rw [hsame]; exact harrived⟩, hsame]
  · have hbefore : ¬ s.brokenWith H j := fun ⟨hopen, harrived, b, hb, hmember⟩ =>
      hj ⟨hopen, harrived, b, .inl hb, hmember⟩
    have hsame := h.whole j hbefore
    rw [htold.whole j fun ⟨hmember, hopen, harrived⟩ => ?_, hsame]
    rw [hsame] at hopen harrived
    rw [hmembers] at hmember
    exact hj ⟨hopen, harrived, a, .inr rfl, hmember⟩

theorem State.choose_fields (n : Nat) (s : State) : ∃ i m, s.choose n = (i, { s with freeCount := m }) := by
  simp only [State.choose]
  split
  · exact ⟨0, s.freeCount, rfl⟩
  · exact ⟨_, _, rfl⟩

theorem HaltedOf.inFreeOrder (n : Nat) (as : List Axis) (h : HaltedOf H s u) (hlen : as.length ≤ n)
    (hnodup : as.Nodup) (hactive : ∀ a ∈ as, (s.ax a).state.active = true ∧ ¬ H a) :
    HaltedOf (fun b => H b ∨ b ∈ as) s (u.inFreeOrder (fun a v => v.halt a .runStopped 0) n as) := by
  induction n generalizing as u H with
  | zero =>
    have hnil := List.eq_nil_of_length_eq_zero (Nat.le_zero.mp hlen)
    exact h.congr fun a => by simp [hnil]
  | succ n ih =>
    cases as with
    | nil => exact h.congr fun a => by simp
    | cons c rest =>
      simp only [State.inFreeOrder]
      obtain ⟨i, m, hchoose⟩ := u.choose_fields (rest.length + 1)
      rw [hchoose]
      dsimp only
      have hmem : (c :: rest).getD i c ∈ c :: rest := getD_mem_cons i c rest
      generalize (c :: rest).getD i c = d at hmem ⊢
      obtain ⟨hd, hnew⟩ := hactive d hmem
      have hrest := ih ((c :: rest).erase d) ((h.free m).halt hd hnew)
        (by rw [List.length_erase_of_mem hmem]; exact Nat.le_of_succ_le_succ hlen) (hnodup.erase d)
        fun b hb => ?_
      · refine hrest.congr fun b => ?_
        by_cases hbd : b = d
        · simp [hbd, hmem]
        · simp [hbd, List.mem_erase_of_ne hbd]
      · obtain ⟨hne, hb⟩ := hnodup.mem_erase_iff.mp hb
        obtain ⟨hb, hold⟩ := hactive b hb
        exact ⟨hb, fun h => h.elim hold hne⟩

theorem State.haltsActive_haltedOf (h : ClaimLaw s) :
    HaltedOf (fun a => (s.ax a).state.active = true) s s.haltsActive := by
  have hactive : ∀ a ∈ allAxes.filter fun a => (s.ax a).state.active, (s.ax a).state.active = true ∧ ¬ False :=
    fun a ha => ⟨(List.mem_filter.mp ha).2, id⟩
  exact ((HaltedOf.refl h).inFreeOrder _ _ (le_refl _) (nodup_allAxes.filter _) hactive).congr fun a => by
    simp [mem_allAxes]

/-! ### The end of the span -/

/-- A break that reaches an axis that is not active changes nothing. -/
theorem State.runTask_breakAt_inactive (h : Inactive s) (a : Axis) (j : Point) : s.runTask (.breakAt a j) = s := by
  have hhalt (detail : BitVec 8) : s.halt a .joinBroken detail = s := State.halt_inactive a _ _ s (h a)
  have hpaused : ¬ (s.ax a).state = .paused := fun e => by
    have hinactive := h a
    rw [e] at hinactive
    cases hinactive
  unfold State.runTask
  split
  · show s.breakAt a j = s
    simp only [State.breakAt, hhalt, if_neg hpaused]
    split
    · rfl
    · split
      · rfl
      · split <;> rfl
  · rfl

theorem State.haltsActive_settled (h : Quiet s) :
    ∃ m, s.haltsActive.settled = { s.haltsActive with agenda := [], freeCount := m } := by
  have hinactive := s.haltsActive_inactive
  obtain ⟨tasks, m, hsettle⟩ := State.settle_of_idle settleBound s.haltsActive fun k hk tasks m => by
    obtain ⟨a, j, rfl⟩ := State.haltsActive_breaksOnly h k hk
    exact State.runTask_breakAt_inactive (s := { s.haltsActive with agenda := tasks, freeCount := m }) hinactive a j
  exact ⟨m, by rw [State.settled, hsettle]⟩

/-- The device becomes STOPPED: the FILLING page closes, and no axis changes. -/
theorem State.enterStopped_stands (s : State) :
    s.enterStopped = { s with
      ram := s.enterStopped.ram, dev := .stopped, acause := s.enterStopped.acause, report := s.enterStopped.report } ∧
      s.enterStopped.report.waitList = s.report.waitList ∧ CausesStay s s.enterStopped ∧
      s.enterStopped.acause.getLsbD 2 = true := by
  have hclose : PlaceFrame { s with dev := .stopped }
      (State.closeIfRecords .stop s.timebase { s with dev := .stopped }) ∧
      CausesStay { s with dev := .stopped } (State.closeIfRecords .stop s.timebase { s with dev := .stopped }) := by
    simp only [State.closeIfRecords]
    split
    · exact ⟨.refl _, .refl _⟩
    · split
      · exact ⟨.refl _, .refl _⟩
      · exact ⟨State.closePage_placeFrame _ _ _, .closePage _ _ _⟩
  have heq : s.enterStopped = (State.closeIfRecords .stop s.timebase { s with dev := .stopped }).setCause .runStopped :=
    rfl
  obtain ⟨hframe, hstays⟩ := hclose
  rw [heq]
  generalize State.closeIfRecords .stop s.timebase { s with dev := .stopped } = v at hframe hstays
  refine ⟨?_, hframe.waitList, fun i hi => CausesStay.setCause v .runStopped i (hstays i hi),
    State.setCause_getLsbD v .runStopped rfl⟩
  rw [hframe.fields]
  rfl

/-- The end of RUN_STOP, once every axis has halted. -/
def State.spanEnded (s : State) : State :=
  if s.report.waitList = [] then s.enterStopped else { s with dev := .stopping }

structure SpanEnds (s t : State) : Prop where
  fields : t = { s with ram := t.ram, dev := t.dev, acause := t.acause, report := t.report }
  stays : CausesStay s t
  stopped : t.report.waitList = [] → t.dev = .stopped ∧ t.acause.getLsbD 2 = true
  stopping : t.report.waitList ≠ [] → t.dev = .stopping

theorem State.spanEnded_ends (s : State) : SpanEnds s s.spanEnded := by
  by_cases hwait : s.report.waitList = []
  · have heq : s.spanEnded = s.enterStopped := if_pos hwait
    obtain ⟨hfields, hlist, hstays, hbit⟩ := s.enterStopped_stands
    rw [heq]
    refine ⟨?_, hstays, fun _ => ⟨s.enterStopped_dev, hbit⟩, fun h => absurd (hlist.trans hwait) h⟩
    rw [hfields]
  · have heq : s.spanEnded = { s with dev := .stopping } := if_neg hwait
    rw [heq]
    exact ⟨rfl, .of_eq rfl, fun h => absurd h hwait, fun _ => rfl⟩

/-- Settles O11. -/
theorem runStopHaltsActiveAxes : Obligations.RunStopHaltsActiveAxes := by
  intro s hquiet hclaims hdev
  have hhalted := State.haltsActive_haltedOf hclaims
  obtain ⟨m, hsettled⟩ := State.haltsActive_settled hquiet
  have hexec : exec .runStop s = .next s.stopSpan := by
    show Host.Outcome.next s.runStopCommand = _
    simp only [State.runStopCommand, hdev]
  have hspan : s.stopSpan = State.readBack 2 .taken s.haltsActive.settled.spanEnded := s.stopSpan_eq
  refine ⟨_, hexec, ?_⟩
  rw [hspan, hsettled]
  generalize s.haltsActive = u at hhalted
  have hends := State.spanEnded_ends { u with agenda := [], freeCount := m }
  generalize State.spanEnded { u with agenda := [], freeCount := m } = w at hends
  have hax (a : Axis) : w.ax a = u.ax a := by
    rw [hends.fields]
    rfl
  have hpoint (j : Point) : w.point j = u.point j := by
    rw [hends.fields]
    rfl
  refine ⟨?_, hends.stopped, hends.stopping, fun a ha => ?_, fun a ha => ?_, fun e he => ?_,
    fun j hopen harrived ⟨a, hmember, ha⟩ => ?_, fun j hj => ?_⟩
  · rw [hends.fields, hhalted.fields]
    simp only [State.readBack]
    congr 1
    exact hquiet.symm
  · have hw : (State.readBack 2 .taken w).ax a = (s.ax a).halted .runStopped 0 := (hax a).trans (hhalted.halted a ha)
    rw [hw]
    exact ⟨rfl, rfl, rfl, rfl, rfl, rfl, rfl, rfl, rfl, rfl, rfl, hends.stays 7 (hhalted.cause ⟨a, ha⟩)⟩
  · exact (hax a).trans (hhalted.others a (Bool.eq_false_iff.mp ha))
  · have hmem : e ∈ u.claims := by
      have hclaims : w.claims = u.claims := by rw [hends.fields]
      rw [← hclaims]
      exact he
    obtain ⟨hold, hnot⟩ := hhalted.claims e hmem
    exact ⟨hold, Bool.eq_false_iff.mpr hnot⟩
  · exact (hpoint j).trans (hhalted.broken j ⟨hopen, harrived, a, ha, hmember⟩)
  · refine (hpoint j).trans (hhalted.whole j fun ⟨hopen, harrived, a, ha, hmember⟩ => ?_)
    rcases hj with hclosed | hnone | hinactive
    · exact hclosed hopen
    · exact harrived hnone
    · exact Bool.eq_false_iff.mp (hinactive a hmember) ha

end Sys2Proof.Machine
end

