-- ==== Sys2Proof/Proofs/Watching.lean ====
section
/-!
PROOF. The link and state words that STARVED axes watch (R9, R14, R55, R56): one axis watching, and two that
watch a page which READY opens.
-/
namespace Sys2Proof.Machine

variable {s t u v : State} {a b x y : Axis} {c d : Context} {p : Page} {next : State → State → Prop} {M m : Nat}

/-! ### The entry of an axis as it stands -/

/-- The context that a granted claim leaves at the begin point of segment 0. -/
abbrev Context.granted (c : Context) (s : State) (p : Page) : Context :=
  { c.onPage s p with following := some (s.readRecord p 0) }

theorem State.grantClaim_eq (s : State) (a : Axis) (c : Context) (p : Page) (boundary : Bool) :
    s.grantClaim a c p (s.read (pageWord p 3)).toNat boundary =
      ((s.withClaim a c p).setAx a
        { s.ax a with ctx := some (c.granted s p), gate := .idle, dirty := true }).push (.begin a boundary) := by
  rw [Context.granted, ← s.readRecord_withClaim a c p]
  rfl

theorem State.testEntry_count {hdr : Option Word} {count : Nat} (h : s.testEntry p hdr = .granted count) :
    count = (s.read (pageWord p 3)).toNat := by
  simp only [State.testEntry] at h
  split at h
  · cases h
  · split at h
    · cases h
    · split at h
      · cases h
      · split at h
        · cases h
        · split at h
          · cases h
          · exact (Entry.granted.inj h).symm

/-- An entry sets the rewrite flag in any case. -/
theorem State.enter_setAxState {value : Word} {hdr : Option Word} {boundary : Bool} (hc : (s.ax a).ctx = some c)
    (hactive : (s.ax a).state.active = true) :
    (s.setAxState a (s.ax a).state).enter a value hdr boundary = s.enter a value hdr boundary := by
  have hctx : ((s.setAxState a (s.ax a).state).ax a).ctx = some c := by
    rw [s.setAxState_ax]
    exact hc
  have hhalt (detail : BitVec 8) : (s.setAxState a (s.ax a).state).halt a .badLink detail = s.halt a .badLink detail := by
    have h := State.halt_setAx_congr (s := s) (a := a) (x := { s.ax a with dirty := true }) (y := s.ax a) .badLink
      detail hactive hactive rfl rfl
    rw [State.setAx_ax] at h
    exact h
  have hstarve (w : Wait) :
      (s.setAxState a (s.ax a).state).starve a c w boundary = s.starve a c w boundary := by
    simp only [State.starve, State.setAxState, State.ax_setAx_same, State.setAx_setAx]
  have htest (q : Page) : (s.setAxState a (s.ax a).state).testEntry q hdr = s.testEntry q hdr := rfl
  have hgrant (q : Page) (count : Nat) (h : s.testEntry q hdr = .granted count) :
      (s.setAxState a (s.ax a).state).grantClaim a c q count boundary = s.grantClaim a c q count boundary := by
    obtain rfl : count = (s.read (pageWord q 3)).toNat := State.testEntry_count h
    refine (State.grantClaim_eq (s.setAxState a (s.ax a).state) a c q boundary).trans ?_
    rw [State.grantClaim_eq, s.setAxState_ax]
    exact congrArg (State.push _) (State.setAx_setAx (s := s.withClaim a c q) ..)
  simp only [State.enter, hctx, hc, hhalt, hstarve, htest]
  split
  · rfl
  · split
    · rfl
    · rfl
    · rename_i h
      exact hgrant _ _ h

theorem State.enters_here {value header : Word} {hdr : Option Word} (hnext : Serves a next M)
    (hm : M ≤ m) (hdev : s.dev = .running) (hagenda : s.agenda = []) (hc : (s.ax a).ctx = some c)
    (hst : (s.ax a).state.goesOn) (hp : generalPage? value = some p) (hhdr : header = hdr.getD (s.read (pageWord p 1))) :
    Enters a next c p header s ((s.enter a value hdr false).finish m) := by
  rw [← State.enter_setAxState hc hst.1]
  exact State.enters_chain hnext hm hdev hagenda hc hst hp hhdr

theorem State.follows_here {value : Word} (hnext : Serves a next M) (hm : M ≤ m) (hdev : s.dev = .running)
    (hagenda : s.agenda = []) (hc : (s.ax a).ctx = some c) (hst : (s.ax a).state.goesOn) :
    Follows a next c value s ((s.enter a value none false).finish m) := by
  rw [← State.enter_setAxState hc hst.1]
  exact State.follows_chain hnext hm hdev hagenda hc hst

/-! ### One axis watching -/

theorem allAxes_filter_eq (a : Axis) : (allAxes.filter fun b => b = a) = [a] := by
  revert a
  decide

theorem State.watchers_eq_one {w : Wait} (ha : s.watches a w = true) (h : ∀ b, b ≠ a → s.watches b w = false) :
    s.watchers w = [a] := by
  refine Eq.trans (List.filter_congr fun b _ => ?_) (allAxes_filter_eq a)
  by_cases hb : b = a
  · rw [hb, ha]
    exact (decide_eq_true rfl).symm
  · rw [h b hb]
    exact (decide_eq_false hb).symm

theorem exec_linkWordEvent (hdev : s.dev = .running) (value : Word) :
    exec (.linkWordEvent p value) s =
      .next (if value = 0 then s.write (pageWord p 2) value
        else (s.write (pageWord p 2) value).enterEach value none (s.watchers (.link p))).settled := by
  have hinit : ¬ s.inInit = true := Bool.eq_false_iff.mp (State.inInit_of_running hdev)
  have hrun : ¬ ((s.write (pageWord p 2) value).dev ≠ .running) := fun h => h hdev
  refine (if_neg hinit).trans (congrArg (fun u : State => Host.Outcome.next u.settled) ?_)
  simp only [State.linkWordEvent, hrun, or_false]
  rfl

theorem exec_stateWordEvent (hdev : s.dev = .running) (value : Word) :
    exec (.stateWordEvent p value) s =
      .next (if value = 0 then s.write (pageWord p 1) value
        else (s.write (pageWord p 1) value).enterEach (pageNumber p) (some value) (s.watchers (.state p))).settled := by
  have hinit : ¬ s.inInit = true := Bool.eq_false_iff.mp (State.inInit_of_running hdev)
  have hrun : ¬ ((s.write (pageWord p 1) value).dev ≠ .running) := fun h => h hdev
  refine (if_neg hinit).trans (congrArg (fun u : State => Host.Outcome.next u.settled) ?_)
  simp only [State.stateWordEvent, hrun, or_false]
  rfl

theorem State.enterEach_one (value : Word) (hdr : Option Word) (a : Axis) (s : State) :
    s.enterEach value hdr [a] = s.enter a value hdr false := State.inFreeOrder_one _ _ _ _

/-- The events of a word that at most one axis watches. -/
theorem wordEvents_single (value : Word) (hquiet : Quiet s) (hdev : s.dev = .running) :
    ((value = 0 ∨ ∀ a : Axis, s.watches a (.link p) = false) →
      exec (.linkWordEvent p value) s = .next (s.write (pageWord p 2) value)) ∧
    ((value = 0 ∨ ∀ a : Axis, s.watches a (.state p) = false) →
      exec (.stateWordEvent p value) s = .next (s.write (pageWord p 1) value)) ∧
    (∀ (a : Axis) (c : Context), value ≠ 0 → (s.ax a).ctx = some c →
      s.watches a (.link p) = true → (∀ b : Axis, b ≠ a → s.watches b (.link p) = false) → ∃ t,
      exec (.linkWordEvent p value) s = .next t ∧
      Follows a (BeginPoint a) c value (s.write (pageWord p 2) value) t) ∧
    (∀ (a : Axis) (c : Context), value ≠ 0 → isGeneralPage p = true → (s.ax a).ctx = some c →
      s.watches a (.state p) = true → (∀ b : Axis, b ≠ a → s.watches b (.state p) = false) → ∃ t,
      exec (.stateWordEvent p value) s = .next t ∧
      Enters a (BeginPoint a) c p value (s.write (pageWord p 1) value) t) := by
  have hgoes {a : Axis} {w : Wait} (h : s.watches a w = true) : (s.ax a).state.goesOn := by
    rw [((s.watches_iff a w).mp h).1]
    exact ⟨rfl, AxisState.noConfusion⟩
  rw [exec_linkWordEvent hdev, exec_stateWordEvent hdev]
  refine ⟨fun h => ?_, fun h => ?_, fun a c hvalue hc hwatch hothers => ⟨_, rfl, ?_⟩,
    fun a c hvalue hp hc hwatch hothers => ⟨_, rfl, ?_⟩⟩
  · rcases h with h | h
    · rw [if_pos h]
      exact congrArg _ (State.settled_nil _ hquiet)
    · rw [State.watchers_eq_nil h, State.enterEach_nil, ite_self]
      exact congrArg _ (State.settled_nil _ hquiet)
  · rcases h with h | h
    · rw [if_pos h]
      exact congrArg _ (State.settled_nil _ hquiet)
    · rw [State.watchers_eq_nil h, State.enterEach_nil, ite_self]
      exact congrArg _ (State.settled_nil _ hquiet)
  · rw [if_neg hvalue, State.watchers_eq_one hwatch hothers, State.enterEach_one, State.settled_eq_finish]
    exact State.follows_here (s := s.write (pageWord p 2) value) (beginPoint_serves a) (by decide) hdev hquiet hc
      (hgoes hwatch)
  · rw [if_neg hvalue, State.watchers_eq_one hwatch hothers, State.enterEach_one, State.settled_eq_finish]
    exact State.enters_here (s := s.write (pageWord p 1) value) (beginPoint_serves a) (by decide) hdev hquiet hc
      (hgoes hwatch) (generalPage?_pageNumber hp) rfl

/-! ### What a record leaves of another axis -/

theorem State.oweRecord_owedOf_ne {rec : Record} (h : b ≠ a) : (s.oweRecord a rec).owedOf b = s.owedOf b := by
  have hset (rs : List Record) : (s.report.owed.set a rs)[b] = s.owedOf b := by
    rw [State.owedOf_set, if_neg h]
  simp only [State.oweRecord]
  split
  · exact hset _
  · split <;> exact hset _

theorem State.noRoom_owedOf_ne {rec : Record} (h : rec.body.axis? ≠ some b) : (s.noRoom rec).owedOf b = s.owedOf b := by
  simp only [State.noRoom]
  split
  · split
    · rename_i a _ ha
      exact State.oweRecord_owedOf_ne (s := s.setCause .roomExhausted) fun e => h (e ▸ ha)
    · rfl
  · split
    · rfl
    · split
      · rename_i a _ ha
        exact State.oweRecord_owedOf_ne (s := s.setCause .roomExhausted) fun e => h (e ▸ ha)
      · rfl

/-- A handed record is owed to no axis but its own. -/
theorem State.handRecord_owedOf_ne {body : RecordBody} (h : body.axis? ≠ some b) :
    (s.handRecord body).owedOf b = s.owedOf b := by
  have hplace := (s.tryPlace_placeFrame { time := s.timebase, body := body }).owedOf b
  simp only [State.handRecord]
  split
  · rename_i t ht
    rw [ht] at hplace
    exact hplace
  · rename_i t ht
    rw [ht] at hplace
    exact (State.noRoom_owedOf_ne h).trans hplace

theorem State.tellHalted_report (a : Axis) (s : State) : (s.tellHalted a).report = s.report := by
  rw [(s.tellHalted_told a).fields]

theorem State.halt_owedOf_ne {cause : HaltCause} {detail : BitVec 8} (h : b ≠ a) :
    (s.halt a cause detail).owedOf b = s.owedOf b := by
  cases hactive : (s.ax a).state.active with
  | false => rw [State.halt_inactive a cause detail s hactive]
  | true =>
    rw [State.halt_eq hactive]
    have htold : (((s.haltRecorded a cause detail).tellHalted a).setCause .axisHalted).owedOf b =
        (s.haltRecorded a cause detail).owedOf b :=
      congrArg (fun r : ReportUnit => r.owed[b]) (State.tellHalted_report a (s.haltRecorded a cause detail))
    rw [htold, State.haltRecorded, State.handRecord_owedOf_ne (by simpa [RecordBody.axis?] using Ne.symm h)]
    show (s.releaseAxisClaims a).report.owed[b] = _
    rw [State.releaseAxisClaims, State.releaseList_fields]
    rfl

/-! ### Claims that are not released -/

theorem State.find?_releaseList (time : Time) (l : List (Nat × Claimant)) (s : State) {n : Nat}
    (h : ∀ f ∈ l, (BitVec.ofNat 7 f.1).toNat ≠ n) :
    Sparse.find? (s.releaseList time l).claims n = Sparse.find? s.claims n := by
  induction l generalizing s with
  | nil => rfl
  | cons f l ih =>
    rw [State.releaseList, ih _ fun g hg => h g (List.mem_cons_of_mem _ hg)]
    show Sparse.find? (Sparse.erase s.claims _) n = _
    rw [Sparse.find?_erase, if_neg (h f List.mem_cons_self)]

theorem State.releaseAxisClaims_claims_congr (h : t.claims = s.claims) :
    (t.releaseAxisClaims a).claims = (s.releaseAxisClaims a).claims := by
  rw [State.releaseAxisClaims, State.releaseAxisClaims, State.claims_releaseList, State.claims_releaseList, h]

/-- The claim of another axis stands through a halt. -/
theorem State.find?_releaseAxisClaims {l : Claimant} (hlaw : ClaimLaw s) (hfree : s.claimed p = false)
    (hl : l.axis ≠ a) :
    Sparse.find? (State.releaseAxisClaims a { s with claims := Sparse.insert s.claims p.toNat l }).claims p.toNat =
      some l := by
  rw [State.releaseAxisClaims, State.find?_releaseList]
  · show Sparse.find? (Sparse.insert s.claims p.toNat l) p.toNat = _
    rw [Sparse.find?_insert, if_pos rfl]
  · intro f hf
    obtain ⟨hmem, haxis⟩ := List.mem_filter.mp hf
    rcases Sparse.mem_insert hmem with rfl | hold
    · exact absurd (of_decide_eq_true haxis) hl
    · rw [hlaw.toNat_ofNat hold]
      exact State.not_mem_of_not_claimed hfree hold

/-! ### A segment that begins at once and stays -/

theorem State.begins_congr {r : SegRecord} (hsetup : t.setup = s.setup) (hlines : t.lines = s.lines)
    (hpos : (t.ax a).position = (s.ax a).position) : t.begins a r = s.begins a r := by
  have hmembers (j : Point) : t.members j = s.members j := by rw [State.members, State.members, hsetup]
  have hvalid : t.validKind a r = s.validKind a r := by simp only [State.validKind, hmembers]
  have hlimits : t.limits a = s.limits a := by rw [State.limits, State.limits, hsetup]
  have hnext (f : Bool) : (t.ax a).nextPosition f = (s.ax a).nextPosition f := by
    rw [AxisEngine.nextPosition, AxisEngine.nextPosition, hpos]
  have hlimit (f : Bool) : (t.ax a).pastLimit (t.limits a) f = (s.ax a).pastLimit (s.limits a) f := by
    rw [AxisEngine.pastLimit, AxisEngine.pastLimit, hlimits, hnext]
  have hline : t.line r.line = s.line r.line := by rw [State.line, State.line, hlines]
  simp only [State.begins, hvalid, hlimit, hline]

theorem AxisEngine.gateStep_ctx_state (x : AxisEngine) (dirlead now : Nat) (f : Bool) :
    (x.gateStep dirlead now f).ctx = x.ctx ∧ (x.gateStep dirlead now f).state = x.state := by
  simp only [AxisEngine.gateStep]
  split
  · exact ⟨rfl, rfl⟩
  · split <;> exact ⟨rfl, rfl⟩

theorem AxisEngine.started_ctx_state (x : AxisEngine) (c : Context) (copy : Running) (st : AxisState)
    (dirlead now : Nat) :
    (x.started c copy st dirlead now).ctx = some { c with phase := .inSegment copy } ∧
      (x.started c copy st dirlead now).state = st := by
  cases copy with
  | run n v d w f rep tag => exact AxisEngine.gateStep_ctx_state _ dirlead now f
  | dwell => exact ⟨rfl, rfl⟩
  | join => exact ⟨rfl, rfl⟩
  | waitInput => exact ⟨rfl, rfl⟩

/-- A begin point at which a segment begins and stays, as the last task of the command. -/
theorem State.begins_last {n : Running × AxisState} {r : SegRecord} (hdev : s.dev = .running)
    (hagenda : s.agenda = []) (hc : (s.ax a).ctx = some c) (hphase : c.phase = .atBegin) (hr : c.following = some r)
    (hst : (s.ax a).state.goesOn) (hdirty : (s.ax a).dirty = true) (howes : s.owes a = false)
    (hbegins : s.begins a r = some n) (hm : 4 ≤ m) :
    AxisBecomes a ((s.ax a).started (c.readsNext s) n.1 n.2 s.dirlead s.now) s
      ((s.push (.begin a false)).finish m) := by
  have hserves := atBegin_serves a 1 m s (s.ax a).state c hm hdev hagenda hc hst
  rw [State.setAxState_of_ax rfl hdirty] at hserves
  exact ((hserves hst.2 c hc hphase r hr).2 howes).2.1 n hbegins

/-! ### Two axes watching -/

/-- A state whose only task is `k`. -/
theorem State.eq_push {k : Task} (h : s.agenda = [k]) : s = State.push k { s with agenda := [] } := by
  rw [State.push, List.nil_append, ← h]

/-- Axis `x` enters first, and finds the claim granted; axis `y` finds the page claimed. -/
theorem State.enter_enter {n : Running × AxisState} (hquiet : Quiet s) (hdev : s.dev = .running)
    (hp : isGeneralPage p = true) (hxy : x ≠ y) (hx : s.watches x (.state p) = true)
    (hy : s.watches y (.state p) = true) (hlaw : ClaimLaw s) (hgranted : EntryGranted s p 1)
    (hmeeting : NoMeeting s y) (howes : s.owes x = false) (hbegins : s.begins x (s.readRecord p 0) = some n) :
    EntersFirst x y p n
      (((s.enter x (pageNumber p) (some 1) false).enter y (pageNumber p) (some 1) false).finish settleBound) := by
  obtain ⟨hxstate, c, hxc, -⟩ := (s.watches_iff x _).mp hx
  obtain ⟨hystate, d, hyc, -⟩ := (s.watches_iff y _).mp hy
  have hpage := generalPage?_pageNumber hp
  have hfirst : s.enter x (pageNumber p) (some 1) false =
      ((s.withClaim x c p).setAx x
        { s.ax x with ctx := some (c.granted s p), gate := .idle, dirty := true }).push (.begin x false) := by
    simp only [State.enter, hxc, hpage, State.testEntry_granted (hdr := some 1) hgranted]
    exact s.grantClaim_eq x c p false
  obtain ⟨V, hV⟩ : ∃ V, V = (s.withClaim x c p).setAx x
      { s.ax x with ctx := some (c.granted s p), gate := .idle, dirty := true } := ⟨_, rfl⟩
  rw [← hV] at hfirst
  have hVx : V.ax x = { s.ax x with ctx := some (c.granted s p), gate := .idle, dirty := true } := by
    rw [hV, State.ax_setAx_same]
  have hVy : V.ax y = s.ax y := by
    rw [hV]
    exact State.ax_setAx_ne (s.withClaim x c p) (Ne.symm hxy) _
  have hVclaims : V.claims = Sparse.insert s.claims p.toNat { axis := x, level := c.level } := by
    rw [hV]
    rfl
  have hactive : ((V.push (.begin x false)).ax y).state.active = true := by
    show (V.ax y).state.active = true
    rw [hVy, hystate]
    rfl
  have hclaimed : (V.push (.begin x false)).claimed p = true := by
    show (Sparse.find? V.claims p.toNat).isSome = true
    rw [hVclaims, Sparse.find?_insert, if_pos rfl]
    rfl
  have hsecond : (V.push (.begin x false)).enter y (pageNumber p) (some 1) false =
      (V.push (.begin x false)).halt y .badLink (p.setWidth 8) := by
    have hctx : ((V.push (.begin x false)).ax y).ctx = some d := by
      show (V.ax y).ctx = some d
      rw [hVy]
      exact hyc
    simp only [State.enter, hctx, hpage, State.testEntry_claimed (some 1) hclaimed, linkDetail_of_page hpage]
  have htold := State.halt_told hactive .badLink (p.setWidth 8)
  have howed := State.halt_owedOf_ne (s := V.push (.begin x false)) (a := y) (cause := .badLink)
    (detail := p.setWidth 8) hxy
  rw [hfirst, hsecond]
  generalize (V.push (.begin x false)).halt y .badLink (p.setWidth 8) = T at htold howed
  have hagenda : T.agenda = [.begin x false] := by
    rw [htold.tasks]
    have hnone : (allSixteen.flatMap fun j => if (V.push (.begin x false)).breaksWith y j then
        (V.push (.begin x false)).breaksOf j else []) = [] := by
      refine List.flatMap_eq_nil_iff.mpr fun j _ => if_neg fun hb => ?_
      rw [hV] at hb
      exact hb.2.2 (hmeeting j hb.1 hb.2.1)
    rw [hnone, List.append_nil, hV]
    exact congrArg (· ++ [Task.begin x false]) hquiet
  have hTx : T.ax x = { s.ax x with ctx := some (c.granted s p), gate := .idle, dirty := true } :=
    (htold.others x hxy).trans hVx
  have hfields : T.dev = s.dev ∧ T.setup = s.setup ∧ T.lines = s.lines := by
    rw [htold.fields, hV]
    exact ⟨rfl, rfl, rfl⟩
  obtain ⟨hTdev, hsetup, hlines⟩ := hfields
  have hdone := State.begins_last (s := { T with agenda := [] }) (a := x) (c := c.granted s p) (n := n)
    (m := settleBound) (hTdev.trans hdev) rfl (by
      show (T.ax x).ctx = _
      rw [hTx]) rfl rfl (by
      show (T.ax x).state.goesOn
      rw [hTx]
      exact hxstate ▸ ⟨rfl, AxisState.noConfusion⟩) (by
      show (T.ax x).dirty = true
      rw [hTx]) ?_ ?_ (by decide)
  · have hpush : T.finish settleBound = (State.push (.begin x false) { T with agenda := [] }).finish settleBound := by
      rw [← State.eq_push hagenda]
    rw [hpush]
    generalize (State.push (.begin x false) { T with agenda := [] }).finish settleBound = t at hdone
    obtain ⟨hctx, hstate⟩ := AxisEngine.started_ctx_state (State.ax { T with agenda := [] } x)
      ((c.granted s p).readsNext { T with agenda := [] }) n.1 n.2 (State.dirlead { T with agenda := [] }) T.now
    have htx : t.ax x = _ := (congrArg (fun w : State => w.ax x) hdone).trans (State.ax_setAx_same ..)
    have hty : t.ax y = (s.ax y).halted .badLink (p.setWidth 8) := by
      refine (congrArg (fun w : State => w.ax y) hdone).trans ((State.ax_setAx_ne _ (Ne.symm hxy) _).trans ?_)
      refine htold.halted.trans ?_
      show (V.ax y).halted _ _ = _
      rw [hVy]
    have hclaims : t.claims = (State.releaseAxisClaims y
        { s with claims := Sparse.insert s.claims p.toNat { axis := x, level := c.level } }).claims := by
      refine (congrArg State.claims hdone).trans (htold.claims.trans ?_)
      exact State.releaseAxisClaims_claims_congr hVclaims
    refine ⟨⟨{ (c.granted s p).readsNext { T with agenda := [] } with phase := .inSegment n.1 }, ?_, rfl, rfl, rfl, ?_, ?_⟩,
      ?_, ?_, ?_, ?_⟩
    · rw [htx]
      exact hctx
    · rw [htx]
      exact hstate
    · rw [hclaims]
      exact State.find?_releaseAxisClaims hlaw hgranted.1 hxy
    all_goals rw [hty]; rfl
  · have hnone : V.owedOf x = [] := by
      rw [hV]
      exact (s.owes_eq_false_iff x).mp howes
    exact (State.owes_eq_false_iff _ x).mpr (howed.trans hnone)
  · rw [State.begins_congr (s := s) (t := { T with agenda := [] }) hsetup hlines]
    · exact hbegins
    · show (T.ax x).position = _
      rw [hTx]

theorem State.inFreeOrder_two (f : Axis → State → State) (x y : Axis) (hxy : x ≠ y) (s : State) :
    ∃ m, s.inFreeOrder f 2 [x, y] = f y (f x { s with freeCount := m }) ∨
      s.inFreeOrder f 2 [x, y] = f x (f y { s with freeCount := m }) := by
  simp only [State.inFreeOrder]
  obtain ⟨i, m, hchoose⟩ := s.choose_fields ([y].length + 1)
  rw [hchoose]
  refine ⟨m, ?_⟩
  dsimp only
  rcases List.mem_cons.mp (getD_mem_cons i x [y]) with hchosen | hchosen
  · left
    rw [hchosen, List.erase_cons_head]
    rfl
  · right
    have hy : ([x, y].getD i x) = y := List.mem_singleton.mp hchosen
    have herase : [x, y].erase y = [x] := by
      rw [List.erase_cons_tail (by simpa using hxy), List.erase_cons_head]
    rw [hy, herase]
    rfl

theorem allAxes_filter_pair (a b : Axis) (h : a ≠ b) :
    (allAxes.filter fun d => d = a ∨ d = b) = [a, b] ∨ (allAxes.filter fun d => d = a ∨ d = b) = [b, a] := by
  revert a b
  decide

theorem State.watchers_eq_two {w : Wait} (hab : a ≠ b) (ha : s.watches a w = true) (hb : s.watches b w = true)
    (h : ∀ d, d ≠ a → d ≠ b → s.watches d w = false) : s.watchers w = [a, b] ∨ s.watchers w = [b, a] := by
  have hfilter : s.watchers w = allAxes.filter fun d => d = a ∨ d = b := by
    refine List.filter_congr fun d _ => ?_
    by_cases hda : d = a
    · rw [hda, ha]
      simp
    · by_cases hdb : d = b
      · rw [hdb, hb]
        simp
      · rw [h d hda hdb]
        simp [hda, hdb]
  rw [hfilter]
  exact allAxes_filter_pair a b hab

/-- The two entries after the store of READY and one choice. -/
theorem State.enter_enter_stored {n : Running × AxisState} (k : Nat) (hquiet : Quiet s) (hdev : s.dev = .running)
    (hp : isGeneralPage p = true) (hxy : x ≠ y) (hx : s.watches x (.state p) = true)
    (hy : s.watches y (.state p) = true) (hlaw : ClaimLaw s) (hgranted : EntryGranted s p 1)
    (hmeeting : NoMeeting s y) (howes : s.owes x = false) (hbegins : s.begins x (s.readRecord p 0) = some n) :
    EntersFirst x y p n
      ((((({ s.write (pageWord p 1) 1 with freeCount := k } : State).enter x (pageNumber p) (some 1) false).enter y
        (pageNumber p) (some 1) false)).finish settleBound) := by
  have hread (off : BitVec 8) (hoff : off.toNat ≠ 1) :
      ({ s.write (pageWord p 1) 1 with freeCount := k } : State).read (pageWord p off) = s.read (pageWord p off) := by
    refine State.read_write_ne s (addr_ne_of_toNat ?_) 1
    have hone : (1 : BitVec 8).toNat = 1 := rfl
    rw [pageWord_toNat, pageWord_toNat, hone]
    omega
  have hrecord : ({ s.write (pageWord p 1) 1 with freeCount := k } : State).readRecord p 0 = s.readRecord p 0 :=
    State.readRecord_congr (by decide) fun off hoff => hread off (by omega)
  obtain ⟨hclaimed, hkind, -, hlow, hhigh⟩ := hgranted
  refine State.enter_enter hquiet hdev hp hxy hx hy hlaw ⟨hclaimed, ?_, rfl, ?_, ?_⟩ hmeeting howes ?_
  · rw [hread 0 (by decide), hkind]
  · rw [hread 3 (by decide)]
    exact hlow
  · rw [hread 3 (by decide)]
    exact hhigh
  · rw [hrecord]
    exact hbegins

/-- Settles O39. -/
theorem watchedWordEvents : Obligations.WatchedWordEvents := by
  refine ⟨fun p value s hquiet hdev => wordEvents_single value hquiet hdev,
    fun p a b m n s hquiet hdev hp hab ha hb hothers hlaw hgranted hmeetA hmeetB howesA howesB hbeginsA hbeginsB => ?_⟩
  have hfirst (k : Nat) := State.enter_enter_stored k hquiet hdev hp hab ha hb hlaw hgranted hmeetB howesA hbeginsA
  have hlast (k : Nat) := State.enter_enter_stored k hquiet hdev hp (Ne.symm hab) hb ha hlaw hgranted hmeetA howesB
    hbeginsB
  rw [exec_stateWordEvent hdev, if_neg (by decide), State.settled_eq_finish]
  refine ⟨_, rfl, ?_⟩
  rcases State.watchers_eq_two hab ha hb hothers with hlist | hlist
  · obtain ⟨k, hvisit | hvisit⟩ := State.inFreeOrder_two (fun d u => u.enter d (pageNumber p) (some 1) false) a b hab
      (s.write (pageWord p 1) 1)
    · rw [hlist, State.enterEach]
      exact .inl (hvisit ▸ hfirst k)
    · rw [hlist, State.enterEach]
      exact .inr (hvisit ▸ hlast k)
  · obtain ⟨k, hvisit | hvisit⟩ := State.inFreeOrder_two (fun d u => u.enter d (pageNumber p) (some 1) false) b a
      (Ne.symm hab) (s.write (pageWord p 1) 1)
    · rw [hlist, State.enterEach]
      exact .inr (hvisit ▸ hlast k)
    · rw [hlist, State.enterEach]
      exact .inl (hvisit ▸ hfirst k)

end Sys2Proof.Machine
end

