-- ==== Sys2Proof/Proofs/Together.lean ====
section
/-!
PROOF. Segments of several axes that complete in one command, in a free order (log 6, log 9): a release of a
join point, a level that several axes wait for.
-/
namespace Sys2Proof.Machine

variable {s t u : State} {a b : Axis} {c d : Context} {r : SegRecord} {n : Running × AxisState} {k : Task}

/-! ### A begin point at which a segment begins and stays -/

/-- Whatever else the command has to do. -/
theorem State.begin_begins {st : AxisState} (hc : (s.ax a).ctx = some c) (hphase : c.phase = .atBegin)
    (hr : c.following = some r) (hst : st.goesOn) (howes : s.owes a = false) (hbegins : s.begins a r = some n) :
    AxisBecomes a ((s.ax a).started (c.readsNext s) n.1 n.2 s.dirlead s.now) s ((s.setAxState a st).begin a false) := by
  unfold State.begins at hbegins
  split at hbegins
  case h_1 hkind =>
    split at hbegins
    · cases hbegins
    · rename_i hwithin
      obtain rfl := Option.some.inj hbegins
      have hax : (s.setAx a { (s.ax a).runBegun (c.readsNext s) r with dirty := true }).ax a =
          { (s.ax a).runBegun (c.readsNext s) r with dirty := true } := State.ax_setAx_same s a _
      have hforward : ((s.setAx a { (s.ax a).runBegun (c.readsNext s) r with dirty := true }).ax a).runForward =
          some r.forward := by
        rw [hax]
        rfl
      rw [State.begin_valid hc hphase hr hst howes hkind, State.startSegment_runBegun, State.stepDue_within hforward,
        hax, State.setAx_setAx]
      · exact congrArg (s.setAx a) (AxisEngine.gateStep_dirty ((s.ax a).runBegun (c.readsNext s) r) _ _ _)
      · rw [hax]
        exact Bool.eq_false_iff.mpr hwithin
  case h_2 hkind =>
    split at hbegins
    · cases hbegins
    · rename_i hlong
      obtain rfl := Option.some.inj hbegins
      rw [State.begin_valid hc hphase hr hst howes hkind, State.startSegment_dwell, if_neg hlong, State.runCopy,
        State.setAxState_ax, State.setAxState_setAx]
      rfl
  case h_3 hkind =>
    split at hbegins
    · cases hbegins
    · rename_i hlevel
      obtain rfl := Option.some.inj hbegins
      rw [State.begin_valid hc hphase hr hst howes hkind, State.startSegment_waitInput, if_neg hlevel, State.runCopy,
        State.setAxState_ax, State.setAxState_setAx]
      rfl
  all_goals cases hbegins

theorem State.recorded_ax_ne {kind : SegKind} {report : Bool} {tag : Word} {generation : Option Word} (h : b ≠ a) :
    (s.recorded a c kind report tag generation).ax b = s.ax b := by
  rw [State.recorded]
  split
  · exact State.handRecord_ax_ne _ s (by simpa [RecordBody.axis?] using Ne.symm h)
  · rfl

theorem State.recorded_frame (s : State) (a : Axis) (c : Context) (kind : SegKind) (report : Bool) (tag : Word)
    (generation : Option Word) : ReportFrame s (s.recorded a c kind report tag generation) := by
  rw [State.recorded]
  split
  · exact State.handRecord_frame _ s
  · exact .refl s

theorem TableFrame.refl (h : SlotsGeneral s) : TableFrame s s := ⟨.refl s, h⟩

theorem TableFrame.trans (h : TableFrame s t) (k : TableFrame t u) : TableFrame s u :=
  ⟨h.stands.trans k.stands, k.general⟩

/-- A DONE record leaves the join table as it is. -/
theorem State.recorded_table (hs : SlotsGeneral s) (a : Axis) (c : Context) (kind : SegKind) (report : Bool)
    (tag : Word) (generation : Option Word) : TableFrame s (s.recorded a c kind report tag generation) := by
  rw [State.recorded]
  split
  · refine ⟨State.handRecord_joinTable (RecordBody.length_done ..) hs, ?_⟩
    rcases State.handRecord_placed (s.doneBody a c kind tag generation) s with hplaced | ⟨v, hplaced, hshort⟩
    · exact hplaced.general hs
    · exact (hplaced.general hs).of_slots hshort.slots
  · exact .refl hs

/-! ### The stages of the axes -/

/-- An event leads to a begin point; a begin point leads to nothing more. -/
def Task.weight : Task → Nat
  | .begin _ _ => 1
  | _ => 2

def State.taskWeight (s : State) : Nat := (s.agenda.map Task.weight).sum

/-- What the axes that complete do in a command: the context on which each completes its segment, the record
and the running copy that begin then, and the event that makes it complete. -/
structure Completing where
  axes : Axis → Prop
  context : Axis → Context
  record : Axis → SegRecord
  next : Axis → Running × AxisState
  event : Axis → Task

variable {w : Completing}

/-- The axes that complete in `s`: the context of each stands within its page, the record behind it begins and
stays, and the event makes the axis complete whenever it is taken. -/
structure Completing.Sound (w : Completing) (s : State) : Prop where
  dev : s.dev = .running
  context : ∀ b, w.axes b → (s.ax b).ctx = some (w.context b)
  goesOn : ∀ b, w.axes b → (s.ax b).state.goesOn
  more : ∀ b, w.axes b → (w.context b).index + 1 < (w.context b).count
  following : ∀ b, w.axes b → (w.context b).following = some (w.record b)
  begins : ∀ b, w.axes b → s.begins b (w.record b) = some (w.next b)
  distinct : ∀ b d, w.event b = w.event d → b = d
  weight : ∀ b, (w.event b).weight = 2
  completes : ∀ b, w.axes b → ∀ u : State, u.dev = .running → u.lines = s.lines → u.ax b = s.ax b →
    ∃ kind report tag generation, u.runTask (w.event b) =
      (u.recorded b (w.context b) kind report tag generation).advance b (w.context b) false

theorem Completing.Sound.noBegin (h : w.Sound s) (b d : Axis) (x : Bool) : w.event b ≠ .begin d x := by
  intro e
  have hweight := h.weight b
  rw [e] at hweight
  cases hweight

/-- Where axis `b` stands on the way: its event is still to be taken, or it is at the next begin point, or it has
completed. -/
inductive Completing.Stage (w : Completing) (s : State) (b : Axis) (u : State) : Prop
  | waits (event : w.event b ∈ u.agenda) (none : .begin b false ∉ u.agenda) (engine : u.ax b = s.ax b)
  | advanced (none : w.event b ∉ u.agenda) (task : .begin b false ∈ u.agenda)
      (engine : u.ax b = { s.ax b with ctx := some (w.context b).advanced, gate := .idle, dirty := true })
  | done (none : w.event b ∉ u.agenda) (noTask : .begin b false ∉ u.agenda)
      (completes : JoinCompletes b (w.context b) (w.next b) u)

/-- A state on the way from `s` to the end of the command. -/
structure Completing.Between (w : Completing) (s u : State) : Prop where
  fields :
    u = { s with
      ram := u.ram, axes := u.axes, acause := u.acause, report := u.report, freeCount := u.freeCount
      agenda := u.agenda }
  others : ∀ b, ¬ w.axes b → u.ax b = s.ax b
  nodup : u.agenda.Nodup
  tasks : ∀ k ∈ u.agenda, ∃ b, w.axes b ∧ (k = w.event b ∨ k = .begin b false)
  stage : ∀ b, w.axes b → w.Stage s b u
  table : SlotsGeneral s → TableFrame s u

/-- What another axis does leaves the stage. -/
theorem Completing.Stage.of_other (h : w.Stage s b u) (hax : t.ax b = u.ax b)
    (hevent : w.event b ∈ t.agenda ↔ w.event b ∈ u.agenda)
    (htask : .begin b false ∈ t.agenda ↔ .begin b false ∈ u.agenda) : w.Stage s b t := by
  cases h with
  | waits event none engine => exact .waits (hevent.mpr event) (fun h => none (htask.mp h)) (hax.trans engine)
  | advanced none task engine =>
    exact .advanced (fun h => none (hevent.mp h)) (htask.mpr task) (hax.trans engine)
  | done none noTask completes =>
    refine .done (fun h => none (hevent.mp h)) (fun h => noTask (htask.mp h)) ?_
    rw [JoinCompletes, hax]
    exact completes

theorem State.taskWeight_erase (hk : k ∈ u.agenda) :
    ((u.agenda.erase k).map Task.weight).sum + k.weight = u.taskWeight := by
  rw [State.taskWeight, Nat.add_comm]
  exact List.sum_map_erase _ hk

/-- The event of axis `b` is taken. -/
theorem Completing.Between.event (h : w.Between s u) (hs : w.Sound s) (hb : w.axes b) (hk : w.event b ∈ u.agenda)
    (m : Nat) :
    w.Between s (({ u with agenda := u.agenda.erase (w.event b), freeCount := m } : State).runTask (w.event b)) ∧
      (({ u with agenda := u.agenda.erase (w.event b), freeCount := m } : State).runTask (w.event b)).taskWeight <
        u.taskWeight := by
  obtain ⟨hnoTask, hengine⟩ : .begin b false ∉ u.agenda ∧ u.ax b = s.ax b := by
    cases h.stage b hb with
    | waits _ none engine => exact ⟨none, engine⟩
    | advanced none => exact absurd hk none
    | done none => exact absurd hk none
  have hweight := State.taskWeight_erase hk
  have hdev : u.dev = .running := by rw [h.fields]; exact hs.dev
  have hlines : u.lines = s.lines := by rw [h.fields]
  obtain ⟨kind, report, tag, generation, hrun⟩ := hs.completes b hb
    { u with agenda := u.agenda.erase (w.event b), freeCount := m } hdev hlines hengine
  have hframe := State.recorded_frame { u with agenda := u.agenda.erase (w.event b), freeCount := m } b (w.context b)
    kind report tag generation
  have hne {d : Axis} (hd : d ≠ b) := State.recorded_ax_ne
    (s := { u with agenda := u.agenda.erase (w.event b), freeCount := m }) (c := w.context b) (kind := kind)
    (report := report) (tag := tag) (generation := generation) hd
  obtain ⟨e, he⟩ := State.recorded_ax { u with agenda := u.agenda.erase (w.event b), freeCount := m } b b (w.context b)
    kind report tag generation
  have htable (hslots : SlotsGeneral s) := State.recorded_table
    (s := { u with agenda := u.agenda.erase (w.event b), freeCount := m }) (h.table hslots).general b (w.context b) kind
    report tag generation
  rw [hrun]
  generalize State.recorded { u with agenda := u.agenda.erase (w.event b), freeCount := m } b (w.context b) kind report
    tag generation = v at hframe hne he htable
  have hvagenda : v.agenda = u.agenda.erase (w.event b) := by rw [hframe.fields]
  have hadvance : v.advance b (w.context b) false = (v.withCtx b (w.context b).advanced).push (.begin b false) := by
    rw [State.advance_pushes, if_pos (hs.more b hb)]
  rw [hadvance]
  have htagenda : ((v.withCtx b (w.context b).advanced).push (.begin b false)).agenda =
      u.agenda.erase (w.event b) ++ [.begin b false] := by
    rw [← hvagenda]
    rfl
  have htb : ((v.withCtx b (w.context b).advanced).push (.begin b false)).ax b =
      { s.ax b with ctx := some (w.context b).advanced, gate := .idle, dirty := true } := by
    refine (State.withCtx_ax v b _).trans ?_
    rw [he, ← hengine]
    rfl
  have htd {d : Axis} (hd : d ≠ b) :
      ((v.withCtx b (w.context b).advanced).push (.begin b false)).ax d = u.ax d :=
    (State.ax_setAx_ne v hd _).trans (hne hd)
  have hfields : ((v.withCtx b (w.context b).advanced).push (.begin b false)) =
      { s with
        ram := v.ram, axes := (v.withCtx b (w.context b).advanced).axes, acause := v.acause, report := v.report
        freeCount := m, agenda := u.agenda.erase (w.event b) ++ [.begin b false] } := by
    have hv := hframe.fields
    rw [h.fields] at hv
    have hpush : (v.withCtx b (w.context b).advanced).push (.begin b false) =
        { v with
          axes := (v.withCtx b (w.context b).advanced).axes
          agenda := ((v.withCtx b (w.context b).advanced).push (.begin b false)).agenda } := rfl
    rw [hpush, htagenda]
    generalize (v.withCtx b (w.context b).advanced).axes = axes
    conv_lhs => rw [hv]
  have httable (hslots : SlotsGeneral s) :
      TableFrame s ((v.withCtx b (w.context b).advanced).push (.begin b false)) :=
    (h.table hslots).trans ⟨(htable hslots).stands, (htable hslots).general⟩
  generalize (v.withCtx b (w.context b).advanced).push (.begin b false) = t at htagenda htb htd hfields httable
  have hmem {q : Task} (hq : q ≠ w.event b) (hq' : q ≠ .begin b false) : q ∈ t.agenda ↔ q ∈ u.agenda := by
    rw [htagenda, List.mem_append, List.mem_singleton, List.mem_erase_of_ne hq, or_iff_left hq']
  refine ⟨⟨?_, fun d hd => ?_, ?_, fun q hq => ?_, fun d hd => ?_, httable⟩, ?_⟩
  · rw [hfields]
  · have hdb : d ≠ b := fun e => hd (e ▸ hb)
    exact (htd hdb).trans (h.others d hd)
  · rw [htagenda]
    refine List.nodup_append.mpr ⟨h.nodup.erase _, List.nodup_singleton _, fun q hq r hr => ?_⟩
    rw [List.mem_singleton.mp hr]
    rintro rfl
    exact hnoTask (List.mem_of_mem_erase hq)
  · rw [htagenda] at hq
    rcases List.mem_append.mp hq with hq | hq
    · exact h.tasks q (List.mem_of_mem_erase hq)
    · exact ⟨b, hb, .inr (List.mem_singleton.mp hq)⟩
  · by_cases hdb : d = b
    · rw [hdb]
      refine .advanced ?_ ?_ htb
      · rw [htagenda, List.mem_append, List.mem_singleton, not_or]
        exact ⟨h.nodup.not_mem_erase, hs.noBegin b b false⟩
      · rw [htagenda]
        exact List.mem_append_right _ (List.mem_singleton.mpr rfl)
    · refine (h.stage d hd).of_other (htd hdb) (hmem ?_ (hs.noBegin d b false)) (hmem ?_ ?_)
      · exact fun e => hdb (hs.distinct d b e)
      · exact fun e => hs.noBegin b d false e.symm
      · exact fun e => hdb (Task.begin.inj e).1
  · have hevent := hs.weight b
    rw [State.taskWeight, htagenda, List.map_append, List.sum_append]
    show _ + 1 < _
    omega

/-- The next begin point of axis `b` is taken. -/
theorem Completing.Between.begin (h : w.Between s u) (hs : w.Sound s) (hb : w.axes b)
    (hk : .begin b false ∈ u.agenda) (m : Nat) :
    w.Between s (({ u with agenda := u.agenda.erase (.begin b false), freeCount := m } : State).runTask
        (.begin b false)) ∧
      (({ u with agenda := u.agenda.erase (.begin b false), freeCount := m } : State).runTask
        (.begin b false)).taskWeight < u.taskWeight := by
  obtain ⟨hnoEvent, hengine⟩ : w.event b ∉ u.agenda ∧
      u.ax b = { s.ax b with ctx := some (w.context b).advanced, gate := .idle, dirty := true } := by
    cases h.stage b hb with
    | waits _ none => exact absurd hk none
    | advanced none _ engine => exact ⟨none, engine⟩
    | done _ noTask => exact absurd hk noTask
  have hweight := State.taskWeight_erase hk
  obtain ⟨x, hx, hcompletes⟩ : ∃ x : AxisEngine,
      ({ u with agenda := u.agenda.erase (.begin b false), freeCount := m } : State).runTask (.begin b false) =
        ({ u with agenda := u.agenda.erase (.begin b false), freeCount := m } : State).setAx b x ∧
      ∀ t : State, t.ax b = x → JoinCompletes b (w.context b) (w.next b) t := by
    have hdev : u.dev = .running := by rw [h.fields]; exact hs.dev
    have hctx : (u.ax b).ctx = some (w.context b).advanced := by rw [hengine]
    have hstate : (u.ax b).state = (s.ax b).state := by rw [hengine]
    have hdirty : (u.ax b).dirty = true := by rw [hengine]
    have hgoes : (u.ax b).state.goesOn := hstate ▸ hs.goesOn b hb
    have hbegins : u.begins b (w.record b) = some (w.next b) := by
      rw [State.begins_congr (s := s) (by rw [h.fields]) (by rw [h.fields]) (by rw [hengine])]
      exact hs.begins b hb
    rw [State.runTask_begin (by exact hdev)]
    generalize hv : ({ u with agenda := u.agenda.erase (.begin b false), freeCount := m } : State) = v
    have hax : v.ax b = u.ax b := by rw [← hv]; rfl
    have hself : v.setAxState b (v.ax b).state = v := State.setAxState_of_ax rfl (hax ▸ hdirty)
    have hvctx : (v.ax b).ctx = some (w.context b).advanced := hax ▸ hctx
    cases howes : v.owes b with
    | true =>
      refine ⟨{ v.ax b with state := .reportWait, dirty := true }, ?_, fun t ht => ?_⟩
      · conv_lhs => rw [← hself]
        exact State.begin_owes hvctx rfl (hs.following b hb) (hax ▸ hgoes) howes
      · exact ⟨(w.context b).advanced, by rw [ht]; exact hvctx, rfl, rfl, rfl, rfl, .inr ⟨by rw [ht], rfl⟩⟩
    | false =>
      have hbegun : v.begins b (w.record b) = some (w.next b) := by rw [← hv]; exact hbegins
      have hbecomes := State.begin_begins hvctx rfl (hs.following b hb) (hax ▸ hgoes) howes hbegun
      rw [hself] at hbecomes
      refine ⟨_, hbecomes, fun t ht => ?_⟩
      obtain ⟨hstarted, hstate'⟩ := AxisEngine.started_ctx_state (v.ax b) ((w.context b).advanced.readsNext v)
        (w.next b).1 (w.next b).2 v.dirlead v.now
      exact ⟨{ (w.context b).advanced.readsNext v with phase := .inSegment (w.next b).1 },
        by rw [ht]; exact hstarted, rfl, rfl, rfl, rfl, .inl ⟨by rw [ht]; exact hstate', rfl⟩⟩
  rw [hx]
  have htd {d : Axis} (hd : d ≠ b) :
      (({ u with agenda := u.agenda.erase (.begin b false), freeCount := m } : State).setAx b x).ax d = u.ax d :=
    State.ax_setAx_ne _ hd _
  have hmem {q : Task} (hq : q ≠ .begin b false) : q ∈ u.agenda.erase (.begin b false) ↔ q ∈ u.agenda :=
    List.mem_erase_of_ne hq
  refine ⟨⟨?_, fun d hd => ?_, h.nodup.erase _, fun q hq => h.tasks q (List.mem_of_mem_erase hq),
    fun d hd => ?_, fun hslots => (h.table hslots).trans ⟨.of_ram rfl, (h.table hslots).general⟩⟩, ?_⟩
  · rw [h.fields]
    rfl
  · have hdb : d ≠ b := fun e => hd (e ▸ hb)
    exact (htd hdb).trans (h.others d hd)
  · by_cases hdb : d = b
    · rw [hdb]
      exact .done (fun h => hnoEvent (List.mem_of_mem_erase h)) h.nodup.not_mem_erase
        (hcompletes _ (State.ax_setAx_same _ b x))
    · exact (h.stage d hd).of_other (htd hdb) (hmem (hs.noBegin d b false))
        (hmem fun e => hdb (Task.begin.inj e).1)
  · show ((u.agenda.erase (.begin b false)).map Task.weight).sum < _
    have hone : (Task.begin b false).weight = 1 := rfl
    omega

/-- All axes complete. -/
theorem Completing.settle (hs : w.Sound s) (h : w.Between s s) (m : Nat) (hwork : s.taskWeight ≤ m) :
    w.Between s (s.settle m) ∧ (s.settle m).agenda = [] := by
  refine State.settle_keeps (P := w.Between s) (work := State.taskWeight) (fun k m u hk _ hu => ?_) m s h hwork
  obtain ⟨b, hb, rfl | rfl⟩ := hu.tasks k hk
  · exact hu.event hs hb hk m
  · exact hu.begin hs hb hk m

theorem Completing.Between.completes {m : Running × AxisState} (h : w.Between s u) (hs : w.Sound s)
    (hnil : u.agenda = []) (hb : w.axes b) (hc : (s.ax b).ctx = some c) (hr : c.following = some r)
    (hbegins : s.begins b r = some m) : JoinCompletes b c m u := by
  obtain rfl : w.context b = c := Option.some.inj ((hs.context b hb).symm.trans hc)
  obtain rfl : w.record b = r := Option.some.inj ((hs.following b hb).symm.trans hr)
  obtain rfl : w.next b = m := Option.some.inj ((hs.begins b hb).symm.trans hbegins)
  cases h.stage b hb with
  | waits event => exact absurd event (hnil ▸ List.not_mem_nil)
  | advanced _ task => exact absurd task (hnil ▸ List.not_mem_nil)
  | done _ _ completes => exact completes

/-- What one axis needs, to complete by the event `k`. -/
structure Finishes (b : Axis) (k : Task) (c : Context) (r : SegRecord) (n : Running × AxisState) (s : State) :
    Prop where
  context : (s.ax b).ctx = some c
  goesOn : (s.ax b).state.goesOn
  more : c.index + 1 < c.count
  following : c.following = some r
  begins : s.begins b r = some n
  completes : ∀ u : State, u.dev = .running → u.lines = s.lines → u.ax b = s.ax b →
    ∃ kind report tag generation, u.runTask k = (u.recorded b c kind report tag generation).advance b c false

/-- The axes of `axes` complete, each by its event. -/
theorem Completing.exists_sound {axes : Axis → Prop} {event : Axis → Task} (hdev : s.dev = .running)
    (hdistinct : ∀ b d, event b = event d → b = d) (hweight : ∀ b, (event b).weight = 2)
    (h : ∀ b, axes b → ∃ c r n, Finishes b (event b) c r n s) :
    ∃ w : Completing, w.axes = axes ∧ w.event = event ∧ w.Sound s := by
  have : Nonempty Context := ⟨⟨0, true, none, 0, 0, 0, none, .atBegin⟩⟩
  have : Nonempty SegRecord := ⟨⟨0, 0, 0, 0, 0, 0, 0, 0⟩⟩
  have : Nonempty (Running × AxisState) := ⟨.dwell 0 false 0, .off⟩
  choose! context record next hall using h
  exact ⟨⟨axes, context, record, next, event⟩, rfl, rfl,
    { dev := hdev
      context := fun b hb => (hall b hb).context
      goesOn := fun b hb => (hall b hb).goesOn
      more := fun b hb => (hall b hb).more
      following := fun b hb => (hall b hb).following
      begins := fun b hb => (hall b hb).begins
      distinct := hdistinct
      weight := hweight
      completes := fun b hb => (hall b hb).completes }⟩

theorem State.taskWeight_map {event : Axis → Task} (hweight : ∀ b, (event b).weight = 2) (l : List Axis)
    (hs : s.agenda = l.map event) : s.taskWeight = 2 * l.length := by
  rw [State.taskWeight, hs, List.map_map, List.map_congr_left (f := Task.weight ∘ event) (g := fun _ => 2) fun b _ => hweight b,
    List.map_const', List.sum_replicate, smul_eq_mul, Nat.mul_comm]

/-- The axes of `l` complete, and no others. -/
theorem Completing.finish_list {axes : Axis → Prop} {event : Axis → Task} {l : List Axis} (hdev : s.dev = .running)
    (hagenda : s.agenda = l.map event) (hl : l.Nodup) (hmem : ∀ b, b ∈ l ↔ axes b)
    (hdistinct : ∀ b d, event b = event d → b = d) (hweight : ∀ b, (event b).weight = 2)
    (h : ∀ b, axes b → ∃ c r n, Finishes b (event b) c r n s) {m : Nat} (hm : 16 ≤ m) :
    s.finish m =
        { s with
          ram := (s.finish m).ram, axes := (s.finish m).axes, acause := (s.finish m).acause, report := (s.finish m).report
          freeCount := (s.finish m).freeCount, agenda := [] } ∧
      (∀ b, ¬ axes b → (s.finish m).ax b = s.ax b) ∧
      (∀ b c r n, axes b → (s.ax b).ctx = some c → c.following = some r → s.begins b r = some n →
        JoinCompletes b c n (s.finish m)) ∧
      (SlotsGeneral s → JoinTableStands s (s.finish m)) := by
  obtain ⟨w, rfl, rfl, hs⟩ := Completing.exists_sound hdev hdistinct hweight h
  have hwaits (b : Axis) (hb : w.axes b) : w.event b ∈ s.agenda :=
    hagenda ▸ List.mem_map_of_mem ((hmem b).mpr hb)
  have hnone (b : Axis) : .begin b false ∉ s.agenda := fun hk => by
    obtain ⟨d, -, hd⟩ := List.mem_map.mp (hagenda ▸ hk)
    exact hs.noBegin d b false hd
  have hstart : w.Between s s :=
    { fields := rfl
      others := fun _ _ => rfl
      nodup := hagenda ▸ hl.map fun b d => hs.distinct b d
      tasks := fun k hk => by
        obtain ⟨d, hd, rfl⟩ := List.mem_map.mp (hagenda ▸ hk)
        exact ⟨d, (hmem d).mp hd, .inl rfl⟩
      stage := fun b hb => .waits (hwaits b hb) (hnone b) rfl
      table := .refl }
  have hwork : s.taskWeight ≤ m := by
    rw [State.taskWeight_map hs.weight l hagenda]
    have hlength : l.length ≤ 8 := hl.length_le_card.trans_eq (Fintype.card_fin 8)
    exact (Nat.mul_le_mul_left 2 hlength).trans hm
  obtain ⟨hend, hnil⟩ := Completing.settle hs hstart m hwork
  have hfinish : s.finish m = s.settle m := by rw [State.finish, ← hnil]
  rw [hfinish]
  refine ⟨?_, hend.others, fun b c r n hb hc hr hn => hend.completes hs hnil hb hc hr hn,
    fun hslots => (hend.table hslots).stands⟩
  have hfields := hend.fields
  rw [hnil] at hfields
  exact hfields

end Sys2Proof.Machine
end

