-- ==== Sys2Proof/Proofs/Lines.lean ====
section
/-!
PROOF. The qualified change of an input line (R133 to R142).
-/
namespace Sys2Proof.Machine

variable {s t u : State} {a b : Axis} {n : Line} {c : Context} {timeout : Option Nat} {th rep : Bool} {tag : Word}

/-! ### The tasks of a change -/

theorem State.changeDue_iff : s.changeDue n = true ↔
    s.dev = .running ∧ (s.lineSetup n).filter.toNat + 1 ≤ (s.line n).runCount := by
  rw [State.changeDue, Bool.and_eq_true, beq_iff_eq, decide_eq_true_iff]

theorem AxisEngine.waitsOn_iff {x : AxisEngine} : x.waitsOn n = true ↔
    x.state = .waitInput ∧ ∃ c level timeout th rep tag,
      x.ctx = some c ∧ c.phase = .inSegment (.waitInput n level timeout th rep tag) := by
  rw [AxisEngine.waitsOn, Bool.and_eq_true, beq_iff_eq]
  refine and_congr_right fun _ => ⟨fun h => ?_, ?_⟩
  · split at h
    · cases h
    · rename_i c hc
      split at h
      · rename_i m level timeout th rep tag hphase
        obtain rfl := of_decide_eq_true h
        exact ⟨c, level, timeout, th, rep, tag, hc, hphase⟩
      · cases h
  · rintro ⟨c, level, timeout, th, rep, tag, hc, hphase⟩
    simp only [hc, hphase, decide_true]

/-- The axes that wait on line `n`. -/
def State.waiters (s : State) (n : Line) : List Axis := allAxes.filter fun a => (s.ax a).waitsOn n

theorem State.mem_waiters : a ∈ s.waiters n ↔ (s.ax a).waitsOn n = true := by
  rw [State.waiters, List.mem_filter, and_iff_right (mem_allAxes a)]

theorem State.nodup_waiters : (s.waiters n).Nodup := nodup_allAxes.filter _

theorem State.waiters_nil (h : ∀ a : Axis, (s.ax a).waitsOn n = false) : s.waiters n = [] :=
  List.filter_eq_nil_iff.mpr fun a _ => by rw [h a]; exact Bool.false_ne_true

theorem State.waiters_one (ha : (s.ax a).waitsOn n = true) (h : ∀ b : Axis, b ≠ a → (s.ax b).waitsOn n = false) :
    s.waiters n = [a] := by
  have hiff (b : Axis) : b ∈ s.waiters n ↔ b = a := by
    rw [State.mem_waiters]
    refine ⟨fun hb => by_contra fun hne => ?_, fun e => e ▸ ha⟩
    rw [h b hne] at hb
    cases hb
  exact List.perm_singleton.mp
    ((List.perm_ext_iff_of_nodup State.nodup_waiters (List.nodup_singleton a)).mpr fun b => by
      rw [hiff, List.mem_singleton])

/-- What the action of line `n` sends. -/
def State.actionTasks (s : State) (n : Line) : List Task :=
  match (s.lineSetup n).action with
  | .off => []
  | .halt => (maskAxes (s.lineSetup n).actionMask).map fun a => .tripHalt a n
  | .pause => (maskAxes (s.lineSetup n).actionMask).map fun a => .tripPause a n
  | .interject => (maskAxes (s.lineSetup n).actionMask).map fun a => .tripInterject a n

/-- What an edge of line `n` sends (R136). -/
def State.edgeTasks (s : State) (n : Line) : List Task :=
  (if (s.lineSetup n).capture then [.capture n (!(s.line n).qualified)] else []) ++ s.actionTasks n

/-- What a change of line `n` sends (R135). -/
def State.changeTasks (s : State) (n : Line) : List Task :=
  ((s.waiters n).map fun a => .levelSeen a n) ++ if s.isEdge n then s.edgeTasks n else []

theorem State.sendAction_eq (s : State) (n : Line) :
    s.sendAction n = { s with agenda := s.agenda ++ s.actionTasks n } := by
  rw [State.sendAction, State.actionTasks]
  cases (s.lineSetup n).action with
  | off => rw [List.append_nil]
  | halt => exact State.pushEach_fields _ _ s
  | pause => exact State.pushEach_fields _ _ s
  | interject => exact State.pushEach_fields _ _ s

theorem State.isEdge_eq (s : State) (n : Line) :
    (s.lineSetup n).edge.isMatch (!(s.line n).qualified) = s.isEdge n := by
  rw [State.isEdge]
  cases (s.lineSetup n).edge with
  | falling => exact Bool.not_not _
  | off | rising | both => rfl

theorem State.qualifiedChange_eq (hquiet : Quiet s) (n : Line) :
    s.qualifiedChange n = { s.lineChanged n with agenda := s.changeTasks n } := by
  have hword : (if (!(s.line n).qualified) = true then (1 : Word) else 0) =
      if (s.line n).qualified = true then 0 else 1 := by
    cases (s.line n).qualified <;> rfl
  have hchange : s.qualifiedChange n =
      if s.isEdge n then ((s.lineChanged n).pushEach (fun a => .levelSeen a n) (s.waiters n)).edge n
        (!(s.line n).qualified)
      else (s.lineChanged n).pushEach (fun a => .levelSeen a n) (s.waiters n) := by
    rw [← State.isEdge_eq, State.lineChanged, ← hword]
    simp only [State.qualifiedChange, State.pushEach_fields]
    rfl
  have hagenda : (s.lineChanged n).agenda = [] := hquiet
  rw [hchange, State.pushEach_fields, hagenda, List.nil_append, State.changeTasks]
  split
  · rw [State.edge, State.sendAction_eq, State.edgeTasks]
    split
    · rename_i hcapture
      have hcapture' : (s.lineSetup n).capture = true := hcapture
      rw [if_pos hcapture', ← List.append_assoc]
      rfl
    · rename_i hcapture
      have hcapture' : ¬ (s.lineSetup n).capture = true := hcapture
      rw [if_neg hcapture', List.nil_append]
      rfl
  · rw [List.append_nil]

theorem exec_qualifiedChange_due (hquiet : Quiet s) (hdue : s.changeDue n = true) :
    exec (.qualifiedChange n) s = .next ({ s.lineChanged n with agenda := s.changeTasks n } : State).settled := by
  rw [← State.qualifiedChange_eq hquiet]
  exact if_pos hdue

/-! ### "Level seen" -/

theorem State.lineChanged_line (s : State) (n : Line) :
    (s.lineChanged n).line n = { qualified := !(s.line n).qualified, runCount := 0 } :=
  State.line_setLine_same s n _

theorem State.runTask_levelSeen {level : Bool} (hdev : u.dev = .running) (hstate : (u.ax a).state = .waitInput)
    (hc : (u.ax a).ctx = some c) (hphase : c.phase = .inSegment (.waitInput n level timeout th rep tag))
    (hlevel : (u.line n).qualified = level) :
    u.runTask (.levelSeen a n) = (u.recorded a c .waitInput rep tag none).advance a c false := by
  have hwaits : (u.ax a).waitsOn n = true := AxisEngine.waitsOn_iff.mpr ⟨hstate, c, _, _, _, _, _, hc, hphase⟩
  have htask : u.runTask (.levelSeen a n) = u.levelSeen a n := by
    unfold State.runTask
    exact if_pos hdev
  rw [htask]
  simp only [State.levelSeen, hwaits, hc, hphase, hlevel, if_true]
  rfl

theorem goesOn_waitInput : AxisState.waitInput.goesOn := ⟨rfl, AxisState.noConfusion⟩

/-- Without an edge that sends something a change sends "level seen" only. -/
theorem State.changeTasks_of_silent (h : s.isEdge n = false ∨
    ((s.lineSetup n).capture = false ∧ (s.lineSetup n).action = .off)) :
    s.changeTasks n = (s.waiters n).map fun a => .levelSeen a n := by
  rw [State.changeTasks]
  rcases h with h | ⟨hcapture, haction⟩
  · rw [h, if_neg Bool.false_ne_true, List.append_nil]
  · rw [State.edgeTasks, hcapture, if_neg Bool.false_ne_true, State.actionTasks, haction]
    simp only [List.append_nil, ite_self]

/-- The only axis that waits on the line completes its wait. -/
theorem State.settled_levelSeen {level : Bool} (hdev : s.dev = .running) (hstate : (s.ax a).state = .waitInput)
    (hc : (s.ax a).ctx = some c) (hphase : c.phase = .inSegment (.waitInput n level timeout th rep tag))
    (hlevel : (s.line n).qualified = level) (hquiet : s.agenda = []) :
    ChainGoesOn a c (s.recorded a c .waitInput rep tag none)
      ({ s with agenda := [.levelSeen a n] } : State).settled := by
  have hpush : ({ s with agenda := [.levelSeen a n] } : State) = s.push (.levelSeen a n) := by
    rw [State.push, hquiet]
    rfl
  have hframe := State.recorded_frame s a c .waitInput rep tag none
  rw [hpush, State.settled_eq_finish, show settleBound = 16383 + 1 from rfl, State.finish_push hquiet,
    State.runTask_levelSeen hdev hstate hc hphase hlevel]
  refine State.completes_here (beginPoint_serves a) (by decide) ?_ ?_ ?_ c
  · rw [hframe.fields]
    exact hdev
  · rw [hframe.fields]
    exact hquiet
  · rw [State.recorded_state, hstate]
    exact goesOn_waitInput

/-- All axes that wait on the line complete their waits. -/
theorem State.settled_levelsSeen (hdev : s.dev = .running) (hquiet : s.agenda = [])
    (hwaits : ∀ b : Axis, (s.ax b).waitsOn n = true → ∃ c r m timeout th rep tag, (s.ax b).ctx = some c ∧
      c.phase = .inSegment (.waitInput n (!(s.line n).qualified) timeout th rep tag) ∧ c.index + 1 < c.count ∧
      c.following = some r ∧ (s.lineChanged n).begins b r = some m) :
    ∃ t, t = ({ s.lineChanged n with agenda := (s.waiters n).map fun a => .levelSeen a n } : State).settled ∧
      t =
        { s with
          ram := t.ram, axes := t.axes, lines := (s.lineChanged n).lines, acause := t.acause, report := t.report
          freeCount := t.freeCount } ∧
      (∀ b : Axis, (s.ax b).waitsOn n = false → t.ax b = s.ax b) ∧
      ∀ (b : Axis) (c : Context) (r : SegRecord) (m : Running × AxisState), (s.ax b).waitsOn n = true →
        (s.ax b).ctx = some c → c.following = some r → (s.lineChanged n).begins b r = some m →
        WaitCompletes b c m t := by
  obtain ⟨hfields, hothers, hcompletes, -⟩ := Completing.finish_list
    (s := { s.lineChanged n with agenda := (s.waiters n).map fun a => .levelSeen a n })
    (axes := fun b => (s.ax b).waitsOn n = true) (event := fun b => .levelSeen b n) (l := s.waiters n) hdev rfl
    State.nodup_waiters (fun _ => State.mem_waiters) (fun b d h => (Task.levelSeen.inj h).1) (fun _ => rfl)
    (fun b hb => by
      obtain ⟨c, r, m, timeout, th, rep, tag, hc, hphase, hmore, hfollowing, hbegins⟩ := hwaits b hb
      have hstate : (s.ax b).state = .waitInput := (AxisEngine.waitsOn_iff.mp hb).1
      refine ⟨c, r, m, hc, ?_, hmore, hfollowing, hbegins, fun u hu hlines hax => ?_⟩
      · exact hstate.symm ▸ goesOn_waitInput
      · refine ⟨.waitInput, rep, tag, none, State.runTask_levelSeen hu (hax ▸ hstate) (hax ▸ hc) hphase ?_⟩
        have hline : u.line n = (s.lineChanged n).line n := by rw [State.line, hlines]; rfl
        rw [hline, State.lineChanged_line])
    (m := settleBound) (by decide)
  refine ⟨_, (State.settled_eq_finish _).symm, ?_, fun b hb => hothers b (by simp [hb]), fun b c r m => hcompletes b c r m⟩
  refine hfields.trans ?_
  generalize State.finish _ _ = t
  rw [← hquiet]
  rfl

/-- The edge of a line that only captures. -/
theorem State.settled_capture (hdev : s.dev = .running) (hquiet : s.agenda = []) (level : Bool) :
    ({ s with agenda := [.capture n level] } : State).settled =
      s.handRecord (.capture n level (s.lineSetup n).captureMask
        ((maskAxes (s.lineSetup n).captureMask).map fun a => (s.ax a).position)) := by
  refine State.settled_one _ (Task.capture n level) rfl _ ?_ ?_
  · have htask : s.runTask (.capture n level) = s.capture n level := by
      unfold State.runTask
      exact if_pos hdev
    have hempty : ({ s with agenda := [] } : State) = s := by rw [← hquiet]
    exact (congrArg (fun u => State.runTask (.capture n level) u) hempty).trans htask
  · have hframe := State.handRecord_frame (.capture n level (s.lineSetup n).captureMask
        ((maskAxes (s.lineSetup n).captureMask).map fun a => (s.ax a).position)) s
    rw [hframe.fields]
    exact hquiet

/-- Settles O47. -/
theorem qualifiedChangeOfALine : Obligations.QualifiedChangeOfALine := by
  unfold Obligations.QualifiedChangeOfALine
  refine ⟨fun n s => State.changeDue_iff, fun n x => AxisEngine.waitsOn_iff, fun n s hquiet hdue =>
    ⟨_, exec_qualifiedChange_due hquiet hdue, fun hnone hsilent => ?_, fun hnone hedge hcapture haction => ?_,
      fun a c timeout th rep tag hstate hc hphase hothers hsilent => ?_, fun hsilent hwaits => ?_⟩⟩
  · have htasks : s.changeTasks n = [] := by
      rw [State.changeTasks_of_silent hsilent, State.waiters_nil hnone]
      rfl
    have hempty : ({ s.lineChanged n with agenda := [] } : State) = s.lineChanged n := by
      rw [← hquiet]
      rfl
    rw [htasks, hempty]
    exact State.settled_nil _ hquiet
  · have htasks : s.changeTasks n = [.capture n (!(s.line n).qualified)] := by
      rw [State.changeTasks, State.waiters_nil hnone, if_pos hedge, State.edgeTasks, if_pos hcapture,
        State.actionTasks, haction]
      rfl
    rw [htasks]
    exact State.settled_capture (s := s.lineChanged n) (State.changeDue_iff.mp hdue).1 hquiet _
  · have htasks : s.changeTasks n = [.levelSeen a n] := by
      rw [State.changeTasks_of_silent hsilent, State.waiters_one
        (AxisEngine.waitsOn_iff.mpr ⟨hstate, c, _, _, _, _, _, hc, hphase⟩) hothers]
      rfl
    rw [htasks]
    exact State.settled_levelSeen (s := s.lineChanged n) (State.changeDue_iff.mp hdue).1 hstate hc hphase
      (by rw [State.lineChanged_line]) hquiet
  · obtain ⟨t, ht, hresult⟩ := State.settled_levelsSeen (State.changeDue_iff.mp hdue).1 hquiet hwaits
    rw [State.changeTasks_of_silent hsilent, ← ht]
    exact hresult

end Sys2Proof.Machine
end

