-- ==== Sys2Proof/Proofs/Trips.lean ====
section
/-!
PROOF. The HALT and the PAUSE action of an edge, at all axes of its mask (R138, R139).
-/
namespace Sys2Proof.Machine

variable {s t u : State} {a b : Axis} {n : Line} {k : Task}

/-- The tasks of an edge without waiting axes. -/
theorem State.changeTasks_of_edge (hnone : ∀ a : Axis, (s.ax a).waitsOn n = false) (hedge : s.isEdge n = true) :
    s.changeTasks n = s.edgeTasks n := by
  rw [State.changeTasks, State.waiters_nil hnone, if_pos hedge]
  rfl

/-- The CAPTURE record of an edge, if the line asks for one. -/
theorem State.mem_edgeTasks : k ∈ s.edgeTasks n ↔
    (s.lineSetup n).capture = true ∧ k = .capture n (!(s.line n).qualified) ∨ k ∈ s.actionTasks n := by
  rw [State.edgeTasks, List.mem_append]
  refine or_congr_left ?_
  split
  · rename_i h
    rw [List.mem_singleton, and_iff_right h]
  · rename_i h
    exact ⟨fun hk => (List.not_mem_nil hk).elim, fun hk => absurd hk.1 h⟩

theorem State.length_actionTasks_le (s : State) (n : Line) : (s.actionTasks n).length ≤ 8 := by
  rw [State.actionTasks]
  split
  · exact Nat.zero_le _
  all_goals
    rw [List.length_map]
    exact (nodup_maskAxes _).length_le_card

theorem State.length_edgeTasks_le (s : State) (n : Line) : (s.edgeTasks n).length ≤ 9 := by
  have haction := s.length_actionTasks_le n
  rw [State.edgeTasks, List.length_append]
  split
  · rw [List.length_singleton]
    omega
  · rw [List.length_nil]
    omega

/-! ### HALT -/

/-- A state on the way through the HALT trips of line `n` that `s` has on its agenda. -/
structure Tripping (n : Line) (s u : State) : Prop where
  dev : u.dev = .running
  tasks : ∀ k ∈ u.agenda, k.endsThere = true
  inactive : ∀ b, (s.ax b).state.active = false → u.ax b = s.ax b
  trips : ∀ b, .tripHalt b n ∈ s.agenda → (s.ax b).state.active = true →
    (u.ax b).state = .halted ∨ (u.ax b).state.active = true ∧ .tripHalt b n ∈ u.agenda

theorem Tripping.step (h : Tripping n s u) (hk : k ∈ u.agenda) (m : Nat) :
    Tripping n s (({ u with agenda := u.agenda.erase k, freeCount := m } : State).runTask k) := by
  have hends := State.runTask_ends (u := { u with agenda := u.agenda.erase k, freeCount := m }) h.dev (h.tasks k hk)
  generalize htaken : ({ u with agenda := u.agenda.erase k, freeCount := m } : State).runTask k = t at hends
  obtain ⟨sent, hagenda, hsent⟩ := hends.agenda
  refine ⟨hends.dev.trans h.dev, fun q hq => ?_, fun b hb => ?_, fun b hmem hactive => ?_⟩
  · rw [hagenda] at hq
    rcases List.mem_append.mp hq with hq | hq
    · exact h.tasks q (List.mem_of_mem_erase hq)
    · exact endsThere_of_break (hsent q hq)
  · have hsame := h.inactive b hb
    exact (hends.ax_inactive (b := b) (hsame ▸ hb)).trans hsame
  · rcases h.trips b hmem hactive with hhalted | ⟨hstill, hpending⟩
    · have hsame : t.ax b = u.ax b := hends.ax_inactive (by
        show (u.ax b).state.active = false
        rw [hhalted]
        rfl)
      exact .inl (hsame ▸ hhalted)
    · by_cases hthis : k = .tripHalt b n
      · left
        have hhalts : t = State.halt b .trip (BitVec.ofNat 8 n.val)
            { u with agenda := u.agenda.erase k, freeCount := m } := by
          rw [← htaken, hthis]
          unfold State.runTask
          exact if_pos h.dev
        rw [hhalts, State.halt_ax _ _ _ _ (by exact hstill)]
        rfl
      · rcases hends.active (b := b) hstill with hactive' | hhalted
        · refine .inr ⟨hactive', ?_⟩
          rw [hagenda]
          exact List.mem_append_left _ ((List.mem_erase_of_ne fun e => hthis e.symm).mpr hpending)
        · exact .inl hhalted

/-- The HALT action of an edge, and the other tasks that no chain follows. -/
theorem Tripping.settled (hdev : s.dev = .running) (htasks : ∀ k ∈ s.agenda, k.endsThere = true)
    (hfew : s.agenda.length ≤ 16000) : Tripping n s s.settled ∧ s.settled.agenda = [] := by
  refine State.settled_keeps (P := Tripping n s) (work := State.breakWork) (fun k m u hk _ hu => ⟨hu.step hk m, ?_⟩)
    ⟨hdev, htasks, fun _ _ => rfl, fun _ hmem hactive => .inr ⟨hactive, hmem⟩⟩ ?_
  · exact (State.runTask_ends (u := { u with agenda := u.agenda.erase k, freeCount := m }) hu.dev
      (hu.tasks k hk)).breakWork_lt hk
  · have hpoints := s.openPoints_le
    show s.agenda.length + 8 * s.openPoints ≤ 16384
    omega

/-! ### PAUSE -/

/-- The state that PAUSE gives an axis (R83, R84). -/
def AxisState.pausedFrom (st : AxisState) : AxisState :=
  if st = .running then .pausing
  else if st = .dwelling ∨ st = .waitJoin ∨ st = .waitInput ∨ st = .starved ∨ st = .reportWait then .paused
  else st

theorem AxisState.pausesAtOnce_iff {st : AxisState} : st.pausesAtOnce = true ↔
    st = .dwelling ∨ st = .waitJoin ∨ st = .waitInput ∨ st = .starved ∨ st = .reportWait := by
  cases st <;> simp [AxisState.pausesAtOnce]

theorem State.pauseAxis_running (h : (u.ax a).state = .running) : u.pauseAxis a = u.setAxState a .pausing := if_pos h

theorem State.pauseAxis_atOnce (h : (u.ax a).state.pausesAtOnce = true) :
    u.pauseAxis a = u.setAxState a .paused := by
  have hne : ¬ (u.ax a).state = .running := fun e => by
    rw [e] at h
    cases h
  exact (if_neg hne).trans (if_pos h)

theorem State.pauseAxis_nothing (hrunning : (u.ax a).state ≠ .running)
    (h : (u.ax a).state.pausesAtOnce = false) : u.pauseAxis a = u :=
  (if_neg hrunning).trans (if_neg (Bool.eq_false_iff.mp h))

theorem State.pauseAxis_state (u : State) (a : Axis) :
    ((u.pauseAxis a).ax a).state = (u.ax a).state.pausedFrom := by
  rw [AxisState.pausedFrom]
  by_cases hrunning : (u.ax a).state = .running
  · rw [if_pos hrunning, State.pauseAxis_running hrunning, State.setAxState_ax]
  · rw [if_neg hrunning]
    cases honce : (u.ax a).state.pausesAtOnce with
    | true => rw [if_pos (AxisState.pausesAtOnce_iff.mp honce), State.pauseAxis_atOnce honce, State.setAxState_ax]
    | false =>
      rw [if_neg fun h => Bool.eq_false_iff.mp honce (AxisState.pausesAtOnce_iff.mpr h),
        State.pauseAxis_nothing hrunning honce]

theorem State.pauseAxis_ax_ne (u : State) (h : b ≠ a) : (u.pauseAxis a).ax b = u.ax b := by
  rcases u.pauseAxis_eq a with hsame | ⟨st, -, -, hset⟩
  · rw [hsame]
  · rw [hset]
    exact State.ax_setAx_ne u h _

theorem State.pauseAxis_agenda (u : State) (a : Axis) : (u.pauseAxis a).agenda = u.agenda := by
  rcases u.pauseAxis_eq a with hsame | ⟨st, -, -, hset⟩
  · rw [hsame]
  · rw [hset]
    rfl

theorem State.pauseAxis_dev (u : State) (a : Axis) : (u.pauseAxis a).dev = u.dev := by
  rcases u.pauseAxis_eq a with hsame | ⟨st, -, -, hset⟩
  · rw [hsame]
  · rw [hset]
    rfl

theorem State.runTask_tripPause (hdev : u.dev = .running) : u.runTask (.tripPause a n) = u.pauseAxis a := by
  unfold State.runTask
  exact if_pos hdev

theorem State.runTask_capture {rising : Bool} (hdev : u.dev = .running) :
    u.runTask (.capture n rising) = u.capture n rising := by
  unfold State.runTask
  exact if_pos hdev

/-- A state on the way through the PAUSE trips of line `n` that `s` has on its agenda. -/
structure Pausing (n : Line) (s u : State) : Prop where
  dev : u.dev = .running
  nodup : u.agenda.Nodup
  tasks : ∀ k ∈ u.agenda, k ∈ s.agenda
  states : ∀ b, (u.ax b).state =
    if .tripPause b n ∈ s.agenda ∧ .tripPause b n ∉ u.agenda then (s.ax b).state.pausedFrom else (s.ax b).state

theorem Pausing.step (h : Pausing n s u)
    (hall : ∀ k ∈ s.agenda, (∃ b, k = .tripPause b n) ∨ ∃ rising, k = .capture n rising) (hk : k ∈ u.agenda)
    (m : Nat) :
    Pausing n s (({ u with agenda := u.agenda.erase k, freeCount := m } : State).runTask k) ∧
      (({ u with agenda := u.agenda.erase k, freeCount := m } : State).runTask k).agenda = u.agenda.erase k := by
  have hmem {q : Task} (hq : q ≠ k) : q ∈ u.agenda.erase k ↔ q ∈ u.agenda := List.mem_erase_of_ne hq
  rcases hall k (h.tasks k hk) with ⟨b, rfl⟩ | ⟨rising, rfl⟩
  · rw [State.runTask_tripPause (by exact h.dev)]
    refine ⟨⟨(State.pauseAxis_dev _ b).trans h.dev, ?_, fun q hq => ?_, fun d => ?_⟩, State.pauseAxis_agenda _ b⟩
    · rw [State.pauseAxis_agenda]
      exact h.nodup.erase _
    · rw [State.pauseAxis_agenda] at hq
      exact h.tasks q (List.mem_of_mem_erase hq)
    · rw [State.pauseAxis_agenda]
      by_cases hdb : d = b
      · have hbefore := h.states b
        rw [if_neg fun hnot => hnot.2 hk] at hbefore
        rw [hdb, State.pauseAxis_state, if_pos ⟨h.tasks _ hk, h.nodup.not_mem_erase⟩]
        exact congrArg AxisState.pausedFrom hbefore
      · rw [State.pauseAxis_ax_ne _ hdb]
        simp only [hmem fun e => hdb (Task.tripPause.inj e).1]
        exact h.states d
  · rw [State.runTask_capture (by exact h.dev)]
    have hframe := State.capture_frame { u with agenda := u.agenda.erase (.capture n rising), freeCount := m } n rising
    refine ⟨⟨?_, ?_, fun q hq => ?_, fun d => ?_⟩, ?_⟩
    · rw [hframe.fields]
      exact h.dev
    · rw [hframe.fields]
      exact h.nodup.erase _
    · rw [hframe.fields] at hq
      exact h.tasks q (List.mem_of_mem_erase hq)
    · rw [State.capture_ax, hframe.fields]
      simp only [hmem (q := .tripPause d n) fun e => by cases e]
      exact h.states d
    · rw [hframe.fields]

/-- The PAUSE action of an edge, and its CAPTURE record. -/
theorem Pausing.settled (hdev : s.dev = .running) (hnodup : s.agenda.Nodup)
    (hall : ∀ k ∈ s.agenda, (∃ b, k = .tripPause b n) ∨ ∃ rising, k = .capture n rising)
    (hfew : s.agenda.length ≤ 16000) : Pausing n s s.settled ∧ s.settled.agenda = [] := by
  refine State.settled_keeps (P := Pausing n s) (work := fun u => u.agenda.length) (fun k m u hk _ hu => ?_)
    ⟨hdev, hnodup, fun _ h => h, fun b => by rw [if_neg fun h => h.2 h.1]⟩ (hfew.trans (by decide))
  obtain ⟨hstep, hagenda⟩ := hu.step hall hk m
  refine ⟨hstep, ?_⟩
  have hlen := List.length_erase_of_mem hk
  have hpos := List.length_pos_of_mem hk
  rw [hagenda]
  omega

end Sys2Proof.Machine
end

