-- ==== Sys2Proof/Proofs/Pushes.lean ====
section
/-!
SUPPORT. What the report unit and the claims do does not depend on the tasks of the command: a record that is
handed over, and a halt that meets no join point, commute with a task sent before.
-/
namespace Sys2Proof.Machine

variable {s t : State} {a b : Axis} {k : Task} {rec : Record}

theorem State.searchSlots_push (ks : List Slot) (s : State) :
    (s.push k).searchSlots ks = ((s.searchSlots ks).1, (s.searchSlots ks).2.push k) := by
  induction ks generalizing s with
  | nil => rfl
  | cons i ks ih =>
    have hslot : (s.push k).slot i = s.slot i := rfl
    have hpool : (s.push k).poolPage i = s.poolPage i := rfl
    simp only [State.searchSlots, hslot, hpool]
    split
    · split
      · exact ih ((s.writeSlot i .bad).setCause .slotFault)
      · rfl
    · exact ih s

theorem State.closePage_push (reason : CloseReason) (time : Time) (s : State) :
    (s.push k).closePage reason time = (s.closePage reason time).push k := by
  have hfill : (s.push k).filling = s.filling := rfl
  simp only [State.closePage, hfill]
  split
  · rfl
  · split <;> rfl

theorem State.placeIn_push (i : Slot) (p : Page) (records used : Nat) (rec : Record) (s : State) :
    (s.push k).placeIn i p records used rec = (s.placeIn i p records used rec).push k := by
  simp only [State.placeIn]
  split <;> rfl

theorem State.takeAndPlace_push (rec : Record) (s : State) :
    (s.push k).takeAndPlace rec = ((s.takeAndPlace rec).1, (s.takeAndPlace rec).2.push k) := by
  have htake : (s.push k).takeSlot = (s.takeSlot.1, s.takeSlot.2.push k) := State.searchSlots_push _ s
  simp only [State.takeAndPlace, htake]
  generalize s.takeSlot = r
  obtain ⟨found, u⟩ := r
  cases found
  · rfl
  · have hfill : (u.push k).filling = u.filling := rfl
    simp only [State.placeFresh, hfill]
    split
    · rfl
    · rw [State.placeIn_push]

theorem State.tryPlace_push (rec : Record) (s : State) :
    (s.push k).tryPlace rec = ((s.tryPlace rec).1, (s.tryPlace rec).2.push k) := by
  have hfill : (s.push k).filling = s.filling := rfl
  have htime : (s.push k).timebase = s.timebase := rfl
  simp only [State.tryPlace, hfill, htime]
  split
  · split
    · rw [State.placeIn_push]
    · rw [State.closePage_push, State.takeAndPlace_push]
  · exact State.takeAndPlace_push rec s

theorem State.oweRecord_push (b : Axis) (rec : Record) (s : State) :
    (s.push k).oweRecord b rec = (s.oweRecord b rec).push k := by
  have howed : (s.push k).owedOf b = s.owedOf b := rfl
  simp only [State.oweRecord, howed]
  split
  · rfl
  · split <;> rfl

theorem State.noRoom_push (rec : Record) (s : State) : (s.push k).noRoom rec = (s.noRoom rec).push k := by
  have hcause : (s.push k).setCause .roomExhausted = (s.setCause .roomExhausted).push k := rfl
  have howner : ((s.setCause .roomExhausted).push k).ownerOwes rec.body =
      (s.setCause .roomExhausted).ownerOwes rec.body := rfl
  have hqueue : ((s.setCause .roomExhausted).push k).report = (s.setCause .roomExhausted).report := rfl
  have hkeeps : (match rec.body.essential, rec.body.axis? with
        | true, some b => ((s.setCause .roomExhausted).push k).oweRecord b rec
        | _, _ => ((s.setCause .roomExhausted).push k).countDrop) =
      (match rec.body.essential, rec.body.axis? with
        | true, some b => (s.setCause .roomExhausted).oweRecord b rec
        | _, _ => (s.setCause .roomExhausted).countDrop).push k := by
    split
    · exact State.oweRecord_push _ rec _
    · rfl
  simp only [State.noRoom, hcause, howner, hqueue]
  split
  · exact hkeeps
  · split
    · rfl
    · exact hkeeps

/-- A record that is handed over commutes with a task sent. -/
theorem State.handRecord_push (body : RecordBody) (s : State) :
    (s.push k).handRecord body = (s.handRecord body).push k := by
  have htime : (s.push k).timebase = s.timebase := rfl
  simp only [State.handRecord, htime, State.tryPlace_push]
  generalize s.tryPlace _ = r
  obtain ⟨placed, u⟩ := r
  cases placed
  · exact State.noRoom_push _ u
  · rfl

theorem State.recorded_push (s : State) (a : Axis) (c : Context) (kind : SegKind) (report : Bool) (tag : Word)
    (generation : Option Word) :
    (s.push k).recorded a c kind report tag generation = (s.recorded a c kind report tag generation).push k := by
  have hax : (s.push k).ax a = s.ax a := rfl
  rw [State.recorded, State.recorded, hax]
  split
  · exact State.handRecord_push _ s
  · rfl

theorem State.releaseList_push (time : Time) (l : List (Nat × Claimant)) (s : State) :
    (s.push k).releaseList time l = (s.releaseList time l).push k := by
  induction l generalizing s with
  | nil => rfl
  | cons e l ih => exact ih (s.releasePage (BitVec.ofNat 7 e.1) e.2 time)

theorem State.releaseAxisClaims_push (b : Axis) (s : State) :
    (s.push k).releaseAxisClaims b = (s.releaseAxisClaims b).push k :=
  State.releaseList_push s.timebase _ s

/-- A halt that meets no join point commutes with a task sent. -/
theorem State.halt_push {cause : HaltCause} {detail : BitVec 8} (hactive : (s.ax a).state.active = true)
    (hmeeting : NoMeeting s a) : (s.push k).halt a cause detail = (s.halt a cause detail).push k := by
  rw [State.halt_of_noMeeting cause detail hactive hmeeting,
    State.halt_of_noMeeting (s := s.push k) cause detail hactive hmeeting, State.releaseAxisClaims_push]
  have hax : (s.push k).ax a = s.ax a := rfl
  rw [hax, State.handRecord_push]
  rfl

end Sys2Proof.Machine
end

