-- ==== Sys2Proof/Proofs/Edges.lean ====
section
/-!
PROOF. The action of an edge at one axis, alone, with the CAPTURE record, or with a wait of that axis (R136 to
R141).
-/
namespace Sys2Proof.Machine

variable {s t u : State} {a b : Axis} {n : Line} {k k₁ k₂ : Task} {c : Context} {m : Nat}

/-! ### Two tasks -/

/-- Two events are taken in either order. -/
theorem State.settled_two (h₁ : k₁.movesChain = false) (h₂ : k₂.movesChain = false) (hne : k₁ ≠ k₂)
    (hagenda : s.agenda = []) :
    ({ s with agenda := [k₁, k₂] } : State).settled =
        ((({ s with freeCount := s.freeCount + 1 } : State).push k₂).runTask k₁).finish 16383 ∨
      ({ s with agenda := [k₁, k₂] } : State).settled =
        ((({ s with freeCount := s.freeCount + 1 } : State).push k₁).runTask k₂).finish 16383 := by
  have hfilter : [k₁, k₂].filter (Task.mayRun [k₁, k₂]) = [k₁, k₂] := by
    simp [Task.mayRun, h₁, h₂]
  have hpush (k : Task) : ({ s with freeCount := s.freeCount + 1 } : State).push k =
      { s with freeCount := s.freeCount + 1, agenda := [k] } := by
    rw [State.push, hagenda]
    rfl
  have herase : [k₁, k₂].erase k₂ = [k₁] := by
    rw [List.erase_cons_tail (by simpa using hne), List.erase_cons_head]
  have hnext (i : Nat) (hi : Config.freeOrder s.freeCount % 2 = i) :
      ({ s with agenda := [k₁, k₂] } : State).nextTask = some ([k₁, k₂].getD i k₁,
        { s with freeCount := s.freeCount + 1, agenda := [k₁, k₂].erase ([k₁, k₂].getD i k₁) }) := by
    rw [← hi]
    simp only [State.nextTask, hfilter]
    rfl
  have hfinish {k' : Task} {v : State} (h : ({ s with agenda := [k₁, k₂] } : State).nextTask = some (k', v)) :
      ({ s with agenda := [k₁, k₂] } : State).settled = (v.runTask k').finish 16383 := by
    rw [State.settled_eq_finish, State.finish, show settleBound = 16383 + 1 from rfl, State.settle, h]
    rfl
  rcases Nat.mod_two_eq_zero_or_one (Config.freeOrder s.freeCount) with h | h
  · left
    have hfirst : [k₁, k₂].erase k₁ = [k₂] := List.erase_cons_head ..
    rw [hfinish (hnext 0 h), hpush]
    show (State.runTask k₁ { s with freeCount := s.freeCount + 1, agenda := [k₁, k₂].erase k₁ }).finish 16383 = _
    rw [hfirst]
  · right
    rw [hfinish (hnext 1 h), hpush]
    show (State.runTask k₂ { s with freeCount := s.freeCount + 1, agenda := [k₁, k₂].erase k₂ }).finish 16383 = _
    rw [herase]

/-- One task alone. -/
theorem State.settled_single (hagenda : s.agenda = []) :
    ({ s with agenda := [k] } : State).settled = (s.runTask k).finish 16383 := by
  have hpush : ({ s with agenda := [k] } : State) = s.push k := by
    rw [State.push, hagenda]
    rfl
  rw [hpush, State.settled_eq_finish, show settleBound = 16383 + 1 from rfl, State.finish_push hagenda]

/-! ### A trip that reaches one axis -/

theorem State.runTask_tripHalt (hdev : s.dev = .running) :
    s.runTask (.tripHalt a n) = s.halt a .trip (BitVec.ofNat 8 n.val) := by
  unfold State.runTask
  exact if_pos hdev

theorem State.runTask_tripInterject (hdev : s.dev = .running) :
    s.runTask (.tripInterject a n) = s.tripInterject a n := by
  unfold State.runTask
  exact if_pos hdev

theorem State.tripHalts (hdev : s.dev = .running) (hagenda : s.agenda = []) :
    TripHalts a n s ((s.runTask (.tripHalt a n)).finish m) := by
  rw [State.runTask_tripHalt hdev]
  refine ⟨fun hactive hmeeting => (State.halt_of_noMeeting _ _ hactive hmeeting).finish hagenda,
    fun hinactive => ?_⟩
  rw [State.halt_inactive _ _ _ _ hinactive, State.finish_nil hagenda]

/-- What PAUSE makes of an axis. -/
theorem State.pauseAxis_cases (s : State) (a : Axis) : TripPauses a s (s.pauseAxis a) := by
  refine ⟨State.pauseAxis_running, fun h => State.pauseAxis_atOnce (AxisState.pausesAtOnce_iff.mpr h), fun h => ?_⟩
  rcases h with h | h | h | h | h <;>
    exact State.pauseAxis_nothing (by rw [h]; exact AxisState.noConfusion) (by rw [h]; rfl)

theorem State.tripPauses (hdev : s.dev = .running) (hagenda : s.agenda = []) :
    TripPauses a s ((s.runTask (.tripPause a n)).finish m) := by
  rw [State.runTask_tripPause hdev, State.finish_nil ((State.pauseAxis_agenda s a).trans hagenda)]
  exact s.pauseAxis_cases a

/-- A state with a request of a trip at axis `a`, where the level-3 slot is empty. -/
theorem State.tripInterject_places (hoff : (s.ax a).state ≠ .off) (hhalted : (s.ax a).state ≠ .halted)
    (hthree : (s.ax a).requests.three = none) :
    s.tripInterject a n = if (s.ax a).state.checksAtOnce = true then
        (s.setAx a { (s.ax a).withTrip n (s.lineSetup n).head with dirty := true }).accept a
      else s.setAx a { (s.ax a).withTrip n (s.lineSetup n).head with dirty := true } := by
  simp only [State.tripInterject, if_neg (not_or.mpr ⟨hoff, hhalted⟩), hthree]
  rfl

theorem State.accept_not (h : (s.ax a).acceptable = false) : s.accept a = s := by
  simp only [State.accept]
  split
  · rfl
  · rw [if_neg (Bool.eq_false_iff.mp h)]

theorem State.tripInterjects (hdev : s.dev = .running) (hagenda : s.agenda = []) (hm : 125 ≤ m) :
    TripInterjects a n s ((s.runTask (.tripInterject a n)).finish m) := by
  rw [State.runTask_tripInterject hdev]
  refine ⟨fun h => ?_, fun hoff hhalted hthree hidle hmeeting => ?_, fun hthree => ⟨fun h => ?_, fun h =>
    ⟨fun hnot => ?_, fun haccept x htop p hp => ?_⟩⟩⟩
  · have hnothing : s.tripInterject a n = s := if_pos h
    rw [hnothing, State.finish_nil hagenda]
  · have hactive : (s.ax a).state.active = true := by
      cases hst : (s.ax a).state <;> simp_all [AxisState.active]
    have hhalt : s.tripInterject a n = s.halt a .tripOverrun (BitVec.ofNat 8 n.val) := by
      obtain ⟨r, hr⟩ := Option.ne_none_iff_exists'.mp hthree
      simp only [State.tripInterject, if_neg (not_or.mpr ⟨hoff, hhalted⟩), hr]
    rw [hhalt]
    exact (State.halt_of_noMeeting _ _ hactive hmeeting).finish hagenda
  · have hchecks : ¬ (s.ax a).state.checksAtOnce = true := by
      rcases h with h | h | h | h <;> rw [h] <;> exact Bool.false_ne_true
    rw [State.tripInterject_places (by rcases h with h | h | h | h <;> rw [h] <;> exact AxisState.noConfusion)
      (by rcases h with h | h | h | h <;> rw [h] <;> exact AxisState.noConfusion) hthree, if_neg hchecks]
    exact AxisBecomes.finish rfl hagenda
  all_goals
    have hchecks : (s.ax a).state.checksAtOnce = true := by
      rcases h with h | h | h | h | h <;> rw [h] <;> rfl
    rw [State.tripInterject_places
      (by rcases h with h | h | h | h | h <;> rw [h] <;> exact AxisState.noConfusion)
      (by rcases h with h | h | h | h | h <;> rw [h] <;> exact AxisState.noConfusion) hthree, if_pos hchecks]
  · rw [State.accept_not (by rw [State.ax_setAx_same]; exact hnot)]
    exact AxisBecomes.finish rfl hagenda
  · exact State.takesRequest_chain (x := { (s.ax a).withTrip n (s.lineSetup n).head with dirty := true })
      (beginPoint_serves a) (by omega) hdev hagenda haccept htop hp

end Sys2Proof.Machine
end

