-- ==== Sys2Proof/Proofs/EdgeActions.lean ====
section
/-!
PROOF. The action of an edge with the CAPTURE record, and with a wait of the axis (R136 to R141; log 6).
-/
namespace Sys2Proof.Machine

variable {s t u v z : State} {a b : Axis} {n : Line} {k : Task} {c : Context} {m : Nat} {body : RecordBody}

/-! ### The CAPTURE record, before and after a trip -/

/-- A state in which the CAPTURE record of the edge has the positions of `s`. -/
structure Capturable (s u : State) : Prop where
  dev : u.dev = .running
  setup : u.setup = s.setup
  position : ∀ b, (u.ax b).position = (s.ax b).position

theorem Capturable.runTask (h : Capturable s u) :
    u.runTask (.capture n (!(s.line n).qualified)) = u.handRecord (s.captured n) := by
  have hlines : u.lineSetup n = s.lineSetup n := by rw [State.lineSetup, State.lineSetup, h.setup]
  have hpositions : (maskAxes (u.lineSetup n).captureMask).map (fun a => (u.ax a).position) =
      (maskAxes (s.lineSetup n).captureMask).map fun a => (s.ax a).position := by
    rw [hlines]
    exact List.map_congr_left fun b _ => h.position b
  rw [State.runTask_capture h.dev, State.capture, hpositions, hlines]
  rfl

theorem Capturable.lineChosen (hdev : s.dev = .running) (n : Line) : Capturable s (s.lineChosen n) :=
  ⟨hdev, rfl, fun _ => rfl⟩

theorem Capturable.setAx (h : Capturable s u) (x : AxisEngine) (hx : x.position = (u.ax a).position) :
    Capturable s (u.setAx a x) := by
  refine ⟨h.dev, h.setup, fun b => ?_⟩
  rw [State.ax_setAx]
  split
  · rename_i hb
    rw [hx, hb]
    exact h.position a
  · exact h.position b

theorem Capturable.pauseAxis (h : Capturable s u) (a : Axis) : Capturable s (u.pauseAxis a) := by
  rcases u.pauseAxis_eq a with hsame | ⟨st, -, -, hset⟩
  · rwa [hsame]
  · rw [hset]
    exact h.setAx _ rfl

theorem Capturable.halt (h : Capturable s u) (hactive : (u.ax a).state.active = true) (cause : HaltCause)
    (detail : BitVec 8) : Capturable s (u.halt a cause detail) := by
  have htold := State.halt_told hactive cause detail
  refine ⟨by rw [htold.fields]; exact h.dev, by rw [htold.fields]; exact h.setup, fun b => ?_⟩
  by_cases hb : b = a
  · rw [hb, htold.halted]
    exact h.position a
  · rw [htold.others b hb]
    exact h.position b

/-- The record first. -/
theorem State.finish_captureFirst (h : Capturable s z) (hagenda : z.agenda = []) :
    ((z.push k).runTask (.capture n (!(s.line n).qualified))).finish (m + 1) =
      ((z.handRecord (s.captured n)).runTask k).finish m := by
  have hpushed : Capturable s (z.push k) := ⟨h.dev, h.setup, h.position⟩
  rw [hpushed.runTask, State.handRecord_push, State.finish_push ((State.handRecord_agenda ..).trans hagenda)]

/-- The record last. -/
theorem State.finish_captureLast (h : Capturable s u) (hagenda : u.agenda = []) :
    (u.push (.capture n (!(s.line n).qualified))).finish (m + 1) = u.handRecord (s.captured n) := by
  rw [State.finish_push hagenda, h.runTask, State.finish_nil ((State.handRecord_agenda ..).trans hagenda)]

theorem State.captured_ax (s : State) (n : Line) (b : Axis) : (z.handRecord (s.captured n)).ax b = z.ax b :=
  State.handRecord_ax_ne _ z (by simp [RecordBody.axis?, State.captured])

theorem AxisBecomes.handRecord {e : AxisEngine} (h : AxisBecomes a e s t) (body : RecordBody) :
    AxisBecomes a e (s.handRecord body) (t.handRecord body) := by
  rw [h]
  exact State.handRecord_setAx rfl body s

theorem Halts.agenda {cause : HaltCause} {detail : BitVec 8} (h : Halts a cause detail s t) :
    t.agenda = s.agenda := by
  rw [h]
  refine (State.handRecord_agenda ..).trans ?_
  rw [State.releaseAxisClaims, State.releaseList_fields]

/-- A HALT trip with the CAPTURE record. -/
theorem State.captured_halts (h : Capturable s z) (hagenda : z.agenda = [])
    (ht : t = ((z.push (.tripHalt a n)).runTask (.capture n (!(s.line n).qualified))).finish (m + 2) ∨
      t = ((z.push (.capture n (!(s.line n).qualified))).runTask (.tripHalt a n)).finish (m + 2)) :
    TripHalts a n (z.handRecord (s.captured n)) t ∨
      ∃ u, TripHalts a n z u ∧ t = u.handRecord (s.captured n) := by
  rcases ht with rfl | rfl
  · rw [State.finish_captureFirst h hagenda]
    exact .inl (State.tripHalts ((State.handRecord_dev ..).trans h.dev) ((State.handRecord_agenda ..).trans hagenda))
  · rw [State.runTask_tripHalt (by exact h.dev)]
    by_cases hmeets : (z.ax a).state.active = true ∧ ¬ NoMeeting z a
    · left
      have hax := State.captured_ax (z := z) s n a
      refine ⟨fun _ hmeeting => absurd (fun j => ?_) hmeets.2, fun hinactive => ?_⟩
      · have hj := hmeeting j
        rwa [State.members, State.point, State.handRecord_setup, State.handRecord_points] at hj
      · rw [hax, hmeets.1] at hinactive
        cases hinactive
    · right
      cases hactive : (z.ax a).state.active with
      | false =>
        refine ⟨z, ⟨fun hyes => absurd (hactive.symm.trans hyes) Bool.false_ne_true, fun _ => rfl⟩, ?_⟩
        rw [State.halt_inactive _ _ _ _ (by exact hactive)]
        exact State.finish_captureLast h hagenda
      | true =>
        have hmeeting : NoMeeting z a := not_not.mp fun hnot => hmeets ⟨hactive, hnot⟩
        have hhalts := State.halt_of_noMeeting .trip (BitVec.ofNat 8 n.val) hactive hmeeting
        refine ⟨z.halt a .trip (BitVec.ofNat 8 n.val), ⟨fun _ _ => hhalts, fun hno => ?_⟩, ?_⟩
        · rw [hactive] at hno
          cases hno
        · rw [State.halt_push hactive hmeeting]
          exact State.finish_captureLast (h.halt hactive _ _) (hhalts.agenda.trans hagenda)

/-- A PAUSE trip with the CAPTURE record. -/
theorem State.captured_pauses (h : Capturable s z) (hagenda : z.agenda = [])
    (ht : t = ((z.push (.tripPause a n)).runTask (.capture n (!(s.line n).qualified))).finish (m + 2) ∨
      t = ((z.push (.capture n (!(s.line n).qualified))).runTask (.tripPause a n)).finish (m + 2)) :
    TripPauses a (z.handRecord (s.captured n)) t := by
  rcases ht with rfl | rfl
  · rw [State.finish_captureFirst h hagenda]
    exact State.tripPauses ((State.handRecord_dev ..).trans h.dev) ((State.handRecord_agenda ..).trans hagenda)
  · have hpush : (z.push (.capture n (!(s.line n).qualified))).pauseAxis a =
        (z.pauseAxis a).push (.capture n (!(s.line n).qualified)) := by
      simp only [State.pauseAxis]
      have hax : (z.push (.capture n (!(s.line n).qualified))).ax a = z.ax a := rfl
      rw [hax]
      split
      · rfl
      · split <;> rfl
    have hax := State.captured_ax (z := z) s n a
    rw [State.runTask_tripPause (by exact h.dev), hpush,
      State.finish_captureLast (h.pauseAxis a) ((State.pauseAxis_agenda z a).trans hagenda)]
    obtain ⟨hrunning, hatOnce, hnothing⟩ := z.pauseAxis_cases a
    simp only [TripPauses, hax]
    exact ⟨fun hst => (hrunning hst).handRecord _, fun hst => (hatOnce hst).handRecord _,
      fun hst => congrArg _ (hnothing hst)⟩

/-- An INTERJECT trip of a RUNNING axis, with the CAPTURE record. -/
theorem State.captured_interjects (h : Capturable s z) (hagenda : z.agenda = []) (hstate : (z.ax a).state = .running)
    (hthree : (z.ax a).requests.three = none) (hm : 125 ≤ m + 1)
    (ht : t = ((z.push (.tripInterject a n)).runTask (.capture n (!(s.line n).qualified))).finish (m + 2) ∨
      t = ((z.push (.capture n (!(s.line n).qualified))).runTask (.tripInterject a n)).finish (m + 2)) :
    TripInterjects a n (z.handRecord (s.captured n)) t := by
  rcases ht with rfl | rfl
  · rw [State.finish_captureFirst h hagenda]
    exact State.tripInterjects ((State.handRecord_dev ..).trans h.dev) ((State.handRecord_agenda ..).trans hagenda) hm
  · have hax := State.captured_ax (z := z) s n a
    have hsetup : (z.handRecord (s.captured n)).lineSetup n = z.lineSetup n := by
      rw [State.lineSetup, State.lineSetup, State.handRecord_setup]
    have hchecks : ¬ (z.ax a).state.checksAtOnce = true := by
      rw [hstate]
      exact Bool.false_ne_true
    have hplaced : (z.push (.capture n (!(s.line n).qualified))).tripInterject a n =
        (z.setAx a { (z.ax a).withTrip n (z.lineSetup n).head with dirty := true }).push
          (.capture n (!(s.line n).qualified)) :=
      (State.tripInterject_places (s := z.push (.capture n (!(s.line n).qualified)))
        (fun e => AxisState.noConfusion (hstate.symm.trans e))
        (fun e => AxisState.noConfusion (hstate.symm.trans e)) hthree).trans (if_neg hchecks)
    rw [State.runTask_tripInterject (by exact h.dev), hplaced, State.finish_captureLast (h.setAx (a := a)
      { (z.ax a).withTrip n (z.lineSetup n).head with dirty := true } rfl) hagenda]
    have hbecomes : AxisBecomes a ((z.ax a).withTrip n (z.lineSetup n).head) (z.handRecord (s.captured n))
        ((z.setAx a { (z.ax a).withTrip n (z.lineSetup n).head with dirty := true }).handRecord (s.captured n)) :=
      AxisBecomes.handRecord rfl _
    have hstate' : ((z.handRecord (s.captured n)).ax a).state = .running := hax ▸ hstate
    refine ⟨fun hst => ?_, fun _ _ hfull => absurd (hax ▸ hthree) hfull, fun _ => ⟨fun _ => ?_, fun hst => ?_⟩⟩
    · rcases hst with e | e <;> cases hstate'.symm.trans e
    · rw [hax, hsetup]
      exact hbecomes
    · rcases hst with e | e | e | e | e <;> cases hstate'.symm.trans e

/-! ### The wait of the axis, before and after a trip -/

/-- The flags that the begin of a segment sets hide what the engine owed before. -/
theorem AxisEngine.started_dirty (x : AxisEngine) (o : Option Context) (c : Context) (copy : Running)
    (st : AxisState) (dirlead now : Nat) :
    { ({ x with ctx := o, gate := .idle, dirty := true } : AxisEngine).started c copy st dirlead now with dirty := true } =
      { ({ x with gate := .idle } : AxisEngine).started c copy st dirlead now with dirty := true } := by
  cases copy with
  | run r v d w f rep tag =>
    have h := AxisEngine.gateStep_dirty
      { x with
        gate := .idle, state := st, ctx := some { c with phase := .inSegment (.run r v d w f rep tag) }
        beganCount := some r } dirlead now f
    refine (congrArg (fun y : AxisEngine => { y with dirty := true }) h).trans ?_
    rfl
  | dwell => rfl
  | join => rfl
  | waitInput => rfl

/-- A begin point is taken before an event of its axis. -/
theorem State.finish_beginFirst (hk : k.movesChain = false) (haxis : k.axis? = some a) (hagenda : s.agenda = []) :
    ((s.push k).push (.begin a false)).finish (m + 1) = ((s.push k).runTask (.begin a false)).finish m := by
  have hfilter : [k, .begin a false].filter (Task.mayRun [k, .begin a false]) = [.begin a false] := by
    have hwaits : k.mayRun [k, .begin a false] = false := by
      have hmoves : (Task.begin a false).movesChain = true := rfl
      have hsame : (Task.begin a false).axis? = some a := rfl
      simp [Task.mayRun, hk, haxis, hmoves, hsame]
    have hruns : (Task.begin a false).mayRun [k, .begin a false] = true := rfl
    rw [List.filter_cons_of_neg (by rw [hwaits]; exact Bool.false_ne_true), List.filter_cons_of_pos hruns, List.filter_nil]
  have herase : [k, .begin a false].erase (.begin a false) = [k] := by
    rw [List.erase_cons_tail, List.erase_cons_head]
    intro e
    rw [eq_of_beq e] at hk
    cases hk
  have hboth : ((s.push k).push (.begin a false)).agenda = [k, .begin a false] := by
    rw [State.push, State.push, hagenda]
    rfl
  have hone : ({ (s.push k).push (.begin a false) with agenda := [k] } : State) = s.push k := by
    rw [State.push, State.push, hagenda]
    rfl
  have hnext : ((s.push k).push (.begin a false)).nextTask = some (.begin a false, s.push k) := by
    have htaken : ({ (s.push k).push (.begin a false) with
        agenda := ((s.push k).push (.begin a false)).agenda.erase (.begin a false) } : State) = s.push k := by
      rw [hboth, herase, hone]
    refine Eq.trans ?_ (congrArg (fun v => some (Task.begin a false, v)) htaken)
    generalize (s.push k).push (.begin a false) = y at hboth
    have hchoose : y.choose ([].length (α := Task) + 1) = (0, y) := rfl
    simp only [State.nextTask, hboth, hfilter, hchoose]
    rfl
  rw [State.finish, State.settle, hnext]
  rfl

/-- "Level seen" first: the segment behind the wait begins and stays, and the event `k` finds it. -/
theorem State.finish_seenFirst {level th rep : Bool} {timeout : Option Nat} {tag : Word} {r : SegRecord}
    {b : Running × AxisState} (hdev : z.dev = .running) (hagenda : z.agenda = [])
    (hstate : (z.ax a).state = .waitInput) (hc : (z.ax a).ctx = some c)
    (hphase : c.phase = .inSegment (.waitInput n level timeout th rep tag)) (hlevel : (z.line n).qualified = level)
    (hmore : c.index + 1 < c.count) (hr : c.following = some r) (hbegins : z.begins a r = some b)
    (hv : v = z.recorded a c .waitInput rep tag none) (howes : v.owes a = false)
    (hu : AxisBecomes a (({ v.ax a with gate := .idle } : AxisEngine).started (c.advanced.readsNext v) b.1 b.2
      z.dirlead z.now) v u)
    (hk : k.movesChain = false) (haxis : k.axis? = some a) :
    ((z.push k).runTask (.levelSeen a n)).finish (m + 2) = (u.runTask k).finish m := by
  have hframe := State.recorded_frame z a c .waitInput rep tag none
  obtain ⟨e, he⟩ := State.recorded_ax z a a c .waitInput rep tag none
  rw [State.runTask_levelSeen (u := z.push k) hdev hstate hc hphase hlevel, State.recorded_push, ← hv,
    State.advance_pushes, if_pos hmore]
  rw [← hv] at hframe he
  have hvagenda : v.agenda = [] := by rw [hframe.fields]; exact hagenda
  have hvdev : v.dev = .running := by rw [hframe.fields]; exact hdev
  have hpush : (v.push k).withCtx a c.advanced = (v.withCtx a c.advanced).push k := rfl
  have hax : (((v.withCtx a c.advanced).push k).ax a) =
      { v.ax a with ctx := some c.advanced, gate := .idle, dirty := true } := State.withCtx_ax v a _
  have hself : ((v.withCtx a c.advanced).push k).setAxState a .waitInput = (v.withCtx a c.advanced).push k :=
    State.setAxState_of_ax (by rw [hax]; show (v.ax a).state = _; rw [he]; exact hstate) (by rw [hax])
  have hbegun : ((v.withCtx a c.advanced).push k).begins a r = some b := by
    rw [State.begins_congr (s := z)]
    · exact hbegins
    · show v.setup = _
      rw [hframe.fields]
    · show v.lines = _
      rw [hframe.fields]
    · rw [hax]
      show (v.ax a).position = _
      rw [he]
  have hbegin := State.begin_begins (s := (v.withCtx a c.advanced).push k) (c := c.advanced) (by rw [hax]) rfl hr goesOn_waitInput howes
    hbegun
  rw [hself] at hbegin
  have hfinal : ((v.withCtx a c.advanced).push k).begin a false = u.push k := by
    refine hbegin.trans ?_
    have htime : ((v.withCtx a c.advanced).push k).dirlead = z.dirlead ∧ ((v.withCtx a c.advanced).push k).now = z.now := by
      refine ⟨?_, ?_⟩
      · show v.dirlead = _
        rw [hframe.fields]
        rfl
      · show v.now = _
        rw [hframe.fields]
    rw [htime.1, htime.2, hax, AxisEngine.started_dirty, hu]
    show ((v.withCtx a c.advanced).setAx a _).push k = _
    rw [State.withCtx, State.setAx_setAx]
    rfl
  rw [hpush, State.finish_beginFirst hk haxis (s := v.withCtx a c.advanced) hvagenda, State.runTask_begin (by exact hvdev), hfinal,
    State.finish_push (by rw [hu]; exact hvagenda)]

/-- "Level seen" of an axis that waits no longer. -/
theorem State.runTask_levelSeen_nothing (h : (u.ax a).state ≠ .waitInput) : u.runTask (.levelSeen a n) = u := by
  have hwaits : (u.ax a).waitsOn n = false := by
    refine Bool.eq_false_iff.mpr fun hw => h (AxisEngine.waitsOn_iff.mp hw).1
  unfold State.runTask
  simp only [State.levelSeen, hwaits, Bool.false_eq_true, if_false, ite_self]

end Sys2Proof.Machine
end

