-- ==== Sys2Proof/Proofs/EdgeApplies.lean ====
section
/-!
PROOF. An edge applies its action (R136 to R141).
-/
namespace Sys2Proof.Machine

variable {s t u v z : State} {a b : Axis} {n : Line} {k : Task} {c : Context}

/-- A state with the tasks of an edge. -/
abbrev State.edgeSent (s : State) (n : Line) : State := { s.lineChanged n with agenda := s.changeTasks n }

/-! ### All axes of the mask -/

theorem State.tripHalt_mem (haction : (s.lineSetup n).action = .halt)
    (ha : (s.lineSetup n).actionMask.getLsbD a.val = true) : .tripHalt a n ∈ s.edgeTasks n := by
  refine State.mem_edgeTasks.mpr (.inr ?_)
  rw [State.actionTasks, haction]
  exact List.mem_map_of_mem ((mem_maskAxes _ a).mpr ha)

theorem State.edgeTasks_endsThere (haction : (s.lineSetup n).action = .halt) (hk : k ∈ s.edgeTasks n) :
    k.endsThere = true := by
  rcases State.mem_edgeTasks.mp hk with ⟨-, rfl⟩ | hk
  · rfl
  · rw [State.actionTasks, haction] at hk
    obtain ⟨b, -, rfl⟩ := List.mem_map.mp hk
    rfl

/-- The HALT action (R138). -/
theorem State.edge_halts (hdev : s.dev = .running) (htasks : s.changeTasks n = s.edgeTasks n)
    (haction : (s.lineSetup n).action = .halt) : Tripping n (s.edgeSent n) (s.edgeSent n).settled := by
  refine (Tripping.settled (s := s.edgeSent n) hdev (fun k hk => ?_) ?_).1
  · exact State.edgeTasks_endsThere haction (htasks ▸ hk)
  · show (s.changeTasks n).length ≤ 16000
    rw [htasks]
    exact s.length_edgeTasks_le n |>.trans (by decide)

theorem State.mem_edgeTasks_pause (haction : (s.lineSetup n).action = .pause) :
    .tripPause a n ∈ s.edgeTasks n ↔ (s.lineSetup n).actionMask.getLsbD a.val = true := by
  rw [State.mem_edgeTasks, State.actionTasks, haction]
  refine ⟨fun h => ?_, fun h => .inr (List.mem_map_of_mem ((mem_maskAxes _ a).mpr h))⟩
  rcases h with ⟨-, h⟩ | h
  · cases h
  · obtain ⟨b, hb, hba⟩ := List.mem_map.mp h
    obtain ⟨rfl, -⟩ := Task.tripPause.inj hba
    exact (mem_maskAxes _ b).mp hb

theorem State.nodup_edgeTasks_pause (haction : (s.lineSetup n).action = .pause) : (s.edgeTasks n).Nodup := by
  have htrips : (s.actionTasks n).Nodup := by
    rw [State.actionTasks, haction]
    exact (nodup_maskAxes _).map fun a b h => (Task.tripPause.inj h).1
  rw [State.edgeTasks]
  split
  · refine List.nodup_append.mpr ⟨List.nodup_singleton _, htrips, fun x hx y hy => ?_⟩
    rw [State.actionTasks, haction] at hy
    obtain ⟨b, -, rfl⟩ := List.mem_map.mp hy
    rw [List.mem_singleton.mp hx]
    exact fun e => by cases e
  · exact htrips

/-- The PAUSE action (R139). -/
theorem State.edge_pauses (hdev : s.dev = .running) (htasks : s.changeTasks n = s.edgeTasks n)
    (haction : (s.lineSetup n).action = .pause) (a : Axis) :
    (((s.edgeSent n).settled).ax a).state =
      if (s.lineSetup n).actionMask.getLsbD a.val = true then (s.ax a).state.pausedFrom else (s.ax a).state := by
  obtain ⟨hpausing, hnil⟩ := Pausing.settled (s := s.edgeSent n) (n := n) hdev
    (by rw [State.edgeSent, htasks]; exact State.nodup_edgeTasks_pause haction)
    (fun k hk => by
      rcases State.mem_edgeTasks.mp (htasks ▸ hk : k ∈ s.edgeTasks n) with ⟨-, rfl⟩ | hk
      · exact .inr ⟨_, rfl⟩
      · rw [State.actionTasks, haction] at hk
        obtain ⟨b, -, rfl⟩ := List.mem_map.mp hk
        exact .inl ⟨b, rfl⟩)
    (by
      show (s.changeTasks n).length ≤ 16000
      rw [htasks]
      exact s.length_edgeTasks_le n |>.trans (by decide))
  have hmem : .tripPause a n ∈ (s.edgeSent n).agenda ↔ (s.lineSetup n).actionMask.getLsbD a.val = true := by
    rw [← State.mem_edgeTasks_pause haction, ← htasks]
  rw [hpausing.states a, hnil]
  simp only [List.not_mem_nil, not_false_eq_true, and_true, hmem]
  rfl

/-! ### One axis in the mask -/

/-- What the action sends to axis `a`. -/
def LineAction.task (x : LineAction) (a : Axis) (n : Line) : List Task :=
  match x with
  | .off => []
  | .halt => [.tripHalt a n]
  | .pause => [.tripPause a n]
  | .interject => [.tripInterject a n]

theorem State.actionTasks_one (hmask : (s.lineSetup n).actionMask = maskBit a) :
    s.actionTasks n = (s.lineSetup n).action.task a n := by
  rw [State.actionTasks, hmask, maskAxes_maskBit]
  cases (s.lineSetup n).action <;> rfl

/-- The trip alone. -/
theorem State.settled_trip (hquiet : Quiet s) (htasks : s.changeTasks n = [k]) :
    (s.edgeSent n).settled = ((s.lineChanged n).runTask k).finish 16383 := by
  rw [State.edgeSent, htasks]
  exact State.settled_single (s := s.lineChanged n) hquiet

/-- The trip with another event. -/
theorem State.settled_pair {k₁ k₂ : Task} (hquiet : Quiet s) (htasks : s.changeTasks n = [k₁, k₂])
    (h₁ : k₁.movesChain = false) (h₂ : k₂.movesChain = false) (hne : k₁ ≠ k₂) :
    (s.edgeSent n).settled = (((s.lineChosen n).push k₂).runTask k₁).finish 16383 ∨
      (s.edgeSent n).settled = (((s.lineChosen n).push k₁).runTask k₂).finish 16383 := by
  rw [State.edgeSent, htasks]
  exact State.settled_two (s := s.lineChanged n) h₁ h₂ hne hquiet

theorem State.edge_one (hquiet : Quiet s) (hdev : s.dev = .running) (htasks : s.changeTasks n = s.edgeTasks n)
    (hmask : (s.lineSetup n).actionMask = maskBit a) (hcapture : (s.lineSetup n).capture = false) :
    ((s.lineSetup n).action = .halt → TripHalts a n (s.lineChanged n) (s.edgeSent n).settled) ∧
      ((s.lineSetup n).action = .pause → TripPauses a (s.lineChanged n) (s.edgeSent n).settled) ∧
      ((s.lineSetup n).action = .interject → TripInterjects a n (s.lineChanged n) (s.edgeSent n).settled) := by
  have htask {x : LineAction} (h : (s.lineSetup n).action = x) : s.changeTasks n = x.task a n := by
    rw [htasks, State.edgeTasks, hcapture, if_neg Bool.false_ne_true, State.actionTasks_one hmask, h]
    rfl
  refine ⟨fun h => ?_, fun h => ?_, fun h => ?_⟩
  all_goals rw [State.settled_trip hquiet (htask h)]
  · exact State.tripHalts hdev hquiet
  · exact State.tripPauses hdev hquiet
  · exact State.tripInterjects hdev hquiet (by decide)

theorem State.edge_captured (hquiet : Quiet s) (hdev : s.dev = .running) (htasks : s.changeTasks n = s.edgeTasks n)
    (hmask : (s.lineSetup n).actionMask = maskBit a) (hcapture : (s.lineSetup n).capture = true) :
    ((s.lineSetup n).action = .halt →
        TripHalts a n ((s.lineChosen n).handRecord (s.captured n)) (s.edgeSent n).settled ∨
          ∃ u, TripHalts a n (s.lineChosen n) u ∧ (s.edgeSent n).settled = u.handRecord (s.captured n)) ∧
      ((s.lineSetup n).action = .pause →
        TripPauses a ((s.lineChosen n).handRecord (s.captured n)) (s.edgeSent n).settled) ∧
      ((s.lineSetup n).action = .interject → (s.ax a).state = .running → (s.ax a).requests.three = none →
        TripInterjects a n ((s.lineChosen n).handRecord (s.captured n)) (s.edgeSent n).settled) := by
  have htask {x : LineAction} (h : (s.lineSetup n).action = x) :
      s.changeTasks n = .capture n (!(s.line n).qualified) :: x.task a n := by
    rw [htasks, State.edgeTasks, if_pos hcapture, State.actionTasks_one hmask, h]
    rfl
  have hchosen := Capturable.lineChosen hdev n
  refine ⟨fun h => ?_, fun h => ?_, fun h hstate hthree => ?_⟩
  · exact State.captured_halts hchosen hquiet (State.settled_pair hquiet (htask h) rfl rfl (by simp))
  · exact State.captured_pauses hchosen hquiet (State.settled_pair hquiet (htask h) rfl rfl (by simp))
  · exact State.captured_interjects hchosen hquiet hstate hthree (by decide)
      (State.settled_pair hquiet (htask h) rfl rfl (by simp))

/-! ### An axis that waits on the line -/

theorem State.changeTasks_waiting (hwaits : (s.ax a).waitsOn n = true)
    (hothers : ∀ d : Axis, d ≠ a → (s.ax d).waitsOn n = false) (hedge : s.isEdge n = true)
    (hcapture : (s.lineSetup n).capture = false) (hmask : (s.lineSetup n).actionMask = maskBit a) :
    s.changeTasks n = .levelSeen a n :: (s.lineSetup n).action.task a n := by
  rw [State.changeTasks, State.waiters_one hwaits hothers, if_pos hedge, State.edgeTasks, hcapture,
    if_neg Bool.false_ne_true, State.actionTasks_one hmask]
  rfl

/-- A HALT trip of an axis that waits, with its wait. -/
theorem State.waiting_halts {m : Nat} (hdev : z.dev = .running) (hagenda : z.agenda = [])
    (hstate : (z.ax a).state = .waitInput) (hudev : u.dev = .running) (huagenda : u.agenda = [])
    (hseen : ((z.push (.tripHalt a n)).runTask (.levelSeen a n)).finish (m + 2) =
      (u.runTask (.tripHalt a n)).finish m)
    (ht : t = ((z.push (.tripHalt a n)).runTask (.levelSeen a n)).finish (m + 2) ∨
      t = ((z.push (.levelSeen a n)).runTask (.tripHalt a n)).finish (m + 2)) :
    TripHalts a n z t ∨ TripHalts a n u t := by
  rcases ht with rfl | rfl
  · rw [hseen]
    exact .inr (State.tripHalts hudev huagenda)
  · left
    have hactive : (z.ax a).state.active = true := by rw [hstate]; rfl
    refine ⟨fun _ hmeeting => ?_, fun hinactive => absurd (hinactive.symm.trans hactive) Bool.false_ne_true⟩
    have hhalts := State.halt_of_noMeeting .trip (BitVec.ofNat 8 n.val) hactive hmeeting
    have hnot : ((z.halt a .trip (BitVec.ofNat 8 n.val)).ax a).state ≠ .waitInput := by
      rw [State.halt_ax _ _ _ _ hactive]
      exact AxisState.noConfusion
    rw [State.runTask_tripHalt (by exact hdev), State.halt_push hactive hmeeting,
      State.finish_push (hhalts.agenda.trans hagenda), State.runTask_levelSeen_nothing hnot]
    exact hhalts.finish hagenda

/-- A PAUSE trip of an axis that waits, with its wait. -/
theorem State.waiting_pauses {m : Nat} (hdev : z.dev = .running) (hagenda : z.agenda = [])
    (hstate : (z.ax a).state = .waitInput) (hudev : u.dev = .running) (huagenda : u.agenda = [])
    (hseen : ((z.push (.tripPause a n)).runTask (.levelSeen a n)).finish (m + 2) =
      (u.runTask (.tripPause a n)).finish m)
    (ht : t = ((z.push (.tripPause a n)).runTask (.levelSeen a n)).finish (m + 2) ∨
      t = ((z.push (.levelSeen a n)).runTask (.tripPause a n)).finish (m + 2)) :
    TripPauses a z t ∨ TripPauses a u t := by
  rcases ht with rfl | rfl
  · rw [hseen]
    exact .inr (State.tripPauses hudev huagenda)
  · left
    have honce : (z.ax a).state.pausesAtOnce = true := by rw [hstate]; rfl
    have hpush : (z.push (.levelSeen a n)).pauseAxis a = (z.setAxState a .paused).push (.levelSeen a n) :=
      State.pauseAxis_atOnce (u := z.push (.levelSeen a n)) honce
    have hnot : ((z.setAxState a .paused).ax a).state ≠ .waitInput := by
      rw [State.setAxState_ax]
      exact AxisState.noConfusion
    rw [State.runTask_tripPause (by exact hdev), hpush, State.finish_push (u := z.setAxState a .paused) hagenda,
      State.runTask_levelSeen_nothing hnot, ← State.pauseAxis_atOnce honce,
      State.finish_nil ((State.pauseAxis_agenda z a).trans hagenda)]
    exact z.pauseAxis_cases a

/-- Settles O48. -/
theorem edgeAppliesItsAction : Obligations.EdgeAppliesItsAction := by
  intro n s hquiet hdue hedge
  have hdev := (State.changeDue_iff.mp hdue).1
  refine ⟨_, exec_qualifiedChange_due hquiet hdue, fun hnone a => ?_,
    fun a c timeout th rep tag r b v u hstate hc hphase hothers hcapture hmask hmore hr hbegins hv howes hu => ?_⟩
  · have htasks := State.changeTasks_of_edge hnone hedge
    refine ⟨fun haction hmask hactive => ?_, fun haction hinactive => ?_, fun haction => ?_,
      State.edge_one hquiet hdev htasks, State.edge_captured hquiet hdev htasks⟩
    · have hmem : .tripHalt a n ∈ (s.edgeSent n).agenda := by
        show _ ∈ s.changeTasks n
        rw [htasks]
        exact State.tripHalt_mem haction hmask
      have hnil : (s.edgeSent n).settled.agenda = [] := rfl
      rcases (State.edge_halts hdev htasks haction).trips a hmem hactive with h | ⟨-, h⟩
      · exact h
      · rw [hnil] at h
        exact absurd h List.not_mem_nil
    · exact (State.edge_halts hdev htasks haction).inactive a hinactive
    · exact State.edge_pauses hdev htasks haction a
  · have hwaits : (s.ax a).waitsOn n = true := AxisEngine.waitsOn_iff.mpr ⟨hstate, c, _, _, _, _, _, hc, hphase⟩
    have htasks := State.changeTasks_waiting hwaits hothers hedge hcapture hmask
    have hudev : u.dev = .running := by
      rw [hu, hv]
      exact (State.recorded_dev _).trans hdev
    have huagenda : u.agenda = [] := by
      rw [hu, hv]
      exact (State.recorded_agenda _).trans hquiet
    have hlevel : ((s.lineChosen n).line n).qualified = !(s.line n).qualified :=
      congrArg InputLine.qualified (s.lineChanged_line n)
    refine ⟨fun haction => ?_, fun haction => ?_⟩
    all_goals rw [haction] at htasks
    · exact State.waiting_halts (z := s.lineChosen n) hdev hquiet hstate hudev huagenda
        (State.finish_seenFirst hdev hquiet hstate hc hphase hlevel hmore hr hbegins hv howes hu rfl rfl)
        (State.settled_pair hquiet htasks rfl rfl (by simp))
    · exact State.waiting_pauses (z := s.lineChosen n) hdev hquiet hstate hudev huagenda
        (State.finish_seenFirst hdev hquiet hstate hc hphase hlevel hmore hr hbegins hv howes hu rfl rfl)
        (State.settled_pair hquiet htasks rfl rfl (by simp))

end Sys2Proof.Machine
end

