-- ==== Sys2Proof/Proofs/Meetings.lean ====
section
/-!
PROOF. The release of a join point (R122, R123).
-/
namespace Sys2Proof.Machine

variable {s t u : State} {a b last : Axis} {j : Point} {c d : Context} {r : SegRecord} {g : Word} {p : Page}
  {m : Nat} {next : State → State → Prop}

/-! ### What a release changes -/

/-- The engine with the released flag of every context that holds an arrival at the point. -/
def AxisEngine.released (x : AxisEngine) (j : Point) (g : Word) : AxisEngine :=
  { x with ctx := x.ctx.map (Context.flagReleased j g), stack := x.stack.map (Context.flagReleased j g) }

/-- The running JOIN of the axis completes by the release. -/
def AxisEngine.meets (x : AxisEngine) (j : Point) : Bool :=
  x.state != .paused && x.ctx.any fun c => c.holdsArrival j

/-- The event of a completion by the release. -/
def joinEvent (last b : Axis) : Task := if b = last then .arrived b else .joinDone b

theorem State.releaseAxis_eq_meets (s : State) (j : Point) (g : Word) (last b : Axis) :
    s.releaseAxis j g last b =
      if (s.ax b).meets j then (s.setAx b ((s.ax b).released j g)).push (joinEvent last b)
      else s.setAx b ((s.ax b).released j g) := by
  have hmeets : (match (s.ax b).ctx with
      | some c => c.holdsArrival j && (s.ax b).state != .paused
      | none => false) = (s.ax b).meets j := by
    rw [AxisEngine.meets]
    cases (s.ax b).ctx with
    | none => exact (Bool.and_false _).symm
    | some c => exact Bool.and_comm _ _
  rw [← hmeets]
  rfl

theorem State.releaseAxis_ax_same (s : State) (j : Point) (g : Word) (last b : Axis) :
    (s.releaseAxis j g last b).ax b = (s.ax b).released j g := by
  rw [State.releaseAxis_eq_meets]
  split <;> exact State.ax_setAx_same s b _

theorem State.release_list_ax (l : List Axis) (hl : l.Nodup) (s : State) (hb : b ∈ l) :
    (l.foldl (State.releaseAxis j g last) s).ax b = (s.ax b).released j g := by
  induction l generalizing s with
  | nil => cases hb
  | cons d l ih =>
    obtain ⟨hd, hl⟩ := List.nodup_cons.mp hl
    rw [List.foldl_cons]
    rcases List.mem_cons.mp hb with rfl | hb
    · rw [State.release_list_ax_other j g last l _ _ hd, State.releaseAxis_ax_same]
    · rw [ih hl _ hb, State.releaseAxis_ax_ne j g last s (fun e : b = d => hd (e ▸ hb))]

theorem State.release_list_agenda (l : List Axis) (hl : l.Nodup) (s : State) :
    (l.foldl (State.releaseAxis j g last) s).agenda =
      s.agenda ++ (l.filter fun b => (s.ax b).meets j).map (joinEvent last) := by
  induction l generalizing s with
  | nil => exact (List.append_nil _).symm
  | cons d l ih =>
    obtain ⟨hd, hl⟩ := List.nodup_cons.mp hl
    have hsame : l.filter (fun b => ((s.releaseAxis j g last d).ax b).meets j) =
        l.filter fun b => (s.ax b).meets j :=
      List.filter_congr fun b hb => by rw [State.releaseAxis_ax_ne j g last s (fun e : b = d => hd (e ▸ hb))]
    rw [List.foldl_cons, ih hl, hsame, State.releaseAxis_eq_meets]
    by_cases hmeets : (s.ax d).meets j = true
    · rw [if_pos hmeets, List.filter_cons_of_pos (p := fun b => (s.ax b).meets j) hmeets, List.map_cons]
      exact List.append_assoc ..
    · rw [if_neg hmeets, List.filter_cons_of_neg (p := fun b => (s.ax b).meets j) hmeets]
      rfl

/-- The state that the release reaches the axes in. -/
def State.pointReleased (s : State) (j : Point) : State :=
  ((s.setPoint j
    { state := .opened, arrivals := 0, generation := (s.point j).generation + 1, deadline := none }).write
      (joinWord j 4) 0).write (joinWord j 5) ((s.point j).generation + 1)

theorem State.releasePoint_eq (s : State) (j : Point) (arrivals : AxisMask) (last : Axis) :
    s.releasePoint j arrivals last =
      (maskAxes arrivals).foldl (State.releaseAxis j ((s.point j).generation + 1) last) (s.pointReleased j) := rfl

theorem State.releasePoint_ax (s : State) (j : Point) (arrivals : AxisMask) (last b : Axis) :
    (s.releasePoint j arrivals last).ax b =
      if inMask arrivals b then (s.ax b).released j ((s.point j).generation + 1) else s.ax b := by
  rw [State.releasePoint_eq]
  split
  · rename_i hb
    exact State.release_list_ax _ (nodup_maskAxes arrivals) _ ((mem_maskAxes arrivals b).mpr hb)
  · rename_i hb
    exact State.release_list_ax_other _ _ _ _ _ _ fun h => hb ((mem_maskAxes arrivals b).mp h)

theorem State.releasePoint_agenda (s : State) (j : Point) (arrivals : AxisMask) (last : Axis) :
    (s.releasePoint j arrivals last).agenda =
      s.agenda ++ ((maskAxes arrivals).filter fun b => (s.ax b).meets j).map (joinEvent last) := by
  rw [State.releasePoint_eq, State.release_list_agenda _ (nodup_maskAxes arrivals)]
  rfl

theorem State.releasePoint_fields (s : State) (j : Point) (arrivals : AxisMask) (last : Axis) :
    s.releasePoint j arrivals last =
      { s.pointReleased j with
        axes := (s.releasePoint j arrivals last).axes, agenda := (s.releasePoint j arrivals last).agenda } := by
  rw [State.releasePoint_eq]
  exact State.release_list_frame ..

theorem State.releasePoint_point (s : State) (j i : Point) (arrivals : AxisMask) (last : Axis) :
    (s.releasePoint j arrivals last).point i = (s.pointReleased j).point i := by
  rw [State.releasePoint_fields]
  rfl

theorem State.read_releasePoint (s : State) (j : Point) (arrivals : AxisMask) (last : Axis) (addr : Addr) :
    (s.releasePoint j arrivals last).read addr = (s.pointReleased j).read addr := by
  rw [State.releasePoint_fields]
  rfl

theorem State.read_pointReleased_five (s : State) (j : Point) :
    (s.pointReleased j).read (joinWord j 5) = (s.point j).generation + 1 := State.read_write_same ..

theorem State.read_pointReleased_four (s : State) (j : Point) : (s.pointReleased j).read (joinWord j 4) = 0 := by
  rw [State.pointReleased, State.read_write_ne _ (joinWord_ne j (by decide) (by decide) (by decide)),
    State.read_write_same]

theorem State.read_pointReleased_ne (s : State) {addr : Addr} (h₄ : addr ≠ joinWord j 4) (h₅ : addr ≠ joinWord j 5) :
    (s.pointReleased j).read addr = s.read addr := by
  rw [State.pointReleased, State.read_write_ne _ h₅.symm, State.read_write_ne _ h₄.symm]
  rfl

/-! ### The arrived axes complete -/

theorem AxisEngine.released_of_waiting {x : AxisEngine} {rep : Bool} {tag : Word} (hc : x.ctx = some c)
    (hphase : c.phase = .inSegment (.join j none false rep tag)) :
    (x.released j g).ctx = some { c with phase := .inSegment (.join j (some g) false rep tag) } := by
  rw [AxisEngine.released, hc, ← Context.flagReleased_of_waiting hphase]
  rfl

theorem State.runTask_joinEvent {rep : Bool} {tag : Word} (hdev : u.dev = .running)
    (hstate : (u.ax b).state = .waitJoin)
    (hc : (u.ax b).ctx = some { c with phase := .inSegment (.join j (some g) false rep tag) }) (last : Axis) :
    u.runTask (joinEvent last b) =
      (u.recorded b { c with phase := .inSegment (.join j (some g) false rep tag) } .join rep tag (some g)).advance b
        { c with phase := .inSegment (.join j (some g) false rep tag) } false := by
  have htask : u.runTask (joinEvent last b) = u.joinDone b := by
    rw [joinEvent]
    unfold State.runTask
    by_cases hlast : b = last
    · rw [if_pos hlast]
      exact if_pos hdev
    · rw [if_neg hlast]
      exact if_pos hdev
  rw [htask, State.joinDone_waiting hc hstate]
  rfl

theorem joinEvent_inj (h : joinEvent last a = joinEvent last b) : a = b := by
  have haxis (d : Axis) : (joinEvent last d).axis? = some d := by
    rw [joinEvent]
    split <;> rfl
  exact Option.some.inj ((haxis a).symm.trans ((congrArg Task.axis? h).trans (haxis b)))

theorem joinEvent_weight (last b : Axis) : (joinEvent last b).weight = 2 := by
  rw [joinEvent]
  split <;> rfl

/-- What an arrived axis needs, to complete by the release: it waits at the point, within its page, and the next
segment begins. -/
def State.Arrived (s : State) (j : Point) (b : Axis) : Prop :=
  (s.ax b).state = .waitJoin ∧ ∃ c r n, (s.ax b).ctx = some c ∧ c.holdsArrival j = true ∧ c.index + 1 < c.count ∧
    c.following = some r ∧ s.begins b r = some n

theorem State.Arrived.meets (h : s.Arrived j b) : (s.ax b).meets j = true := by
  obtain ⟨hstate, c, r, n, hc, hholds, -⟩ := h
  rw [AxisEngine.meets, hstate, hc]
  exact hholds

/-- After a release, at the end of the command. -/
theorem State.release_completes {arrivals : AxisMask} (hdev : s.dev = .running) (hagenda : s.agenda = [])
    (harrived : ∀ b : Axis, inMask arrivals b = true → s.Arrived j b) (last : Axis) (hm : 16 ≤ m)
    (ht : t = (s.releasePoint j arrivals last).finish m) :
    t.point j = { state := .opened, arrivals := 0, generation := (s.point j).generation + 1, deadline := none } ∧
      (SlotsGeneral s → t.read (joinWord j 4) = 0 ∧ t.read (joinWord j 5) = (s.point j).generation + 1) ∧
      ∀ (b : Axis) (c : Context) (r : SegRecord) (n : Running × AxisState), inMask arrivals b = true →
        (s.ax b).ctx = some c → c.following = some r → s.begins b r = some n → JoinCompletes b c n t := by
  have hfields := s.releasePoint_fields j arrivals last
  have hax (b : Axis) (hb : inMask arrivals b = true) :=
    (s.releasePoint_ax j arrivals last b).trans (if_pos hb)
  have htasks := s.releasePoint_agenda j arrivals last
  have hbegins (b : Axis) (hb : inMask arrivals b = true) (r : SegRecord) :
      (s.releasePoint j arrivals last).begins b r = s.begins b r :=
    State.begins_congr (by rw [hfields]; rfl) (by rw [hfields]; rfl) (by rw [hax b hb]; rfl)
  rw [hagenda, List.nil_append] at htasks
  obtain ⟨hframe, -, hcompletes, htable⟩ := Completing.finish_list (s := s.releasePoint j arrivals last)
    (axes := fun b => inMask arrivals b = true) (event := joinEvent last) (by rw [hfields]; exact hdev) htasks
    ((nodup_maskAxes arrivals).filter _)
    (fun b => by
      rw [List.mem_filter, mem_maskAxes]
      exact ⟨And.left, fun hb => ⟨hb, (harrived b hb).meets⟩⟩)
    (fun _ _ => joinEvent_inj) (joinEvent_weight last)
    (fun b hb => by
      obtain ⟨hstate, c, r, n, hc, hholds, hmore, hr, hn⟩ := harrived b hb
      obtain ⟨rep, tag, hphase⟩ := (c.holdsArrival_iff j).mp hholds
      have hctx := AxisEngine.released_of_waiting (g := (s.point j).generation + 1) hc hphase
      rw [← hax b hb] at hctx
      have hstate' : ((s.releasePoint j arrivals last).ax b).state = .waitJoin := by
        rw [hax b hb]
        exact hstate
      refine ⟨_, r, n, hctx, ?_, hmore, hr, (hbegins b hb r).trans hn, fun u hu _ hsame => ?_⟩
      · exact hstate'.symm ▸ ⟨rfl, AxisState.noConfusion⟩
      · exact ⟨_, _, _, _, State.runTask_joinEvent hu (hsame ▸ hstate') (hsame ▸ hctx) last⟩)
    hm
  rw [← ht] at hframe hcompletes htable
  refine ⟨?_, fun hslots => ?_, fun b c r n hb hc hr hn => ?_⟩
  · have hpoint : t.point j = (s.releasePoint j arrivals last).point j := by
      rw [hframe]
      rfl
    rw [hpoint, State.releasePoint_point]
    exact State.point_setPoint_same s j _
  · have hslots' : SlotsGeneral (s.releasePoint j arrivals last) := hslots.of_slots (by rw [hfields]; rfl)
    refine ⟨?_, ?_⟩
    · rw [(htable hslots').joinWord j (by decide), State.read_releasePoint, State.read_pointReleased_four]
    · rw [(htable hslots').joinWord j (by decide), State.read_releasePoint, State.read_pointReleased_five]
  · obtain ⟨-, c', r', n', hc', hholds, -⟩ := harrived b hb
    obtain rfl := Option.some.inj (hc.symm.trans hc')
    obtain ⟨rep, tag, hphase⟩ := (c.holdsArrival_iff j).mp hholds
    have hctx := AxisEngine.released_of_waiting (g := (s.point j).generation + 1) hc hphase
    rw [← hax b hb] at hctx
    have hdone := hcompletes b _ r n hb hctx hr ((hbegins b hb r).trans hn)
    exact hdone

end Sys2Proof.Machine
end

