-- ==== Sys2Proof/Proofs/Releasing.lean ====
section
/-!
PROOF. START on a JOIN that releases its point (R122, R123).
-/
namespace Sys2Proof.Machine

variable {s t u : State} {a b : Axis} {j : Point} {c d : Context} {r : SegRecord} {g : Word} {p : Page}
  {x : AxisEngine} {m : Nat} {next : State → State → Prop}

/-! ### A completion, by the engine it finds -/

theorem State.recorded_setAx {kind : SegKind} {report : Bool} {tag : Word} {generation : Option Word}
    (hx : x.dirty = true) (hpos : x.position = (s.ax a).position) :
    (s.setAx a x).recorded a c kind report tag generation = (s.recorded a c kind report tag generation).setAx a x := by
  rw [State.recorded, State.recorded, State.ax_setAx_same, hpos]
  split
  · exact State.handRecord_setAx hx _ s
  · rfl

/-- A completion sets the context, the gate and the rewrite flag of the engine. -/
theorem Completes.of_setAx {kind : SegKind} {report : Bool} {tag : Word} {generation : Option Word} {o : Option Context}
    (hx : x = { s.ax a with ctx := o, gate := (s.ax a).gate, dirty := true })
    (h : Completes a next c ((s.setAx a x).recorded a c kind report tag generation) t) :
    Completes a next c (s.recorded a c kind report tag generation) t := by
  obtain ⟨e, he⟩ := s.recorded_ax a a c kind report tag generation
  have hwith : ((s.recorded a c kind report tag generation).setAx a x).withCtx a c.advanced =
      (s.recorded a c kind report tag generation).withCtx a c.advanced := by
    rw [State.withCtx, State.withCtx, State.ax_setAx_same, State.setAx_setAx, he, hx]
  rw [State.recorded_setAx (by rw [hx]) (by rw [hx])] at h
  simp only [Completes, hwith] at h
  exact h

/-! ### START -/

/-- The begin point of a page that START enters, with tasks left for `m` steps. -/
def BeginsThere (a : Axis) (s t : State) : Prop :=
  ∃ m st, 200 ≤ m ∧ st.goesOn ∧ t = ((s.setAxState a st).push (.begin a false)).finish m

theorem beginsThere_serves (a : Axis) : Serves a (BeginsThere a) 200 := fun m _ st _ hm _ _ _ hst => ⟨m, st, hm, hst, rfl⟩

/-- The state at the begin point of the head page of a START. -/
def State.startedOn (s : State) (a : Axis) (arg : BitVec 12) (c : Context) (p : Page) : State :=
  (((s.answered a 1 arg 1).setAx a ((s.ax a).startingOn p)).withClaim a c p).withCtx a
    { c.onPage s p with following := some (s.readRecord p 0) }

theorem exec_start_begins {arg : BitVec 12} (hquiet : Quiet s) (hdev : s.dev = .running)
    (hidle : (s.ax a).state = .idle) (hp : isGeneralPage p = true) (hhead : s.read (axisWord a 1) = pageNumber p)
    (hgranted : EntryGranted s p (s.read (pageWord p 1))) (hc : ((s.ax a).startingOn p).ctx = some c) :
    ∃ t, exec (.start a arg) s = .next t ∧ BeginsThere a (s.startedOn a arg c p) t := by
  refine ⟨_, exec_start_enters hquiet hdev hidle hp hhead arg, ?_⟩
  refine State.start_atBegin hp hgranted ?_
  have hctx : (((s.answered a 1 arg 1).setAx a ((s.ax a).startingOn p)).ax a).ctx = some c := by
    rw [State.ax_setAx_same]
    exact hc
  refine State.enters_chain (beginsThere_serves a) (by decide) hdev hquiet hctx ⟨rfl, AxisState.noConfusion⟩
    (generalPage?_pageNumber hp) ?_
  exact (s.read_answered_page a 1 arg 1 hp 1).symm

theorem inMask_or_maskBit (m : AxisMask) (a b : Axis) :
    inMask (m ||| maskBit a) b = true ↔ inMask m b = true ∨ b = a := by
  have hbit (a b : Axis) : (maskBit a).getLsbD b.val = true ↔ b = a := by
    revert a b
    decide
  rw [inMask, BitVec.getLsbD_or, Bool.or_eq_true, hbit]
  rfl

/-- The context with which the JOIN at `j` waits. -/
def Context.waitingAt (c : Context) (s : State) (r : SegRecord) (j : Point) : Context :=
  { c.readsNext s with phase := .inSegment (.join j none false r.report r.tag) }

/-- A begin point at a JOIN whose arrival completes the meeting. -/
theorem State.begin_lastArrival {st : AxisState} (hc : (s.ax a).ctx = some c) (hphase : c.phase = .atBegin)
    (hr : c.following = some r) (hst : st.goesOn) (howes : s.owes a = false)
    (hkind : s.validKind a r = some .join) (hj : r.joinPoint = some j) (hopen : (s.point j).state = .opened)
    (hout : inMask (s.point j).arrivals a = false) (hall : (s.point j).arrivals ||| maskBit a = s.members j) :
    (s.setAxState a st).begin a false =
      (s.setAx a { s.ax a with state := .waitJoin, ctx := some (c.waitingAt s r j), dirty := true }).releasePoint j
        (s.members j) a := by
  have hrun : (s.setAxState a st).runCopy a (c.readsNext s) (.join j none false r.report r.tag) .running =
      s.setAx a { s.ax a with state := .running, ctx := some (c.waitingAt s r j), dirty := true } := by
    rw [State.runCopy, State.setAxState_ax, State.setAxState_setAx]
    rfl
  have hpoint : (s.setAx a { s.ax a with state := .running, ctx := some (c.waitingAt s r j), dirty := true }).point j =
      s.point j := rfl
  have hmembers : (s.setAx a
      { s.ax a with state := .running, ctx := some (c.waitingAt s r j), dirty := true }).members j = s.members j := rfl
  rw [State.begin_valid hc hphase hr hst howes hkind, State.startSegment_join s a st c r hj, hrun]
  simp only [State.arrive, hpoint, hopen, hout, Bool.false_eq_true, if_false, hmembers, hall, if_true]
  rw [State.setAxState, State.ax_setAx_same, State.setAx_setAx]

theorem State.startedOn_ax (s : State) (a : Axis) (arg : BitVec 12) (c : Context) (p : Page) :
    (s.startedOn a arg c p).ax a =
      { (s.ax a).startingOn p with
        ctx := some { c.onPage s p with following := some (s.readRecord p 0) }, gate := .idle, dirty := true } := by
  have hax : (((s.answered a 1 arg 1).setAx a ((s.ax a).startingOn p)).withClaim a c p).ax a =
      (s.ax a).startingOn p := State.ax_setAx_same ..
  rw [State.startedOn, State.withCtx_ax, hax]

/-- The second record of the page, as the segment on it reads it. -/
theorem State.startedOn_readsNext (s : State) (a : Axis) (arg : BitVec 12) (c : Context) (hp : isGeneralPage p = true) :
    ({ c.onPage s p with following := some (s.readRecord p 0) } : Context).readsNext (s.startedOn a arg c p) =
      (c.onPage s p).readsNext s :=
  Context.readsNext_congr (s.claimed_reads (x := (s.ax a).startingOn p) (i := 1) a arg hp (by decide))

/-- The only member of a point releases it by its arrival. -/
theorem State.start_soleArrival {arg : BitVec 12} (hquiet : Quiet s) (hdev : s.dev = .running)
    (hidle : (s.ax a).state = .idle) (hstack : (s.ax a).stack = []) (hp : isGeneralPage p = true)
    (hhead : s.read (axisWord a 1) = pageNumber p) (hgranted : EntryGranted s p (s.read (pageWord p 1)))
    (howes : s.owes a = false) (hkind : s.validKind a (s.readRecord p 0) = some .join)
    (hj : (s.readRecord p 0).joinPoint = some j) (hopen : (s.point j).state = .opened)
    (hnone : (s.point j).arrivals = 0) (hsole : s.members j = maskBit a) : ∃ t,
    exec (.start a arg) s = .next t ∧ ∀ c ∈ ((s.ax a).startingOn p).ctx, ∀ u : State,
      u = ((((s.answered a 1 arg 1).setAx a ((s.ax a).startingOn p)).withClaim a c p).setPoint j
        { state := .opened, arrivals := 0, generation := (s.point j).generation + 1, deadline := none }).write
          (joinWord j 4) 0 →
      ChainGoesOn a ((c.onPage s p).readsNext s)
        ((u.write (joinWord j 5) ((s.point j).generation + 1)).recorded a ((c.onPage s p).readsNext s) .join
          (s.readRecord p 0).report (s.readRecord p 0).tag (some ((s.point j).generation + 1))) t := by
  obtain ⟨c, hc⟩ : ∃ c, ((s.ax a).startingOn p).ctx = some c := ⟨_, rfl⟩
  obtain ⟨t, hexec, m, st, hm, hst, ht⟩ := exec_start_begins (arg := arg) hquiet hdev hidle hp hhead hgranted hc
  refine ⟨t, hexec, fun c' hc' u hu => ?_⟩
  obtain rfl : c = c' := Option.some.inj (hc.symm.trans hc')
  have hax := s.startedOn_ax a arg c p
  have hnext := s.startedOn_readsNext a arg c hp
  have hall : (s.point j).arrivals ||| maskBit a = s.members j := by
    rw [hnone, hsole]
    exact BitVec.zero_or
  have hout : inMask (s.point j).arrivals a = false := by
    rw [hnone]
    exact BitVec.getLsbD_zero
  have hbegin := State.begin_lastArrival (s := s.startedOn a arg c p) (by rw [hax]) rfl rfl hst howes hkind hj hopen hout
    hall
  have hmembers : (s.startedOn a arg c p).members j = maskBit a := hsole
  obtain ⟨m, rfl⟩ : ∃ i, m = i + 1 := ⟨m - 1, by omega⟩
  rw [State.finish_begin (s := s.startedOn a arg c p) hdev hquiet, hbegin, hmembers] at ht
  have h := State.soleArrival_completes (s := s.startedOn a arg c p) (r := s.readRecord p 0) (j := j) (m := m)
    (c := { c.onPage s p with following := some (s.readRecord p 0) }) (beginPoint_serves a) (by omega) hdev hquiet rfl
    (by rw [hax]; exact fun b hb => absurd (hstack ▸ hb) List.not_mem_nil)
  have hwaiting : ({ c.onPage s p with following := some (s.readRecord p 0) } : Context).waitingAt
      (s.startedOn a arg c p) (s.readRecord p 0) j = (c.onPage s p).waitingAt s (s.readRecord p 0) j := by
    rw [Context.waitingAt, hnext]
    rfl
  rw [hnext] at h
  rw [hwaiting] at ht
  rw [ht]
  refine Completes.of_setAx (o := some ((c.onPage s p).waitingAt s (s.readRecord p 0) j)) rfl ?_
  have hsame : (s.startedOn a arg c p).soleRelease a ((c.onPage s p).waitingAt s (s.readRecord p 0) j) j =
      (u.write (joinWord j 5) ((s.point j).generation + 1)).setAx a
        { (u.write (joinWord j 5) ((s.point j).generation + 1)).ax a with
          ctx := some ((c.onPage s p).waitingAt s (s.readRecord p 0) j)
          gate := ((u.write (joinWord j 5) ((s.point j).generation + 1)).ax a).gate, dirty := true } := by
    have hu' : (u.write (joinWord j 5) ((s.point j).generation + 1)).ax a = (s.ax a).startingOn p := by
      rw [hu]
      exact State.ax_setAx_same ..
    rw [hu', State.soleRelease, hax, State.startedOn, State.withCtx, State.setAx_setAx, hu]
    rfl
  rw [← hsame]
  exact h

/-- The last arrival releases the point, and every arrived axis completes its JOIN. -/
theorem State.start_lastArrival {arg : BitVec 12} {n : Running × AxisState} (hquiet : Quiet s) (hpage : PageLaw s)
    (hdev : s.dev = .running) (hidle : (s.ax a).state = .idle) (hp : isGeneralPage p = true)
    (hhead : s.read (axisWord a 1) = pageNumber p) (hgranted : EntryGranted s p (s.read (pageWord p 1)))
    (hcount : 2 ≤ (s.read (pageWord p 3)).toNat) (howes : s.owes a = false)
    (hkind : s.validKind a (s.readRecord p 0) = some .join) (hj : (s.readRecord p 0).joinPoint = some j)
    (hbegins : s.begins a (s.readRecord p 1) = some n) (hopen : (s.point j).state = .opened)
    (hout : inMask (s.point j).arrivals a = false) (hall : (s.point j).arrivals ||| maskBit a = s.members j)
    (harrived : ∀ b : Axis, inMask (s.point j).arrivals b = true → s.Arrived j b) : ∃ t,
    exec (.start a arg) s = .next t ∧
    t.point j = { state := .opened, arrivals := 0, generation := (s.point j).generation + 1, deadline := none } ∧
    t.read (joinWord j 4) = 0 ∧ t.read (joinWord j 5) = (s.point j).generation + 1 ∧
    (∀ c ∈ ((s.ax a).startingOn p).ctx, JoinCompletes a (c.onPage s p) n t) ∧
    ∀ (b : Axis) (c : Context) (r : SegRecord) (m : Running × AxisState), inMask (s.point j).arrivals b = true →
      (s.ax b).ctx = some c → c.following = some r → s.begins b r = some m → JoinCompletes b c m t := by
  obtain ⟨c, hc⟩ : ∃ c, ((s.ax a).startingOn p).ctx = some c := ⟨_, rfl⟩
  obtain ⟨t, hexec, m, st, hm, hst, ht⟩ := exec_start_begins (arg := arg) hquiet hdev hidle hp hhead hgranted hc
  refine ⟨t, hexec, ?_⟩
  have hax := s.startedOn_ax a arg c p
  have hnext := s.startedOn_readsNext a arg c hp
  obtain ⟨m, rfl⟩ : ∃ i, m = i + 1 := ⟨m - 1, by omega⟩
  have hstate : (s.startedOn a arg c p).dev = .running ∧ (s.startedOn a arg c p).agenda = [] := ⟨hdev, hquiet⟩
  have hbegin := State.begin_lastArrival (s := s.startedOn a arg c p) (by rw [hax]) rfl rfl hst howes hkind hj hopen hout
    hall
  rw [State.finish_begin hstate.1 hstate.2, hbegin] at ht
  have hmembers : (s.startedOn a arg c p).members j = s.members j := rfl
  rw [hmembers] at ht
  have hmember (b : Axis) : inMask (s.members j) b = true ↔ inMask (s.point j).arrivals b = true ∨ b = a := by
    rw [← hall, inMask_or_maskBit]
  have hwaiting : ({ c.onPage s p with following := some (s.readRecord p 0) } : Context).waitingAt
      (s.startedOn a arg c p) (s.readRecord p 0) j = (c.onPage s p).waitingAt s (s.readRecord p 0) j := by
    rw [Context.waitingAt, hnext]
    rfl
  have hfollowing : ((c.onPage s p).waitingAt s (s.readRecord p 0) j).following = some (s.readRecord p 1) := by
    have hmore : (c.onPage s p).index + 1 < (c.onPage s p).count := hcount
    rw [Context.waitingAt, Context.readsNext, if_pos hmore]
    rfl
  rw [hwaiting] at ht
  obtain ⟨z, hz⟩ : ∃ z, z = (s.startedOn a arg c p).setAx a
    { (s.startedOn a arg c p).ax a with
      state := .waitJoin, ctx := some ((c.onPage s p).waitingAt s (s.readRecord p 0) j), dirty := true } := ⟨_, rfl⟩
  rw [← hz] at ht
  have hza : z.ax a = { (s.startedOn a arg c p).ax a with
      state := .waitJoin, ctx := some ((c.onPage s p).waitingAt s (s.readRecord p 0) j), dirty := true } := by
    rw [hz]
    exact State.ax_setAx_same ..
  have hzother {b : Axis} (hb : b ≠ a) : z.ax b = s.ax b := by
    rw [hz, State.ax_setAx_ne _ hb, State.startedOn, State.withCtx, State.ax_setAx_ne _ hb]
    exact State.ax_setAx_ne (s.answered a 1 arg 1) hb _
  have hzbegins (b : Axis) (r : SegRecord) : z.begins b r = s.begins b r := by
    refine State.begins_congr (by rw [hz]; rfl) (by rw [hz]; rfl) ?_
    by_cases hb : b = a
    · rw [hb, hza, hax]
      rfl
    · rw [hzother hb]
  have hzarrived (b : Axis) (hb : inMask (s.members j) b = true) : z.Arrived j b := by
    by_cases hba : b = a
    · rw [hba]
      refine ⟨by rw [hza], (c.onPage s p).waitingAt s (s.readRecord p 0) j, s.readRecord p 1, n, by rw [hza],
        Context.holdsArrival_of_waiting rfl, hcount, hfollowing, ?_⟩
      rw [hzbegins]
      exact hbegins
    · obtain ⟨hstate, d, r, m, hd, hholds, hmore, hr, hm⟩ := harrived b (((hmember b).mp hb).resolve_right hba)
      exact ⟨by rw [hzother hba]; exact hstate, d, r, m, by rw [hzother hba]; exact hd, hholds, hmore, hr,
        (hzbegins b r).trans hm⟩
  have hzpoint : z.point j = s.point j := by
    rw [hz]
    rfl
  obtain ⟨hpoint, hwords, hcompletes⟩ := State.release_completes (s := z) (arrivals := s.members j) (by rw [hz]; exact hdev)
    (by rw [hz]; exact hquiet) hzarrived a (by omega) ht
  rw [hzpoint] at hpoint hwords
  obtain ⟨hfour, hfive⟩ := hwords (by rw [hz]; exact hpage.2.2)
  refine ⟨hpoint, hfour, hfive, fun c' hc' => ?_, fun b d r m hb hd hr hm => ?_⟩
  · obtain rfl : c = c' := Option.some.inj (hc.symm.trans hc')
    have hdone := hcompletes a _ _ n ((hmember a).mpr (.inr rfl)) (by rw [hza]) hfollowing
      ((hzbegins a _).trans hbegins)
    exact hdone
  · have hba : b ≠ a := fun e => by
      rw [e, hout] at hb
      cases hb
    exact hcompletes b d r m ((hmember b).mpr (.inl hb)) (by rw [hzother hba]; exact hd) hr ((hzbegins b r).trans hm)

/-- Settles O35. -/
theorem releaseOfAPoint : Obligations.ReleaseOfAPoint := by
  refine ⟨fun j g c => ⟨fun rep tag => Context.flagReleased_of_waiting, Context.flagReleased_of_not_holds⟩,
    fun j arrivals last s t ht => ?_,
    fun a arg p j s hquiet hdev hidle hstack hp hhead hgranted howes hkind hj hopen hnone hsole =>
      State.start_soleArrival hquiet hdev hidle hstack hp hhead hgranted howes hkind hj hopen hnone hsole,
    fun a arg p j s n hquiet hpage _ hdev hidle hp hhead hgranted hcount howes hkind hj hbegins hopen hout hall
      harrived => State.start_lastArrival hquiet hpage hdev hidle hp hhead hgranted hcount howes hkind hj
        hbegins hopen hout hall harrived⟩
  subst ht
  have hfields := s.releasePoint_fields j arrivals last
  refine ⟨?_, ?_, fun i hi => ?_, ?_, ?_, fun addr haddr => ?_, fun a => s.releasePoint_ax j arrivals last a, ?_⟩
  · rw [hfields]
    rfl
  · rw [State.releasePoint_point]
    exact State.point_setPoint_same s j _
  · rw [State.releasePoint_point]
    exact State.point_setPoint_ne s hi _
  · rw [State.read_releasePoint, State.read_pointReleased_four]
  · rw [State.read_releasePoint, State.read_pointReleased_five]
  · obtain ⟨hfour, hfive⟩ := Bool.or_eq_false_iff.mp haddr
    rw [State.read_releasePoint, State.read_pointReleased_ne s (beq_eq_false_iff_ne.mp hfour)
      (beq_eq_false_iff_ne.mp hfive)]
  · rw [State.releasePoint_agenda]
    refine congrArg (s.agenda ++ ·) (List.map_congr_left fun b _ => ?_)
    rfl

end Sys2Proof.Machine
end

