-- ==== Sys2Proof/Proofs/Drains.lean ====
section
/-!
PROOF. A host write of EMPTY that offers the only room (R151, R160): the slot is taken and the drain begins; the
last owed record of the only axis that owes (R97, R158, R31).
-/
namespace Sys2Proof.Machine

variable {s t u : State} {a b : Axis} {k : Slot} {p : Page} {rec : Record} {m : Nat}

/-! ### The slot is taken -/

/-- A search that meets no EMPTY slot. -/
theorem State.searchSlots_none (ks : List Slot) (h : ∀ j : Slot, s.slot j ≠ .empty) : s.searchSlots ks = (false, s) := by
  induction ks with
  | nil => rfl
  | cons j ks ih => rw [State.searchSlots, if_neg (h j), ih]

/-- The only EMPTY slot is taken, if it passes its tests. -/
theorem State.takeSlot_only (hempty : s.slot k = .empty) (hothers : ∀ j : Slot, j ≠ k → s.slot j ≠ .empty)
    (hpool : s.poolPage k = some p) : s.takeSlot = (true, s.withSlotTaken k p) := by
  obtain ⟨pre, post, hsplit⟩ := List.append_of_mem (mem_searchOrder s.report.lastClosed k)
  have hnodup := nodup_searchOrder s.report.lastClosed
  rw [State.takeSlot, hsplit]
  rw [hsplit] at hnodup
  refine State.searchSlots_takes (fun j hj => hothers j fun e => ?_) hempty hpool
  exact (List.nodup_append.mp hnodup).2.2 j hj k (.head _) e

/-- The state in which slot `k`, offered by a host write of EMPTY, is taken with page `p`. -/
def State.offered (s : State) (k : Slot) (p : Page) : State := (s.write (slotStateWord k) 1).withSlotTaken k p

theorem State.slot_offered (s : State) (k j : Slot) (p : Page) :
    (s.offered k p).slot j = if j = k then .filling p 0 0 else s.slot j :=
  State.slot_withSlotTaken (s.write (slotStateWord k) 1) k j p

theorem OnlyRoom.filling_offered (h : OnlyRoom k p s) : (s.offered k p).filling = some (k, p, 0, 0) :=
  State.filling_withSlotTaken (s := s.write (slotStateWord k) 1) h.1 k p

/-- A host write of EMPTY to the only slot with room, where something is kept. -/
theorem State.slotStateWrite_offers (hroom : OnlyRoom k p s) (hinit : s.inInit = false)
    (hkeeps : s.keepsRecords = true) :
    s.slotStateWrite k 1 = (s.offered k p).drainSteps.checkStopped := by
  obtain ⟨hfilling, hempty, hpage, hclaimed, hused⟩ := hroom
  obtain ⟨w, hw⟩ : ∃ w, w = (s.write (slotStateWord k) 1).setSlot k .empty := ⟨_, rfl⟩
  have hslot (j : Slot) : w.slot j = if j = k then .empty else s.slot j := by
    rw [hw]
    exact State.slot_setSlot k j .empty (s.write (slotStateWord k) 1)
  have hnone : w.NoFilling := fun j => by
    rw [hslot]
    split
    · rfl
    · exact hfilling j
  have hpool : w.poolPage k = some p := by
    refine (w.poolPage_eq_some_iff k p).mpr ⟨?_, fun i => ?_, by rw [hw]; exact hclaimed⟩
    · have hread : w.read (slotPageWord k) = s.read (slotPageWord k) := by
        rw [hw]
        exact s.read_write_ne (addr_ne_of_toNat (by rw [slotStateWord_toNat, slotPageWord_toNat]; omega)) 1
      rw [hread]
      exact hpage
    · rw [hslot]
      split
      · exact (Option.some_ne_none p).symm
      · rename_i hi
        exact hused i hi
  have htake : w.takeSlot = (true, w.withSlotTaken k p) := by
    refine State.takeSlot_only (by rw [hslot, if_pos rfl]) (fun j hj => ?_) hpool
    rw [hslot, if_neg hj]
    exact hempty j hj
  have htaken : w.withSlotTaken k p = s.offered k p := by
    rw [hw, State.offered, State.withSlotTaken, State.withSlotTaken]
    have hslots : ((s.write (slotStateWord k) 1).setSlot k .empty).report.slots.set k (.filling p 0 0) =
        (s.write (slotStateWord k) 1).report.slots.set k (.filling p 0 0) := Vector.set_set ..
    rw [hslots]
    rfl
  have hdrain : w.drain = (s.offered k p).drainSteps := by
    have hno : w.fillingSlot = none := (State.fillingSlot_eq_none_iff w).mpr hnone
    rw [State.drain, hno, htake, htaken]
    rfl
  have hwritten : ((s.write (slotStateWord k) 1).slot k).hostWritten 1 = .empty := rfl
  have hk : ¬ ((s.write (slotStateWord k) 1).slot k).isFilling = true := Bool.eq_false_iff.mp (hfilling k)
  have hkeeps' : w.keepsRecords = true := by
    rw [hw]
    exact hkeeps
  rw [State.slotStateWrite, if_neg (Bool.eq_false_iff.mp hinit)]
  simp only [hwritten, ← hw, if_neg hk]
  rw [if_pos ⟨trivial, hkeeps'⟩, hdrain]

theorem exec_slotStateWrite_offers (hroom : OnlyRoom k p s) (hinit : s.inInit = false)
    (hkeeps : s.keepsRecords = true) :
    exec (.slotStateWrite k 1) s = .next ((s.offered k p).drainSteps.checkStopped).settled :=
  congrArg (fun u : State => Host.Outcome.next u.settled) (State.slotStateWrite_offers hroom hinit hkeeps)

/-! ### The steps of the drain -/

theorem State.drainOwed_nil (h : s.report.waitList = []) (n : Nat) : (s.drainOwed n).2 = s := by
  cases n with
  | zero => rfl
  | succ n => rw [State.drainOwed, h]

/-- With nothing in the holding queue and no drop count the drain goes to the owed records. -/
theorem State.drainSteps_owed (hqueue : s.report.queue = []) (hdrops : s.report.drops = 0) :
    s.drainSteps = (s.drainOwed s.owedTotal).2 := by
  have hfirst : s.drainQueue s.report.queue.length = (true, s) := by
    rw [hqueue, List.length_nil, State.drainQueue, hqueue]
    rfl
  have hsecond : s.drainDrops = (true, s) := if_pos hdrops
  rw [State.drainSteps, hfirst]
  simp only [hsecond]

theorem State.owed_le_total (s : State) (a : Axis) : (s.owedOf a).length ≤ s.owedTotal :=
  List.le_sum_of_mem (List.mem_map.mpr ⟨a, mem_allAxes a, rfl⟩)

/-- The last record that is owed is placed. -/
theorem State.drainOwed_last (hfill : s.filling = some (k, p, 0, 0)) (hwait : s.report.waitList = [a])
    (howed : s.owedOf a = [rec]) (hlen : rec.length ≤ 248) :
    (s.drainOwed s.owedTotal).2 = (((s.placeIn k p 0 0 rec).owesNoMore a).touch a).push (.owingEnded a) := by
  obtain ⟨n, hn⟩ : ∃ n, s.owedTotal = n + 1 := by
    have hone := s.owed_le_total a
    rw [howed, List.length_singleton] at hone
    exact ⟨s.owedTotal - 1, by omega⟩
  have htry : s.tryPlace rec = (true, s.placeIn k p 0 0 rec) := State.tryPlace_fits hfill (by omega)
  have hkept : (s.placeIn k p 0 0 rec).report.waitList = [a] := by
    rw [State.placeIn_eq]
    exact hwait
  have hplaced : (s.placeIn k p 0 0 rec).owedPlaced a [] =
      (((s.placeIn k p 0 0 rec).owesNoMore a).touch a).push (.owingEnded a) := by
    generalize s.placeIn k p 0 0 rec = v at hkept
    have herase : v.report.waitList.erase a = [] := by
      rw [hkept]
      exact List.erase_cons_head ..
    rw [State.owedPlaced, if_pos List.isEmpty_nil, State.owesNoMore, ← herase]
    rfl
  rw [hn, State.drainOwed, hwait]
  simp only [howed, htry]
  rw [hplaced]
  exact State.drainOwed_nil rfl n

/-! ### The owing ends -/

theorem State.runTask_owingEnded (hdev : s.dev = .running) : s.runTask (.owingEnded a) = s.owingEnded a := by
  unfold State.runTask
  exact if_pos hdev

theorem State.touch_setAxState (s : State) (a : Axis) (st : AxisState) :
    (s.touch a).setAxState a st = s.setAxState a st := by
  rw [State.touch, State.setAxState, State.setAxState, State.ax_setAx_same, State.setAx_setAx]

theorem State.owingEnded_not (h : (s.ax a).state ≠ .reportWait) : s.owingEnded a = s := if_neg h

/-- In REPORT_WAIT without a request to take, the begin point goes on. -/
theorem State.owingEnded_begins (hdev : s.dev = .running) (hagenda : s.agenda = [])
    (hstate : (s.ax a).state = .reportWait) (hno : (s.ax a).acceptable = false) (hm : 124 ≤ m) :
    BeginPoint a s (((s.touch a).owingEnded a).finish m) := by
  have htouched : (s.touch a).ax a = { s.ax a with dirty := true } := State.ax_setAx_same ..
  have hended : (s.touch a).owingEnded a = (s.setAxState a .running).push (.begin a false) := by
    have hstate' : ((s.touch a).ax a).state = .reportWait := by
      rw [htouched]
      exact hstate
    have hno' : ¬ ((s.touch a).ax a).acceptable = true := by
      rw [htouched]
      exact Bool.eq_false_iff.mp hno
    rw [← State.touch_setAxState]
    exact (if_pos hstate').trans (if_neg hno')
  rw [hended]
  intro hgoes c hc
  exact beginPoint_serves a m s .running c hm hdev hagenda hc ⟨rfl, AxisState.noConfusion⟩ hgoes c hc

/-- In REPORT_WAIT with a request, the check takes it. -/
theorem State.owingEnded_takes {l : Level} {r : Request} {q : Page} (hdev : s.dev = .running) (hagenda : s.agenda = [])
    (hstate : (s.ax a).state = .reportWait) (hyes : (s.ax a).acceptable = true)
    (htop : (s.ax a).requests.top = some (l, r)) (hq : generalPage? r.head = some q) (hm : 125 ≤ m) :
    TakesRequest a (BeginPoint a) (s.ax a) l r q s (((s.touch a).owingEnded a).finish m) := by
  have htouched : (s.touch a).ax a = { s.ax a with dirty := true } := State.ax_setAx_same ..
  have hended : (s.touch a).owingEnded a = (s.setAx a { s.ax a with dirty := true }).accept a := by
    have hstate' : ((s.touch a).ax a).state = .reportWait := by
      rw [htouched]
      exact hstate
    have hyes' : ((s.touch a).ax a).acceptable = true := by
      rw [htouched]
      exact hyes
    exact (if_pos hstate').trans (if_pos hyes')
  rw [hended]
  exact State.takesRequest_chain (x := { s.ax a with dirty := true }) (beginPoint_serves a) (by omega) hdev hagenda hyes
    htop hq

/-- In STOPPING the device becomes STOPPED, and the page closes. -/
theorem State.enterStopped_closes {records used : Nat} (hfill : s.filling = some (k, p, records, used))
    (hrecords : records ≠ 0) (hagenda : s.agenda = []) :
    ∃ v, PageCloses 4 k p { s with dev := .stopped } v ∧
      AxisBecomes a (s.ax a) { v with acause := v.acause ||| 0x004 }
        (((s.touch a).push (.owingEnded a)).enterStopped).settled := by
  have hfill' : ({ s with dev := .stopped } : State).filling = some (k, p, records, used) := hfill
  refine ⟨_, State.closePage_closes hfill' (reason := .stop) CloseReason.noConfusion, ?_⟩
  obtain ⟨w, hw⟩ : ∃ w : State, w = { s with dev := .stopped } := ⟨_, rfl⟩
  have hclose : State.closeIfRecords .stop s.timebase
      ((w.setAx a { s.ax a with dirty := true }).push (.owingEnded a)) =
        ((w.closePage .stop s.timebase).setAx a { s.ax a with dirty := true }).push (.owingEnded a) := by
    have hpushed : State.filling ((w.setAx a { s.ax a with dirty := true }).push (.owingEnded a)) =
        some (k, p, records, used) := by
      rw [hw]
      exact hfill
    rw [State.closeIfRecords_of_some hpushed hrecords, State.closePage_push, State.closePage_setAx]
  have hstops : ((s.touch a).push (.owingEnded a)).enterStopped =
      (((w.closePage .stop s.timebase).setAx a { s.ax a with dirty := true }).setCause .runStopped).push
        (.owingEnded a) := by
    refine Eq.trans ?_ (congrArg (State.setCause .runStopped) hclose)
    rw [hw]
    rfl
  have hfields := State.closePage_eq hfill' .stop s.timebase
  have hcause : AlertCause.runStopped.bit = 0x004 := by decide
  have htime : w.timebase = s.timebase := by rw [hw]
  rw [hstops, ← hw, htime]
  rw [← hw] at hfields
  generalize w.closePage .stop s.timebase = v at hfields
  have hvagenda : v.agenda = [] := by rw [hfields, hw]; exact hagenda
  have hvdev : v.dev ≠ .running := by rw [hfields, hw]; exact DevState.noConfusion
  rw [State.settled_eq_finish, show settleBound = 16383 + 1 from rfl,
    State.finish_push (u := (v.setAx a { s.ax a with dirty := true }).setCause .runStopped) hvagenda]
  have hnothing : State.runTask (.owingEnded a) ((v.setAx a { s.ax a with dirty := true }).setCause .runStopped) =
      (v.setAx a { s.ax a with dirty := true }).setCause .runStopped := by
    unfold State.runTask
    exact if_neg hvdev
  rw [hnothing, State.finish_nil (u := (v.setAx a { s.ax a with dirty := true }).setCause .runStopped) hvagenda]
  show _ = State.setAx { v with acause := v.acause ||| 0x004 } a _
  rw [← hcause]
  rfl

/-- Settles O38. -/
theorem drainEndsOwing : Obligations.DrainEndsOwing := by
  intro k p a rec s hquiet hdev hfilling hempty hpage hclaimed hused hqueue hdrops hwait howed _ hlen
  have hroom : OnlyRoom k p s := ⟨hfilling, hempty, hpage, hclaimed, hused⟩
  have hp : isGeneralPage p = true := decide_eq_true (generalPage?_eq_some_iff.mp hpage).2
  have hinit : s.inInit = false := by rcases hdev with h | h <;> rw [State.inInit, h]
  have hkeeps : s.keepsRecords = true := by
    rw [State.keepsRecords, hwait, List.isEmpty_cons, Bool.not_false, Bool.or_true, Bool.true_or]
  have hplaces := (s.offered k p).placeIn_places (rec := rec) (records := 0) (used := 0) hp (by omega) k
  have hsteps : (s.offered k p).drainSteps =
      ((((s.offered k p).placeIn k p 0 0 rec).owesNoMore a).touch a).push (.owingEnded a) :=
    (State.drainSteps_owed (s := s.offered k p) hqueue hdrops).trans
      (State.drainOwed_last hroom.filling_offered hwait howed (by omega))
  have hexec := exec_slotStateWrite_offers hroom hinit hkeeps
  rw [hsteps] at hexec
  refine ⟨_, _, hexec, hplaces, ?_⟩
  obtain ⟨hfields, -⟩ := hplaces
  have hfill : ((s.offered k p).placeIn k p 0 0 rec).filling = some (k, p, 1, rec.length) := by
    refine State.filling_of_slot (.of_only (k := k) fun j hj => ?_) ?_
    · rw [State.slot_placeIn, if_neg hj, State.slot_offered, if_neg hj]
      exact hfilling j
    · rw [State.slot_placeIn, if_pos rfl, Nat.zero_add, Nat.zero_add]
  generalize (s.offered k p).placeIn k p 0 0 rec = u at hfields hfill
  have hudev : (u.owesNoMore a).dev = s.dev := by rw [State.owesNoMore, hfields]; rfl
  have huagenda : (u.owesNoMore a).agenda = [] := by rw [State.owesNoMore, hfields]; exact hquiet
  have hax : (u.owesNoMore a).ax a = s.ax a := by rw [State.owesNoMore, hfields]; rfl
  have hfill' : (u.owesNoMore a).filling = some (k, p, 1, rec.length) := hfill
  have hnowait : (u.owesNoMore a).report.waitList = [] := rfl
  generalize u.owesNoMore a = v at hudev huagenda hax hfill' hnowait
  have hrunning (h : s.dev = .running) : (((v.touch a).push (.owingEnded a)).checkStopped).settled =
      ((v.touch a).owingEnded a).finish 16383 := by
    have hdev' : v.dev = .running := hudev.trans h
    have hnot : ¬ (((v.touch a).push (.owingEnded a)).dev = .stopping ∧
        ((v.touch a).push (.owingEnded a)).report.waitList = []) := fun hboth => by
      cases hdev'.symm.trans hboth.1
    rw [State.checkStopped, if_neg hnot, State.settled_eq_finish, show settleBound = 16383 + 1 from rfl,
      State.finish_push (by exact huagenda), State.runTask_owingEnded (by exact hdev')]
  refine ⟨fun h hstate => ?_, fun h hstate hno => ?_, fun h hstate hyes l r q htop hq => ?_, fun h hstate => ?_⟩
  · have hsame : (v.touch a).owingEnded a = v.touch a := State.owingEnded_not (by
      rw [State.touch, State.ax_setAx_same, hax]
      exact hstate)
    rw [hrunning h, hsame, State.finish_nil (by exact huagenda), State.touch, hax]
  · rw [hrunning h]
    exact State.owingEnded_begins (hudev.trans h) huagenda (hax ▸ hstate) (hax ▸ hno) (by decide)
  · rw [hrunning h, ← hax]
    exact State.owingEnded_takes (hudev.trans h) huagenda (hax ▸ hstate) (hax ▸ hyes) (hax ▸ htop) hq (by decide)
  · have hboth : ((v.touch a).push (.owingEnded a)).dev = .stopping ∧
        ((v.touch a).push (.owingEnded a)).report.waitList = [] := ⟨hudev.trans h, hnowait⟩
    rw [State.checkStopped, if_pos hboth, ← hax]
    exact State.enterStopped_closes hfill' (by decide) huagenda

end Sys2Proof.Machine
end

