-- ==== Sys2Proof/Proofs/Placed.lean ====
section
/-!
PROOF. What a drain has placed so far (R149, R153, R160): the state beside the one that the same steps lead to
without the page.
-/
namespace Sys2Proof.Machine

variable {s t u x y : State} {a b : Axis} {k : Slot} {p : Page} {rec : Record} {L M : List Record} {addr : Addr}

/-! ### The words of a list of records -/

theorem wordsOf_nil : wordsOf [] = 0 := rfl

theorem wordsOf_append (L M : List Record) : wordsOf (L ++ M) = wordsOf L + wordsOf M := by
  rw [wordsOf, wordsOf, wordsOf, List.map_append, List.sum_append]

theorem wordsOf_singleton (rec : Record) : wordsOf [rec] = rec.length := Nat.add_zero _

theorem wordsOf_cons (rec : Record) (L : List Record) : wordsOf (rec :: L) = rec.length + wordsOf L := by
  rw [wordsOf, wordsOf, List.map_cons, List.sum_cons]

/-- A record of the list ends within its words. -/
theorem wordsOf_take_le {i : Nat} (h : L[i]? = some rec) : wordsOf (L.take i) + rec.length ≤ wordsOf L := by
  obtain ⟨hi, hrec⟩ := List.getElem?_eq_some_iff.mp h
  have hsplit : L = L.take i ++ rec :: L.drop (i + 1) := by
    rw [← hrec, List.cons_getElem_drop_succ, List.take_append_drop]
  have hwords := congrArg wordsOf hsplit
  rw [wordsOf_append, wordsOf_cons] at hwords
  omega

/-! ### A state with the records placed -/

/-- State `u` is state `x` with the records `L` placed in the page `p` of slot `k`, which `x` holds empty. -/
structure Drained (k : Slot) (p : Page) (L : List Record) (x u : State) : Prop where
  others : ∀ j : Slot, j ≠ k → (x.slot j).isFilling = false
  general : isGeneralPage p = true
  fields :
    u = { x with
      ram := u.ram
      report := { x.report with
        slots := x.report.slots.set k (.filling p L.length (wordsOf L))
        seq := x.report.seq + BitVec.ofNat 16 L.length
        deadline := if L = [] then x.report.deadline else x.agingDeadline } }
  records : ∀ (i m : Nat) (rec : Record), L[i]? = some rec → m < rec.length →
    u.read (pageWord p (BitVec.ofNat 8 (8 + wordsOf (L.take i) + m))) =
      (rec.words (x.report.seq + BitVec.ofNat 16 i)).getD m 0
  counts : L ≠ [] →
    u.read (pageWord p 1) = BitVec.ofNat 16 L.length ∧
    u.read (pageWord p 3) = x.report.seq + BitVec.ofNat 16 L.length - 1 ∧
    u.read (pageWord p 4) = BitVec.ofNat 16 (wordsOf L) ∧
    u.read 0x0011 = x.report.seq + BitVec.ofNat 16 L.length
  head : u.read (pageWord p 0) = x.read (pageWord p 0) ∧ u.read (pageWord p 2) = x.read (pageWord p 2)
  outside : ∀ addr, isPageWord p 0 255 addr = false → addr ≠ 0x0011 → u.read addr = x.read addr

/-- Before the first record. -/
theorem Drained.nil (hothers : ∀ j : Slot, j ≠ k → (x.slot j).isFilling = false) (hp : isGeneralPage p = true)
    (hslot : x.slot k = .filling p 0 0) : Drained k p [] x x where
  others := hothers
  general := hp
  fields := by
    have hset : x.report.slots.set k (.filling p 0 0) = x.report.slots := by
      rw [← hslot]
      exact Vector.set_getElem_self _
    have hseq : x.report.seq + BitVec.ofNat 16 0 = x.report.seq := BitVec.add_zero _
    rw [List.length_nil, wordsOf_nil, hset, hseq, if_pos rfl]
  records := fun i m rec h => by
    rw [List.getElem?_nil] at h
    cases h
  counts := fun h => absurd rfl h
  head := ⟨rfl, rfl⟩
  outside := fun _ _ _ => rfl

theorem Drained.filling (h : Drained k p L x u) : u.filling = some (k, p, L.length, wordsOf L) := by
  have hslot (j : Slot) : u.slot j = if j = k then .filling p L.length (wordsOf L) else x.slot j := by
    rw [h.fields]
    exact State.slot_setSlot k j _ x
  refine State.filling_of_slot (.of_only (k := k) fun j hj => ?_) ?_
  · rw [hslot, if_neg hj]
    exact h.others j hj
  · rw [hslot, if_pos rfl]

/-- One record more. -/
theorem Drained.place (h : Drained k p L x u) (hfits : wordsOf L + rec.length ≤ 248) :
    u.tryPlace rec = (true, u.placeIn k p L.length (wordsOf L) rec) ∧
      Drained k p (L ++ [rec]) x (u.placeIn k p L.length (wordsOf L) rec) := by
  refine ⟨State.tryPlace_fits h.filling hfits, ?_⟩
  have hp := h.general
  have hthree : 3 ≤ p.toNat := of_decide_eq_true hp
  have hread (addr : Addr) : (u.placeIn k p L.length (wordsOf L) rec).read addr =
      Memory.read (Memory.placed u.ram p L.length (wordsOf L) rec u.report.seq) addr := by
    rw [State.read, State.placeIn_ram]
  have hother (addr : Addr) (hbody : isPageWord p (8 + wordsOf L) (7 + wordsOf L + rec.length) addr = false)
      (h1 : addr ≠ pageWord p 1) (h3 : addr ≠ pageWord p 3) (h4 : addr ≠ pageWord p 4) (hseq : addr ≠ 0x0011) :
      (u.placeIn k p L.length (wordsOf L) rec).read addr = u.read addr :=
    (hread addr).trans (Memory.read_placed_other u.ram hfits hbody h1 h3 h4 hseq)
  have hseq : u.report.seq = x.report.seq + BitVec.ofNat 16 L.length := by rw [h.fields]
  have hlength : (L ++ [rec]).length = L.length + 1 := by rw [List.length_append, List.length_singleton]
  have hwords : wordsOf (L ++ [rec]) = wordsOf L + rec.length := by rw [wordsOf_append, wordsOf_singleton]
  have hnext : x.report.seq + BitVec.ofNat 16 L.length + 1 = x.report.seq + BitVec.ofNat 16 (L ++ [rec]).length := by
    rw [hlength, BitVec.add_assoc]
    exact congrArg (x.report.seq + ·) (BitVec.ofNat_add L.length 1).symm
  have hsmall {n : Nat} (hn : n < 256) : (pageWord p (BitVec.ofNat 8 n)).toNat = 256 * p.toNat + n := by
    rw [pageWord_toNat, BitVec.toNat_ofNat, Nat.mod_eq_of_lt hn]
  have hseqAddr : BitVec.toNat (0x0011 : Addr) = 17 := rfl
  have hpageNe {n m : Nat} (hn : n < 256) (hm : m < 256) (hne : n ≠ m) :
      pageWord p (BitVec.ofNat 8 n) ≠ pageWord p (BitVec.ofNat 8 m) :=
    addr_ne_of_toNat (by rw [hsmall hn, hsmall hm]; omega)
  have hhead (n : Nat) (hn : n < 8) (h1 : n ≠ 1) (h3 : n ≠ 3) (h4 : n ≠ 4) :
      (u.placeIn k p L.length (wordsOf L) rec).read (pageWord p (BitVec.ofNat 8 n)) =
        u.read (pageWord p (BitVec.ofNat 8 n)) :=
    hother _ (isPageWord_eq_false.mpr (.inl (by rw [hsmall (by omega)]; omega)))
      (hpageNe (m := 1) (by omega) (by omega) h1) (hpageNe (m := 3) (by omega) (by omega) h3)
      (hpageNe (m := 4) (by omega) (by omega) h4) (addr_ne_of_toNat (by rw [hsmall (by omega)]; omega))
  obtain ⟨hcount, hlast, hused⟩ :=
    Memory.read_placed_count u.ram (records := L.length) (used := wordsOf L) (rec := rec) (seq := u.report.seq) hp
  refine ⟨h.others, hp, ?fields, fun i m r hr hm => ?words, fun _ => ?counts, ⟨?_, ?_⟩, fun addr hpage hne => ?outside⟩
  case fields =>
    have hdeadline : (u.placeIn k p L.length (wordsOf L) rec).report.deadline = x.agingDeadline := by
      rw [State.placeIn_deadline]
      split
      · rw [h.fields]
        rfl
      · rename_i hnonempty
        have hne : ¬ L = [] := fun e => hnonempty (congrArg List.length e)
        rw [h.fields]
        exact if_neg hne
    have hset : u.report.slots.set k (.filling p (L.length + 1) (wordsOf L + rec.length)) =
        x.report.slots.set k (.filling p (L.length + 1) (wordsOf L + rec.length)) := by
      rw [h.fields]
      exact Vector.set_set ..
    have hplaced := u.placeIn_eq k p L.length (wordsOf L) rec
    rw [hdeadline, hset, hseq, hnext] at hplaced
    rw [hlength, hwords, if_neg (List.append_ne_nil_of_right_ne_nil _ (List.cons_ne_nil _ _)), ← hlength]
    refine hplaced.trans ?_
    generalize (u.placeIn k p L.length (wordsOf L) rec).ram = ram
    conv_lhs => rw [h.fields]
    rw [hlength]
  case words =>
    by_cases hi : i < L.length
    · rw [List.getElem?_append_left hi] at hr
      have hbefore := wordsOf_take_le hr
      rw [List.take_append_of_le_length hi.le]
      refine (hother _ ?_ ?_ ?_ ?_ ?_).trans (h.records i m r hr hm)
      · exact isPageWord_eq_false.mpr (.inl (by rw [hsmall (by omega)]; omega))
      · exact hpageNe (m := 1) (by omega) (by omega) (by omega)
      · exact hpageNe (m := 3) (by omega) (by omega) (by omega)
      · exact hpageNe (m := 4) (by omega) (by omega) (by omega)
      · exact addr_ne_of_toNat (by rw [hsmall (by omega)]; omega)
    · have hil : i = L.length := by
        obtain ⟨hlt, -⟩ := List.getElem?_eq_some_iff.mp hr
        rw [hlength] at hlt
        omega
      rw [hil, List.getElem?_append_right (le_refl _), Nat.sub_self] at hr
      obtain rfl : rec = r := Option.some.inj hr
      rw [hil, List.take_left', hread, Memory.read_placed_word u.ram hp hfits hm, hseq]
      rfl
  case counts =>
    rw [hread, hread, hread, hread, hcount, hlast, hused, Memory.read_placed_seq, hseq, hnext, hlength, hwords]
    refine ⟨rfl, ?_, rfl, rfl⟩
    rw [← hlength, ← hnext, BitVec.add_sub_cancel]
  case outside =>
    have hbounds := isPageWord_eq_false.mp hpage
    have hpageOut {n : Nat} (hn : n < 256) : addr ≠ pageWord p (BitVec.ofNat 8 n) :=
      addr_ne_of_toNat (by rw [hsmall hn]; omega)
    exact (hother addr (isPageWord_eq_false.mpr (by omega)) (hpageOut (n := 1) (by decide))
      (hpageOut (n := 3) (by decide)) (hpageOut (n := 4) (by decide)) hne).trans (h.outside addr hpage hne)
  · exact (hhead 0 (by decide) (by decide) (by decide) (by decide)).trans h.head.1
  · exact (hhead 2 (by decide) (by decide) (by decide) (by decide)).trans h.head.2

end Sys2Proof.Machine
end

