-- ==== Sys2Proof/Proofs/DrainSteps.lean ====
section
/-!
PROOF. The steps of a drain that find room (R158 to R160).
-/
namespace Sys2Proof.Machine

variable {s t u v x y : State} {a b : Axis} {k : Slot} {p : Page} {rec : Record} {L pre post : List Record} {addr : Addr}

/-! ### A step beside the page -/

/-- A step that goes neither by the page nor by the sequence number is made with and without the records. -/
theorem Drained.congr (h : Drained k p L x u)
    (hfields : v = { y with
      ram := v.ram
      report := { y.report with
        slots := y.report.slots.set k (.filling p L.length (wordsOf L))
        seq := y.report.seq + BitVec.ofNat 16 L.length
        deadline := if L = [] then y.report.deadline else y.agingDeadline } })
    (hslots : y.report.slots = x.report.slots) (hseq : y.report.seq = x.report.seq)
    (hpage : ∀ addr, isPageWord p 0 255 addr = true ∨ addr = 0x0011 →
      v.read addr = u.read addr ∧ y.read addr = x.read addr)
    (hother : ∀ addr, u.read addr = x.read addr → v.read addr = y.read addr) : Drained k p L y v := by
  have hword (off : BitVec 8) : isPageWord p 0 255 (pageWord p off) = true := by
    have hoff := off.isLt
    rw [← Bool.not_eq_false, isPageWord_eq_false, pageWord_toNat]
    omega
  have hslot (j : Slot) : y.slot j = x.slot j := by rw [State.slot, State.slot, hslots]
  refine ⟨fun j hj => hslot j ▸ h.others j hj, h.general, hfields, fun i m rec hi hm => ?_, fun hne => ?_, ⟨?_, ?_⟩,
    fun addr haddr hne => hother addr (h.outside addr haddr hne)⟩
  · rw [(hpage _ (.inl (hword _))).1, hseq]
    exact h.records i m rec hi hm
  · obtain ⟨h1, h3, h4, h11⟩ := h.counts hne
    rw [(hpage _ (.inl (hword _))).1, (hpage _ (.inl (hword _))).1, (hpage _ (.inl (hword _))).1,
      (hpage 0x0011 (.inr rfl)).1, hseq]
    exact ⟨h1, h3, h4, h11⟩
  · rw [(hpage _ (.inl (hword _))).1, (hpage _ (.inl (hword _))).2]
    exact h.head.1
  · rw [(hpage _ (.inl (hword _))).1, (hpage _ (.inl (hword _))).2]
    exact h.head.2

/-- A change of the report unit with a write to a word of the first page. -/
theorem Drained.write (h : Drained k p L x u) {f : ReportUnit → ReportUnit} {w : Word}
    (hf : ∀ r slots seq deadline, f { r with slots := slots, seq := seq, deadline := deadline } =
      { f r with slots := slots, seq := seq, deadline := deadline })
    (hkeeps : ∀ r, (f r).slots = r.slots ∧ (f r).seq = r.seq ∧ (f r).deadline = r.deadline)
    (hlow : addr.toNat < 256) (hne : addr ≠ 0x0011) :
    Drained k p L ((x.mapReport f).write addr w) ((u.mapReport f).write addr w) := by
  obtain ⟨hslots, hseq, hdeadline⟩ := hkeeps x.report
  have hp : 3 ≤ p.toNat := of_decide_eq_true h.general
  refine h.congr ?_ hslots hseq (fun b hb => ?_) fun b hb => ?_
  · generalize hram : ((u.mapReport f).write addr w).ram = ram
    have hv : (u.mapReport f).write addr w = { u with ram := ram, report := f u.report } := by
      rw [← hram]
      rfl
    have hreport : u.report = { x.report with
        slots := x.report.slots.set k (.filling p L.length (wordsOf L))
        seq := x.report.seq + BitVec.ofNat 16 L.length
        deadline := if L = [] then x.report.deadline else x.agingDeadline } := by
      rw [h.fields]
    rw [hv, hreport, hf]
    conv_lhs => rw [h.fields]
    show _ = { x with
      ram := ram
      report := { f x.report with
        slots := (f x.report).slots.set k (.filling p L.length (wordsOf L))
        seq := (f x.report).seq + BitVec.ofNat 16 L.length
        deadline := if L = [] then (f x.report).deadline else x.agingDeadline } }
    rw [hslots, hseq, hdeadline]
  · have hb' : addr ≠ b := by
      rcases hb with hb | hb
      · rw [← Bool.not_eq_false, isPageWord_eq_false] at hb
        exact addr_ne_of_toNat (by omega)
      · rw [hb]
        exact hne
    exact ⟨State.read_write_ne _ hb' w, State.read_write_ne _ hb' w⟩
  · by_cases hab : addr = b
    · rw [hab, State.read_write_same, State.read_write_same]
    · rw [State.read_write_ne _ hab, State.read_write_ne _ hab]
      exact hb

/-! ### The holding queue -/

/-- Step 1, where the whole queue fits. -/
theorem Drained.queue {q : List Record} (h : Drained k p L x u) (hq : x.report.queue = q)
    (hfits : wordsOf L + wordsOf q ≤ 248) :
    ∃ y v, u.drainQueue q.length = (true, v) ∧ Drained k p (L ++ q) y v ∧
      y = { x with ram := y.ram, report := { x.report with queue := [] } } ∧
      (q ≠ [] → y.read 0x0012 = 0) ∧ ∀ addr, (addr = 0x0012 → q = []) → y.read addr = x.read addr := by
  induction q generalizing L x u with
  | nil =>
    have hu : u.report.queue = [] := by
      rw [h.fields]
      exact hq
    refine ⟨x, u, ?_, by rwa [List.append_nil], ?_, fun hne => absurd rfl hne, fun _ _ => rfl⟩
    · rw [List.length_nil, State.drainQueue, hu]
      rfl
    · rw [← hq]
  | cons rec rest ih =>
    have hu : u.report.queue = rec :: rest := by
      rw [h.fields]
      exact hq
    rw [wordsOf_cons] at hfits
    obtain ⟨htry, hplaced⟩ := h.place (rec := rec) (by omega)
    have hnext := hplaced.write (f := fun r => { r with queue := rest }) (addr := 0x0012)
      (w := BitVec.ofNat 16 rest.length) (fun _ _ _ _ => rfl) (fun _ => ⟨rfl, rfl, rfl⟩) (by decide) (by decide)
    obtain ⟨y, v, hdrain, hdrained, hfields, hzero, hsame⟩ := ih hnext rfl (by
      rw [wordsOf_append, wordsOf_singleton]
      omega)
    refine ⟨y, v, ?_, by rwa [List.append_assoc] at hdrained, ?_, fun _ => ?_, fun addr haddr => ?_⟩
    · rw [List.length_cons, State.drainQueue, hu]
      simp only [htry]
      exact hdrain
    · rw [hfields]
      rfl
    · by_cases hrest : rest = []
      · rw [hsame 0x0012 fun _ => hrest, State.read_write_same, hrest]
        rfl
      · exact hzero hrest
    · have hne : addr ≠ 0x0012 := fun e => List.cons_ne_nil _ _ (haddr e)
      rw [hsame addr fun e => absurd e hne]
      exact State.read_write_ne _ (Ne.symm hne) _

/-! ### The drop count -/

/-- The DROPS record that the drain makes. -/
def State.dropsRecord (s : State) : List Record :=
  if s.report.drops = 0 then [] else [{ time := s.timebase, body := .drops s.report.drops }]

theorem State.length_dropsRecord (s : State) :
    s.dropsRecord.length = (if s.report.drops = 0 then 0 else 1) ∧
      wordsOf s.dropsRecord = if s.report.drops = 0 then 0 else 6 := by
  rw [State.dropsRecord]
  split <;> exact ⟨rfl, rfl⟩

/-- Step 2, where the DROPS record fits. -/
theorem Drained.drops (h : Drained k p L x u) (hfits : wordsOf L + wordsOf x.dropsRecord ≤ 248) :
    ∃ y v, u.drainDrops = (true, v) ∧ Drained k p (L ++ x.dropsRecord) y v ∧
      y = { x with ram := y.ram, report := { x.report with drops := 0 } } ∧
      (x.report.drops ≠ 0 → y.read 0x0013 = 0) ∧
      ∀ addr, (addr = 0x0013 → x.report.drops = 0) → y.read addr = x.read addr := by
  have hu : u.report.drops = x.report.drops ∧ u.timebase = x.timebase := by
    rw [h.fields]
    exact ⟨rfl, rfl⟩
  by_cases hdrops : x.report.drops = 0
  · refine ⟨x, u, if_pos (hu.1.trans hdrops), ?_, by rw [← hdrops], fun hne => absurd hdrops hne, fun _ _ => rfl⟩
    rwa [State.dropsRecord, if_pos hdrops, List.append_nil]
  · rw [State.dropsRecord, if_neg hdrops] at hfits ⊢
    rw [wordsOf_singleton] at hfits
    obtain ⟨htry, hplaced⟩ := h.place hfits
    refine ⟨_, _, ?_, hplaced.write (f := fun r => { r with drops := 0 }) (addr := 0x0013) (w := 0)
      (fun _ _ _ _ => rfl) (fun _ => ⟨rfl, rfl, rfl⟩) (by decide) (by decide), rfl, fun _ => State.read_write_same ..,
      fun addr haddr => State.read_write_ne _ (fun e => hdrops (haddr e.symm)) _⟩
    rw [State.drainDrops, hu.1, if_neg hdrops, hu.2]
    simp only [htry]

end Sys2Proof.Machine
end

