-- ==== Sys2Proof/Proofs/DrainQueues.lean ====
section
/-!
PROOF. A drain that places the whole holding queue and the drop count (R159, R160, R162).
-/
namespace Sys2Proof.Machine

variable {s t u v x y : State} {k : Slot} {p : Page} {rec : Record} {addr : Addr}

theorem State.agingDeadline_eq (s : State) : s.agingDeadline =
    if s.setup.reportAge ≠ 0 ∧ (s.dev = .running ∨ s.dev = .stopping) then
      some (s.timebase + s.setup.reportAge.setWidth 48 * 1024)
    else none := by
  rw [State.agingDeadline]
  by_cases hage : s.setup.reportAge = 0
  · rw [if_pos hage, if_neg fun h => h.1 hage]
  · rw [if_neg hage]
    cases hdev : s.dev with
    | running => rw [if_pos ⟨hage, .inl rfl⟩]
    | stopping => rw [if_pos ⟨hage, .inr rfl⟩]
    | init n => rw [if_neg fun h => by rcases h.2 with h | h <;> cases h]
    | stopped => rw [if_neg fun h => by rcases h.2 with h | h <;> cases h]

/-! ### The slot that is offered -/

theorem State.read_offered_slot (s : State) (k : Slot) (p : Page) : (s.offered k p).read (slotStateWord k) = 2 := by
  show Memory.read (Memory.write _ (slotStateWord k) 2) (slotStateWord k) = 2
  exact Memory.read_write_same ..

theorem slotStateWord_outside (k : Slot) (hp : isGeneralPage p = true) :
    isPageWord p 0 255 (slotStateWord k) = false := by
  have hthree : 3 ≤ p.toNat := of_decide_eq_true hp
  have hk := k.isLt
  rw [isPageWord_eq_false, slotStateWord_toNat]
  omega

theorem State.read_offered_page (s : State) (k : Slot) (hp : isGeneralPage p = true) {i : Nat} (hi : i < 8) :
    (s.offered k p).read (pageWord p (BitVec.ofNat 8 i)) =
      [2, 0, s.report.seq, s.report.seq - 1, 0, 0, 0, 0].getD i 0 := by
  have hthree : 3 ≤ p.toNat := of_decide_eq_true hp
  have hk := k.isLt
  have hne : (slotStateWord k).toNat ≠ (pageWord p (BitVec.ofNat 8 i)).toNat := by
    rw [slotStateWord_toNat, pageWord_toNat]
    omega
  have hwords := Memory.read_writeWords_page [2, 0, s.report.seq, s.report.seq - 1, 0, 0, 0, 0]
    (s.write (slotStateWord k) 1).ram p 0 (i := i) (by simpa using hi) (by simp)
  have hzero : (0 : BitVec 8).toNat + i = i := Nat.zero_add i
  rw [hzero] at hwords
  refine (Memory.read_write_of_toNat _ hne 2).trans (hwords.trans ?_)
  rw [List.getD_eq_getElem _ _ (by simpa using hi)]

theorem State.read_offered_outside (s : State) (k : Slot) (hpage : isPageWord p 0 255 addr = false)
    (hslot : addr ≠ slotStateWord k) : (s.offered k p).read addr = s.read addr := by
  rw [isPageWord_eq_false] at hpage
  refine (Memory.read_write_ne _ hslot.symm 2).trans ?_
  refine (Memory.read_writeWords_page_outside _ _ p 0 (by simp) ?_).trans (s.read_write_ne hslot.symm 1)
  have hzero : (0 : BitVec 8).toNat = 0 := rfl
  simp only [hzero, List.length_cons, List.length_nil]
  omega

theorem OnlyRoom.general (h : OnlyRoom k p s) : isGeneralPage p = true :=
  decide_eq_true (generalPage?_eq_some_iff.mp h.2.2.1).2

/-- The drain begins with an empty page. -/
theorem OnlyRoom.drained (h : OnlyRoom k p s) : Drained k p [] (s.offered k p) (s.offered k p) := by
  refine .nil (fun j hj => ?_) h.general ?_
  · rw [State.slot_offered, if_neg hj]
    exact h.1 j
  · rw [State.slot_offered, if_pos rfl]

/-! ### The queue and the drop count -/

/-- What the report unit keeps beside the owed records. -/
def State.kept (s : State) : List Record := s.report.queue ++ s.dropsRecord

/-- The words that a drain of the holding queue and the drop count writes beside the page. -/
def State.keptWord (s : State) (addr : Addr) : Word :=
  if addr = 0x0012 ∧ s.report.queue ≠ [] ∨ addr = 0x0013 ∧ s.report.drops ≠ 0 then 0 else s.read addr

/-- Steps 1 and 2, where everything fits: they leave the owed records to step 3. -/
theorem Drained.kept {L : List Record} (h : Drained k p L x u) (hfits : wordsOf L + wordsOf x.kept ≤ 248) :
    ∃ y v, u.drainSteps = (v.drainOwed v.owedTotal).2 ∧ Drained k p (L ++ x.kept) y v ∧
      y = { x with ram := y.ram, report := { x.report with queue := [], drops := 0 } } ∧
      ∀ addr, y.read addr = x.keptWord addr := by
  rw [State.kept, wordsOf_append] at hfits
  have huq : u.report.queue = x.report.queue := by rw [h.fields]
  obtain ⟨y, v, hqueue, hplaced, hyfields, hyzero, hysame⟩ := h.queue rfl (by omega)
  have hydrops : y.dropsRecord = x.dropsRecord := by
    rw [hyfields]
    rfl
  obtain ⟨z, w, hdrops, hplaced', hzfields, hzzero, hzsame⟩ := hplaced.drops (by rw [hydrops, wordsOf_append]; omega)
  have hzdrops : y.report.drops = x.report.drops := by rw [hyfields]
  refine ⟨z, w, ?_, ?_, ?_, fun addr => ?_⟩
  · rw [State.drainSteps, huq, hqueue]
    simp only [hdrops]
  · rwa [hydrops, List.append_assoc] at hplaced'
  · rw [hzfields, hyfields]
  · rw [hzdrops] at hzzero hzsame
    rw [State.keptWord]
    by_cases hd : addr = 0x0013 ∧ x.report.drops ≠ 0
    · rw [if_pos (.inr hd), hd.1, hzzero hd.2]
    · rw [hzsame addr fun e => not_not.mp fun hne => hd ⟨e, hne⟩]
      by_cases hq : addr = 0x0012 ∧ x.report.queue ≠ []
      · rw [if_pos (.inl hq), hq.1, hyzero hq.2]
      · rw [hysame addr fun e => not_not.mp fun hne => hq ⟨e, hne⟩, if_neg (not_or.mpr ⟨hq, hd⟩)]

theorem State.keptWord_offered (s : State) (hpage : isPageWord p 0 255 addr = false)
    (hslot : addr ≠ slotStateWord k) : (s.offered k p).keptWord addr = s.keptWord addr := by
  rw [State.keptWord, State.keptWord, State.read_offered_outside s k hpage hslot]
  rfl

/-- The slot's state word is neither the count of the queue nor the drop count. -/
theorem State.keptWord_offered_slot (s : State) (k : Slot) (p : Page) :
    (s.offered k p).keptWord (slotStateWord k) = 2 := by
  have hne (n : Nat) (hn : n < 64) : slotStateWord k ≠ BitVec.ofNat 15 n := addr_ne_of_toNat (by
    rw [slotStateWord_toNat, BitVec.toNat_ofNat]
    omega)
  rw [State.keptWord, if_neg, State.read_offered_slot]
  rintro (⟨e, -⟩ | ⟨e, -⟩)
  · exact hne 0x0012 (by decide) e
  · exact hne 0x0013 (by decide) e

/-- The page header, which the kept words are not in. -/
theorem State.keptWord_page (s : State) (hp : isGeneralPage p = true) (off : BitVec 8) :
    s.keptWord (pageWord p off) = s.read (pageWord p off) := by
  have hthree : 3 ≤ p.toNat := of_decide_eq_true hp
  have hne (n : Nat) (hn : n < 64) : pageWord p off ≠ BitVec.ofNat 15 n := addr_ne_of_toNat (by
    rw [pageWord_toNat, BitVec.toNat_ofNat]
    omega)
  rw [State.keptWord, if_neg]
  rintro (⟨e, -⟩ | ⟨e, -⟩)
  · exact hne 0x0012 (by decide) e
  · exact hne 0x0013 (by decide) e

/-- The words that stand, and those of the count of the queue and of the drops. -/
theorem State.keptWord_of_untouched (h12 : ((addr == 0x0012) && !s.report.queue.isEmpty) = false)
    (h13 : ((addr == 0x0013) && (s.report.drops != 0)) = false) : s.keptWord addr = s.read addr := by
  rw [State.keptWord, if_neg]
  rintro (⟨rfl, hq⟩ | ⟨rfl, hd⟩)
  · rw [beq_self_eq_true, Bool.true_and, Bool.not_eq_false', List.isEmpty_iff] at h12
    exact hq h12
  · rw [beq_self_eq_true, Bool.true_and, bne_eq_false_iff_eq] at h13
    exact hd h13

/-- What the report unit keeps, by its length and its words. -/
theorem State.length_kept (s : State) :
    s.kept.length = s.report.queue.length + (if s.report.drops = 0 then 0 else 1) ∧
      wordsOf s.kept = wordsOf s.report.queue + if s.report.drops = 0 then 0 else 6 := by
  obtain ⟨hlength, hwords⟩ := s.length_dropsRecord
  rw [State.kept, List.length_append, wordsOf_append, hlength, hwords]
  exact ⟨rfl, rfl⟩

/-- A state with the records placed in a page that the slot `k` of `s` took, and kept words beside it: the reads of
its first page and of the header. -/
theorem Drained.reads {L : List Record} (h : Drained k p L y v) (hy : ∀ addr, y.read addr = (s.offered k p).keptWord addr) :
    v.read (slotStateWord k) = 2 ∧ v.read (pageWord p 0) = 2 ∧ v.read (pageWord p 2) = s.report.seq ∧
      ∀ addr, isPageWord p 0 255 addr = false → addr ≠ slotStateWord k → addr ≠ 0x0011 →
        v.read addr = s.keptWord addr := by
  have hp := h.general
  have hslot : slotStateWord k ≠ 0x0011 := addr_ne_of_toNat (by
    have hseq : BitVec.toNat (0x0011 : Addr) = 17 := rfl
    rw [slotStateWord_toNat, hseq]
    omega)
  refine ⟨?_, ?_, ?_, fun addr hpage hne hseq => ?_⟩
  · rw [h.outside _ (slotStateWord_outside k hp) hslot, hy, State.keptWord_offered_slot]
  · rw [h.head.1, hy, State.keptWord_page _ hp]
    exact s.read_offered_page k hp (i := 0) (by decide)
  · rw [h.head.2, hy, State.keptWord_page _ hp]
    exact s.read_offered_page k hp (i := 2) (by decide)
  · rw [h.outside _ hpage hseq, hy, State.keptWord_offered s hpage hne]

/-- The holding queue and the drop count fill the page that was offered. -/
theorem State.drain_placesQueue {count words : Nat} (hquiet : Quiet s) (hinit : s.inInit = false)
    (hdev : s.dev ≠ .stopping) (hroom : OnlyRoom k p s) (hwait : s.report.waitList = [])
    (hkeeps : s.report.queue ≠ [] ∨ s.report.drops ≠ 0) (hcount : count = s.kept.length)
    (hwords : words = wordsOf s.kept) (hfits : words ≤ 248) : ∃ t,
    exec (.slotStateWrite k 1) s = .next t ∧
    t =
      { s with
        ram := t.ram
        report :=
          { s.report with
            slots := s.report.slots.set k (.filling p count words)
            queue := [], drops := 0, seq := s.report.seq + BitVec.ofNat 16 count
            deadline := s.agingDeadline } } ∧
    ∃ y, Drained k p s.kept y t ∧ y.report.seq = s.report.seq ∧
      ∀ addr, y.read addr = (s.offered k p).keptWord addr := by
  have hkeeps' : s.keepsRecords = true := by
    rw [State.keepsRecords]
    rcases hkeeps with h | h
    · rw [List.isEmpty_eq_false_iff.mpr h]
      rfl
    · rw [bne_iff_ne.mpr h, Bool.or_true]
  have hkept : (s.offered k p).kept = s.kept := rfl
  obtain ⟨y, v, hsteps, hplaced, hyfields, hyread⟩ := hroom.drained.kept (by
    rw [hkept, wordsOf_nil, Nat.zero_add, ← hwords]
    exact hfits)
  rw [List.nil_append, hkept] at hplaced
  have hvfields := hplaced.fields
  have hvwait : v.report.waitList = [] := by
    rw [hvfields, hyfields]
    exact hwait
  have hvdev : v.dev = s.dev := by
    rw [hvfields, hyfields]
    rfl
  have hvagenda : v.agenda = [] := by
    rw [hvfields, hyfields]
    exact hquiet
  have hexec := exec_slotStateWrite_offers hroom hinit hkeeps'
  have hnot : ¬ (v.dev = .stopping ∧ v.report.waitList = []) := fun h => hdev (hvdev.symm.trans h.1)
  rw [hsteps, State.drainOwed_nil hvwait, State.checkStopped, if_neg hnot, State.settled_nil _ hvagenda] at hexec
  have hnonempty : s.kept ≠ [] := by
    intro e
    obtain ⟨hq, hd⟩ := List.append_eq_nil_iff.mp e
    rcases hkeeps with h | h
    · exact h hq
    · rw [State.dropsRecord, if_neg h] at hd
      cases hd
  refine ⟨v, hexec, ?_, y, hplaced, by rw [hyfields]; rfl, hyread⟩
  rw [hcount, hwords]
  refine hvfields.trans ?_
  rw [if_neg hnonempty]
  have hslots : y.report.slots.set k (.filling p s.kept.length (wordsOf s.kept)) =
      s.report.slots.set k (.filling p s.kept.length (wordsOf s.kept)) := by
    rw [hyfields]
    exact Vector.set_set ..
  have haging : y.agingDeadline = s.agingDeadline := by
    rw [hyfields]
    rfl
  rw [hslots, haging]
  generalize v.ram = ram
  conv_lhs => rw [hyfields]
  rfl

end Sys2Proof.Machine
end

