-- ==== Sys2Proof/Proofs/DrainOwes.lean ====
section
/-!
PROOF. A drain of owed records, to the first one that finds no room (R155, R158, R160).
-/
namespace Sys2Proof.Machine

variable {s t u v x y : State} {a b d : Axis} {k : Slot} {p : Page} {rec : Record} {L pre post : List Record}
  {ws before others : List Axis} {n m : Nat}

/-! ### The records of one axis -/

theorem State.setOwed_setOwed (s : State) (a : Axis) (q r : List Record) :
    (s.setOwed a q).setOwed a r = s.setOwed a r := by
  have howed : (s.report.owed.set a q).set a r = s.report.owed.set a r := Vector.set_set ..
  have hset (q : List Record) : s.setOwed a q =
      { s.setAx a { s.ax a with dirty := true } with report := { s.report with owed := s.report.owed.set a q } } := rfl
  have htwice : (s.setOwed a q).setOwed a r =
      { (s.setAx a { s.ax a with dirty := true }).setAx a
          { (s.setAx a { s.ax a with dirty := true }).ax a with dirty := true } with
        report := { s.report with owed := (s.report.owed.set a q).set a r } } := rfl
  rw [htwice, hset, howed, State.ax_setAx_same, State.setAx_setAx]

/-- The records owed, and the rewrite that is due, beside the page. -/
theorem Drained.owed (h : Drained k p L x u) (a : Axis) (rest : List Record) :
    Drained k p L (x.owedPlaced a rest) (u.owedPlaced a rest) := by
  have hsplit (s : State) : s.owedPlaced a rest =
      { s with
        axes := (s.setAx a { s.ax a with dirty := true }).axes
        report := { s.report with
          owed := s.report.owed.set a rest
          waitList := if rest = [] then s.report.waitList.erase a else s.report.waitList }
        agenda := if rest = [] then s.agenda ++ [.owingEnded a] else s.agenda } := by
    cases rest <;> rfl
  refine h.congr ?_ ?_ ?_ (fun addr _ => ?_) fun addr haddr => ?_
  · rw [hsplit, hsplit]
    conv_lhs => rw [h.fields]
    rfl
  · rw [hsplit]
  · rw [hsplit]
  · rw [hsplit, hsplit]
    exact ⟨rfl, rfl⟩
  · rw [hsplit, hsplit]
    exact haddr

theorem Drained.owedOf (h : Drained k p L x u) (a : Axis) : u.owedOf a = x.owedOf a := by
  rw [h.fields]
  rfl

theorem Drained.waitList (h : Drained k p L x u) : u.report.waitList = x.report.waitList := by
  rw [h.fields]

theorem State.owedPlaced_some (h : post ≠ []) (s : State) (a : Axis) : s.owedPlaced a post = s.setOwed a post := by
  obtain ⟨rec, rest, rfl⟩ := List.exists_cons_of_ne_nil h
  rfl

theorem State.owedOf_setOwed (s : State) (a b : Axis) (r : List Record) :
    (s.setOwed a r).owedOf b = if b = a then r else s.owedOf b := by
  have hset : (s.setOwed a r).report.owed = s.report.owed.set a r := rfl
  rw [State.owedOf, State.owedOf, hset]
  by_cases h : b = a
  · subst h
    rw [if_pos rfl]
    exact Vector.getElem_set_self _
  · rw [if_neg h]
    exact Vector.getElem_set_ne _ _ fun e => h (Fin.ext e.symm)

/-- Records of the first axis of the wait list are placed, and others stay owed. -/
theorem Drained.someOwed (h : Drained k p L x u) (hwait : x.report.waitList = a :: ws) (howed : x.owedOf a = pre ++ post)
    (hpost : post ≠ []) (hfits : wordsOf L + wordsOf pre ≤ 248) (n : Nat) :
    ∃ y v, u.drainOwed (n + pre.length) = v.drainOwed n ∧ Drained k p (L ++ pre) y v ∧
      y = if pre = [] then x else x.setOwed a post := by
  induction pre generalizing L x u with
  | nil => exact ⟨x, u, rfl, by rwa [List.append_nil], (if_pos rfl).symm⟩
  | cons rec pre ih =>
    rw [wordsOf_cons] at hfits
    obtain ⟨htry, hplaced⟩ := h.place (rec := rec) (by omega)
    have hrest : pre ++ post ≠ [] := List.append_ne_nil_of_right_ne_nil _ hpost
    have hnext := hplaced.owed a (pre ++ post)
    have hx : x.owedPlaced a (pre ++ post) = x.setOwed a (pre ++ post) := State.owedPlaced_some hrest x a
    obtain ⟨y, v, hdrain, hdrained, hy⟩ := ih hnext (by rw [hx]; exact hwait)
      (by rw [hx, State.owedOf_setOwed, if_pos rfl]) (by rw [wordsOf_append, wordsOf_singleton]; omega)
    refine ⟨y, v, ?_, by rwa [List.append_assoc] at hdrained, ?_⟩
    · rw [List.length_cons, ← Nat.add_assoc, State.drainOwed, h.waitList, hwait]
      have howed' : u.owedOf a = rec :: (pre ++ post) := (h.owedOf a).trans howed
      simp only [howed', htry]
      exact hdrain
    · rw [hy, if_neg (List.cons_ne_nil _ _), hx, State.setOwed_setOwed]
      split
      · rename_i hpre
        rw [hpre, List.nil_append]
      · rfl

/-- All records of the first axis of the wait list are placed. -/
theorem Drained.allOwed (h : Drained k p L x u) (hwait : x.report.waitList = a :: ws) (hsome : x.owedOf a ≠ [])
    (hfits : wordsOf L + wordsOf (x.owedOf a) ≤ 248) (n : Nat) :
    ∃ v, u.drainOwed (n + (x.owedOf a).length) = v.drainOwed n ∧
      Drained k p (L ++ x.owedOf a) (x.owedPlaced a []) v := by
  obtain ⟨pre, rec, hsplit⟩ : ∃ pre rec, x.owedOf a = pre ++ [rec] :=
    ⟨_, _, (List.dropLast_append_getLast hsome).symm⟩
  rw [hsplit, wordsOf_append, wordsOf_singleton] at hfits
  obtain ⟨y, v, hdrain, hdrained, hy⟩ := h.someOwed hwait hsplit (List.cons_ne_nil _ _) (by omega) (n + 1)
  have hywait : y.report.waitList = a :: ws := by
    rw [hy]
    split
    · exact hwait
    · exact hwait
  have hyowed : y.owedOf a = [rec] := by
    rw [hy]
    split
    · rename_i hpre
      rw [hsplit, hpre]
      rfl
    · rw [State.owedOf_setOwed, if_pos rfl]
  have hyplaced : y.owedPlaced a [] = x.owedPlaced a [] := by
    rw [hy]
    split
    · rfl
    · have hplaced (s : State) : s.owedPlaced a [] =
          ((s.setOwed a []).mapReport fun r => { r with waitList := r.waitList.erase a }).push (.owingEnded a) := rfl
      rw [hplaced, hplaced, State.setOwed_setOwed]
  obtain ⟨htry, hplaced⟩ := hdrained.place (rec := rec) (by rw [wordsOf_append]; omega)
  have hlast := hplaced.owed a []
  rw [hyplaced, List.append_assoc, ← hsplit] at hlast
  refine ⟨_, ?_, hlast⟩
  have hlength : n + (x.owedOf a).length = n + 1 + pre.length := by
    rw [hsplit, List.length_append, List.length_singleton]
    omega
  have hvowed : v.owedOf a = [rec] := (hdrained.owedOf a).trans hyowed
  rw [hlength, hdrain, State.drainOwed, hdrained.waitList, hywait]
  simp only [hvowed, htry]

/-! ### The axes whose owing ends -/

/-- The state in which all owed records of the axes `before` have been placed. -/
def State.owingDone (s : State) (before : List Axis) : State := before.foldl (fun s b => s.owedPlaced b []) s

theorem State.owingDone_cons (s : State) (b : Axis) (before : List Axis) :
    s.owingDone (b :: before) = (s.owedPlaced b []).owingDone before := rfl

theorem State.owedPlaced_nil (s : State) (a : Axis) : s.owedPlaced a [] =
    ((s.setOwed a []).mapReport fun r => { r with waitList := r.waitList.erase a }).push (.owingEnded a) := rfl

theorem State.owedPlaced_nil_fields (s : State) (a : Axis) : s.owedPlaced a [] =
    { s with
      axes := (s.setAx a { s.ax a with dirty := true }).axes
      report := { s.report with owed := s.report.owed.set a [], waitList := s.report.waitList.erase a }
      agenda := s.agenda ++ [.owingEnded a] } := rfl

theorem State.owedOf_owedPlaced_nil (s : State) (a b : Axis) :
    (s.owedPlaced a []).owedOf b = if b = a then [] else s.owedOf b := State.owedOf_setOwed s a b []

theorem State.owingDone_fields (s : State) (before : List Axis) :
    s.owingDone before =
      { s with
        axes := (s.owingDone before).axes
        report := { s.report with
          owed := (s.owingDone before).report.owed, waitList := (s.owingDone before).report.waitList }
        agenda := (s.owingDone before).agenda } := by
  induction before generalizing s with
  | nil => rfl
  | cons b before ih =>
    rw [State.owingDone_cons]
    refine (ih _).trans ?_
    generalize State.owingDone _ before = v
    rw [State.owedPlaced_nil_fields]

theorem State.owingDone_waitList (h : s.report.waitList = before ++ ws) :
    (s.owingDone before).report.waitList = ws := by
  induction before generalizing s with
  | nil => exact h
  | cons b before ih =>
    rw [State.owingDone_cons]
    refine ih ?_
    show s.report.waitList.erase b = _
    rw [h, List.cons_append, List.erase_cons_head]

theorem State.owingDone_owedOf (s : State) (before : List Axis) (b : Axis) :
    (s.owingDone before).owedOf b = if b ∈ before then [] else s.owedOf b := by
  induction before generalizing s with
  | nil => rfl
  | cons d before ih =>
    rw [State.owingDone_cons, ih, State.owedOf_owedPlaced_nil]
    by_cases hbd : b = d <;> by_cases hb : b ∈ before <;> simp [hbd, hb]

theorem State.owingDone_ax (s : State) (before : List Axis) (b : Axis) :
    (s.owingDone before).ax b = if b ∈ before then { s.ax b with dirty := true } else s.ax b := by
  have hone (s : State) (d : Axis) : (s.owedPlaced d []).ax b =
      if b = d then { s.ax b with dirty := true } else s.ax b := by
    refine (State.ax_setAx s d b _).trans ?_
    split
    · rename_i hbd
      rw [hbd]
      rfl
    · rfl
  induction before generalizing s with
  | nil => rfl
  | cons d before ih =>
    rw [State.owingDone_cons, ih, hone]
    by_cases hb : b ∈ before
    · rw [if_pos hb, if_pos (List.mem_cons_of_mem d hb)]
      split <;> rfl
    · rw [if_neg hb]
      by_cases hbd : b = d
      · rw [if_pos hbd, if_pos (hbd ▸ List.mem_cons_self)]
      · rw [if_neg hbd, if_neg fun h => (List.mem_cons.mp h).elim hbd hb]

theorem State.owingDone_agenda (s : State) (before : List Axis) :
    (s.owingDone before).agenda = s.agenda ++ before.map Task.owingEnded := by
  induction before generalizing s with
  | nil => exact (List.append_nil _).symm
  | cons b before ih =>
    rw [State.owingDone_cons, ih]
    exact List.append_assoc ..

/-- The records of the first axes of the wait list are placed. -/
theorem Drained.placesBefore (h : Drained k p L x u) (hwait : x.report.waitList = before ++ ws) (hnodup : before.Nodup)
    (hsome : ∀ b ∈ before, x.owedOf b ≠ []) (hfits : wordsOf L + wordsOf (before.flatMap x.owedOf) ≤ 248) (n : Nat) :
    ∃ v, u.drainOwed (n + (before.flatMap x.owedOf).length) = v.drainOwed n ∧
      Drained k p (L ++ before.flatMap x.owedOf) (x.owingDone before) v := by
  induction before generalizing L x u with
  | nil => exact ⟨u, rfl, by rwa [List.flatMap_nil, List.append_nil]⟩
  | cons b before ih =>
    obtain ⟨hb, hnodup⟩ := List.nodup_cons.mp hnodup
    rw [List.flatMap_cons, wordsOf_append] at hfits
    obtain ⟨v, hdrain, hdrained⟩ := h.allOwed hwait (hsome b (.head _)) (by omega)
      (n + (before.flatMap x.owedOf).length)
    have hsame : ∀ d ∈ before, (x.owedPlaced b []).owedOf d = x.owedOf d := fun d hd => by
      rw [State.owedOf_owedPlaced_nil, if_neg (fun e : d = b => hb (e ▸ hd))]
    have hflat : before.flatMap (x.owedPlaced b []).owedOf = before.flatMap x.owedOf := List.flatMap_congr hsame
    obtain ⟨w, hrest, hplaced⟩ := ih hdrained
      (by
        show x.report.waitList.erase b = _
        rw [hwait, List.cons_append, List.erase_cons_head])
      hnodup (fun d hd => by rw [hsame d hd]; exact hsome d (.tail _ hd))
      (by rw [hflat, wordsOf_append]; omega)
    rw [hflat] at hrest hplaced
    refine ⟨w, ?_, ?_⟩
    · rw [List.flatMap_cons, List.length_append, Nat.add_comm (x.owedOf b).length, ← Nat.add_assoc, hdrain, hrest]
    · rwa [List.flatMap_cons, ← List.append_assoc]

/-! ### A record that finds no room -/

/-- The page closes FULL, and no slot is EMPTY. -/
theorem Drained.full (h : Drained k p L x u) (hfull : 248 < wordsOf L + rec.length)
    (hempty : ∀ j : Slot, j ≠ k → x.slot j ≠ .empty) :
    u.tryPlace rec = (false, u.closePage .full u.timebase) := by
  have hslots (j : Slot) : (u.closePage .full u.timebase).slot j ≠ .empty := by
    rw [State.slot_closePage h.filling]
    split
    · exact SlotState.noConfusion
    · rename_i hj
      have hslot : u.slot j = x.slot j := by
        rw [h.fields]
        exact State.slot_setSlot_ne x hj _
      rw [hslot]
      exact hempty j hj
  have hnone : (u.closePage .full u.timebase).takeSlot = (false, u.closePage .full u.timebase) :=
    State.searchSlots_none _ hslots
  rw [State.tryPlace_closes h.filling hfull, State.takeAndPlace, hnone]

/-- The drain ends at a record that finds no room. -/
theorem Drained.ends {rest : List Record} (h : Drained k p L x u) (hwait : x.report.waitList = a :: ws)
    (howed : x.owedOf a = rec :: rest) (hfull : 248 < wordsOf L + rec.length)
    (hempty : ∀ j : Slot, j ≠ k → x.slot j ≠ .empty) (n : Nat) :
    (u.drainOwed (n + 1)).2 = (u.closePage .full u.timebase).setCause .roomExhausted := by
  have huowed : u.owedOf a = rec :: rest := (h.owedOf a).trans howed
  rw [State.drainOwed, h.waitList, hwait]
  simp only [huowed, h.full hfull hempty]

/-! ### The axes are told -/

/-- The axes whose owing has ended are told, which changes nothing at an axis that is not in REPORT_WAIT. -/
theorem State.settled_owingEnded (h : ∀ q ∈ s.agenda, ∃ b, q = .owingEnded b ∧ (s.ax b).state ≠ .reportWait)
    (hfew : s.agenda.length ≤ 16000) : ∃ m, s.settled = { s with agenda := [], freeCount := m } := by
  have hstep (q : Task) (m : Nat) (u : State) (hq : q ∈ u.agenda) (_ : q.mayRun u.agenda = true)
      (hu : ∃ tasks m, u = { s with agenda := tasks, freeCount := m } ∧ ∀ q ∈ tasks, q ∈ s.agenda) :
      (∃ tasks n, ({ u with agenda := u.agenda.erase q, freeCount := m } : State).runTask q =
        { s with agenda := tasks, freeCount := n } ∧ ∀ q ∈ tasks, q ∈ s.agenda) ∧
      (({ u with agenda := u.agenda.erase q, freeCount := m } : State).runTask q).agenda.length < u.agenda.length := by
    obtain ⟨tasks, m', rfl, htasks⟩ := hu
    obtain ⟨b, rfl, hstate⟩ := h q (htasks q hq)
    have hnothing : State.runTask (.owingEnded b) { s with agenda := tasks.erase (.owingEnded b), freeCount := m } =
        { s with agenda := tasks.erase (.owingEnded b), freeCount := m } := by
      unfold State.runTask
      split
      · exact State.owingEnded_not hstate
      · rfl
    have hlen := List.length_erase_of_mem hq
    have hpos := List.length_pos_of_mem hq
    have herase : ({ ({ s with agenda := tasks, freeCount := m' } : State) with
        agenda := tasks.erase (.owingEnded b), freeCount := m } : State) =
          { s with agenda := tasks.erase (.owingEnded b), freeCount := m } := rfl
    rw [herase, hnothing]
    refine ⟨⟨_, m, rfl, fun q hq => htasks q (List.mem_of_mem_erase hq)⟩, ?_⟩
    show (tasks.erase (.owingEnded b)).length < tasks.length
    have hlen' : (tasks.erase (.owingEnded b)).length = tasks.length - 1 := hlen
    have hpos' : 0 < tasks.length := hpos
    omega
  obtain ⟨⟨tasks, m, hsettled, -⟩, hnil⟩ := State.settled_keeps (work := fun u => u.agenda.length) hstep
    ⟨s.agenda, s.freeCount, rfl, fun _ h => h⟩ (hfew.trans (by decide))
  refine ⟨m, ?_⟩
  have htasks : tasks = [] := by
    rw [hsettled] at hnil
    exact hnil
  rw [hsettled, htasks]

/-- The owed records of different axes are part of the owed records. -/
theorem State.length_owed_le (s : State) {l : List Axis} (hl : l.Nodup) :
    (l.flatMap s.owedOf).length ≤ s.owedTotal := by
  rw [List.length_flatMap, State.owedTotal]
  have hperm : l.Subperm allAxes := hl.subperm fun a _ => mem_allAxes a
  obtain ⟨l', hl', hsub⟩ := hperm
  rw [← (hl'.map fun a => (s.owedOf a).length).sum_eq]
  exact (hsub.map _).sum_le_sum fun _ _ => Nat.zero_le _

end Sys2Proof.Machine
end

