-- ==== Sys2Proof/Proofs/DrainFills.lean ====
section
/-!
PROOF. A drain that fills the only page (R154, R155, R160), and the obligation about the drain.
-/
namespace Sys2Proof.Machine

variable {s t u v x y z : State} {a b : Axis} {k : Slot} {p : Page} {rec : Record} {addr : Addr}
  {L : List Record} {before others : List Axis} {i count words : Nat}

/-! ### The records placed, up to the first that finds no room -/

/-- The records that the drain places: what the report unit keeps, all that the axes `before` owe, and the first
`i` of those that axis `a` owes. -/
def State.filled (s : State) (before : List Axis) (a : Axis) (i : Nat) : List Record :=
  s.kept ++ before.flatMap s.owedOf ++ (s.owedOf a).take i

theorem State.length_filled (s : State) (before : List Axis) (a : Axis) (h : i ≤ (s.owedOf a).length) :
    (s.filled before a i).length =
        s.report.queue.length + (if s.report.drops = 0 then 0 else 1) + (before.flatMap s.owedOf).length + i ∧
      wordsOf (s.filled before a i) =
        wordsOf s.report.queue + (if s.report.drops = 0 then 0 else 6) + wordsOf (before.flatMap s.owedOf) +
          wordsOf ((s.owedOf a).take i) := by
  obtain ⟨hlength, hwords⟩ := s.length_kept
  rw [State.filled, List.length_append, List.length_append, wordsOf_append, wordsOf_append, hlength, hwords,
    List.length_take_of_le h]
  exact ⟨rfl, rfl⟩

/-- The state beside the page, where a drain fills it: the axes `before` owe nothing more, and `a` owes what is
left. -/
def State.besideFull (s : State) (before : List Axis) (a : Axis) (i : Nat) : State :=
  if (s.owedOf a).take i = [] then s.owingDone before else (s.owingDone before).setOwed a ((s.owedOf a).drop i)

/-- The three steps of the drain, to the record that finds no room. -/
theorem State.drain_fills (hroom : OnlyRoom k p s) (howe : OweLaw s) (hwait : s.report.waitList = before ++ a :: others)
    (hrec : (s.owedOf a)[i]? = some rec) (hfits : wordsOf (s.filled before a i) ≤ 248)
    (hfull : 248 < wordsOf (s.filled before a i) + rec.length) : ∃ y v : State,
    (s.offered k p).drainSteps = (v.closePage .full v.timebase).setCause .roomExhausted ∧
    Drained k p (s.filled before a i) (y.besideFull before a i) v ∧
    y = { s.offered k p with ram := y.ram, report := { (s.offered k p).report with queue := [], drops := 0 } } ∧
    ∀ addr, y.read addr = (s.offered k p).keptWord addr := by
  obtain ⟨hi, hget⟩ := List.getElem?_eq_some_iff.mp hrec
  obtain ⟨-, hnodup, hmem⟩ := howe
  rw [hwait] at hnodup
  obtain ⟨hnodupBefore, hnodupRest, hdisjoint⟩ := List.nodup_append.mp hnodup
  have ha : a ∉ before := fun h => hdisjoint a h a (.head _) rfl
  have hkept : (s.offered k p).kept = s.kept := rfl
  rw [State.filled, wordsOf_append, wordsOf_append] at hfits hfull
  obtain ⟨y, v, hsteps, hplaced, hyfields, hyread⟩ := hroom.drained.kept (by
    rw [hkept, wordsOf_nil, Nat.zero_add]
    omega)
  rw [List.nil_append, hkept] at hplaced
  have hyowed (b : Axis) : y.owedOf b = s.owedOf b := by
    rw [hyfields]
    rfl
  have hywait : y.report.waitList = before ++ a :: others := by
    rw [hyfields]
    exact hwait
  have hflat : before.flatMap y.owedOf = before.flatMap s.owedOf := List.flatMap_congr fun b _ => hyowed b
  have hfuel : (before.flatMap s.owedOf).length + (s.owedOf a).length ≤ v.owedTotal := by
    have htotal : v.owedTotal = s.owedTotal := by
      rw [State.owedTotal, State.owedTotal]
      exact congrArg List.sum (List.map_congr_left fun b _ =>
        congrArg List.length ((hplaced.owedOf b).trans (hyowed b)))
    have hall := s.length_owed_le (l := before ++ [a])
      (List.nodup_append.mpr ⟨hnodupBefore, List.nodup_singleton a, fun b hb d hd => by
        rw [List.mem_singleton.mp hd]
        exact fun e => ha (e ▸ hb)⟩)
    rw [List.flatMap_append, List.length_append, List.flatMap_singleton] at hall
    rw [htotal]
    exact hall
  obtain ⟨n, hn⟩ : ∃ n, v.owedTotal = n + 1 + i + (before.flatMap s.owedOf).length :=
    ⟨v.owedTotal - (before.flatMap s.owedOf).length - i - 1, by omega⟩
  obtain ⟨w, hbefore, hplacedBefore⟩ := hplaced.placesBefore hywait hnodupBefore
    (fun b hb => by
      rw [hyowed]
      exact (hmem b).mp (hwait ▸ List.mem_append_left _ hb))
    (by rw [hflat]; omega) (n + 1 + i)
  rw [hflat] at hbefore hplacedBefore
  have hdrop : (s.owedOf a).drop i = rec :: (s.owedOf a).drop (i + 1) := by
    rw [← hget, List.cons_getElem_drop_succ]
  have hlength : ((s.owedOf a).take i).length = i := List.length_take_of_le hi.le
  obtain ⟨z, w', hsome, hplacedSome, hz⟩ := hplacedBefore.someOwed
    (a := a) (ws := others) (pre := (s.owedOf a).take i) (post := (s.owedOf a).drop i)
    (State.owingDone_waitList hywait)
    (by rw [State.owingDone_owedOf, if_neg ha, hyowed, List.take_append_drop])
    (by rw [hdrop]; exact List.cons_ne_nil _ _) (by rw [wordsOf_append]; omega) (n + 1)
  rw [hlength] at hsome
  have hzbeside : z = y.besideFull before a i := by
    rw [hz, State.besideFull, hyowed]
  have hzwait : z.report.waitList = a :: others := by
    rw [hz]
    split <;> exact State.owingDone_waitList hywait
  have hzowed : z.owedOf a = rec :: (s.owedOf a).drop (i + 1) := by
    rw [← hdrop, hz]
    split
    · rename_i hnil
      have hzero : i = 0 := by rw [← hlength, hnil, List.length_nil]
      rw [State.owingDone_owedOf, if_neg ha, hyowed, hzero, List.drop_zero]
    · rw [State.owedOf_setOwed, if_pos rfl]
  have hzslot (j : Slot) : z.slot j = (s.offered k p).slot j := by
    have hdone : (y.owingDone before).report.slots = (s.offered k p).report.slots := by
      rw [State.owingDone_fields, hyfields]
    rw [hz]
    split <;> exact congrArg (fun slots : Vector SlotState 8 => slots[j]) hdone
  have hend := hplacedSome.ends hzwait hzowed (by rw [wordsOf_append, wordsOf_append]; omega)
    (fun j hj => by
      rw [hzslot, State.slot_offered, if_neg hj]
      exact hroom.2.1 j hj) n
  refine ⟨y, w', ?_, ?_, hyfields, hyread⟩
  · rw [hsteps, hn, hbefore, hsome, hend]
  · rw [← hzbeside]
    exact hplacedSome

/-! ### The state beside the page -/

section BesideFull

variable (s : State) (before : List Axis) (a : Axis) (i : Nat)

theorem State.besideFull_fields : s.besideFull before a i =
    { s with
      axes := (s.besideFull before a i).axes
      report := { s.report with
        owed := (s.besideFull before a i).report.owed, waitList := (s.besideFull before a i).report.waitList }
      agenda := s.agenda ++ before.map Task.owingEnded } := by
  have hfields := s.owingDone_fields before
  rw [State.owingDone_agenda] at hfields
  rw [State.besideFull]
  split
  · exact hfields
  · conv_lhs => rw [State.setOwed, State.touch, hfields]
    rfl

theorem State.besideFull_waitList (h : s.report.waitList = before ++ a :: others) :
    (s.besideFull before a i).report.waitList = a :: others := by
  rw [State.besideFull]
  split <;> exact State.owingDone_waitList h

theorem State.besideFull_owedOf (b : Axis) (ha : a ∉ before) (hi : i < (s.owedOf a).length) :
    (s.besideFull before a i).owedOf b =
      if b ∈ before then [] else if b = a then (s.owedOf a).drop i else s.owedOf b := by
  rw [State.besideFull]
  split
  · rename_i hnil
    have hzero : i = 0 := by
      have hlength := List.length_take_of_le hi.le
      rw [hnil] at hlength
      exact hlength.symm
    rw [State.owingDone_owedOf, hzero, List.drop_zero]
    by_cases hba : b = a
    · rw [if_pos hba, hba]
    · rw [if_neg hba]
  · rw [State.owedOf_setOwed, State.owingDone_owedOf]
    by_cases hba : b = a
    · rw [if_pos hba, hba, if_neg ha, if_pos rfl]
    · rw [if_neg hba, if_neg hba]

theorem State.besideFull_ax (b : Axis) (hi : i < (s.owedOf a).length) :
    (s.besideFull before a i).ax b =
      if b ∈ before ∨ (b = a ∧ 0 < i) then { s.ax b with dirty := true } else s.ax b := by
  have hlength := List.length_take_of_le hi.le
  rw [State.besideFull]
  split
  · rename_i hnil
    rw [hnil] at hlength
    have hzero : ¬ (b = a ∧ 0 < i) := fun h => absurd h.2 (by rw [← hlength]; exact Nat.lt_irrefl 0)
    rw [State.owingDone_ax]
    simp only [hzero, or_false]
  · rename_i hnil
    have hpos : 0 < i := by
      rw [← hlength]
      exact List.length_pos_of_ne_nil hnil
    have htouched : ((s.owingDone before).setOwed a ((s.owedOf a).drop i)).ax b =
        if b = a then { (s.owingDone before).ax b with dirty := true } else (s.owingDone before).ax b := by
      refine (State.ax_setAx _ a b _).trans ?_
      split
      · rename_i hba
        rw [hba]
        rfl
      · rfl
    rw [htouched, State.owingDone_ax]
    by_cases hba : b = a
    · rw [if_pos hba, if_pos (show b ∈ before ∨ (b = a ∧ 0 < i) from .inr ⟨hba, hpos⟩)]
      split <;> rfl
    · rw [if_neg hba]
      simp only [hba, false_and, or_false]

end BesideFull

/-! ### The page that closes -/

/-- The page with the records closes FULL. -/
theorem Drained.closes (h : Drained k p L x u) (hsome : L ≠ []) (hz : z = u.closePage .full u.timebase) :
    z = { x with
      ram := z.ram, acause := x.acause ||| 0x008
      report := { x.report with
        slots := x.report.slots.set k (.full (some p)), seq := x.report.seq + BitVec.ofNat 16 L.length
        lastClosed := k, pagesClosed := x.report.pagesClosed + 1, deadline := none } } ∧
    z.read (slotStateWord k) = 3 ∧ z.read (pageWord p 1) = BitVec.ofNat 16 L.length ∧
    z.read (pageWord p 4) = BitVec.ofNat 16 (wordsOf L) ∧ z.read (pageWord p 5) = 1 ∧
    z.read 0x0010 = x.report.pagesClosed + 1 ∧ z.read 0x0011 = x.report.seq + BitVec.ofNat 16 L.length ∧
    ∀ addr, isPageWord p 0 255 addr = false → addr ≠ slotStateWord k → addr ≠ 0x0010 → addr ≠ 0x0011 →
      z.read addr = x.read addr := by
  have hthree : 3 ≤ p.toNat := of_decide_eq_true h.general
  have hk := k.isLt
  obtain ⟨h1, -, h4, h11⟩ := h.counts hsome
  obtain ⟨hclosed, h5, -, -, hslot, h10, hsame⟩ :=
    State.closePage_closes h.filling (reason := .full) CloseReason.noConfusion
  rw [← hz] at hclosed h5 hslot h10 hsame
  have hread (addr : Addr) (hpage : isPageWord p 5 7 addr = false) (hne : addr ≠ slotStateWord k)
      (hpages : addr ≠ 0x0010) : z.read addr = u.read addr := hsame addr (by
    simp only [hpage, beq_eq_false_iff_ne.mpr hne, beq_eq_false_iff_ne.mpr hpages, Bool.or_false])
  have hheader (n : Nat) (hn : n < 5) :
      z.read (pageWord p (BitVec.ofNat 8 n)) = u.read (pageWord p (BitVec.ofNat 8 n)) := by
    have hpages : BitVec.toNat (0x0010 : Addr) = 16 := rfl
    have hword : (pageWord p (BitVec.ofNat 8 n)).toNat = 256 * p.toNat + n := by
      rw [pageWord_toNat, BitVec.toNat_ofNat, Nat.mod_eq_of_lt (by omega)]
    refine hread _ (isPageWord_eq_false.mpr (by omega)) (addr_ne_of_toNat ?_) (addr_ne_of_toNat (by omega))
    rw [hword, slotStateWord_toNat]
    omega
  have hupages : u.report.pagesClosed = x.report.pagesClosed := by rw [h.fields]
  have hset : u.report.slots.set k (.full (some p)) = x.report.slots.set k (.full (some p)) := by
    rw [h.fields]
    exact Vector.set_set ..
  refine ⟨?fields, hslot, (hheader 1 (by decide)).trans h1, (hheader 4 (by decide)).trans h4, h5,
    h10.trans (by rw [hupages]), ?seq, fun addr hpage hne h10 h11 => ?other⟩
  case fields =>
    refine hclosed.trans ?_
    rw [hset]
    generalize z.ram = ram
    conv_lhs => rw [h.fields]
  case seq =>
    have hseq : BitVec.toNat (0x0011 : Addr) = 17 := rfl
    refine (hread 0x0011 (isPageWord_eq_false.mpr (by omega)) (addr_ne_of_toNat ?_) (by decide)).trans h11
    rw [slotStateWord_toNat, hseq]
    omega
  case other =>
    refine (hread addr (isPageWord_eq_false.mpr ?_) hne h10).trans (h.outside addr hpage h11)
    have hbounds := isPageWord_eq_false.mp hpage
    omega

/-- The drain that fills the page, with the state beside the page by its fields. -/
theorem State.drain_fillsBeside (hquiet : Quiet s) (hroom : OnlyRoom k p s) (howe : OweLaw s)
    (hwait : s.report.waitList = before ++ a :: others) (hrec : (s.owedOf a)[i]? = some rec)
    (hfits : wordsOf (s.filled before a i) ≤ 248) (hfull : 248 < wordsOf (s.filled before a i) + rec.length) :
    ∃ w v : State,
    (s.offered k p).drainSteps = (v.closePage .full v.timebase).setCause .roomExhausted ∧
    Drained k p (s.filled before a i) w v ∧
    w = { s with
      ram := w.ram, axes := w.axes
      report := { s.report with
        slots := s.report.slots.set k (.filling p 0 0), queue := [], drops := 0, owed := w.report.owed
        waitList := a :: others }
      agenda := before.map Task.owingEnded } ∧
    (∀ b, w.owedOf b = if b ∈ before then [] else if b = a then (s.owedOf a).drop i else s.owedOf b) ∧
    (∀ b, w.ax b = if b ∈ before ∨ (b = a ∧ 0 < i) then { s.ax b with dirty := true } else s.ax b) ∧
    ∀ addr, w.read addr = (s.offered k p).keptWord addr := by
  obtain ⟨hi, -⟩ := List.getElem?_eq_some_iff.mp hrec
  have ha : a ∉ before := fun h => by
    have hnodup := howe.2.1
    rw [hwait] at hnodup
    exact (List.nodup_append.mp hnodup).2.2 a h a (.head _) rfl
  obtain ⟨y, v, hsteps, hplaced, hyfields, hyread⟩ := State.drain_fills hroom howe hwait hrec hfits hfull
  have hyowed (b : Axis) : y.owedOf b = s.owedOf b := by
    rw [hyfields]
    rfl
  have hyax (b : Axis) : y.ax b = s.ax b := by
    rw [hyfields]
    rfl
  have hyagenda : y.agenda = [] := by
    rw [hyfields]
    exact hquiet
  have howed (b : Axis) := y.besideFull_owedOf before a i b ha (by rw [hyowed]; exact hi)
  have hax (b : Axis) := y.besideFull_ax before a i b (by rw [hyowed]; exact hi)
  have hfields := y.besideFull_fields before a i
  rw [y.besideFull_waitList before a i (others := others) (by rw [hyfields]; exact hwait), hyagenda, List.nil_append]
    at hfields
  simp only [hyowed, hyax] at howed hax
  refine ⟨_, v, hsteps, hplaced, ?_, howed, hax, fun addr => ?_⟩
  · generalize y.besideFull before a i = w at hfields
    have hram : w.ram = y.ram := by rw [hfields]
    refine hfields.trans ?_
    rw [hram]
    generalize w.axes = axes
    generalize w.report.owed = owed
    generalize y.ram = ram at hyfields
    conv_lhs => rw [hyfields]
    rfl
  · rw [State.read, hfields]
    exact hyread addr

/-- The only page fills, and the drain ends at a record that finds no room. -/
theorem State.drain_fillsPage (hquiet : Quiet s) (hinit : s.inInit = false) (hroom : OnlyRoom k p s) (howe : OweLaw s)
    (hwait : s.report.waitList = before ++ a :: others) (hstates : ∀ b ∈ before, (s.ax b).state ≠ .reportWait)
    (hrec : (s.owedOf a)[i]? = some rec) (hcount : count = (s.filled before a i).length)
    (hwords : words = wordsOf (s.filled before a i)) (hpos : 0 < count) (hfits : words ≤ 248)
    (hfull : 248 < words + rec.length) : ∃ t,
    exec (.slotStateWrite k 1) s = .next t ∧
    t =
      { s with
        ram := t.ram, axes := t.axes, acause := s.acause ||| 0x018, freeCount := t.freeCount
        report :=
          { s.report with
            slots := s.report.slots.set k (.full (some p))
            queue := [], drops := 0, owed := t.report.owed, waitList := a :: others
            seq := s.report.seq + BitVec.ofNat 16 count, lastClosed := k
            pagesClosed := s.report.pagesClosed + 1, deadline := none } } ∧
    (∀ b : Axis, t.owedOf b = if b ∈ before then [] else if b = a then (s.owedOf a).drop i else s.owedOf b) ∧
    (∀ b : Axis, t.ax b = if b ∈ before ∨ (b = a ∧ 0 < i) then { s.ax b with dirty := true } else s.ax b) ∧
    t.read (slotStateWord k) = 3 ∧ t.read (pageWord p 1) = BitVec.ofNat 16 count ∧
    t.read (pageWord p 4) = BitVec.ofNat 16 words ∧ t.read (pageWord p 5) = 1 ∧
    t.read 0x0010 = s.report.pagesClosed + 1 ∧ t.read 0x0011 = s.report.seq + BitVec.ofNat 16 count ∧
    ∀ addr, isPageWord p 0 255 addr = false → addr ≠ slotStateWord k → addr ≠ 0x0010 → addr ≠ 0x0011 →
      t.read addr = s.keptWord addr := by
  subst hcount hwords
  obtain ⟨w, v, hsteps, hplaced, hw, howed, hax, hwread⟩ :=
    State.drain_fillsBeside hquiet hroom howe hwait hrec hfits hfull
  obtain ⟨z, hz⟩ : ∃ z, z = v.closePage .full v.timebase := ⟨_, rfl⟩
  obtain ⟨hclosed, hslot, h1, h4, h5, h10, h11, hother⟩ := hplaced.closes (List.ne_nil_of_length_pos hpos) hz
  rw [← hz] at hsteps
  have hset : w.report.slots.set k (.full (some p)) = s.report.slots.set k (.full (some p)) := by
    rw [hw]
    exact Vector.set_set ..
  have hwreport : w.report.seq = s.report.seq ∧ w.report.pagesClosed = s.report.pagesClosed := by
    rw [hw]
    exact ⟨rfl, rfl⟩
  rw [hwreport.1] at h11
  rw [hwreport.2] at h10
  have hzfields : z.setCause .roomExhausted = { s with
      ram := z.ram, axes := w.axes, acause := s.acause ||| 0x018
      report := { s.report with
        slots := s.report.slots.set k (.full (some p)), queue := [], drops := 0, owed := w.report.owed
        waitList := a :: others, seq := s.report.seq + BitVec.ofNat 16 (s.filled before a i).length, lastClosed := k
        pagesClosed := s.report.pagesClosed + 1, deadline := none }
      agenda := before.map Task.owingEnded } := by
    have hcause : s.acause ||| 0x018 = s.acause ||| 0x008 ||| AlertCause.roomExhausted.bit :=
      (BitVec.or_assoc s.acause 0x008 0x010).symm
    rw [hset] at hclosed
    rw [hcause, State.setCause]
    generalize z.ram = ram at hclosed
    conv_lhs => rw [hclosed, hw]
  have hzread (addr : Addr) : (z.setCause .roomExhausted).read addr = z.read addr := rfl
  simp only [← hzread] at hslot h1 h4 h5 h10 h11 hother
  have hkeeps : s.keepsRecords = true := by
    have hsome : s.report.waitList.isEmpty = false :=
      List.isEmpty_eq_false_iff.mpr (hwait ▸ List.append_ne_nil_of_right_ne_nil _ (List.cons_ne_nil _ _))
    rw [State.keepsRecords, hsome, Bool.not_false, Bool.or_true, Bool.true_or]
  have hexec := exec_slotStateWrite_offers hroom hinit hkeeps
  rw [hsteps] at hexec
  generalize z.setCause .roomExhausted = e at *
  have hewait : e.report.waitList = a :: others := by rw [hzfields]
  have heagenda : e.agenda = before.map Task.owingEnded := by rw [hzfields]
  have heowed (b : Axis) : e.owedOf b = w.owedOf b := by
    rw [hzfields]
    rfl
  have heax (b : Axis) : e.ax b = w.ax b := by
    rw [hzfields]
    rfl
  obtain ⟨m, hsettled⟩ := e.settled_owingEnded
    (fun q hq => by
      rw [heagenda] at hq
      obtain ⟨b, hb, rfl⟩ := List.mem_map.mp hq
      refine ⟨b, rfl, ?_⟩
      rw [heax, hax, if_pos (.inl hb)]
      exact hstates b hb)
    (by
      have hnodup := howe.2.1
      rw [hwait] at hnodup
      have hlength := (List.nodup_append.mp hnodup).1.length_le_card
      rw [heagenda, List.length_map]
      exact hlength.trans (by decide))
  have hnot : ¬ (e.dev = .stopping ∧ e.report.waitList = []) :=
    fun h => List.cons_ne_nil _ _ (hewait.symm.trans h.2)
  rw [State.checkStopped, if_neg hnot, hsettled] at hexec
  refine ⟨_, hexec, ?fields, fun b => (heowed b).trans (howed b), fun b => (heax b).trans (hax b), hslot, h1, h4, h5,
    h10, h11, fun addr hpage hne h10 h11 => ?other⟩
  case fields =>
    have hnil : s.agenda = [] := hquiet
    rw [hzfields, hnil]
  case other =>
    refine (hother addr hpage hne h10 h11).trans ((hwread addr).trans (s.keptWord_offered hpage hne))

end Sys2Proof.Machine
end

