-- ==== Sys2Proof/Proofs/DrainPlaces.lean ====
section
/-!
PROOF. The obligation about the drain (R155, R158 to R160).
-/
namespace Sys2Proof.Machine

variable {s t u y : State} {k : Slot} {p : Page} {L : List Record}

/-! ### The records of the queue, then the DROPS record -/

/-- The records of the holding queue are the first of the page. -/
theorem Drained.readsQueue (h : Drained k p s.kept y t) (hseq : y.report.seq = s.report.seq) {i m : Nat} {rec : Record}
    (hi : s.report.queue[i]? = some rec) (hm : m < rec.length) :
    t.read (pageWord p (BitVec.ofNat 8 (8 + wordsOf (s.report.queue.take i) + m))) =
      (rec.words (s.report.seq + BitVec.ofNat 16 i)).getD m 0 := by
  obtain ⟨hlt, -⟩ := List.getElem?_eq_some_iff.mp hi
  have hword := h.records i m rec ((List.getElem?_append_left hlt).trans hi) hm
  rwa [State.kept, List.take_append_of_le_length hlt.le, hseq] at hword

/-- The DROPS record stands after the records of the holding queue. -/
theorem Drained.readsDrops (h : Drained k p s.kept y t) (hseq : y.report.seq = s.report.seq)
    (hdrops : s.report.drops ≠ 0) (m : Fin 6) :
    t.read (pageWord p (BitVec.ofNat 8 (8 + wordsOf s.report.queue + m.val))) =
      [0x0609, s.report.seq + BitVec.ofNat 16 s.report.queue.length, s.timebase.extractLsb' 0 16,
        s.timebase.extractLsb' 16 16, s.timebase.extractLsb' 32 16, s.report.drops].getD m.val 0 := by
  have hrec : s.kept[s.report.queue.length]? = some { time := s.timebase, body := .drops s.report.drops } := by
    rw [State.kept, State.dropsRecord, if_neg hdrops, List.getElem?_append_right (le_refl _), Nat.sub_self]
    rfl
  have hwords (seq : Word) : ({ time := s.timebase, body := .drops s.report.drops } : Record).words seq =
      [0x0609, seq, s.timebase.extractLsb' 0 16, s.timebase.extractLsb' 16 16, s.timebase.extractLsb' 32 16,
        s.report.drops] := by
    have hhead : (0#3 ++ BitVec.ofNat 5 6 ++ 0x09#8 : Word) = 0x0609 := by decide
    rw [← hhead]
    rfl
  have hword := h.records _ m.val _ hrec m.isLt
  rwa [State.kept, List.take_left' rfl, hseq, hwords] at hword

/-! ### The words that stand -/

/-- The counts of the queue and of the drops lie beside the pages and the slot blocks. -/
theorem addr_beside_page (k : Slot) (hp : isGeneralPage p = true) {n : Nat} (hn : n < 64) :
    isPageWord p 0 255 (BitVec.ofNat 15 n) = false ∧ BitVec.ofNat 15 n ≠ slotStateWord k := by
  have hthree : 3 ≤ p.toNat := of_decide_eq_true hp
  refine ⟨?_, addr_ne_of_toNat ?_⟩
  · rw [isPageWord_eq_false, BitVec.toNat_ofNat]
    omega
  · rw [slotStateWord_toNat, BitVec.toNat_ofNat]
    omega

theorem State.keptWord_count (h : s.report.queue ≠ []) : s.keptWord 0x0012 = 0 := by
  rw [State.keptWord, if_pos (.inl ⟨rfl, h⟩)]

theorem State.keptWord_drops (h : s.report.drops ≠ 0) : s.keptWord 0x0013 = 0 := by
  rw [State.keptWord, if_pos (.inr ⟨rfl, h⟩)]

/-- Settles O37. The records are placed one after another beside a state that does not hold them (`Drained`): the
whole of what is kept, or up to the first record that finds no room. -/
theorem drainPlacesTheHoldingQueue : Obligations.DrainPlacesTheHoldingQueue := by
  refine ⟨State.agingDeadline_eq, ?queue, ?owed⟩
  case queue =>
    intro k p s count words hquiet hinit hdev hroom hwait hkeeps hcount hwords hfits
    obtain ⟨hlength, hlengthWords⟩ := s.length_kept
    rw [← hlength] at hcount
    rw [← hlengthWords] at hwords
    obtain ⟨t, hexec, hfields, y, hplaced, hseq, hy⟩ :=
      State.drain_placesQueue hquiet hinit hdev hroom hwait hkeeps hcount hwords hfits
    have hsome : s.kept ≠ [] := fun e => by
      have hzero := congrArg List.length e
      rw [hlength, List.length_nil] at hzero
      rcases hkeeps with h | h
      · exact h (List.eq_nil_of_length_eq_zero (by omega))
      · rw [if_neg h] at hzero
        omega
    obtain ⟨hslot, h0, h2, hother⟩ := hplaced.reads hy
    obtain ⟨h1, h3, h4, h11⟩ := hplaced.counts hsome
    rw [hseq, ← hcount] at h3 h11
    rw [← hcount] at h1
    rw [← hwords] at h4
    obtain ⟨hpage12, hslot12⟩ := addr_beside_page (n := 0x0012) k hplaced.general (by decide)
    obtain ⟨hpage13, hslot13⟩ := addr_beside_page (n := 0x0013) k hplaced.general (by decide)
    refine ⟨t, hexec, hfields, hslot, fun hq => ?_, fun hd => ?_, h11, h0, h1, h2, h3, h4,
      fun i m rec hi hm => hplaced.readsQueue hseq hi hm, fun hd m => hplaced.readsDrops hseq hd m,
      fun addr haddr => ?_⟩
    · exact (hother 0x0012 hpage12 hslot12 (by decide)).trans (State.keptWord_count hq)
    · exact (hother 0x0013 hpage13 hslot13 (by decide)).trans (State.keptWord_drops hd)
    · simp only [Bool.or_eq_false_iff] at haddr
      obtain ⟨⟨⟨⟨hpage, hne⟩, h11'⟩, h12⟩, h13⟩ := haddr
      exact (hother addr hpage (beq_eq_false_iff_ne.mp hne) (beq_eq_false_iff_ne.mp h11')).trans
        (State.keptWord_of_untouched h12 h13)
  case owed =>
    intro k p s a before others i count words rec hquiet hinit hroom howe hwait hstates hrec hcount hwords hpos hfits
      hfull
    obtain ⟨hi, -⟩ := List.getElem?_eq_some_iff.mp hrec
    obtain ⟨hlength, hlengthWords⟩ := s.length_filled before a hi.le
    rw [← hlength] at hcount
    rw [← hlengthWords] at hwords
    obtain ⟨t, hexec, hfields, howed, hax, hslot, h1, h4, h5, h10, h11, hother⟩ :=
      State.drain_fillsPage hquiet hinit hroom howe hwait hstates hrec hcount hwords hpos hfits hfull
    refine ⟨t, hexec, hfields, howed, hax, hslot, h1, h4, h5, h10, h11, fun addr haddr => ?_⟩
    simp only [Bool.or_eq_false_iff] at haddr
    obtain ⟨⟨⟨⟨⟨hpage, hne⟩, h10'⟩, h11'⟩, h12⟩, h13⟩ := haddr
    exact (hother addr hpage (beq_eq_false_iff_ne.mp hne) (beq_eq_false_iff_ne.mp h10')
      (beq_eq_false_iff_ne.mp h11')).trans (State.keptWord_of_untouched h12 h13)

end Sys2Proof.Machine
end
